-- ==== Sys2Proof/Word.lean ====
section
/-! DEFINITION. The plain words of the controller: bytes, cycle numbers, tags, marks, handles, the four
channels and a record with one value per channel. Quantities in ticks are not words: they are `Nat` or
`Int`, because Section 1 forms every figure exactly. -/

namespace Sys2Proof

/-- One byte of a record on either link (Section 12). -/
abbrev Byte := BitVec 8

/-- The 16-bit number a channel engine gives each cycle, wrapping from 65,535 to 0 (Table I-2). -/
abbrev Cyc := BitVec 16

/-- The number 0..255 of a gap offered on a channel, counted modulo 256 (R51). -/
abbrev Tag := BitVec 8

/-- A mark as the management link and the registry hold it: the seven identity bytes, the first byte
sent in the highest place (Section 12, opening paragraph). -/
abbrev Mark := BitVec 56

/-- A mark as a channel link carries it: the seven identity bytes followed by the check byte. -/
abbrev CheckedMark := BitVec 64

/-- A terminal's handle, 1..511; 0 stands for "none" (Table I-2). -/
abbrev Handle := Nat

/-- The four channels (Table I-2). -/
inductive Chan where
  | c0 | c1 | c2 | c3
  deriving DecidableEq, Repr

/-- The channels in number order. -/
def Chan.all : List Chan := [.c0, .c1, .c2, .c3]

/-- The channel's number 0..3. -/
def Chan.num : Chan → Nat
  | .c0 => 0
  | .c1 => 1
  | .c2 => 2
  | .c3 => 3

/-- The channel of a number; none above 3. -/
def Chan.ofNum : Nat → Option Chan
  | 0 => some .c0
  | 1 => some .c1
  | 2 => some .c2
  | 3 => some .c3
  | _ => none

/-- One value for each channel. -/
structure PerChan (α : Type) where
  c0 : α
  c1 : α
  c2 : α
  c3 : α
  deriving DecidableEq, Repr

/-- The value of one channel. -/
def PerChan.get {α : Type} (q : PerChan α) : Chan → α
  | .c0 => q.c0
  | .c1 => q.c1
  | .c2 => q.c2
  | .c3 => q.c3

/-- The record with one channel's value replaced. -/
def PerChan.set {α : Type} (q : PerChan α) (c : Chan) (x : α) : PerChan α :=
  match c with
  | .c0 => { q with c0 := x }
  | .c1 => { q with c1 := x }
  | .c2 => { q with c2 := x }
  | .c3 => { q with c3 := x }

/-- The record with every channel's value changed by the same function. -/
def PerChan.map {α β : Type} (f : α → β) (q : PerChan α) : PerChan β :=
  ⟨f q.c0, f q.c1, f q.c2, f q.c3⟩

@[simp] theorem PerChan.get_set_same {α : Type} (q : PerChan α) (c : Chan) (x : α) :
    (q.set c x).get c = x := by cases c <;> rfl

theorem PerChan.get_set_of_ne {α : Type} (q : PerChan α) {c d : Chan} (h : d ≠ c) (x : α) :
    (q.set c x).get d = q.get d := by cases c <;> cases d <;> first | rfl | exact absurd rfl h

@[simp] theorem PerChan.get_map {α β : Type} (f : α → β) (q : PerChan α) (c : Chan) :
    (q.map f).get c = f (q.get c) := by cases c <;> rfl

theorem Chan.mem_all (c : Chan) : c ∈ Chan.all := by cases c <;> decide

theorem Chan.ofNum_num (c : Chan) : Chan.ofNum c.num = some c := by cases c <;> rfl

end Sys2Proof
end

