-- ==== Sys2Proof/Config.lean ====
section
/-! DEFINITION. The fixed sizes of the UDR-4140. The manual leaves no value to the implementation and no
result open, so this file holds no free value: every constant is a figure the manual prints. -/

namespace Sys2Proof.Config

/-- The highest handle (R18). -/
def maxHandle : Nat := 511

/-- Messages an out-queue holds (R65). -/
def outQueueSize : Nat := 48

/-- Notices the notice queue holds (R155). -/
def noticeQueueSize : Nat := 64

/-- Marks the admission table holds (R94). -/
def tableSize : Nat := 64

/-- Items the pending list holds (R100). -/
def pendingSize : Nat := 16

/-- Marks the answer list of a census gap holds (R79). -/
def answerListSize : Nat := 8

/-- Tags the lapsed-tag list holds (R51). -/
def lapsedListSize : Nat := 4

/-- Range gaps that may be in flight on one channel (R49). -/
def maxRangeGaps : Nat := 4

/-- The due age at which an overdue census holds back range offers (R52 (a)). -/
def overdueAge : Nat := 16

/-- Cycles after a gap's end cycle at which it lapses (R57). -/
def lapseCycles : Cyc := 8

/-- The decline streak that raises GAP_STARVED (R55). -/
def starvedStreak : Nat := 64

/-- The count of consecutive CYCLE records that makes a link UP (R42). -/
def alignCount : Nat := 4

/-- The silence count that takes a link DOWN (R44). -/
def silenceLimit : Nat := 2

/-- The largest message room used of a CYCLE (R46). -/
def maxRoom : Nat := 4

/-- The settle count after a fill-delay change (R117, R131). -/
def settleCount : Nat := 2

/-- The largest round trip an entry field holds (Table 2-1). -/
def maxRoundTrip : Int := 1048575

/-- Where 16-bit counts stop: tallies (R157), due age and period counter (R58), decline streak (R55). -/
def count16 : Nat := 65535

/-- Where the answer count of a pending item stops (R100). -/
def count8 : Nat := 255

end Sys2Proof.Config
end

