-- ==== Sys2Proof/Syntax.lean ====
section
/-! DEFINITION. The commands of the controller: one constructor of `Instr` for each row of
spec/opcode_table.json, with the operands the manual gives it. Records of the channel links come as the
checked record's fields (Table 12-2), management requests as the fields of their request body
(Table 12-6), internal events with the fields the manual says they name. -/

namespace Sys2Proof

/-- The kinds of ARRIVAL (Table 12-2). -/
inductive ArrivalKind where
  | census | range | data
  deriving DecidableEq, Repr

/-- The delivery status of an ARRIVAL (Table 12-2). -/
inductive Delivery where
  | clean | delimiterFault | burstFault
  deriving DecidableEq, Repr

/-- The body of an ARRIVAL record (Table 12-2), every field as sent; each kind uses some of them. -/
structure Arrival where
  kind : ArrivalKind
  status : Delivery
  tag : Tag
  handle : BitVec 16
  startCycle : Cyc
  startOffset : BitVec 24
  /-- offset e, two's complement -/
  offset : BitVec 16
  /-- hold-off slot j -/
  slot : Byte
  mark : CheckedMark
  deriving DecidableEq, Repr

/-- The seven tree message kinds (Table 4-1). -/
inductive MsgKind where
  | enrol | setDelay | trimDelay | hush | resume | retune | dismiss
  deriving DecidableEq, Repr

/-- Why an out-queue reports a message to the registry (R66, R69). -/
inductive ReportCause where
  | notTaken | evicted | discarded
  deriving DecidableEq, Repr

/-- The commands: one constructor per row of the opcode table, in the table's order. -/
inductive Instr where
  /-- HELLO (cycle length, current cycle) on a channel link (R41). -/
  | hello (c : Chan) (len : BitVec 24) (cur : Cyc)
  /-- CYCLE (cycle number, message room) (R42, R43, R46). -/
  | cycle (c : Chan) (n : Cyc) (room : Byte)
  /-- PLACE RESULT (tag, placed or declined) (R54, R55). -/
  | placeResult (c : Chan) (tag : Tag) (placed : Bool)
  /-- GAP CLOSED (tag) (R56). -/
  | gapClosed (c : Chan) (tag : Tag)
  /-- ARRIVAL (R61). -/
  | arrival (c : Chan) (a : Arrival)
  /-- LINK DOWN (R44). -/
  | linkDown (c : Chan)
  /-- Bytes reaching a channel link unit, hunted and checked (R162). -/
  | linkDefectCheck (c : Chan) (bytes : List Byte)
  /-- A record whose check agreed, by its kind code and body (R163). -/
  | linkDefectRecord (c : Chan) (kind : Byte) (body : List Byte)
  /-- An expiry of the scan prescaler (R134). -/
  | scanExpiry
  /-- The lapse check of the service of cycle n (R57). -/
  | gapLapse (c : Chan) (n : Cyc)
  /-- The offer expiry of the service of cycle n (R53). -/
  | offerExpiry (c : Chan) (n : Cyc)
  /-- The census period counter reaching the census period (R58). -/
  | censusPeriodDue (c : Chan)
  /-- The silence count of a link reaching 2 (R44). -/
  | silenceTimeout (c : Chan)
  /-- The missed scans of an ACTIVE entry reaching M_lost (R136). -/
  | lost (h : Handle)
  /-- The expiry of a LOST entry's retention (R137). -/
  | retentionExpiry (h : Handle)
  /-- The expiry of a pending item (R102). -/
  | pendingExpired (m : Mark)
  /-- A final-hand-out event (R25). -/
  | finalHandOutEvent (c : Chan) (k : MsgKind) (h : Handle)
  /-- An out-queue report (R69, R66). -/
  | outQueueReport (why : ReportCause) (c : Chan) (k : MsgKind) (h : Handle)
  /-- A void event taken by one channel's gap scheduler (R48). -/
  | voidEvent (c : Chan) (h : Handle)
  /-- A roster-join event taken by one channel's link unit (R62). -/
  | rosterJoinEvent (c : Chan) (h : Handle)
  /-- A roster-leave event taken by one channel's link unit (R62). -/
  | rosterLeaveEvent (c : Chan) (h : Handle)
  /-- A channel-exit event taken by the registry (R31, R32, R148, R149). -/
  | channelExitEvent (c : Chan)
  /-- Asserting select (R151). -/
  | selectAssert
  /-- Releasing select (R151, R160). -/
  | selectRelease
  /-- Management bytes shifted in as they come: a code that names no request is answered UNKNOWN (R151). -/
  | unknown (bytes : List Byte)
  /-- TREE SET (selection, value slots) (R7, R153). -/
  | treeSet (sel : BitVec 32) (slots : List (BitVec 24))
  /-- TREE GET (R153). -/
  | treeGet
  /-- CHANNEL SET (channel, selection, mode, period, skew) (R154). -/
  | channelSet (ch : Byte) (sel : Byte) (mode : Byte) (period : BitVec 16) (skew : BitVec 16)
  /-- CHANNEL GET (channel) (R154). -/
  | channelGet (ch : Byte)
  /-- CALL (channel) (R60). -/
  | call (ch : Byte)
  /-- ADMIT (mark) (R103). -/
  | admitMark (m : Mark)
  /-- BAR (mark) (R104). -/
  | bar (m : Mark)
  /-- TABLE LOAD (mark, policy) (R95). -/
  | tableLoad (m : Mark) (policy : Byte)
  /-- TABLE REMOVE (mark) (R96). -/
  | tableRemove (m : Mark)
  /-- TABLE READ (index) (R96). -/
  | tableRead (idx : Byte)
  /-- PENDING READ (index) (R105). -/
  | pendingRead (idx : Byte)
  /-- ENTRY READ (handle) (R26, R121). -/
  | entryRead (h : BitVec 16)
  /-- ENTRY FIND (mark) (R20). -/
  | entryFind (m : Mark)
  /-- DISMISS (handle) (R27). -/
  | dismiss (h : BitVec 16)
  /-- HUSH (handle) (R28). -/
  | hush (h : BitVec 16)
  /-- RESUME (handle) (R29). -/
  | resume (h : BitVec 16)
  /-- RERANGE (handle) (R30). -/
  | rerange (h : BitVec 16)
  /-- MOVE (handle, target channel) (R143). -/
  | move (h : BitVec 16) (target : Byte)
  /-- CLEAR DAMAGED (handle) (R37). -/
  | clearDamaged (h : BitVec 16)
  /-- INJECT (channel, tree message record: kind, handle, eight field bytes) (R74). -/
  | inject (ch : Byte) (kind : Byte) (h : BitVec 16) (fields : BitVec 64)
  /-- NOTICE READ (R156). -/
  | noticeRead
  /-- TALLY READ (channel, clear) (R157). -/
  | tallyRead (ch : Byte) (clear : Byte)
  /-- STORE RECORD READ (clear) (R36). -/
  | storeRecordRead (clear : Byte)
  /-- STATUS (R158). -/
  | status
  /-- RESTART (keep or full) (R160). -/
  | restart (code : Byte)
  /-- Supply and clock stable at power-up (R159). -/
  | powerUp
  /-- Asserting the RESET input (R159). -/
  | resetAssert
  /-- Releasing the RESET input, with the level of the KEEP strap then (R159). -/
  | resetRelease (keep : Bool)
  deriving DecidableEq, Repr

end Sys2Proof
end

