-- ==== Sys2Proof/WellFormed.lean ====
section
/-! DEFINITION. Which commands can be sent at all: the lengths a record's layout fixes and the handles an
internal event can name. A field that is merely out of range is well formed, since the manual says what
the controller answers to it. -/

namespace Sys2Proof

/-- A handle an entry can hold (R18). -/
def Handle.wf (h : Handle) : Bool := decide (1 ≤ h) && decide (h ≤ Config.maxHandle)

/-- A command that some sender can send: TREE SET carries 25 slots (Table 12-6), a record's body has at
most 255 bytes (Table 12-1), at least one byte is shifted in, and an internal event names a handle an
entry can hold (R24, R48, R62). -/
def Instr.wf : Instr → Bool
  | .treeSet _ slots => slots.length == 25
  | .linkDefectRecord _ _ body => decide (body.length ≤ 255)
  | .unknown bytes => !bytes.isEmpty
  | .lost h => Handle.wf h
  | .retentionExpiry h => Handle.wf h
  | .finalHandOutEvent _ _ h => Handle.wf h
  | .outQueueReport _ _ _ h => Handle.wf h
  | .voidEvent _ h => Handle.wf h
  | .rosterJoinEvent _ h => Handle.wf h
  | .rosterLeaveEvent _ h => Handle.wf h
  | _ => true

end Sys2Proof
end

