-- ==== Sys2Proof/Decode.lean ====
section
/-! DEFINITION. The commands that a word of the opcode table spells. No row of spec/opcode_table.json
gives bits ("n_rows_with_fields": 0, spec/98_reader.md): the controller has no instruction words. The
byte layouts of its records are in Machine/Operands.lean, Machine/Frames.lean and Machine/Requests.lean. -/

namespace Sys2Proof

/-- No row of the table gives bits, so no word spells a command. -/
def decodeTableWord (_nbits _w : Nat) : Option Instr := none

theorem decodeTableWord_eq_none (nbits w : Nat) : decodeTableWord nbits w = none := rfl

end Sys2Proof
end

