-- ==== Sys2Proof/Machine/State.lean ====
section
/-! DEFINITION. The state of the controller as plain data: every register, table, queue, counter, latch,
setting and pin the manual gives it, the commands that wait, and the state after a full reset. -/

namespace Sys2Proof.Machine

/-! ## Section 1 and Section 11: settings -/

/-- The default policy (R97). -/
inductive DefaultPolicy where
  | openAll | ask | closed
  deriving DecidableEq, Repr

/-- The store capture setting (R36). -/
inductive StoreCapture where
  | all | uncorrectable
  deriving DecidableEq, Repr

/-- The tree settings: Table 1-3, then Table 11-3, in setting-number order (R164). -/
structure TreeSettings where
  L : Nat
  K : Nat
  H : Nat
  rtMin : Nat
  rtMax : Nat
  Tc : Nat
  Uh : Nat
  Jmax : Nat
  Bd : Nat
  Br : Nat
  nConf : Nat
  P : Nat
  Rmax : Nat
  Z : Nat
  V : Nat
  Cmax : Nat
  Ejump : Nat
  r : Nat
  p : Nat
  mLost : Nat
  retention : Nat
  aHold : Nat
  policy : DefaultPolicy
  defectNotices : Bool
  capture : StoreCapture
  deriving DecidableEq, Repr

/-- The defaults of Table 1-3 and Table 11-3. -/
def TreeSettings.default : TreeSettings where
  L := 77760
  K := 21773
  H := 420000
  rtMin := 0
  rtMax := 124416
  Tc := 64
  Uh := 256
  Jmax := 31
  Bd := 480
  Br := 320
  nConf := 2
  P := 8
  Rmax := 4
  Z := 2
  V := 4
  Cmax := 16
  Ejump := 48
  r := 2
  p := 20
  mLost := 3
  retention := 24
  aHold := 48
  policy := .ask
  defectNotices := false
  capture := .all

/-- The census mode of a channel (R59). -/
inductive CensusMode where
  | off | periodic | demand
  deriving DecidableEq, Repr

/-! ## Section 4: tree messages and out-queues -/

/-- A tree message with its fields (Table 4-1, R64); the check byte of an ENROL's mark is formed when
the record is laid out. -/
inductive TreeMsg where
  | enrol (h : Handle) (mark : Mark)
  | setDelay (h : Handle) (delay : Int)
  | trimDelay (h : Handle) (change : Int)
  | hush (h : Handle)
  | resume (h : Handle)
  | retune (h : Handle) (target : Chan)
  | dismiss (h : Handle)
  deriving DecidableEq, Repr

/-- A queued message (R65). -/
structure QMsg where
  msg : TreeMsg
  urgent : Bool
  left : Nat
  report : Bool
  deriving DecidableEq, Repr

/-! ## Section 3: offers, gaps and links -/

/-- What an outstanding offer asks for; a void range offer names no handle (R48). -/
inductive OfferKind where
  | census
  | range (h : Handle)
  | voidRange
  deriving DecidableEq, Repr

/-- An offer (R46, R52): the reference instant is (refCycle, 0). -/
structure Offer where
  tag : Tag
  kind : OfferKind
  refCycle : Cyc
  start : Nat
  len : Nat
  endCycle : Cyc
  deriving DecidableEq, Repr

/-- The kind-bound part of a gap record: the answer list of a census gap, the handle and reply seen
flag of a range gap; a void gap names no handle (R48, R49). -/
inductive GapKind where
  | census (answers : List Mark)
  | range (h : Handle) (seen : Bool)
  | voidRange
  deriving DecidableEq, Repr

/-- A gap record (R49). -/
structure Gap where
  tag : Tag
  kind : GapKind
  refCycle : Cyc
  start : Nat
  len : Nat
  endCycle : Cyc
  deriving DecidableEq, Repr

/-- The link state with what it holds: the last cycle number in ALIGNING and UP, the alignment count in
ALIGNING (Section 3.2). -/
inductive LinkState where
  | down
  | aligning (last : Cyc) (count : Nat)
  | up (last : Cyc)
  | mismatched
  deriving DecidableEq, Repr

/-- A record the controller sends to a channel engine (Table 12-3). -/
inductive TxRecord where
  | helloAck (accepted : Bool) (len : Nat)
  | cycleReply (n : Cyc) (msgs : List TreeMsg) (offer : Option Offer)
  | rosterJoin (h : Handle)
  | rosterLeave (h : Handle)
  deriving DecidableEq, Repr

/-- The tally kinds in the order of Table 11-5. -/
inductive TallyKind where
  | deliveryDefect | checkDefect | blankMark | holdoffRange | outOfSpan | duplicateInGap | answerOverflow
  | outOfReach | barredAnswer | closedAnswer | markConflict | registryFull | noReply | mismatch | spreadFail
  | trims | reranges | linkDefect | unalignedRecord | strayArrival | declines | lapses
  deriving DecidableEq, Repr

/-- Everything the controller holds for one channel. -/
structure ChanState where
  /-- link state -/
  link : LinkState
  /-- silence count (R44) -/
  silence : Nat
  /-- cycle-seen flag (R44) -/
  cycleSeen : Bool
  /-- announced roster (R62) -/
  roster : List Handle
  /-- outstanding offer (R53) -/
  offer : Option Offer
  /-- range request queue (R47) -/
  rangeQ : List Handle
  /-- in-flight gap table, in the order of placement (R49) -/
  gaps : List Gap
  /-- lapsed-tag list, oldest first (R51) -/
  lapsed : List Tag
  /-- tag counter (R51) -/
  tagCtr : Tag
  /-- decline streak (R55) -/
  declineStreak : Nat
  /-- starved latch (R55) -/
  starved : Bool
  /-- census due flag (R58) -/
  due : Bool
  /-- due age (R58) -/
  dueAge : Nat
  /-- census period counter (R58) -/
  periodCtr : Nat
  /-- quiet-pending flag (R59) -/
  quietPending : Bool
  /-- census mode (R59) -/
  mode : CensusMode
  /-- census period (R59) -/
  period : Nat
  /-- skew S_c (R5) -/
  skew : Int
  /-- out-queue (R65) -/
  outq : List QMsg
  /-- the 22 tallies (R157) -/
  tallies : Vector Nat 22
  /-- bytes of the frame being read (R162) -/
  rx : List Byte
  /-- the records sent to the engine so far, oldest first (the model's own field) -/
  tx : List TxRecord
  deriving DecidableEq, Repr

/-- A channel after a full reset (R63, R65, R161). -/
def ChanState.reset : ChanState where
  link := .down
  silence := 0
  cycleSeen := false
  roster := []
  offer := none
  rangeQ := []
  gaps := []
  lapsed := []
  tagCtr := 0
  declineStreak := 0
  starved := false
  due := false
  dueAge := 0
  periodCtr := 0
  quietPending := false
  mode := .off
  period := 8000
  skew := 0
  outq := []
  tallies := Vector.replicate 22 0
  rx := []
  tx := []

/-! ## Section 2: the registry -/

/-- What the check code of a stored entry tells the next read (R33, R34). -/
inductive Flaw where
  | sound | correctable | uncorrectable
  deriving DecidableEq, Repr

/-- A drift streak that has a sign: sign (true for +), count and sum (Table 8-1). -/
structure Streak where
  positive : Bool
  count : Nat
  sum : Int
  deriving DecidableEq, Repr

/-- The drift record; `streak` none is no sign, count 0, sum 0 (Table 8-1). -/
structure Drift where
  streak : Option Streak
  settle : Nat
  trimPending : Option Int
  deriving DecidableEq, Repr

/-- The final round trip and the fill delay of a settled entry (R14, R15). -/
structure Fix where
  final : Int
  fill : Int
  deriving DecidableEq, Repr

/-- The entry states other than DAMAGED, each with the fields Table 2-1 binds to it (R19). A DISMISSING entry also holds
`freeDue`: the next scan is to free it whatever its channel's link state then, because its home channel was not UP as it
entered DISMISSING (R24) or has left UP since (R32, R141; log entry 21). -/
inductive Phase where
  | enrolling (retry : Nat) (final : Option Int)
  | ranging (retry : Nat) (samples : List Int) (final : Option Int) (fill : Option Int)
  | joining (fix : Fix)
  | active (fix : Fix) (drift : Drift) (missed : Nat)
  | hushed (fix : Fix)
  | retuning (fix : Fix) (target : Chan)
  | lost (final : Option Int) (age : Nat) (dismissSent : Bool)
  | dismissing (dismissSent : Bool) (freeDue : Bool)
  deriving DecidableEq, Repr

/-- The owed set: one flag for each kind, and for TRIM DELAY the owed trim change (Table 2-1). -/
structure Owed where
  enrol : Bool
  setDelay : Bool
  hush : Bool
  resume : Bool
  retune : Bool
  dismiss : Bool
  trim : Option Int
  deriving DecidableEq, Repr

/-- The empty owed set. -/
def Owed.none : Owed := ⟨false, false, false, false, false, false, Option.none⟩

/-- The fields of an entry that is not DAMAGED (Table 2-1). -/
structure Terminal where
  mark : Mark
  home : Chan
  estimate : Int
  wasActive : Bool
  moveFlag : Bool
  heard : Bool
  owed : Owed
  phase : Phase
  deriving DecidableEq, Repr

/-- A registry entry; `term` none is DAMAGED, whose contents are disregarded (R34). `flaw` is the
condition of the stored entry's check code, which a bit flip in the store changes (Section 2.6). -/
structure Entry where
  handle : Handle
  flaw : Flaw
  term : Option Terminal
  deriving DecidableEq, Repr

/-- The kind of flaw the first-error record holds (R36). -/
inductive FlawKind where
  | correctable | uncorrectable
  deriving DecidableEq, Repr

/-- The first-error record while captured (R36). -/
structure FirstError where
  kind : FlawKind
  handle : Handle
  deriving DecidableEq, Repr

/-! ## Section 6: admission -/

/-- The policy of an admission table entry (R94). -/
inductive TablePolicy where
  | letIn | bar
  deriving DecidableEq, Repr

/-- An admission table entry (R94). -/
structure TableEntry where
  mark : Mark
  policy : TablePolicy
  seen : Bool
  deriving DecidableEq, Repr

/-- A pending item (R100). -/
structure PendingItem where
  mark : Mark
  chan : Chan
  coarse : Int
  age : Nat
  answers : Nat
  deriving DecidableEq, Repr

/-! ## Section 11: notices and the management port -/

/-- The notice kinds in the order of Table 11-4. -/
inductive NoticeKind where
  | registered | activated | rangeFailed | driftRerange | lost | freed | pending | pendingExpired | pendingFull
  | barredSeen | markConflict | registryFull | channelState | censusQuiet | gapStarved | moveDone | moveFailed
  | storeError | defect | restarted
  deriving DecidableEq, Repr

/-- A notice: a kind and up to four fields, the value as the number Table 12-9 gives it. -/
structure Notice where
  kind : NoticeKind
  handle : Option Handle
  chan : Option Chan
  mark : Option Mark
  value : Option Nat
  deriving DecidableEq, Repr

/-- The reply codes (Table 11-2), in the order of Table 12-9. -/
inductive ReplyCode where
  | done | wrongState | noEntry | outOfRange | conflict | notIdle | tableFull | registryFull | notPending
  | channelDown | unknown | empty
  deriving DecidableEq, Repr

/-- A reply record: its code and the body Table 12-6 gives. -/
structure Reply where
  code : ReplyCode
  body : List Byte
  deriving DecidableEq, Repr

/-- Where a management transaction stands (R151): none, the request buffer filling, or the request taken
with its reply and the count of bytes clocked since. -/
inductive Txn where
  | idle
  | receiving (buffer : List Byte)
  | answered (reply : Reply) (shifted : Nat)
  deriving DecidableEq, Repr

/-- The two resets a RESTART can name (R160). -/
inductive RestartKind where
  | keepTree | full
  deriving DecidableEq, Repr

/-- The management port: the transaction and the reset an accepted RESTART has armed (R160). -/
structure Port where
  txn : Txn
  armed : Option RestartKind
  deriving DecidableEq, Repr

/-- The input pins: select asserted, RESET asserted, and KEEP as last sampled. The attention line is an
output read from the notice queue (`State.attention`). -/
structure Pins where
  select : Bool
  resetLow : Bool
  keep : Bool
  deriving DecidableEq, Repr

/-! ## Internal events -/

/-- An internal event composed by one block for another (R39 lists the kinds). -/
inductive Event where
  | finalHandOut (c : Chan) (k : MsgKind) (h : Handle)
  | report (why : ReportCause) (c : Chan) (k : MsgKind) (h : Handle)
  | void (c : Chan) (h : Handle)
  | rosterJoin (c : Chan) (h : Handle)
  | rosterLeave (c : Chan) (h : Handle)
  | channelExit (c : Chan)
  deriving DecidableEq, Repr

/-! ## The whole state -/

/-- The state of the controller and the commands that wait for it. -/
structure State where
  /-- commands waiting, first in first out -/
  pending : List Instr
  /-- internal events composed and not yet taken, oldest first (R39) -/
  events : List Event
  pins : Pins
  /-- prescaler count of the scan timer (R133) -/
  prescaler : Nat
  tree : TreeSettings
  chans : PerChan ChanState
  /-- the entries in handle order; every handle 1..511 not held by one is in the free pool (R18) -/
  registry : List Entry
  /-- retention list, oldest first (R23) -/
  retention : List Handle
  /-- registry-full latch (R21, R89) -/
  fullLatch : Bool
  /-- first-error record; none while the captured flag is clear (R36) -/
  firstError : Option FirstError
  /-- admission table in load order (R94) -/
  table : List TableEntry
  /-- pending list, oldest first (R100) -/
  waiting : List PendingItem
  /-- PENDING_FULL latch (R100) -/
  pendingFullLatch : Bool
  /-- notice queue, oldest first (R155) -/
  notices : List Notice
  /-- overflow flag (R155) -/
  overflow : Bool
  port : Port
  deriving DecidableEq, Repr

/-- The controller after a full reset with no command waiting (R38, R63, R65, R107, R133, R161). -/
def State.reset : State where
  pending := []
  events := []
  pins := { select := false, resetLow := false, keep := false }
  prescaler := 0
  tree := TreeSettings.default
  chans := ⟨ChanState.reset, ChanState.reset, ChanState.reset, ChanState.reset⟩
  registry := []
  retention := []
  fullLatch := false
  firstError := none
  table := []
  waiting := []
  pendingFullLatch := false
  notices := []
  overflow := false
  port := { txn := .idle, armed := none }

/-- The controller never stops with a fault: the manual answers every record, request, event and pin
with an effect, a reply code, a tally or a stated "ignored". So the type has no constructor (safe: no
command of the model ends a run). -/
inductive Fault where
  deriving DecidableEq, Repr

/-- Why the model would give a command no meaning. -/
inductive Refusal where
  /-- Raised only by an arm of `exec` whose command has no meaning in the model; no arm raises it (safe). -/
  | notModelled (mnemonic : String)
  deriving DecidableEq, Repr

end Sys2Proof.Machine
end

