-- ==== Sys2Proof/Machine/Ops.lean ====
section
/-! DEFINITION. The named operations every block uses: one channel's part of the state, the records sent,
the events composed, and the lookups and updates of the registry, the handle pool and the lists. -/

namespace Sys2Proof.Machine

/-! ## Channels -/

/-- Everything held for one channel. -/
def State.chan (s : State) (c : Chan) : ChanState := s.chans.get c

/-- The state with one channel's part changed. -/
def State.modChan (s : State) (c : Chan) (f : ChanState → ChanState) : State :=
  { s with chans := s.chans.set c (f (s.chans.get c)) }

/-- The state with every channel's part changed alike. -/
def State.modChans (s : State) (f : ChanState → ChanState) : State := { s with chans := s.chans.map f }

/-- A channel is called UP exactly when its link state is UP (R40). -/
def ChanState.isUp (x : ChanState) : Bool :=
  match x.link with
  | .up _ => true
  | _ => false

/-- The link of channel c is UP (R40). -/
def State.isUp (s : State) (c : Chan) : Bool := (s.chan c).isUp

/-- A record goes out on channel c's link (Section 3.1). -/
def State.send (s : State) (c : Chan) (r : TxRecord) : State :=
  s.modChan c fun x => { x with tx := x.tx ++ [r] }

/-- An internal event leaves the waiting ones as it is taken. -/
def State.dropEvent (s : State) (e : Event) : State := { s with events := s.events.erase e }

/-! ## The registry and the handle pool -/

/-- The entry that holds handle h. -/
def State.entry (s : State) (h : Handle) : Option Entry := s.registry.find? (fun e => e.handle == h)

/-- Handle h is held by an entry, whatever its state (R18). -/
def State.holds (s : State) (h : Handle) : Bool := s.registry.any (fun e => e.handle == h)

/-- The fields of the entry that holds handle h, when it is not DAMAGED. -/
def State.term (s : State) (h : Handle) : Option Terminal := (s.entry h).bind (·.term)

/-- The stored entry of handle h with its fields changed; a DAMAGED entry has none. -/
def Entry.modTerm (e : Entry) (h : Handle) (f : Terminal → Terminal) : Entry :=
  if e.handle = h then { e with term := e.term.map f } else e

/-- The registry with the fields of entry h changed. -/
def State.modTerm (s : State) (h : Handle) (f : Terminal → Terminal) : State :=
  { s with registry := s.registry.map (·.modTerm h f) }

/-- A new entry takes its place in handle order. -/
def insertEntry (e : Entry) : List Entry → List Entry
  | [] => [e]
  | x :: xs => if e.handle < x.handle then e :: x :: xs else x :: insertEntry e xs

/-- The lowest handle of the free pool (R21). -/
def State.lowestFree (s : State) : Option Handle :=
  (List.range' 1 Config.maxHandle).find? (fun h => !s.holds h)

/-- The number of handles in the free pool (R18): the handles 1..511 that no entry holds. -/
def State.freeCount (s : State) : Nat :=
  ((List.range' 1 Config.maxHandle).filter (fun h => !s.holds h)).length

/-- The handles held, in handle order. -/
def State.heldHandles (s : State) : List Handle := s.registry.map (·.handle)

/-! ## Entry states -/

/-- The entry is ACTIVE. -/
def Phase.isActive : Phase → Bool
  | .active .. => true
  | _ => false

/-- The entry is LOST. -/
def Phase.isLost : Phase → Bool
  | .lost .. => true
  | _ => false

/-- The entry is DISMISSING. -/
def Phase.isDismissing : Phase → Bool
  | .dismissing .. => true
  | _ => false

/-- The working states of R6: all but LOST, DISMISSING (and DAMAGED). -/
def Phase.isWorking : Phase → Bool
  | .lost .. => false
  | .dismissing .. => false
  | _ => true

/-- The final round trip, where the entry holds one (Table 2-1). -/
def Phase.final : Phase → Option Int
  | .enrolling _ f => f
  | .ranging _ _ f _ => f
  | .joining x => some x.final
  | .active x _ _ => some x.final
  | .hushed x => some x.final
  | .retuning x _ => some x.final
  | .lost f _ _ => f
  | .dismissing .. => none

/-- The fill delay, where the entry holds one (Table 2-1). -/
def Phase.fill : Phase → Option Int
  | .ranging _ _ _ d => d
  | .joining x => some x.fill
  | .active x _ _ => some x.fill
  | .hushed x => some x.fill
  | .retuning x _ => some x.fill
  | _ => none

/-- The retry count, held in ENROLLING and RANGING (R19). -/
def Phase.retry : Phase → Option Nat
  | .enrolling n _ => some n
  | .ranging n _ _ _ => some n
  | _ => none

/-- The same state with another retry count. -/
def Phase.withRetry (p : Phase) (n : Nat) : Phase :=
  match p with
  | .enrolling _ f => .enrolling n f
  | .ranging _ smp f d => .ranging n smp f d
  | other => other

/-- Any entry is in a working state (R6). The lock of TREE SET judges the entries as they are stored, without the store
check that Section 2.6 gives the management port's reads (DESIGN CHOICE, log entry 26). -/
def State.anyWorking (s : State) : Bool :=
  s.registry.any fun e => e.term.any fun t => t.phase.isWorking

/-- Any entry homed on c is in a working state (R5), judged for the lock of CHANNEL SET as it is stored, without the
store check (DESIGN CHOICE, log entry 26). -/
def State.anyWorkingOn (s : State) (c : Chan) : Bool :=
  s.registry.any fun e => e.term.any fun t => t.phase.isWorking && decide (t.home = c)

/-! ## Resets and pins -/

/-- An event of the links, the port or the scan timer, taken only while RESET is not asserted: meanwhile
the controller takes no record and no request and the scan timer is held (R159). -/
def State.whenRunning (s : State) (f : State → State) : State := if s.pins.resetLow then s else f s

end Sys2Proof.Machine
end

