-- ==== Sys2Proof/Machine/Flags.lean ====
section
/-! DEFINITION. Tallies, notices and the attention line (Sections 11.3 and 11.4). -/

namespace Sys2Proof.Machine

/-! ## Tallies -/

/-- The tally's position in Table 11-5, counted from 0. -/
def TallyKind.idx : TallyKind → Fin 22
  | .deliveryDefect => 0
  | .checkDefect => 1
  | .blankMark => 2
  | .holdoffRange => 3
  | .outOfSpan => 4
  | .duplicateInGap => 5
  | .answerOverflow => 6
  | .outOfReach => 7
  | .barredAnswer => 8
  | .closedAnswer => 9
  | .markConflict => 10
  | .registryFull => 11
  | .noReply => 12
  | .mismatch => 13
  | .spreadFail => 14
  | .trims => 15
  | .reranges => 16
  | .linkDefect => 17
  | .unalignedRecord => 18
  | .strayArrival => 19
  | .declines => 20
  | .lapses => 21

/-- The value of one tally of a channel. -/
def ChanState.tally (x : ChanState) (k : TallyKind) : Nat := x.tallies[k.idx]

/-- A 16-bit count that stays at 65,535 (R157, R58, R55). -/
def satSucc (n : Nat) : Nat := min (n + 1) Config.count16

/-- A tally of channel c rises by one (R157). -/
def State.bump (s : State) (c : Chan) (k : TallyKind) : State :=
  s.modChan c fun x => { x with tallies := x.tallies.set k.idx (satSucc (x.tally k)) }

/-! ## Notices -/

/-- The notice kind's code: 0x01..0x14 in the order of Table 11-4 (Table 12-8). -/
def NoticeKind.code : NoticeKind → Nat
  | .registered => 1
  | .activated => 2
  | .rangeFailed => 3
  | .driftRerange => 4
  | .lost => 5
  | .freed => 6
  | .pending => 7
  | .pendingExpired => 8
  | .pendingFull => 9
  | .barredSeen => 10
  | .markConflict => 11
  | .registryFull => 12
  | .channelState => 13
  | .censusQuiet => 14
  | .gapStarved => 15
  | .moveDone => 16
  | .moveFailed => 17
  | .storeError => 18
  | .defect => 19
  | .restarted => 20

/-- A notice joins the queue, or is dropped with the overflow flag set when 64 stand there (R155). -/
def State.raise (s : State) (n : Notice) : State :=
  if s.notices.length < Config.noticeQueueSize then { s with notices := s.notices ++ [n] }
  else { s with overflow := true }

/-- The attention line is asserted while the notice queue holds a notice (R155). -/
def State.attention (s : State) : Bool := !s.notices.isEmpty

/-- The link state's code (Table 12-9). -/
def LinkState.code : LinkState → Nat
  | .down => 0
  | .aligning .. => 1
  | .up _ => 2
  | .mismatched => 3

/-- REGISTERED carries handle, channel and mark (Table 11-4). -/
def Notice.registered (h : Handle) (c : Chan) (m : Mark) : Notice := ⟨.registered, some h, some c, some m, none⟩
/-- ACTIVATED carries handle, channel and the fill delay (Table 11-4). -/
def Notice.activated (h : Handle) (c : Chan) (fill : Int) : Notice :=
  ⟨.activated, some h, some c, none, some fill.toNat⟩
/-- RANGE_FAILED carries handle, channel and the last outcome (Table 11-4). -/
def Notice.rangeFailed (h : Handle) (c : Chan) (outcome : Nat) : Notice :=
  ⟨.rangeFailed, some h, some c, none, some outcome⟩
/-- DRIFT_RERANGE carries handle, channel and the new estimate (Table 11-4). -/
def Notice.driftRerange (h : Handle) (c : Chan) (estimate : Int) : Notice :=
  ⟨.driftRerange, some h, some c, none, some estimate.toNat⟩
/-- LOST carries handle, channel and mark (Table 11-4). -/
def Notice.lost (h : Handle) (c : Chan) (m : Mark) : Notice := ⟨.lost, some h, some c, some m, none⟩
/-- FREED carries the handle and, unless the entry was DAMAGED, the mark (Table 11-4). -/
def Notice.freed (h : Handle) (m : Option Mark) : Notice := ⟨.freed, some h, none, m, none⟩
/-- PENDING carries the mark (Table 11-4). -/
def Notice.pending (m : Mark) : Notice := ⟨.pending, none, none, some m, none⟩
/-- PENDING_EXPIRED carries the mark (Table 11-4). -/
def Notice.pendingExpired (m : Mark) : Notice := ⟨.pendingExpired, none, none, some m, none⟩
/-- PENDING_FULL carries channel and mark (Table 11-4). -/
def Notice.pendingFull (c : Chan) (m : Mark) : Notice := ⟨.pendingFull, none, some c, some m, none⟩
/-- BARRED_SEEN carries channel and mark (Table 11-4). -/
def Notice.barredSeen (c : Chan) (m : Mark) : Notice := ⟨.barredSeen, none, some c, some m, none⟩
/-- MARK_CONFLICT carries handle, channel and mark (Table 11-4). -/
def Notice.markConflict (h : Handle) (c : Chan) (m : Mark) : Notice :=
  ⟨.markConflict, some h, some c, some m, none⟩
/-- REGISTRY_FULL carries channel and mark (Table 11-4). -/
def Notice.registryFull (c : Chan) (m : Mark) : Notice := ⟨.registryFull, none, some c, some m, none⟩
/-- CHANNEL_STATE carries the channel and the new link state (Table 11-4). -/
def Notice.channelState (c : Chan) (l : LinkState) : Notice := ⟨.channelState, none, some c, none, some l.code⟩
/-- CENSUS_QUIET carries the channel (Table 11-4). -/
def Notice.censusQuiet (c : Chan) : Notice := ⟨.censusQuiet, none, some c, none, none⟩
/-- GAP_STARVED carries the channel (Table 11-4). -/
def Notice.gapStarved (c : Chan) : Notice := ⟨.gapStarved, none, some c, none, none⟩
/-- MOVE_DONE carries handle and channel (Table 11-4). -/
def Notice.moveDone (h : Handle) (c : Chan) : Notice := ⟨.moveDone, some h, some c, none, none⟩
/-- MOVE_FAILED with "target down", 0x01 (R148, Table 12-9). -/
def Notice.moveTargetDown (h : Handle) (c : Chan) : Notice := ⟨.moveFailed, some h, some c, none, some 1⟩
/-- MOVE_FAILED with "ranging failed", 0x02 (R116, Table 12-9). -/
def Notice.moveRangingFailed (h : Handle) (c : Chan) : Notice := ⟨.moveFailed, some h, some c, none, some 2⟩
/-- STORE_ERROR carries the handle and the kind of flaw: 0x01 correctable, 0x02 uncorrectable (R36). -/
def Notice.storeError (h : Handle) (k : FlawKind) : Notice :=
  ⟨.storeError, some h, none, none, some (match k with | .correctable => 1 | .uncorrectable => 2)⟩
/-- DEFECT carries the channel, the mark where R78 gives it, and the defect's tally position. -/
def Notice.defect (c : Chan) (m : Option Mark) (k : TallyKind) : Notice :=
  ⟨.defect, none, some c, m, some k.idx.val⟩
/-- RESTARTED carries the source: 0x01 RESET input, 0x02 RESTART request (R161, Table 12-9). -/
def Notice.restarted (source : Nat) : Notice := ⟨.restarted, none, none, none, some source⟩

end Sys2Proof.Machine
end

