-- ==== Sys2Proof/Machine/Operands.lean ====
section
/-! DEFINITION. The operand forms: how numbers, marks and messages stand in the bytes of a record
(Section 12): most significant byte first, signed quantities in two's complement. -/

namespace Sys2Proof.Machine

/-- A number over n bytes, most significant byte first. -/
def natBytes : Nat → Nat → List Byte
  | 0, _ => []
  | n + 1, v => natBytes n (v / 256) ++ [BitVec.ofNat 8 v]

/-- A signed quantity over n bytes, two's complement. -/
def intBytes (n : Nat) (v : Int) : List Byte := natBytes n (v % ((256 : Int) ^ n)).toNat

/-- The number that some bytes spell, most significant byte first. -/
def bytesNat (bs : List Byte) : Nat := bs.foldl (fun v b => v * 256 + b.toNat) 0

/-- A flag as a byte of a reply: 0x01 for yes and 0x00 for no, where Tables 12-6 and 12-7 give the byte no code (the
seen flag of R96, overflow, captured, reply seen; DESIGN CHOICE, log entry 27). -/
def flagByte (b : Bool) : Byte := if b then 1 else 0

/-! ## Marks -/

/-- The exclusive-OR of the eight bytes of a mark with its check byte. -/
def xorBytes (m : CheckedMark) : Byte :=
  m.extractLsb' 56 8 ^^^ m.extractLsb' 48 8 ^^^ m.extractLsb' 40 8 ^^^ m.extractLsb' 32 8 ^^^
    m.extractLsb' 24 8 ^^^ m.extractLsb' 16 8 ^^^ m.extractLsb' 8 8 ^^^ m.extractLsb' 0 8

/-- The seven identity bytes of a mark as sent on a channel link. -/
def identityOf (m : CheckedMark) : Mark := m.extractLsb' 8 56

/-- A blank mark: identity bytes all 0x00 or all 0xFF (Table I-2). -/
def isBlank (m : Mark) : Bool := m == 0 || m == BitVec.allOnes 56

/-- The mark with the check byte that makes the exclusive-OR of all eight bytes zero (R64). -/
def withCheck (m : Mark) : CheckedMark :=
  let open8 : CheckedMark := m ++ (0 : Byte)
  m ++ xorBytes open8

/-- A mark's seven bytes. -/
def markBytes (m : Mark) : List Byte := natBytes 7 m.toNat

/-! ## Tree messages -/

/-- The kind of a message. -/
def TreeMsg.kind : TreeMsg → MsgKind
  | .enrol .. => .enrol
  | .setDelay .. => .setDelay
  | .trimDelay .. => .trimDelay
  | .hush _ => .hush
  | .resume _ => .resume
  | .retune .. => .retune
  | .dismiss _ => .dismiss

/-- The handle a message names. -/
def TreeMsg.handle : TreeMsg → Handle
  | .enrol h _ => h
  | .setDelay h _ => h
  | .trimDelay h _ => h
  | .hush h => h
  | .resume h => h
  | .retune h _ => h
  | .dismiss h => h

/-- The message kind code (Table 12-4). -/
def msgCode : MsgKind → Nat
  | .enrol => 1
  | .setDelay => 2
  | .trimDelay => 3
  | .hush => 4
  | .resume => 5
  | .retune => 6
  | .dismiss => 7

/-- A tree message record, 11 bytes (Table 12-4). -/
def TreeMsg.bytes (m : TreeMsg) : List Byte :=
  natBytes 1 (msgCode m.kind) ++ natBytes 2 m.handle ++
    match m with
    | .enrol _ mark => natBytes 8 (withCheck mark).toNat
    | .setDelay _ d => intBytes 3 d ++ natBytes 5 0
    | .trimDelay _ ch => intBytes 2 ch ++ natBytes 6 0
    | .retune _ t => natBytes 1 t.num ++ natBytes 7 0
    | .hush _ => natBytes 8 0
    | .resume _ => natBytes 8 0
    | .dismiss _ => natBytes 8 0

/-- The message an INJECT carries, or none when its kind is not one of the seven or a field lies outside
the range R64 gives (R74, case 1). The eight field bytes stand first byte highest; those the kind does
not use are ignored (log entry 12). -/
def injectedMsg (kind : Byte) (h : BitVec 16) (fields : BitVec 64) : Option TreeMsg :=
  let hn := h.toNat
  let named := decide (1 ≤ hn) && decide (hn ≤ Config.maxHandle)
  let mayBeAll := decide (hn ≤ Config.maxHandle)
  match kind.toNat with
  | 1 => if named && xorBytes fields == 0 then some (.enrol hn (identityOf fields)) else none
  | 2 =>
    let d := (fields.extractLsb' 40 24).toNat
    if named && decide (d ≤ 1048575) then some (.setDelay hn d) else none
  | 3 =>
    let ch := (fields.extractLsb' 48 16).toInt
    if named && decide (-255 ≤ ch) && decide (ch ≤ 255) then some (.trimDelay hn ch) else none
  | 4 => if mayBeAll then some (.hush hn) else none
  | 5 => if mayBeAll then some (.resume hn) else none
  | 6 =>
    match Chan.ofNum (fields.extractLsb' 56 8).toNat with
    | some t => if named then some (.retune hn t) else none
    | none => none
  | 7 => if mayBeAll then some (.dismiss hn) else none
  | _ => none

/-! ## Codes of Table 12-9 -/

/-- The reply code. -/
def ReplyCode.code : ReplyCode → Nat
  | .done => 0
  | .wrongState => 1
  | .noEntry => 2
  | .outOfRange => 3
  | .conflict => 4
  | .notIdle => 5
  | .tableFull => 6
  | .registryFull => 7
  | .notPending => 8
  | .channelDown => 9
  | .unknown => 10
  | .empty => 11

/-- The entry state code, 0x01..0x09 in the order of Table 2-2; none is DAMAGED. -/
def stateCode : Option Phase → Nat
  | some (.enrolling ..) => 1
  | some (.ranging ..) => 2
  | some (.joining _) => 3
  | some (.active ..) => 4
  | some (.hushed _) => 5
  | some (.retuning ..) => 6
  | some (.lost ..) => 7
  | some (.dismissing ..) => 8
  | none => 9

/-- The census mode code. -/
def CensusMode.code : CensusMode → Nat
  | .off => 0
  | .periodic => 1
  | .demand => 2

/-- The census mode of a code. -/
def CensusMode.ofCode : Nat → Option CensusMode
  | 0 => some .off
  | 1 => some .periodic
  | 2 => some .demand
  | _ => none

/-- The default policy code. -/
def DefaultPolicy.code : DefaultPolicy → Nat
  | .openAll => 0
  | .ask => 1
  | .closed => 2

/-- The default policy of a code within 0..2. -/
def DefaultPolicy.ofCode : Nat → DefaultPolicy
  | 0 => .openAll
  | 1 => .ask
  | _ => .closed

/-- The store capture code. -/
def StoreCapture.code : StoreCapture → Nat
  | .all => 0
  | .uncorrectable => 1

/-- The table policy code. -/
def TablePolicy.code : TablePolicy → Nat
  | .letIn => 1
  | .bar => 2

/-- The table policy of a code. -/
def TablePolicy.ofCode : Nat → Option TablePolicy
  | 1 => some .letIn
  | 2 => some .bar
  | _ => none

/-- A clear code: 0x00 keep, 0x01 clear. -/
def clearOfCode : Nat → Option Bool
  | 0 => some false
  | 1 => some true
  | _ => none

/-- A RESTART code: 0x01 keep, 0x02 full. -/
def RestartKind.ofCode : Nat → Option RestartKind
  | 1 => some .keepTree
  | 2 => some .full
  | _ => none

/-- A notice record, 15 bytes (Table 12-8). -/
def Notice.bytes (n : Notice) : List Byte :=
  let bit (b : Bool) (k : Nat) : Nat := if b then 2 ^ k else 0
  natBytes 1 n.kind.code ++
    natBytes 1 (bit n.handle.isSome 0 + bit n.chan.isSome 1 + bit n.mark.isSome 2 + bit n.value.isSome 3) ++
    natBytes 2 (n.handle.getD 0) ++ natBytes 1 ((n.chan.map Chan.num).getD 0) ++
    markBytes (n.mark.getD 0) ++ natBytes 3 (n.value.getD 0)

/-- A reply record: reply code, then body. -/
def Reply.bytes (r : Reply) : List Byte := natBytes 1 r.code.code ++ r.body

end Sys2Proof.Machine
end

