-- ==== Sys2Proof/Machine/Timeline.lean ====
section
/-! DEFINITION. Tree time and the ranging arithmetic (Section 1): cycle numbers, elapsed ticks, spans,
round trips, samples, the final round trip, the fill delay and the trim. Every figure is exact. -/

namespace Sys2Proof.Machine

/-- Cycle number n is at or after cycle number b (R3). -/
def atOrAfter (n b : Cyc) : Bool := decide ((n - b).toNat < 32768)

/-- The elapsed ticks from instant (g, s) to instant (a, o); none when no elapsed count is formed or the
second instant counts as before the first (R1). -/
def elapsed (L : Nat) (g : Cyc) (s : Nat) (a : Cyc) (o : Nat) : Option Nat :=
  let d := (a - g).toNat
  if 32768 ≤ d ∨ L ≤ o ∨ d * L + o < s then none else some (d * L + o - s)

/-- The instant x ticks after the reference instant (g, 0) (R2). -/
def instantAfter (L : Nat) (g : Cyc) (x : Nat) : Cyc × Nat := (g + BitVec.ofNat 16 (x / L), x % L)

/-- The end cycle of a gap (R2). -/
def endCycle (L : Nat) (g : Cyc) (start len : Nat) : Cyc := (instantAfter L g (start + len)).1

/-- Span start and span length from the unclamped start and end (R9, R12). -/
def clampSpan (lo hi : Int) : Nat × Nat :=
  let start := max lo 0
  (start.toNat, if hi ≤ 0 then 0 else (hi - start).toNat)

/-- The census span of a channel with skew S (R9): span start and span length. -/
def censusSpan (t : TreeSettings) (S : Int) : Nat × Nat :=
  clampSpan (t.K + S + t.rtMin - t.Tc) (t.K + S + t.rtMax + t.Jmax * t.Uh + t.Bd + t.Tc)

/-- The range span for an estimate on a channel with skew S (R12): span start and span length. -/
def rangeSpan (t : TreeSettings) (S estimate : Int) : Nat × Nat :=
  let expected : Int := t.K + S + estimate
  clampSpan (expected - t.Tc) (expected + t.Br + t.Tc)

/-- The reach check of a round trip x for a channel with skew S (R11). -/
def reachOk (t : TreeSettings) (S x : Int) : Bool :=
  decide (0 ≤ x) && decide (x ≤ Config.maxRoundTrip) && decide (0 ≤ x + S) &&
    decide ((t.rtMin : Int) - t.Tc ≤ x + S) && decide (x + S ≤ t.rtMax + t.Tc)

/-- A reply of the given length that starts E ticks after the reference lies inside the span (R10, R13). -/
def inSpan (start len E replyLen : Nat) : Bool := decide (start ≤ E) && decide (E + replyLen ≤ start + len)

/-- The coarse round trip of a census reply with hold-off slot j (R10). -/
def coarseRoundTrip (t : TreeSettings) (S : Int) (E j : Nat) : Int := (E : Int) - t.K - j * t.Uh - S

/-- The sample of a range reply in a gap with the given reference and span, or none for a mismatch on
the arithmetic (R13). -/
def rangeSample (t : TreeSettings) (S estimate : Int) (refCycle : Cyc) (start len : Nat) (a : Arrival) :
    Option Int :=
  match elapsed t.L refCycle 0 a.startCycle a.startOffset.toNat with
  | none => none
  | some E =>
    let x : Int := (E : Int) - t.K - S
    if inSpan start len E t.Br && decide (0 ≤ x) && decide (x - estimate ≤ t.Tc) && decide (estimate - x ≤ t.Tc)
    then some x else none

/-- The spread of some samples: largest less smallest (R14, step 1). -/
def spread : List Int → Int
  | [] => 0
  | x :: xs => xs.foldl max x - xs.foldl min x

/-- The mean rounded to the nearest tick, ties upward (R14, step 2). -/
def roundedMean (samples : List Int) : Int :=
  (2 * samples.sum + samples.length) / (2 * samples.length)

/-- How an attempt that has enough samples ends (R14). -/
inductive Completion where
  | spreadFail
  | reachFail
  | accepted (final : Int)
  deriving DecidableEq, Repr

/-- Spread test, mean and reach test with the skew of the home channel (R14). -/
def completion (t : TreeSettings) (S : Int) (samples : List Int) : Completion :=
  if 1 < samples.length ∧ (t.P : Int) < spread samples then .spreadFail
  else if reachOk t S (roundedMean samples) then .accepted (roundedMean samples) else .reachFail

/-- The fill delay of a final round trip on a channel with skew S (R15). -/
def fillDelay (t : TreeSettings) (S final : Int) : Int := t.H - (final + S)

/-- The trim of a streak sum: sum over V toward zero, limited to −C_max..+C_max (R16). -/
def trimOf (t : TreeSettings) (sum : Int) : Int := max (-(t.Cmax : Int)) (min (sum.tdiv t.V) t.Cmax)

/-- A round trip limited to the field range of an estimate (R17). -/
def clampEstimate (x : Int) : Int := max 0 (min x Config.maxRoundTrip)

end Sys2Proof.Machine
end

