-- ==== Sys2Proof/Machine/OutQueue.lean ====
section
/-! DEFINITION. The out-queues (Section 4): how a message joins, replaces, supersedes, evicts, is handed
out and is removed. Pure operations on one queue; the registry's side is in Machine/Registry.lean. -/

namespace Sys2Proof.Machine

/-- HUSH and DISMISS queued by the registry are urgent, the other five kinds normal (R64). -/
def isUrgentKind : MsgKind → Bool
  | .hush => true
  | .dismiss => true
  | _ => false

/-- The repeats a message of kind k joins with: 1 for TRIM DELAY, else the repeat count r (R64). -/
def repeatsOf (r : Nat) : MsgKind → Nat
  | .trimDelay => 1
  | _ => r

/-- Table 4-2: a new message of the first kind removes a queued one of the second for the same handle. -/
def supersedes : MsgKind → MsgKind → Bool
  | .dismiss, k => k != .dismiss
  | .enrol, .dismiss => true
  | .hush, .resume => true
  | .resume, .hush => true
  | .setDelay, .trimDelay => true
  | _, _ => false

/-- The two messages have the same kind and handle (R65, R68). -/
def QMsg.sameSlot (a b : QMsg) : Bool := a.msg.kind == b.msg.kind && a.msg.handle == b.msg.handle

/-- The queue without the messages a new registry message supersedes (R67). -/
def dropSuperseded (m : TreeMsg) (q : List QMsg) : List QMsg :=
  q.filter fun x => !(x.msg.handle == m.handle && supersedes m.kind x.msg.kind)

/-- Replacement in place: the new message takes the position and brings its own fields, class and
repeats; the report flag is yes when either had yes (R68). -/
def replaceIn (m : QMsg) (q : List QMsg) : List QMsg :=
  q.map fun x => if m.sameSlot x then { m with report := m.report || x.report } else x

/-- The youngest normal message and the queue without it (R69). -/
def evictYoungest : List QMsg → Option (QMsg × List QMsg)
  | [] => none
  | x :: xs =>
    match evictYoungest xs with
    | some (v, ys) => some (v, x :: ys)
    | none => if x.urgent then none else some (x, xs)

/-- What a join answers: the queue, whether the message was taken, and the message it evicted. -/
structure Joined where
  queue : List QMsg
  taken : Bool
  evicted : Option QMsg
  deriving DecidableEq, Repr

/-- A message joins at the tail, evicting the youngest normal message when the queue is full and the
message urgent (R68, R69). -/
def joinTail (m : QMsg) (q : List QMsg) : Joined :=
  if q.length < Config.outQueueSize then ⟨q ++ [m], true, none⟩
  else if m.urgent then
    match evictYoungest q with
    | some (v, rest) => ⟨rest ++ [m], true, some v⟩
    | none => ⟨q, false, none⟩
  else ⟨q, false, none⟩

/-- Replacement in place where a message of the kind and handle stands, else a join at the tail (R68). -/
def joinOrReplace (m : QMsg) (q : List QMsg) : Joined :=
  if q.any m.sameSlot then ⟨replaceIn m q, true, none⟩ else joinTail m q

/-- A message as the registry queues it: class by kind, fresh repeats, report flag yes (R64, R65). -/
def registryMsg (r : Nat) (m : TreeMsg) : QMsg := ⟨m, isUrgentKind m.kind, repeatsOf r m.kind, true⟩

/-- A message as INJECT queues it: urgent, fresh repeats, report flag no (R75). -/
def injectMsg (r : Nat) (m : TreeMsg) : QMsg := ⟨m, true, repeatsOf r m.kind, false⟩

/-- A registry message joins in three steps: supersession, replacement, tail (Section 4.3). -/
def joinRegistry (r : Nat) (m : TreeMsg) (q : List QMsg) : Joined :=
  joinOrReplace (registryMsg r m) (dropSuperseded m q)

/-- Removal of all messages for h (R72). -/
def removeAll (h : Handle) (q : List QMsg) : List QMsg := q.filter fun x => !(x.msg.handle == h)

/-- Removal of all messages for h except DISMISS (R72). -/
def removeAllButDismiss (h : Handle) (q : List QMsg) : List QMsg :=
  q.filter fun x => !(x.msg.handle == h) || x.msg.kind == .dismiss

/-- Removal of the message of one kind for h (R72). -/
def removeKind (k : MsgKind) (h : Handle) (q : List QMsg) : List QMsg :=
  q.filter fun x => !(x.msg.handle == h && x.msg.kind == k)

/-! ## Hand-out -/

/-- What a hand-out step answers: the messages carried by the reply in the order taken, the queue left,
and the messages whose final hand-out this was, in the order taken. -/
structure HandOut where
  carried : List TreeMsg
  queue : List QMsg
  finals : List QMsg
  deriving DecidableEq, Repr

/-- The queue with the first `u` urgent and the first `n` normal messages marked as taken. -/
def markTaken : Nat → Nat → List QMsg → List (QMsg × Bool)
  | _, _, [] => []
  | u, n, x :: xs =>
    if x.urgent then
      match u with
      | 0 => (x, false) :: markTaken 0 n xs
      | u' + 1 => (x, true) :: markTaken u' n xs
    else
      match n with
      | 0 => (x, false) :: markTaken u 0 xs
      | n' + 1 => (x, true) :: markTaken u n' xs

/-- The message after one hand-out, or none when that was its final one (R70). -/
def afterHandOut (x : QMsg × Bool) : Option QMsg :=
  if x.2 then (if x.1.left ≤ 1 then none else some { x.1 with left := x.1.left - 1 }) else some x.1

/-- The hand-out of step 1 of a service: every urgent message in queue order, then every normal one, up
to the room; each message once (R70, R71). -/
def handOut (room : Nat) (q : List QMsg) : HandOut :=
  let urgents := (q.filter (·.urgent)).length
  let marked := markTaken room (room - urgents) q
  let taken := (marked.filter fun x => x.2 && x.1.urgent) ++ (marked.filter fun x => x.2 && !x.1.urgent)
  { carried := taken.map (·.1.msg)
    queue := marked.filterMap afterHandOut
    finals := (taken.filter fun x => decide (x.1.left ≤ 1)).map (·.1) }

end Sys2Proof.Machine
end

