-- ==== Sys2Proof/Machine/Registry.lean ====
section
/-! DEFINITION. The registry's shared operations (Section 2): owed kinds, queueing a message for an entry,
void and roster events, the store check, and how an entry is created, freed, lost, dismissed, damaged and
re-enrolled. -/

namespace Sys2Proof.Machine

/-! ## Owed sets (Table 2-1, R24) -/

/-- The kind stands in the owed set. -/
def Owed.has (o : Owed) : MsgKind → Bool
  | .enrol => o.enrol
  | .setDelay => o.setDelay
  | .trimDelay => o.trim.isSome
  | .hush => o.hush
  | .resume => o.resume
  | .retune => o.retune
  | .dismiss => o.dismiss

/-- The owed set with a kind added; TRIM DELAY needs its change and is added by `Terminal.makeOwed`. -/
def Owed.add (o : Owed) : MsgKind → Owed
  | .enrol => { o with enrol := true }
  | .setDelay => { o with setDelay := true }
  | .trimDelay => o
  | .hush => { o with hush := true }
  | .resume => { o with resume := true }
  | .retune => { o with retune := true }
  | .dismiss => { o with dismiss := true }

/-- The owed set without a kind. -/
def Owed.remove (o : Owed) : MsgKind → Owed
  | .enrol => { o with enrol := false }
  | .setDelay => { o with setDelay := false }
  | .trimDelay => { o with trim := Option.none }
  | .hush => { o with hush := false }
  | .resume => { o with resume := false }
  | .retune => { o with retune := false }
  | .dismiss => { o with dismiss := false }

/-- The owed kinds that a message of kind k drops when the registry queues it or makes it owed: Table 4-2,
a DISMISS every owed kind, and a SET DELAY also an owed HUSH (R24). -/
def Owed.dropFor (o : Owed) : MsgKind → Owed
  | .dismiss => Owed.none
  | .enrol => { o with dismiss := false }
  | .hush => { o with resume := false }
  | .resume => { o with hush := false }
  | .setDelay => { o with trim := Option.none, hush := false }
  | .trimDelay => o
  | .retune => o

/-- The entry's kind k becomes owed. TRIM DELAY only in ACTIVE with trim-pending set, whose change is then
held as the owed trim change (R24). -/
def Terminal.makeOwed (t : Terminal) (k : MsgKind) : Terminal :=
  match k with
  | .trimDelay =>
    match t.phase with
    | .active _ d _ =>
      match d.trimPending with
      | some ch => { t with owed := { t.owed with trim := some ch } }
      | none => t
    | _ => t
  | other => { t with owed := (t.owed.dropFor other).add other }

/-- The drift record an entry enters ACTIVE with; trim-pending is set when TRIM DELAY is owed (R123). -/
def freshDrift (o : Owed) : Drift := { streak := none, settle := Config.settleCount, trimPending := o.trim }

/-- A discarded message of kind k on channel c becomes owed on this entry (R31, R32, R149). -/
def Terminal.discardOwes (t : Terminal) (c : Chan) (k : MsgKind) : Bool :=
  decide (t.home = c) &&
    match t.phase, k with
    | .enrolling .., .enrol => true
    | .ranging .., .hush => true
    | .joining _, .setDelay => true
    | .joining _, .resume => true
    | .hushed _, .hush => true
    | .retuning .., .retune => true
    | .lost _ _ sent, .dismiss => !sent
    | _, _ => false

/-- An evicted or not taken message of kind k becomes owed on this entry: not a DISMISS of a DISMISSING entry
whose home channel is not UP (R24), whose report is dropped (R69). -/
def State.refusedOwes (s : State) (t : Terminal) (k : MsgKind) : Bool :=
  !(k == .dismiss && t.phase.isDismissing && !s.isUp t.home)

/-- The registry takes an out-queue report (R24, R31, R32, R66, R69). A DAMAGED entry and a free handle
have no owed set, so a report for one is dropped. That an evicted or not taken kind becomes owed in every other
state is the model's reading (log entry 11). -/
def State.takeReport (s : State) (why : ReportCause) (c : Chan) (k : MsgKind) (h : Handle) : State :=
  match why with
  | .discarded => s.modTerm h fun t => if t.discardOwes c k then t.makeOwed k else t
  | .notTaken => s.modTerm h fun t => if s.refusedOwes t k then t.makeOwed k else t
  | .evicted => s.modTerm h fun t => if s.refusedOwes t k then t.makeOwed k else t

/-! ## Queueing a message (R24, R66 to R69) -/

/-- A registry message is offered to the out-queue of channel c. The report of an evicted message is taken
in the same event (R139). Answers the state and whether the message was taken; a channel that is not UP
takes none (R66). -/
def State.offerMsg (s : State) (c : Chan) (m : TreeMsg) : State × Bool :=
  if s.isUp c then
    let j := joinRegistry s.tree.r m (s.chan c).outq
    let s1 := s.modChan c fun x => { x with outq := j.queue }
    match j.evicted with
    | some v => (s1.takeReport .evicted c v.msg.kind v.msg.handle, j.taken)
    | none => (s1, j.taken)
  else (s, false)

/-- The registry queues message m for entry h on its home channel: the owed kinds it supersedes leave the
owed set, and a message that the home channel does not take, because it is not UP or its queue is full, is
taken as reported not taken (R24, R66, R69). -/
def State.queueFor (s : State) (h : Handle) (m : TreeMsg) : State :=
  match s.term h with
  | none => s
  | some t =>
    let r := (s.modTerm h fun u => { u with owed := u.owed.dropFor m.kind }).offerMsg t.home m
    if r.2 then r.1 else r.1.takeReport .notTaken t.home m.kind h

/-! ## Void events (R48) -/

/-- A gap record after a void event for h. -/
def Gap.voidFor (g : Gap) (h : Handle) : Gap :=
  match g.kind with
  | .range h' _ => if h' = h then { g with kind := .voidRange } else g
  | _ => g

/-- An outstanding offer after a void event for h. -/
def Offer.voidFor (o : Offer) (h : Handle) : Offer :=
  match o.kind with
  | .range h' => if h' = h then { o with kind := .voidRange } else o
  | _ => o

/-- One channel's gap scheduler takes a void event for h (R48). -/
def ChanState.voidFor (x : ChanState) (h : Handle) : ChanState :=
  { x with
    rangeQ := x.rangeQ.filter (fun h' => !(h' == h))
    gaps := x.gaps.map (·.voidFor h)
    offer := x.offer.map (·.voidFor h) }

/-- A void event for h taken by the gap scheduler of every channel (R48, R81). -/
def State.voidAll (s : State) (h : Handle) : State := s.modChans (·.voidFor h)

/-! ## Roster events (R62) -/

/-- The link unit of channel c takes a roster-join event for h (R62). -/
def State.rosterJoin (s : State) (c : Chan) (h : Handle) : State :=
  if s.isUp c = true ∧ h ∉ (s.chan c).roster ∧ Handle.wf h = true then
    (s.modChan c fun x => { x with roster := x.roster ++ [h] }).send c (.rosterJoin h)
  else s

/-- The link unit of channel c takes a roster-leave event for h (R62). -/
def State.rosterLeave (s : State) (c : Chan) (h : Handle) : State :=
  if h ∈ (s.chan c).roster then
    (s.modChan c fun x => { x with roster := x.roster.filter (fun h' => !(h' == h)) }).send c (.rosterLeave h)
  else s

/-! ## The range requests (R47) -/

/-- The gap names handle h and is not void. -/
def Gap.names (g : Gap) (h : Handle) : Bool :=
  match g.kind with
  | .range h' _ => h' == h
  | _ => false

/-- The offer names handle h and is not void. -/
def Offer.names (o : Offer) (h : Handle) : Bool :=
  match o.kind with
  | .range h' => h' == h
  | _ => false

/-- The channel holds range work for h: a request, the outstanding offer or a gap in flight. -/
def ChanState.hasWork (x : ChanState) (h : Handle) : Bool :=
  x.rangeQ.contains h || x.offer.any (·.names h) || x.gaps.any (·.names h)

/-- Some channel holds range work for h (the law of range work, R47). -/
def State.hasWork (s : State) (h : Handle) : Bool := Chan.all.any fun c => (s.chan c).hasWork h

/-- A range request for entry h on its home channel (R47). -/
def State.rangeRequest (s : State) (h : Handle) : State :=
  match s.term h with
  | none => s
  | some t =>
    if s.hasWork h then s else s.modChan t.home fun x => { x with rangeQ := x.rangeQ ++ [h] }

/-! ## The store check (R33 to R36) -/

/-- A flaw is offered to the first-error record (R36). -/
def State.offerFlaw (s : State) (k : FlawKind) (h : Handle) : State :=
  match s.firstError with
  | some _ => s
  | none => ({ s with firstError := some ⟨k, h⟩ }).raise (Notice.storeError h k)

/-- DISMISS (h) is queued on channel c for an entry that became DAMAGED: a DISMISS that the out-queue
cannot take is dropped (R34). -/
def State.dismissDamaged (s : State) (h : Handle) (c : Chan) : State := (s.offerMsg c (.dismiss h)).1

/-- The stored entry of handle h replaced. -/
def State.setEntry (s : State) (h : Handle) (e : Entry) : State :=
  { s with registry := s.registry.map fun x => if x.handle = h then e else x }

/-- Handle h leaves every channel's announced roster (R34, R62). -/
def State.leaveRosters (s : State) (h : Handle) : State := Chan.all.foldl (fun st c => st.rosterLeave c h) s

/-- The stored entry of handle h is DAMAGED and h leaves the retention list (R34). -/
def State.storeDamaged (s : State) (h : Handle) : State :=
  { s with
    registry := s.registry.map fun x => if x.handle = h then ⟨h, .sound, none⟩ else x
    retention := s.retention.filter (fun x => !(x == h)) }

/-- DISMISS (h) is queued on every UP channel (R34). -/
def State.dismissEverywhere (s : State) (h : Handle) : State :=
  Chan.all.foldl (fun st c => st.dismissDamaged h c) s

/-- Entry h becomes DAMAGED (R34). -/
def State.damage (s : State) (h : Handle) : State :=
  let s1 := (s.voidAll h).modChans fun x => { x with outq := removeAll h x.outq }
  (((s1.leaveRosters h).storeDamaged h).dismissEverywhere h).offerFlaw .uncorrectable h

/-- A block reads entry h with the store check (R33, R34): a correctable flaw is repaired in place and,
with the capture setting ALL, offered to the first-error record; an uncorrectable flaw makes the entry
DAMAGED. A free slot and a DAMAGED entry are not read. -/
def State.readEntry (s : State) (h : Handle) : State :=
  match s.entry h with
  | none => s
  | some e =>
    match e.term, e.flaw with
    | none, _ => s
    | some _, .sound => s
    | some _, .correctable =>
      let s1 := s.setEntry h { e with flaw := .sound }
      if s.tree.capture = .all then s1.offerFlaw .correctable h else s1
    | some _, .uncorrectable => s.damage h

/-! ## Entry transitions -/

/-- Entry h is freed (R22); with `notice` FREED is raised (a keep-tree restart raises none, R39). -/
def State.freeEntry (s : State) (h : Handle) (notice : Bool) : State :=
  let mark := (s.term h).map (·.mark)
  let s1 := (s.voidAll h).modChans fun x => { x with outq := removeAllButDismiss h x.outq }
  let s2 := { s1 with
    registry := s1.registry.filter (fun e => !(e.handle == h))
    retention := s1.retention.filter (fun x => !(x == h))
    fullLatch := false }
  if notice then s2.raise (Notice.freed h mark) else s2

/-- Entry h enters DISMISSING (R27). With its home channel not UP its DISMISS is neither queued nor owed, because the
next scan frees it (R24). -/
def State.enterDismissing (s : State) (h : Handle) : State :=
  match s.term h with
  | none => s
  | some t =>
    let s1 := if t.phase.isActive then s.rosterLeave t.home h else s
    let s2 := (s1.voidAll h).modTerm h fun u =>
      { u with owed := Owed.none, moveFlag := false, phase := .dismissing false (!s.isUp t.home) }
    s2.queueFor h (.dismiss h)

/-- Entry h enters LOST (R23). The notice is the cause's own. -/
def State.enterLost (s : State) (h : Handle) : State :=
  match s.term h with
  | none => s
  | some t =>
    let s1 := s.rosterLeave t.home h
    let s2 := { s1.modTerm h fun u => { u with moveFlag := false, phase := .lost t.phase.final 0 false } with
      retention := s1.retention ++ [h] }
    s2.queueFor h (.dismiss h)

/-- The registry takes a handle for a new entry: the lowest free one, after freeing the oldest entry of
the retention list when the pool is empty; none when the list is empty too (R21). The evicted entry is freed as it is
stored, without the store check, which Section 2.6 does not name for an eviction (DESIGN CHOICE, log entry 30). -/
def State.takeHandle (s : State) : State × Option Handle :=
  match s.lowestFree with
  | some h => (s, some h)
  | none =>
    match s.retention with
    | [] => (s, none)
    | oldest :: _ => (s.freeEntry oldest true, (s.freeEntry oldest true).lowestFree)

/-- The entry the registry creates for a mark (R21). -/
def newTerminal (m : Mark) (c : Chan) (coarse : Int) : Terminal where
  mark := m
  home := c
  estimate := coarse
  wasActive := false
  moveFlag := false
  heard := false
  owed := Owed.none
  phase := .enrolling 0 none

/-- The pending item of a mark. -/
def State.waitingItem (s : State) (m : Mark) : Option PendingItem := s.waiting.find? (·.mark == m)

/-- The item of a mark leaves the pending list, which clears the PENDING_FULL latch (R100). -/
def State.removeWaiting (s : State) (m : Mark) : State :=
  { s with waiting := s.waiting.filter (fun i => !(i.mark == m)), pendingFullLatch := false }

/-- The entry of handle h is created for mark m; the mark's pending item, if any, is removed in the same
update, so that no mark is both held by an entry and pending (R20, R21, R88, R103). -/
def State.createEntry (s : State) (h : Handle) (m : Mark) (c : Chan) (coarse : Int) : State :=
  let s1 := if (s.waitingItem m).isSome then s.removeWaiting m else s
  { s1 with registry := insertEntry ⟨h, .sound, some (newTerminal m c coarse)⟩ s1.registry }

/-- A new entry for mark m on channel c (R21): the state and the handle it took, if any. -/
def State.newEntry (s : State) (m : Mark) (c : Chan) (coarse : Int) : State × Option Handle :=
  match s.takeHandle with
  | (s1, none) => (s1, none)
  | (s1, some h) =>
    let s2 := (s1.createEntry h m c coarse).queueFor h (.enrol h m)
    (s2.raise (Notice.registered h c m), some h)

/-- The fields of an entry re-enrolled on channel c (R81, step 5). -/
def Terminal.reEnrolled (t : Terminal) (c : Chan) (coarse : Int) (retry : Nat) : Terminal :=
  { t with
    home := c
    estimate := coarse
    moveFlag := false
    owed := Owed.none
    phase := .enrolling retry t.phase.final }

/-- No final hand-out of an earlier ENROL for h waits to be taken: once a census reply has re-enrolled the entry,
the registry does not act on it (R90). -/
def State.forgetEnrol (s : State) (h : Handle) : State :=
  { s with
    events := s.events.filter fun e =>
      match e with
      | .finalHandOut _ .enrol h' => !(h' == h)
      | _ => true }

/-- Entry h is re-enrolled on channel c with a coarse round trip (R81): `remove` asks for the removal of
step 3, `announce` for the notice of step 7. A final hand-out of the entry's earlier ENROL that was composed and
not yet taken is not acted on (R90): it leaves the waiting events here, which is how the model realises that rule
(log entry 25). -/
def State.reEnrol (s : State) (h : Handle) (c : Chan) (coarse : Int) (retry : Nat) (remove announce : Bool) :
    State :=
  match s.term h with
  | none => s
  | some t =>
    let s1 := (s.forgetEnrol h).voidAll h
    let s2 := if t.phase.isActive then s1.rosterLeave t.home h else s1
    let s3 := if remove then s2.modChan t.home fun x => { x with outq := removeAll h x.outq } else s2
    let s4 := { s3.modTerm h fun u => u.reEnrolled c coarse retry with
      retention := if t.phase.isLost then s3.retention.filter (fun x => !(x == h)) else s3.retention }
    let s5 := s4.queueFor h (.enrol h t.mark)
    if announce then s5.raise (Notice.registered h c t.mark) else s5

end Sys2Proof.Machine
end

