-- ==== Sys2Proof/Machine/Ranging.lean ====
section
/-! DEFINITION. Directed ranging (Section 7): retries, range replies, gap closes, completion, failure and
activation. -/

namespace Sys2Proof.Machine

/-- The outcome that added the last retry of a failed attempt (R116). -/
inductive RangeOutcome where
  | noReply | mismatch | spreadFail | outOfReach | censusRestart
  deriving DecidableEq, Repr

/-- The outcome as the value of RANGE_FAILED (Table 12-9). -/
def RangeOutcome.code : RangeOutcome → Nat
  | .noReply => 1
  | .mismatch => 2
  | .spreadFail => 3
  | .outOfReach => 4
  | .censusRestart => 5

/-- The attempt of entry h fails (R116): the void event, RANGE_FAILED, then DISMISSING for a fresh entry,
LOST and with the move flag MOVE_FAILED for one that has been ACTIVE. -/
def State.failAttempt (s : State) (h : Handle) (o : RangeOutcome) : State :=
  match s.term h with
  | none => s
  | some t =>
    let s1 := (s.voidAll h).raise (Notice.rangeFailed h t.home o.code)
    if t.wasActive then
      let s2 := s1.enterLost h
      if t.moveFlag then s2.raise (Notice.moveRangingFailed h t.home) else s2
    else s1.enterDismissing h

/-- One retry is counted against the attempt of entry h; the attempt fails in the same event when the count
is R_max or more (R109). -/
def State.addRetry (s : State) (h : Handle) (o : RangeOutcome) : State :=
  match s.term h with
  | none => s
  | some t =>
    match t.phase.retry with
    | none => s
    | some n =>
      if s.tree.Rmax ≤ n + 1 then s.failAttempt h o
      else s.modTerm h fun u => { u with phase := u.phase.withRetry (n + 1) }

/-- The entry with its samples cleared (R114, R31). -/
def Terminal.clearSamples (t : Terminal) : Terminal :=
  match t.phase with
  | .ranging n _ f d => { t with phase := .ranging n [] f d }
  | _ => t

/-- The attempt of entry h is accepted with a final round trip (R115): the gap becomes void, the fill delay
is set, the entry becomes JOINING and SET DELAY is queued. -/
def State.acceptAttempt (s : State) (h : Handle) (final : Int) : State :=
  match s.term h with
  | none => s
  | some t =>
    let fill := fillDelay s.tree (s.chan t.home).skew final
    let s1 := (s.voidAll h).modTerm h fun u => { u with phase := .joining ⟨final, fill⟩ }
    s1.queueFor h (.setDelay h fill)

/-- An append has brought the samples to n_conf or more: the attempt completes (R114). -/
def State.completeAttempt (s : State) (h : Handle) (samples : List Int) : State :=
  match s.term h with
  | none => s
  | some t =>
    match completion s.tree (s.chan t.home).skew samples with
    | .spreadFail => ((s.bump t.home .spreadFail).modTerm h Terminal.clearSamples).addRetry h .spreadFail
    | .reachFail => ((s.bump t.home .outOfReach).modTerm h Terminal.clearSamples).addRetry h .outOfReach
    | .accepted final => s.acceptAttempt h final

/-- A sample is appended to entry h; the attempt completes when they number n_conf or more (R110, R8). -/
def State.appendSample (s : State) (h : Handle) (x : Int) : State :=
  match s.term h with
  | none => s
  | some t =>
    match t.phase with
    | .ranging n smp f d =>
      let s1 := s.modTerm h fun u => { u with phase := .ranging n (smp ++ [x]) f d }
      if s.tree.nConf ≤ (smp ++ [x]).length then s1.completeAttempt h (smp ++ [x]) else s1
    | _ => s

/-- A reply judged a mismatch (R110). -/
def State.mismatch (s : State) (c : Chan) (h : Handle) : State := (s.bump c .mismatch).addRetry h .mismatch

/-- Reply seen is set in the gap of the given tag on channel c (R49, R110). -/
def State.setSeen (s : State) (c : Chan) (tag : Tag) : State :=
  s.modChan c fun x => { x with
    gaps := x.gaps.map fun g =>
      if g.tag = tag then
        match g.kind with
        | .range h _ => { g with kind := .range h true }
        | _ => g
      else g }

/-- Entry h's heard flag is set. -/
def State.setHeard (s : State) (h : Handle) : State := s.modTerm h fun t => { t with heard := true }

/-- The ranging unit takes a range reply routed to gap g of handle h on channel c (R110, R111, R35). -/
def State.takeRangeReply (s : State) (c : Chan) (g : Gap) (h : Handle) (seen : Bool) (a : Arrival) : State :=
  let s1 := s.readEntry h
  match s1.term h with
  | none => s1.bump c .strayArrival
  | some t =>
    if seen then s1.bump c .strayArrival
    else
      let s2 := s1.setSeen c g.tag
      if a.status ≠ .clean ∨ a.handle.toNat ≠ h then s2.mismatch c h
      else
        let s3 := s2.setHeard h
        match rangeSample s.tree (s.chan c).skew t.estimate g.refCycle g.start g.len a with
        | none => s3.mismatch c h
        | some x => s3.appendSample h x

/-- The ranging unit takes a gap-close event for handle h on channel c (R112). -/
def State.gapCloseEvent (s : State) (c : Chan) (h : Handle) (seen : Bool) : State :=
  let s1 := s.readEntry h
  match s1.term h with
  | none => s1
  | some t =>
    match t.phase with
    | .ranging n _ _ _ =>
      if seen then s1.rangeRequest h
      else
        let s2 := (s1.bump c .noReply).addRetry h .noReply
        if s.tree.Rmax ≤ n + 1 then s2 else s2.rangeRequest h
    | _ => s1

/-- The activation of a JOINING entry h at the final hand-out of SET DELAY or RESUME (R117, R123). -/
def State.activate (s : State) (h : Handle) : State :=
  match s.term h with
  | none => s
  | some t =>
    match t.phase with
    | .joining fix =>
      let s1 := s.modTerm h fun u => { u with
        phase := .active fix (freshDrift u.owed) 0
        wasActive := true
        heard := false
        moveFlag := false }
      let s2 := (s1.rosterJoin t.home h).raise (Notice.activated h t.home fix.fill)
      if t.moveFlag then s2.raise (Notice.moveDone h t.home) else s2
    | _ => s

/-- Entry h enters RANGING for a re-ranging, a RERANGE or a completed move: retry count 0, no samples, the
final round trip and the fill delay kept (Table 7-1). -/
def Terminal.reRanged (t : Terminal) (estimate : Int) : Terminal :=
  { t with estimate := estimate, phase := .ranging 0 [] t.phase.final t.phase.fill }

end Sys2Proof.Machine
end

