-- ==== Sys2Proof/Machine/Gaps.lean ====
section
/-! DEFINITION. The gap scheduler (Sections 3.4 to 3.8): tags, offers, placement, declines, closing, lapse
and the census due state. -/

namespace Sys2Proof.Machine

/-! ## Spans and tags -/

/-- The candidate span of a gap with reference cycle m overlaps the span of gap g (R50). -/
def overlaps (L : Nat) (m : Cyc) (start len : Nat) (g : Gap) : Bool :=
  let shift : Int := (m - g.refCycle).toNat * L
  let lo : Int := g.start - shift
  decide (0 < len) && decide (0 < g.len) && decide ((start : Int) < lo + g.len) && decide (lo < (start : Int) + len)

/-- The tag is that of a gap in flight or stands in the lapsed-tag list (R51). -/
def ChanState.tagBusy (x : ChanState) (t : Tag) : Bool := x.gaps.any (·.tag == t) || x.lapsed.contains t

/-- The first tag from t on that is not busy, trying at most `fuel` more (R51). -/
def ChanState.freeTagFrom (x : ChanState) : Nat → Tag → Tag
  | 0, t => t
  | fuel + 1, t => if x.tagBusy t then x.freeTagFrom fuel (t + 1) else t

/-- The tag the next offer takes (R51). -/
def ChanState.nextTag (x : ChanState) : Tag := x.freeTagFrom 255 x.tagCtr

/-- A census gap is in flight. -/
def ChanState.censusInFlight (x : ChanState) : Bool :=
  x.gaps.any fun g => match g.kind with | .census _ => true | _ => false

/-- The number of range gaps in flight, void ones included (R49). -/
def ChanState.rangeGaps (x : ChanState) : Nat :=
  (x.gaps.filter fun g => match g.kind with | .census _ => false | _ => true).length

/-! ## The offer choice (R52) -/

/-- The range request queue once an offer of the given kind is made: the handle of a range offer leaves it
(R52 (b)). -/
def requestsLeft (k : OfferKind) (q : List Handle) : List Handle :=
  match k with
  | .range h => q.filter fun h' => !(h' == h)
  | _ => q

/-- An offer with the given span is made in the reply to cycle n: it takes the tag of R51, becomes
outstanding, and a range offer's handle leaves the queue (R46, R51, R52, R53). -/
def State.makeOffer (s : State) (c : Chan) (n : Cyc) (k : OfferKind) (span : Nat × Nat) : State :=
  s.modChan c fun x => { x with
    rangeQ := requestsLeft k x.rangeQ
    offer := some {
      tag := x.nextTag
      kind := k
      refCycle := n + 2
      start := span.1
      len := span.2
      endCycle := endCycle s.tree.L (n + 2) span.1 span.2 }
    tagCtr := x.nextTag + 1 }

/-- A census offer in the reply to cycle n (R9, R52). -/
def State.offerCensus (s : State) (c : Chan) (n : Cyc) : State :=
  s.makeOffer c n .census (censusSpan s.tree (s.chan c).skew)

/-- The range span of entry h on channel c fits beside every gap in flight there (R52 (b)). -/
def State.rangeFits (s : State) (c : Chan) (n : Cyc) (h : Handle) (t : Terminal) : Bool :=
  let span := rangeSpan s.tree (s.chan c).skew t.estimate
  (s.chan c).gaps.all fun g => !(overlaps s.tree.L (n + 2) span.1 span.2 g) && !(g.names h)

/-- The search of R52 (b) through the handles of the queue from its head: each entry is read with the
store check, and the first one that fits is offered and leaves the queue. -/
def State.offerRange (s : State) (c : Chan) (n : Cyc) : List Handle → State
  | [] => s
  | h :: hs =>
    let s1 := s.readEntry h
    match s1.term h with
    | none => s1.offerRange c n hs
    | some t =>
      if s1.rangeFits c n h t then
        s1.makeOffer c n (.range h) (rangeSpan s1.tree (s1.chan c).skew t.estimate)
      else s1.offerRange c n hs

/-- The choice of at most one offer in the service of cycle n, with no offer outstanding (R52). A due
census is offered also after a search of case (b) that offers nothing (DEDUCED, log entry 18). -/
def State.chooseOffer (s : State) (c : Chan) (n : Cyc) : State :=
  let x := s.chan c
  if x.due = true ∧ Config.overdueAge ≤ x.dueAge then
    if x.gaps.isEmpty then s.offerCensus c n else s
  else
    let s1 := if x.censusInFlight = false ∧ x.rangeGaps < Config.maxRangeGaps then s.offerRange c n x.rangeQ else s
    if (s1.chan c).offer.isNone = true ∧ (s1.chan c).due = true ∧ (s1.chan c).gaps.isEmpty = true then
      s1.offerCensus c n
    else s1

/-! ## Census due state (R58, R59) -/

/-- Census becomes due; from not due, the due age becomes 0 (R58). -/
def ChanState.makeDue (x : ChanState) : ChanState := { x with due := true, dueAge := if x.due then x.dueAge else 0 }

/-- CENSUS_QUIET is raised and the quiet-pending flag cleared, when the flag is set (R59). -/
def State.quiet (s : State) (c : Chan) : State :=
  if (s.chan c).quietPending then
    (s.modChan c fun x => { x with quietPending := false }).raise (Notice.censusQuiet c)
  else s

/-- Step 4 of a service: the period counter rises, census becomes due when it reaches the period in
PERIODIC mode, and the due age of a census due before this step rises (R58). -/
def ChanState.bookkeeping (x : ChanState) : ChanState :=
  let ctr := satSucc x.periodCtr
  let x1 := { x with periodCtr := ctr }
  if x.due then { x1 with dueAge := satSucc x.dueAge }
  else if x.mode = .periodic ∧ x.period ≤ ctr then x1.makeDue
  else x1

/-- The part of step 4 that makes census due (R58), taken by itself: in PERIODIC mode, with the raised
counter at or above the period. -/
def ChanState.periodDue (x : ChanState) : ChanState :=
  if x.mode = .periodic ∧ x.period ≤ satSucc x.periodCtr then
    ({ x with periodCtr := satSucc x.periodCtr }).makeDue
  else x

/-! ## Declines and expiry (R53, R55) -/

/-- The handle of a non-void range offer. -/
def Offer.rangeHandle (o : Offer) : Option Handle :=
  match o.kind with
  | .range h => some h
  | _ => none

/-- A declined or expired offer ends without a gap: a range offer that is not void returns its handle to the
head of the queue, a census offer under quiet-pending ends the census (R55). -/
def State.declineOffer (s : State) (c : Chan) (o : Offer) : State :=
  let s1 := s.modChan c fun x => { x with offer := none, rangeQ := o.rangeHandle.toList ++ x.rangeQ }
  let s2 :=
    if o.kind = .census ∧ (s1.chan c).quietPending = true then
      (s1.modChan c fun x => { x with due := false }).quiet c
    else s1
  let s3 := (s2.modChan c fun x => { x with declineStreak := satSucc x.declineStreak }).bump c .declines
  if Config.starvedStreak ≤ (s3.chan c).declineStreak ∧ (s3.chan c).starved = false then
    (s3.modChan c fun x => { x with starved := true }).raise (Notice.gapStarved c)
  else s3

/-- The offer's reference cycle is n or a cycle before n (R53). -/
def Offer.expired (o : Offer) (n : Cyc) : Bool := o.refCycle == n || !atOrAfter o.refCycle n

/-- The expiry check of step 3 of the service of cycle n (R53). -/
def State.expireOffer (s : State) (c : Chan) (n : Cyc) : State :=
  match (s.chan c).offer with
  | some o => if o.expired n then s.declineOffer c o else s
  | none => s

/-- Step 3 of the service of cycle n: expiry, then the choice when no offer is outstanding (R46). The
answer is the offer the reply carries. -/
def State.offerStep (s : State) (c : Chan) (n : Cyc) : State × Option Offer :=
  let s1 := s.expireOffer c n
  match (s1.chan c).offer with
  | some _ => (s1, none)
  | none =>
    let s2 := s1.chooseOffer c n
    (s2, (s2.chan c).offer)

/-! ## Placement (R54) -/

/-- The gap record of a placed offer (R49, R54). -/
def Offer.placed (o : Offer) : Gap where
  tag := o.tag
  kind :=
    match o.kind with
    | .census => .census []
    | .range h => .range h false
    | .voidRange => .voidRange
  refCycle := o.refCycle
  start := o.start
  len := o.len
  endCycle := o.endCycle

/-- The outstanding offer o is placed (R54). -/
def ChanState.place (x : ChanState) (o : Offer) : ChanState :=
  let x1 := { x with gaps := x.gaps ++ [o.placed], offer := none, declineStreak := 0, starved := false }
  match o.kind with
  | .census => { x1 with due := false, dueAge := 0, periodCtr := 0 }
  | _ => x1

/-- The link unit of channel c takes a PLACE RESULT (R54, R55). -/
def State.takePlaceResult (s : State) (c : Chan) (tag : Tag) (placed : Bool) : State :=
  if s.isUp c then
    match (s.chan c).offer with
    | some o =>
      if o.tag = tag then
        if placed then s.modChan c (·.place o) else s.declineOffer c o
      else s.bump c .unalignedRecord
    | none => s.bump c .unalignedRecord
  else s.bump c .unalignedRecord

/-! ## Closing and lapse (R56, R57) -/

/-- Gap g leaves the in-flight table and its close is passed on (R56). -/
def State.closeGap (s : State) (c : Chan) (g : Gap) : State :=
  let s1 := s.modChan c fun x => { x with gaps := x.gaps.filter fun g' => !(g'.tag == g.tag) }
  match g.kind with
  | .range h seen => s1.gapCloseEvent c h seen
  | .voidRange => s1
  | .census _ => s1.quiet c

/-- The gap in flight with a tag. -/
def ChanState.gapOf (x : ChanState) (tag : Tag) : Option Gap := x.gaps.find? (·.tag == tag)

/-- The link unit of channel c takes a GAP CLOSED (R56). -/
def State.takeGapClosed (s : State) (c : Chan) (tag : Tag) : State :=
  if s.isUp c then
    match (s.chan c).gapOf tag with
    | some g => s.closeGap c g
    | none =>
      if (s.chan c).lapsed.contains tag then
        s.modChan c fun x => { x with lapsed := x.lapsed.filter fun t => !(t == tag) }
      else s.bump c .unalignedRecord
  else s.bump c .unalignedRecord

/-- The gap has lapsed at the service of cycle n (R57, R3). -/
def Gap.lapsedAt (g : Gap) (n : Cyc) : Bool := atOrAfter n (g.endCycle + Config.lapseCycles)

/-- A lapsed tag joins the lapsed-tag list, the oldest leaving first when four stand there (R51). -/
def pushLapsed (tag : Tag) (l : List Tag) : List Tag :=
  (if Config.lapsedListSize ≤ l.length then l.drop 1 else l) ++ [tag]

/-- The gap of one tag lapses (R57). -/
def State.lapseOne (s : State) (c : Chan) (tag : Tag) : State :=
  match (s.chan c).gapOf tag with
  | some g => ((s.closeGap c g).modChan c fun x => { x with lapsed := pushLapsed tag x.lapsed }).bump c .lapses
  | none => s

/-- Step 2 of the service of cycle n: the lapsed gaps are closed in the order of placement (R57). -/
def State.lapseCheck (s : State) (c : Chan) (n : Cyc) : State :=
  (((s.chan c).gaps.filter (·.lapsedAt n)).map (·.tag)).foldl (fun st tag => st.lapseOne c tag) s

end Sys2Proof.Machine
end

