-- ==== Sys2Proof/Machine/Admission.lean ====
section
/-! DEFINITION. The admission unit (Section 6): the admission table, the pending list and the verdicts on
unknown marks, with the registration of a mark by the census unit (R88, R89). -/

namespace Sys2Proof.Machine

/-! ## The admission table (R94 to R96) -/

/-- The table entry of a mark. -/
def tableFind (m : Mark) (l : List TableEntry) : Option TableEntry := l.find? (·.mark == m)

/-- The table with the mark's entry given a policy and the seen flag no, in its place (R95, R104). -/
def tableReload (m : Mark) (p : TablePolicy) (l : List TableEntry) : List TableEntry :=
  l.map fun e => if e.mark = m then { e with policy := p, seen := false } else e

/-- The table with the mark's seen flag yes (R99). -/
def tableSeen (m : Mark) (l : List TableEntry) : List TableEntry :=
  l.map fun e => if e.mark = m then { e with seen := true } else e

/-- A mark loaded with a policy, or none when the table has no room for it (R95, R104). -/
def tableLoad (m : Mark) (p : TablePolicy) (l : List TableEntry) : Option (List TableEntry) :=
  match tableFind m l with
  | some _ => some (tableReload m p l)
  | none => if l.length < Config.tableSize then some (l ++ [⟨m, p, false⟩]) else none

/-! ## The pending list (R100 to R102) -/

/-- The item of a mark is refreshed (R101). -/
def State.refreshWaiting (s : State) (m : Mark) (c : Chan) (coarse : Int) : State :=
  { s with
    waiting := s.waiting.map fun i =>
      if i.mark = m then
        { i with chan := c, coarse := coarse, age := 0, answers := min (i.answers + 1) Config.count8 }
      else i }

/-- A mark under ASK is appended to the pending list, or found without room (R100). -/
def State.appendWaiting (s : State) (m : Mark) (c : Chan) (coarse : Int) : State :=
  if s.waiting.length < Config.pendingSize then
    ({ s with waiting := s.waiting ++ [(⟨m, c, coarse, 0, 1⟩ : PendingItem)] }).raise (Notice.pending m)
  else if s.pendingFullLatch then s
  else ({ s with pendingFullLatch := true }).raise (Notice.pendingFull c m)

/-- An item aged by one scan. -/
def PendingItem.aged (i : PendingItem) : PendingItem := { i with age := i.age + 1 }

/-- The pending list ages at a scan: items whose raised age is at or above A_hold leave, with
PENDING_EXPIRED raised in list order (R102). -/
def State.ageWaiting (s : State) : State :=
  let aged := s.waiting.map PendingItem.aged
  let gone := aged.filter fun i => decide (s.tree.aHold ≤ i.age)
  let s1 := { s with
    waiting := aged.filter fun i => !decide (s.tree.aHold ≤ i.age)
    pendingFullLatch := if gone.isEmpty then s.pendingFullLatch else false }
  gone.foldl (fun st i => st.raise (Notice.pendingExpired i.mark)) s1

/-! ## Verdicts (R98, R99) and registration (R88, R89) -/

/-- A mark handled as barred (R99). -/
def State.barredAnswer (s : State) (c : Chan) (m : Mark) : State :=
  let s1 := s.bump c .barredAnswer
  match tableFind m s.table with
  | some e => if e.seen then s1 else ({ s1 with table := tableSeen m s1.table }).raise (Notice.barredSeen c m)
  | none => s1

/-- A registration that finds no handle (R89). -/
def State.registrationFailed (s : State) (c : Chan) (m : Mark) : State :=
  let s1 := s.bump c .registryFull
  if s1.fullLatch then s1 else ({ s1 with fullLatch := true }).raise (Notice.registryFull c m)

/-- The census unit registers a mark under a register verdict: the pending item, if any, leaves as the
entry is created (`State.createEntry`) and is refreshed when no handle is found (R88, R89, R101). -/
def State.register (s : State) (c : Chan) (m : Mark) (coarse : Int) : State :=
  match s.newEntry m c coarse with
  | (s1, some _) => s1
  | (s1, none) => (s1.registrationFailed c m).refreshWaiting m c coarse

/-- The admission unit judges an unknown mark and the verdict is carried out (R87, R98). -/
def State.admission (s : State) (c : Chan) (m : Mark) (coarse : Int) : State :=
  match s.waitingItem m, (tableFind m s.table).map TableEntry.policy with
  | some _, some .letIn => s.register c m coarse
  | some _, some .bar => (s.removeWaiting m).barredAnswer c m
  | some _, none => s.refreshWaiting m c coarse
  | none, some .letIn => s.register c m coarse
  | none, some .bar => s.barredAnswer c m
  | none, none =>
    match s.tree.policy with
    | .openAll => s.register c m coarse
    | .ask => s.appendWaiting m c coarse
    | .closed => s.bump c .closedAnswer

end Sys2Proof.Machine
end

