-- ==== Sys2Proof/Machine/Census.lean ====
section
/-! DEFINITION. The census unit (Section 5): validation, the answer list, matching against the registry and
the outcomes. -/

namespace Sys2Proof.Machine

/-- What the eight checks of Table 5-1 answer: the first defect, or the coarse round trip. -/
inductive CensusVerdict where
  | defect (k : TallyKind)
  | sound (coarse : Int)
  deriving DecidableEq, Repr

/-- The checks of Table 5-1 in order, for a reply in a gap with answer list `answers` on a channel with
skew S (R77, R10, R11). -/
def censusVerdict (t : TreeSettings) (S : Int) (g : Gap) (answers : List Mark) (a : Arrival) : CensusVerdict :=
  let m := identityOf a.mark
  if a.status ≠ .clean then .defect .deliveryDefect
  else if xorBytes a.mark ≠ 0 then .defect .checkDefect
  else if isBlank m then .defect .blankMark
  else if t.Jmax < a.slot.toNat then .defect .holdoffRange
  else
    match elapsed t.L g.refCycle 0 a.startCycle a.startOffset.toNat with
    | none => .defect .outOfSpan
    | some E =>
      if !inSpan g.start g.len E t.Bd then .defect .outOfSpan
      else if !reachOk t S (coarseRoundTrip t S E a.slot.toNat) then .defect .outOfReach
      else if answers.contains m then .defect .duplicateInGap
      else if Config.answerListSize ≤ answers.length then .defect .answerOverflow
      else .sound (coarseRoundTrip t S E a.slot.toNat)

/-- The mark a DEFECT notice carries: the mark as received for a defect found at step 3 or later (R78). -/
def defectMark (k : TallyKind) (m : Mark) : Option Mark :=
  match k with
  | .deliveryDefect => none
  | .checkDefect => none
  | _ => some m

/-- A defect's tally, and with defect notices on its DEFECT notice (R77, R78). -/
def State.censusDefect (s : State) (c : Chan) (k : TallyKind) (m : Mark) : State :=
  let s1 := s.bump c k
  if s.tree.defectNotices then s1.raise (Notice.defect c (defectMark k m) k) else s1

/-- The mark is appended to the answer list of the gap with the given tag (R79). -/
def State.addAnswer (s : State) (c : Chan) (tag : Tag) (m : Mark) : State :=
  s.modChan c fun x => { x with
    gaps := x.gaps.map fun g =>
      if g.tag = tag then
        match g.kind with
        | .census answers => { g with kind := .census (answers ++ [m]) }
        | _ => g
      else g }

/-- Every entry is read with the store check, in handle order (R80). -/
def State.readAll (s : State) : State := s.heldHandles.foldl (fun st h => st.readEntry h) s

/-- The entry, not DAMAGED, whose mark is m, searched in handle order (R20, R80). -/
def State.findMark (s : State) (m : Mark) : Option (Handle × Terminal) :=
  s.heldHandles.findSome? fun h => ((s.term h).filter fun t => t.mark == m).map fun t => (h, t)

/-- A census reply for an ENROLLING or RANGING entry: a restart, a rehome or a failed attempt (R83). -/
def State.censusRestart (s : State) (c : Chan) (h : Handle) (t : Terminal) (retry : Nat) (coarse : Int) : State :=
  let away := decide (t.home ≠ c)
  if retry + 1 < s.tree.Rmax then s.reEnrol h c coarse (retry + 1) away away
  else
    let s1 := s.voidAll h
    let s2 := if away then s1.modChan t.home fun x => { x with outq := removeAll h x.outq } else s1
    (s2.modTerm h fun u => { u with home := c }).failAttempt h .censusRestart

/-- A mark conflict (R85). -/
def State.markConflict (s : State) (c : Chan) (h : Handle) (m : Mark) : State :=
  (s.bump c .markConflict).raise (Notice.markConflict h c m)

/-- The outcome for the entry h that holds the mark of a sound reply (R82 to R86). -/
def State.matched (s : State) (c : Chan) (h : Handle) (t : Terminal) (coarse : Int) : State :=
  match t.phase with
  | .lost .. => s.reEnrol h c coarse 0 (decide (t.home ≠ c)) true
  | .enrolling n _ => s.censusRestart c h t n coarse
  | .ranging n _ _ _ => s.censusRestart c h t n coarse
  | .dismissing .. => s
  | _ => if t.heard then s.markConflict c h t.mark else s.reEnrol h c coarse 0 true true

/-- The census unit takes a census reply routed to gap g on channel c (R76 to R89). -/
def State.takeCensusReply (s : State) (c : Chan) (g : Gap) (answers : List Mark) (a : Arrival) : State :=
  let m := identityOf a.mark
  match censusVerdict s.tree (s.chan c).skew g answers a with
  | .defect k => s.censusDefect c k m
  | .sound coarse =>
    let s1 := (s.addAnswer c g.tag m).readAll
    match s1.findMark m with
    | some (h, t) => s1.matched c h t coarse
    | none => s1.admission c m coarse

end Sys2Proof.Machine
end

