-- ==== Sys2Proof/Machine/Drift.lean ====
section
/-! DEFINITION. The drift unit (Section 8) and the routing of arrivals (R61). -/

namespace Sys2Proof.Machine

/-- The streak after a clean offset e that is no jump (R128). -/
def streakAfter (Z : Nat) (st : Option Streak) (e : Int) : Option Streak :=
  if e.natAbs ≤ Z then none
  else
    match st with
    | some x =>
      if x.positive = decide (0 < e) then some ⟨x.positive, x.count + 1, x.sum + e⟩ else some ⟨decide (0 < e), 1, e⟩
    | none => some ⟨decide (0 < e), 1, e⟩

/-- ACTIVE entry h goes back to ranging with an estimate (R126). -/
def State.driftRerange (s : State) (h : Handle) (estimate : Int) : State :=
  match s.term h with
  | none => s
  | some t =>
    let s1 := (s.rosterLeave t.home h).modTerm h fun u => u.reRanged estimate
    let s2 := (s1.queueFor h (.hush h)).rangeRequest h
    (s2.bump t.home .reranges).raise (Notice.driftRerange h t.home estimate)

/-- A completed streak with the given sum: the trim is made (R16, R129) or refused (R130). -/
def State.driftTrim (s : State) (h : Handle) (t : Terminal) (fix : Fix) (d : Drift) (missed : Nat) (sum : Int) :
    State :=
  let ch := trimOf s.tree sum
  if reachOk s.tree (s.chan t.home).skew (fix.final + ch) then
    let s1 := s.modTerm h fun u => { u with
      phase := .active ⟨fix.final + ch, fix.fill - ch⟩ { d with streak := none, trimPending := some (-ch) } missed }
    (s1.bump t.home .trims).queueFor h (.trimDelay h (-ch))
  else s.driftRerange h fix.final

/-- A clean offset e of ACTIVE entry h (R125, R127 to R130). -/
def State.driftOffset (s : State) (h : Handle) (t : Terminal) (fix : Fix) (d : Drift) (missed : Nat) (e : Int) :
    State :=
  if d.trimPending.isSome || t.owed.trim.isSome then s
  else if 0 < d.settle then
    s.modTerm h fun u => { u with phase := .active fix { d with settle := d.settle - 1 } missed }
  else if s.tree.Ejump < e.natAbs then s.driftRerange h (clampEstimate (fix.final + e))
  else
    match streakAfter s.tree.Z d.streak e with
    | none => s.modTerm h fun u => { u with phase := .active fix { d with streak := none } missed }
    | some st =>
      if s.tree.V ≤ st.count then s.driftTrim h t fix d missed st.sum
      else s.modTerm h fun u => { u with phase := .active fix { d with streak := some st } missed }

/-- The drift unit takes a data burst on UP channel c (R124). -/
def State.takeDataBurst (s : State) (c : Chan) (a : Arrival) : State :=
  let h := a.handle.toNat
  if h ∈ (s.chan c).roster then
    let s1 := s.readEntry h
    match s1.term h with
    | none => s1.bump c .strayArrival
    | some t =>
      match t.phase with
      | .active fix d missed =>
        let s2 := s1.setHeard h
        if a.status = .clean then s2.driftOffset h t fix d missed a.offset.toInt else s2
      | _ => s1.bump c .strayArrival
  else s.bump c .strayArrival

/-- The link unit of channel c takes an ARRIVAL and routes it by its kind (R61). -/
def State.takeArrival (s : State) (c : Chan) (a : Arrival) : State :=
  if s.isUp c then
    match a.kind with
    | .data => s.takeDataBurst c a
    | .census =>
      match (s.chan c).gapOf a.tag with
      | some g =>
        match g.kind with
        | .census answers => s.takeCensusReply c g answers a
        | _ => s.bump c .strayArrival
      | none => s.bump c .strayArrival
    | .range =>
      match (s.chan c).gapOf a.tag with
      | some g =>
        match g.kind with
        | .range h seen => s.takeRangeReply c g h seen a
        | _ => s.bump c .strayArrival
      | none => s.bump c .strayArrival
  else s.bump c .strayArrival

end Sys2Proof.Machine
end

