-- ==== Sys2Proof/Machine/Events.lean ====
section
/-! DEFINITION. The internal events and the meanings of the commands that take one: final hand-outs (R25),
out-queue reports (R69), void and roster events (R48, R62) and channel exits (R31, R32, R148, R149). -/

namespace Sys2Proof.Machine

/-! ## Final hand-outs (R25) -/

/-- ENROL's final hand-out: the entry enters RANGING with its retry count kept, and its range request is
made (R25, R108). -/
def State.enrolDone (s : State) (h : Handle) (retry : Nat) (final : Option Int) : State :=
  (s.modTerm h fun u => { u with phase := .ranging retry [] final none }).rangeRequest h

/-- TRIM DELAY's final hand-out: the trim settles (R131). Trim-pending is cleared, or, while TRIM DELAY stays owed, set
with the owed trim change, as R123 has it wherever a rule clears it (DEDUCED, log entry 28). -/
def State.trimSettle (s : State) (h : Handle) (fix : Fix) (d : Drift) (missed : Nat) : State :=
  s.modTerm h fun u => { u with
    phase := .active fix { d with trimPending := u.owed.trim, settle := Config.settleCount } missed }

/-- RETUNE's final hand-out: the entry is homed on the target and enters RANGING there (R146). -/
def State.moveComplete (s : State) (h : Handle) (fix : Fix) (target : Chan) : State :=
  let s1 := s.modTerm h fun u =>
    { (u.reRanged fix.final) with home := target, owed := { u.owed with trim := Option.none } }
  let s2 := s1.modChan target fun x => { x with outq := removeKind .dismiss h x.outq }
  s2.rangeRequest h

/-- The registry takes a final-hand-out event: it acts when the entry is in the state of Table 2-6 and
homed on the event's channel, and ignores any other (R25). An ENROL's hand-out composed before a census reply
re-enrolled the entry no longer waits here (`State.forgetEnrol`, R90); a FINAL_HAND_OUT_EVENT command that no waiting
event matches is taken as R25 says (log entries 5 and 25). -/
def State.takeFinalHandOut (s : State) (c : Chan) (k : MsgKind) (h : Handle) : State :=
  let s1 := s.readEntry h
  match s1.term h with
  | none => s1
  | some t =>
    if t.home = c then
      match k, t.phase with
      | .enrol, .enrolling n f => s1.enrolDone h n f
      | .setDelay, .joining _ => s1.activate h
      | .resume, .joining _ => s1.activate h
      | .trimDelay, .active fix d missed => if d.trimPending.isSome then s1.trimSettle h fix d missed else s1
      | .retune, .retuning fix target => s1.moveComplete h fix target
      | .dismiss, .dismissing _ due => s1.modTerm h fun u => { u with phase := .dismissing true due }
      | .dismiss, .lost f age _ => s1.modTerm h fun u => { u with phase := .lost f age true }
      | _, _ => s1
    else s1

/-! ## Channel exits (R31, R32, R148, R149) -/

/-- The first step of a cancelled move: an owed RETUNE leaves the owed set, else the source's out-queue is asked
to remove it (R148). -/
def State.withdrawRetune (s : State) (h : Handle) (t : Terminal) : State :=
  if t.owed.retune then s.modTerm h fun u => { u with owed := { u.owed with retune := false } }
  else s.modChan t.home fun x => { x with outq := removeKind .retune h x.outq }

/-- The target of RETUNING entry h left UP: the move is cancelled (R148). -/
def State.cancelMove (s : State) (h : Handle) (t : Terminal) (fix : Fix) : State :=
  let s1 := (s.withdrawRetune h t).modTerm h fun u => { u with
    moveFlag := false
    phase := .active fix (freshDrift u.owed) 0 }
  (s1.rosterJoin t.home h).raise (Notice.moveTargetDown h t.home)

/-- The exit of channel c concerns this entry: it is homed there, or RETUNING with c its target (R31,
R32). -/
def Terminal.exitConcerns (t : Terminal) (c : Chan) : Bool :=
  decide (t.home = c) ||
    match t.phase with
    | .retuning _ target => decide (target = c)
    | _ => false

/-- The registry's part of channel c's exit for entry h (R31, R32, R148, R149). -/
def State.exitEntry (s : State) (c : Chan) (h : Handle) : State :=
  match s.term h with
  | none => s
  | some t0 =>
    if t0.exitConcerns c then
      let s1 := s.readEntry h
      match s1.term h with
      | none => s1
      | some t =>
        match t.phase with
        | .ranging .. => s1.modTerm h Terminal.clearSamples
        | .active fix _ missed => s1.modTerm h fun u => { u with phase := .active fix (freshDrift u.owed) missed }
        | .retuning fix target => if target = c then s1.cancelMove h t fix else s1
        | .dismissing sent _ => s1.modTerm h fun u => { u with phase := .dismissing sent true }
        | _ => s1
    else s

/-- The registry takes the channel-exit event of channel c for the entries R31 and R32 concern. No rule orders them; the
model takes them in handle order, which orders the MOVE_FAILED notices and ROSTER JOIN records of several moves that one
exit cancels (DESIGN CHOICE, log entry 29). -/
def State.takeChannelExit (s : State) (c : Chan) : State := s.heldHandles.foldl (fun st h => st.exitEntry c h) s

/-! ## Taking an event -/

/-- One channel's gap scheduler takes a void event (R48). -/
def State.takeVoid (s : State) (c : Chan) (h : Handle) : State := s.modChan c (·.voidFor h)

/-- An internal event is taken by the block it is composed for. -/
def State.takeEvent (s : State) (e : Event) : State :=
  match e with
  | .finalHandOut c k h => s.takeFinalHandOut c k h
  | .report why c k h => s.takeReport why c k h
  | .void c h => s.takeVoid c h
  | .rosterJoin c h => s.rosterJoin c h
  | .rosterLeave c h => s.rosterLeave c h
  | .channelExit c => s.takeChannelExit c

/-- The event leaves the waiting ones, if it waits there, and is taken; so it is while RESET is asserted, which stops
records, requests and the scan timer alone (R159; DESIGN CHOICE, log entry 23). -/
def State.deliver (s : State) (e : Event) : State := (s.dropEvent e).takeEvent e

/-- Every event composed and not yet taken is taken (R39). R39 gives no order among them; the model takes them oldest
first (DESIGN CHOICE, log entry 1). -/
def State.takeAllEvents (s : State) : State :=
  s.events.foldl (fun st e => st.takeEvent e) { s with events := [] }

/-! ## Meanings -/

/-- FINAL_HAND_OUT_EVENT (R25, R117, R131, R146). -/
def execFinalHandOutEvent (c : Chan) (k : MsgKind) (h : Handle) (s : State) : Host.Outcome State Fault Refusal :=
  .next (s.deliver (.finalHandOut c k h))

/-- OUT_QUEUE_REPORT (R69, R66, R31, R32). -/
def execOutQueueReport (why : ReportCause) (c : Chan) (k : MsgKind) (h : Handle) (s : State) :
    Host.Outcome State Fault Refusal :=
  .next (s.deliver (.report why c k h))

/-- VOID_EVENT (R48). -/
def execVoidEvent (c : Chan) (h : Handle) (s : State) : Host.Outcome State Fault Refusal :=
  .next (s.deliver (.void c h))

/-- ROSTER_JOIN_EVENT (R62). -/
def execRosterJoinEvent (c : Chan) (h : Handle) (s : State) : Host.Outcome State Fault Refusal :=
  .next (s.deliver (.rosterJoin c h))

/-- ROSTER_LEAVE_EVENT (R62). -/
def execRosterLeaveEvent (c : Chan) (h : Handle) (s : State) : Host.Outcome State Fault Refusal :=
  .next (s.deliver (.rosterLeave c h))

/-- CHANNEL_EXIT_EVENT (R31, R32, R148, R149). -/
def execChannelExitEvent (c : Chan) (s : State) : Host.Outcome State Fault Refusal :=
  .next (s.deliver (.channelExit c))

end Sys2Proof.Machine
end

