-- ==== Sys2Proof/Machine/Links.lean ====
section
/-! DEFINITION. The channel link units (Sections 3.2, 3.3): the link state machine, leaving UP, the service
of a cycle, and the meanings of the channel link records and of the events inside a service. -/

namespace Sys2Proof.Machine

/-! ## Link states (R40 to R45) -/

/-- The link state becomes l, with CHANNEL_STATE raised (R40); DOWN and MISMATCHED hold silence count 0. -/
def State.setLink (s : State) (c : Chan) (l : LinkState) : State :=
  let quietCount : Nat → Nat := fun n =>
    match l with
    | .down => 0
    | .mismatched => 0
    | _ => n
  (s.modChan c fun x => { x with link := l, silence := quietCount x.silence }).raise (Notice.channelState c l)

/-- The handle of a non-void range gap. -/
def Gap.rangeHandle (g : Gap) : Option Handle :=
  match g.kind with
  | .range h _ => some h
  | _ => none

/-- The gap scheduler's and the out-queue's part of leaving UP (R45): abandoned gaps and the range offer
return to the head of the queue. -/
def ChanState.leaveUp (x : ChanState) : ChanState :=
  { x with
    rangeQ := (x.offer.bind Offer.rangeHandle).toList ++ x.gaps.filterMap Gap.rangeHandle ++ x.rangeQ
    offer := none
    gaps := []
    lapsed := []
    dueAge := 0
    outq := []
    roster := [] }

/-- The reports of an emptied out-queue: one for each message whose report flag is yes (R66). -/
def discardReports (c : Chan) (q : List QMsg) : List Event :=
  (q.filter (·.report)).map fun m => Event.report .discarded c m.msg.kind m.msg.handle

/-- Channel c leaves UP for link state l (R45): the channel-exit event and the reports of the emptied
out-queue are composed for the registry. -/
def State.leaveUp (s : State) (c : Chan) (l : LinkState) : State :=
  let evs := Event.channelExit c :: discardReports c (s.chan c).outq
  let s1 := (s.modChan c ChanState.leaveUp).quiet c
  ({ s1 with events := s1.events ++ evs }).setLink c l

/-- The link goes to state l, leaving UP when it was UP. -/
def State.goTo (s : State) (c : Chan) (l : LinkState) : State :=
  if s.isUp c then s.leaveUp c l else s.setLink c l

/-- The link unit of channel c takes a HELLO (R41). -/
def State.takeHello (s : State) (c : Chan) (len : BitVec 24) (cur : Cyc) : State :=
  if len.toNat = s.tree.L then
    let s1 :=
      match (s.chan c).link with
      | .aligning .. => s.modChan c fun x => { x with link := .aligning cur 1 }
      | _ => s.goTo c (.aligning cur 1)
    (s1.modChan c fun x => { x with silence := 0, cycleSeen := true }).send c (.helloAck true s.tree.L)
  else
    let s1 := if (s.chan c).link = .mismatched then s else s.goTo c .mismatched
    s1.send c (.helloAck false s.tree.L)

/-- The link unit of channel c takes a LINK DOWN (R44). -/
def State.takeLinkDown (s : State) (c : Chan) : State :=
  if (s.chan c).link = .down then s else s.goTo c .down

/-- An ACTIVE entry homed on c is read and announced as the link becomes UP (R42, R62). -/
def State.announce (s : State) (c : Chan) (h : Handle) : State :=
  match s.term h with
  | none => s
  | some t =>
    if t.phase.isActive = true ∧ t.home = c then
      let s1 := s.readEntry h
      if (s1.term h).isSome then s1.rosterJoin c h else s1
    else s

/-- The gap scheduler's part of becoming UP (R42, R58). -/
def ChanState.becomeUp (x : ChanState) : ChanState :=
  let x1 := { x with dueAge := 0, declineStreak := 0, starved := false }
  if x.mode = .periodic then { x1 with due := true, periodCtr := 0 } else x1

/-- The alignment count reaches 4 at cycle n: the link becomes UP and announces its roster (R42). -/
def State.alignmentComplete (s : State) (c : Chan) (n : Cyc) : State :=
  let s1 := (s.setLink c (.up n)).modChan c ChanState.becomeUp
  s1.heldHandles.foldl (fun st h => st.announce c h) s1

/-- A CYCLE n taken in ALIGNING (R42). -/
def State.takeCycleAligning (s : State) (c : Chan) (last : Cyc) (count : Nat) (n : Cyc) : State :=
  let count' := if n = last + 1 then count + 1 else 1
  let s1 := (s.modChan c fun x => { x with link := .aligning n count', cycleSeen := true }).send c
    (.cycleReply n [] none)
  if Config.alignCount ≤ count' then s1.alignmentComplete c n else s1

/-! ## Cycle service (R46) -/

/-- Step 1 of the service: the hand-out, with a final-hand-out event composed for each final hand-out whose
report flag is yes (R70, R71). -/
def State.handOutStep (s : State) (c : Chan) (room : Byte) : State :=
  let r := handOut (min room.toNat Config.maxRoom) (s.chan c).outq
  let s1 := s.modChan c fun x => { x with outq := r.queue }
  { s1 with
    events := s1.events ++
      (r.finals.filter (·.report)).map fun m => Event.finalHandOut c m.msg.kind m.msg.handle }

/-- The messages a service hands out (R70). -/
def State.carried (s : State) (c : Chan) (room : Byte) : List TreeMsg :=
  (handOut (min room.toNat Config.maxRoom) (s.chan c).outq).carried

/-- The service of CYCLE n on UP channel c in its four steps, answered with one CYCLE REPLY (R46). -/
def State.serveCycle (s : State) (c : Chan) (n : Cyc) (room : Byte) : State :=
  let s1 := s.modChan c fun x => { x with link := .up n, cycleSeen := true }
  let s2 := (s1.handOutStep c room).lapseCheck c n
  let r := s2.offerStep c n
  let s3 := r.1.modChan c ChanState.bookkeeping
  s3.send c (.cycleReply n (s.carried c room) r.2)

/-- A non-consecutive CYCLE n on an UP link: the link has slipped (R43). -/
def State.slip (s : State) (c : Chan) (n : Cyc) : State :=
  ((s.leaveUp c (.aligning n 1)).modChan c fun x => { x with cycleSeen := true }).send c (.cycleReply n [] none)

/-- The link unit of channel c takes a CYCLE (R42, R43, R46). -/
def State.takeCycle (s : State) (c : Chan) (n : Cyc) (room : Byte) : State :=
  match (s.chan c).link with
  | .aligning last count => s.takeCycleAligning c last count n
  | .up last => if n = last + 1 then s.serveCycle c n room else s.slip c n
  | .down => s.bump c .unalignedRecord
  | .mismatched => s.bump c .unalignedRecord

/-! ## Silence (R44) -/

/-- The silence count of a link in ALIGNING or UP at a scan (R44). -/
def State.countSilence (s : State) (c : Chan) : State :=
  let x := s.chan c
  match x.link with
  | .down => s
  | .mismatched => s
  | _ =>
    if x.cycleSeen then s.modChan c fun y => { y with silence := 0, cycleSeen := false }
    else
      let s1 := s.modChan c fun y => { y with silence := x.silence + 1 }
      if Config.silenceLimit ≤ x.silence + 1 then s1.goTo c .down else s1

/-- The part of the silence count that takes a link DOWN, taken by itself (R44). -/
def State.silenceExpiry (s : State) (c : Chan) : State :=
  let x := s.chan c
  match x.link with
  | .down => s
  | .mismatched => s
  | _ => if x.cycleSeen = false ∧ Config.silenceLimit ≤ x.silence + 1 then s.goTo c .down else s

/-! ## Meanings -/

/-- HELLO (R41). Bytes of a frame begun before it stay in `rx` (log entry 24). -/
def execHello (c : Chan) (len : BitVec 24) (cur : Cyc) (s : State) : Host.Outcome State Fault Refusal :=
  .next (s.whenRunning (·.takeHello c len cur))

/-- CYCLE (R42, R43, R46). Bytes of a frame begun before it stay in `rx` (log entry 24). -/
def execCycle (c : Chan) (n : Cyc) (room : Byte) (s : State) : Host.Outcome State Fault Refusal :=
  .next (s.whenRunning (·.takeCycle c n room))

/-- PLACE RESULT (R54, R55). Bytes of a frame begun before it stay in `rx` (log entry 24). -/
def execPlaceResult (c : Chan) (tag : Tag) (placed : Bool) (s : State) : Host.Outcome State Fault Refusal :=
  .next (s.whenRunning (·.takePlaceResult c tag placed))

/-- GAP CLOSED (R56). Bytes of a frame begun before it stay in `rx` (log entry 24). -/
def execGapClosed (c : Chan) (tag : Tag) (s : State) : Host.Outcome State Fault Refusal :=
  .next (s.whenRunning (·.takeGapClosed c tag))

/-- ARRIVAL (R61). Bytes of a frame begun before it stay in `rx` (log entry 24). -/
def execArrival (c : Chan) (a : Arrival) (s : State) : Host.Outcome State Fault Refusal :=
  .next (s.whenRunning (·.takeArrival c a))

/-- LINK DOWN (R44). Bytes of a frame begun before it stay in `rx` (log entry 24). -/
def execLinkDown (c : Chan) (s : State) : Host.Outcome State Fault Refusal :=
  .next (s.whenRunning (·.takeLinkDown c))

/-- GAP_LAPSE: step 2 of the service of cycle n on an UP channel, taken by itself (R57). -/
def execGapLapse (c : Chan) (n : Cyc) (s : State) : Host.Outcome State Fault Refusal :=
  .next (s.whenRunning fun st => if st.isUp c then st.lapseCheck c n else st)

/-- OFFER_EXPIRY: the expiry check of step 3 of the service of cycle n on an UP channel, taken by itself
(R53, R55). -/
def execOfferExpiry (c : Chan) (n : Cyc) (s : State) : Host.Outcome State Fault Refusal :=
  .next (s.whenRunning fun st => if st.isUp c then st.expireOffer c n else st)

/-- CENSUS_PERIOD_DUE: the part of step 4 of a service on an UP channel that makes census due, taken by
itself (R58). -/
def execCensusPeriodDue (c : Chan) (s : State) : Host.Outcome State Fault Refusal :=
  .next (s.whenRunning fun st => if st.isUp c then st.modChan c ChanState.periodDue else st)

/-- SILENCE_TIMEOUT: the silence count of a link reaching 2 at a scan, taken by itself (R44). -/
def execSilenceTimeout (c : Chan) (s : State) : Host.Outcome State Fault Refusal :=
  .next (s.whenRunning (·.silenceExpiry c))

end Sys2Proof.Machine
end

