-- ==== Sys2Proof/Machine/Scan.lean ====
section
/-! DEFINITION. The presence scanner (Section 9): the walk of a scan expiry, loss, retention, owed messages,
heard flags, the rest of the expiry and the scan timer. -/

namespace Sys2Proof.Machine

/-! ## The state step (R135 to R138) -/

/-- Entry h, ACTIVE with its missed scans at M_lost, enters LOST and LOST is raised (R136). -/
def State.loseEntry (s : State) (h : Handle) (t : Terminal) : State :=
  (s.enterLost h).raise (Notice.lost h t.home t.mark)

/-- The presence count of an ACTIVE entry h (R135). -/
def State.presence (s : State) (h : Handle) (t : Terminal) (fix : Fix) (d : Drift) (missed : Nat) : State :=
  if s.isUp t.home then
    if t.heard then s.modTerm h fun u => { u with phase := .active fix d 0 }
    else if s.tree.mLost ≤ missed + 1 then s.loseEntry h t
    else s.modTerm h fun u => { u with phase := .active fix d (missed + 1) }
  else s

/-- The state step of the walk at entry h (R134, step 1). A DISMISSING entry is freed when its DISMISS is sent or its
home channel is not UP (R138), and when its home channel was not UP at some moment since it entered DISMISSING
(`freeDue`; R24, R32, R141; log entry 21). -/
def State.stateStep (s : State) (h : Handle) : State :=
  match s.term h with
  | none => s
  | some t =>
    match t.phase with
    | .active fix d missed => s.presence h t fix d missed
    | .lost f age sent =>
      if age < s.tree.retention then s.modTerm h fun u => { u with phase := .lost f (age + 1) sent }
      else s.freeEntry h true
    | .dismissing sent due => if sent || due || !(s.isUp t.home) then s.freeEntry h true else s
    | _ => s

/-! ## The owed step (R139) -/

/-- The order in which owed kinds are offered (R139). -/
def owedOrder : List MsgKind := [.hush, .dismiss, .enrol, .setDelay, .resume, .trimDelay, .retune]

/-- The message of an owed kind, composed from the entry's values at this moment (R24, R139). -/
def composeOwed (h : Handle) (t : Terminal) : MsgKind → Option TreeMsg
  | .enrol => some (.enrol h t.mark)
  | .setDelay => t.phase.fill.map (.setDelay h)
  | .trimDelay => t.owed.trim.map (.trimDelay h)
  | .hush => some (.hush h)
  | .resume => some (.resume h)
  | .retune =>
    match t.phase with
    | .retuning _ target => some (.retune h target)
    | _ => none
  | .dismiss => some (.dismiss h)

/-- One owed kind of entry h is offered to its UP home channel; it leaves the owed set when taken (R139). -/
def State.offerOwed (s : State) (h : Handle) (k : MsgKind) : State :=
  match s.term h with
  | none => s
  | some t =>
    match composeOwed h t k with
    | none => s
    | some m =>
      let r := s.offerMsg t.home m
      if r.2 then r.1.modTerm h fun u => { u with owed := u.owed.remove k } else r.1

/-- The owed step of the walk at entry h: the kinds owed as the step begins are offered in order (R139). -/
def State.owedStep (s : State) (h : Handle) : State :=
  match s.term h with
  | none => s
  | some t =>
    if s.isUp t.home then (owedOrder.filter fun k => t.owed.has k).foldl (fun st k => st.offerOwed h k) s else s

/-! ## The walk (R134) and the rest of the expiry (R141) -/

/-- The heard step of the walk at entry h (R140). -/
def State.heardStep (s : State) (h : Handle) : State := s.modTerm h fun t => { t with heard := false }

/-- The walk at handle h: the entry is read with the store check and takes its three steps (R134). -/
def State.scanEntry (s : State) (h : Handle) : State :=
  (((s.readEntry h).stateStep h).owedStep h).heardStep h

/-- A scan expiry: the walk in handle order, then the pending list ages and the links count silence (R134,
R141). The prescaler count stands at 0, since its return there is the expiry (R133). R141 orders neither the admission
unit and the links nor, with R44, the links among themselves; the model ages the pending list first and then takes
channels 0 to 3 in number order, which orders the notices and exits of one expiry (DESIGN CHOICE, log entry 22). -/
def State.scan (s : State) : State :=
  let s1 := { s with prescaler := 0 }
  let s2 := s1.heldHandles.foldl (fun st h => st.scanEntry h) s1
  Chan.all.foldl (fun st c => st.countSilence c) s2.ageWaiting

/-- One period of the reference clock: the prescaler counts, and its return to 0 is a scan expiry; the scan
timer is held while RESET is asserted (R133, R159). -/
def State.tick (s : State) : State :=
  s.whenRunning fun st =>
    if st.prescaler + 1 < 2 ^ st.tree.p then { st with prescaler := st.prescaler + 1 } else st.scan

/-- What happens while no command waits: the oldest internal event not yet taken is taken; with none, one
period of the reference clock passes (log entries 1 and 2). An event that was composed before RESET was asserted is
taken while it is asserted too: R159 stops records, requests and the scan timer (DESIGN CHOICE, log entry 23). -/
def State.idle (s : State) : State :=
  match s.events with
  | e :: rest => ({ s with events := rest }).takeEvent e
  | [] => s.tick

/-! ## Parts of a scan taken by themselves (log entry 3) -/

/-- The loss of ACTIVE entry h at a scan (R135, R136). -/
def State.lossPart (s : State) (h : Handle) : State :=
  let s1 := s.readEntry h
  match s1.term h with
  | none => s1
  | some t =>
    match t.phase with
    | .active _ _ missed =>
      if s1.isUp t.home = true ∧ t.heard = false ∧ s1.tree.mLost ≤ missed + 1 then s1.loseEntry h t else s1
    | _ => s1

/-- The freeing of LOST entry h at a scan (R137). -/
def State.retentionPart (s : State) (h : Handle) : State :=
  let s1 := s.readEntry h
  match s1.term h with
  | none => s1
  | some t =>
    match t.phase with
    | .lost _ age _ => if s1.tree.retention ≤ age then s1.freeEntry h true else s1
    | _ => s1

/-- The expiry of the pending item of mark m at a scan (R102). -/
def State.pendingPart (s : State) (m : Mark) : State :=
  match s.waitingItem m with
  | none => s
  | some i => if s.tree.aHold ≤ i.age + 1 then (s.removeWaiting m).raise (Notice.pendingExpired m) else s

/-! ## Meanings -/

/-- SCAN_EXPIRY (R134, R141). -/
def execScanExpiry (s : State) : Host.Outcome State Fault Refusal := .next (s.whenRunning (·.scan))

/-- LOST (R135, R136). -/
def execLost (h : Handle) (s : State) : Host.Outcome State Fault Refusal := .next (s.whenRunning (·.lossPart h))

/-- RETENTION_EXPIRY (R137). -/
def execRetentionExpiry (h : Handle) (s : State) : Host.Outcome State Fault Refusal :=
  .next (s.whenRunning (·.retentionPart h))

/-- PENDING_EXPIRED (R102). -/
def execPendingExpired (m : Mark) (s : State) : Host.Outcome State Fault Refusal :=
  .next (s.whenRunning (·.pendingPart m))

end Sys2Proof.Machine
end

