-- ==== Sys2Proof/Machine/Reset.lean ====
section
/-! DEFINITION. The two resets (R38, R39, R63, R65, R107, R133, R159 to R161) and the meanings of the power,
RESET and select pins that start them. -/

namespace Sys2Proof.Machine

/-- The records already sent on a channel link stay sent: a reset sends none and recalls none (R63). -/
def keepSent (old new : PerChan ChanState) : PerChan ChanState :=
  ⟨{ new.c0 with tx := old.c0.tx }, { new.c1 with tx := old.c1.tx }, { new.c2 with tx := old.c2.tx },
    { new.c3 with tx := old.c3.tx }⟩

/-- A full reset returns every setting and every piece of state to its initial value (R38, R63, R65, R107,
R133, R161); the pins, the commands that wait and the records already sent are not the controller's to
reset. -/
def State.fullReset (s : State) : State :=
  { State.reset with pins := s.pins, pending := s.pending, chans := keepSent s.chans State.reset.chans }

/-! ## Keep-tree restart -/

/-- A channel after a keep-tree restart, before its range requests are rebuilt: the values of a full reset
but for census mode, census period and skew (R63, R5, R161). -/
def ChanState.restarted (x : ChanState) : ChanState :=
  { ChanState.reset with mode := x.mode, period := x.period, skew := x.skew, tx := x.tx }

/-- The reports of every out-queue as a keep-tree restart empties it (R66, R39). -/
def State.allReports (s : State) : List Event := Chan.all.flatMap fun c => discardReports c (s.chan c).outq

/-- An emptied out-queue, of whichever channel, reported the message of kind k for h discarded: R39 judges a report by
its kind and the entry's state alone. -/
def reported (evs : List Event) (k : MsgKind) (h : Handle) : Bool :=
  Chan.all.any fun c => evs.contains (.report .discarded c k h)

/-- The entry with the kinds of a list owed where an emptied queue reported them (R39). -/
def Terminal.oweReported (t : Terminal) (evs : List Event) (h : Handle) (ks : List MsgKind) : Terminal :=
  ks.foldl (fun u k => if reported evs k h then u.makeOwed k else u) t

/-- A kept entry h that is in no state of its own row step: Table 2-9 for ENROLLING, RANGING, JOINING,
ACTIVE, HUSHED and LOST, with the heard flag cleared (R39). -/
def Terminal.restarted (t : Terminal) (evs : List Event) (h : Handle) : Terminal :=
  let u := { t with heard := false }
  match t.phase with
  | .enrolling .. => u.makeOwed .enrol
  | .ranging .. => u.clearSamples.oweReported evs h [.hush]
  | .joining _ => u.oweReported evs h [.setDelay, .resume]
  | .active fix _ _ => { u with phase := .active fix (freshDrift t.owed) 0 }
  | .hushed _ => u.oweReported evs h [.hush]
  | .retuning .. => u
  | .lost _ _ sent => if sent then u else u.makeOwed .dismiss
  | .dismissing .. => u

/-- A keep-tree restart transforms entry h (R39, Table 2-9); no channel is UP, so a DISMISS is made owed. -/
def State.restartEntry (s : State) (evs : List Event) (h : Handle) : State :=
  let s1 := s.readEntry h
  match s1.term h with
  | none => s1
  | some t =>
    match t.phase with
    | .dismissing .. => s1.freeEntry h false
    | .retuning .. => (s1.modTerm h fun u => { u with heard := false }).enterLost h
    | _ => s1.modTerm h fun u => u.restarted evs h

/-- The handles of the RANGING entries homed on c, in handle order (R47). -/
def State.rangingOn (s : State) (c : Chan) : List Handle :=
  (s.registry.filter fun e => e.term.any fun t =>
    decide (t.home = c) && match t.phase with | .ranging .. => true | _ => false).map (·.handle)

/-- Each range request queue is rebuilt from the RANGING entries homed on its channel (R47, R63). -/
def State.rebuildQueues (s : State) : State :=
  Chan.all.foldl (fun st c => st.modChan c fun x => { x with rangeQ := st.rangingOn c }) s

/-- A keep-tree restart from a source: 0x01 the RESET input, 0x02 a RESTART request (R39, R63, R107, R133, R161). The
events not yet taken come first, the oldest before the others (log entry 1); the notice queue is emptied and holds
RESTARTED, followed by any STORE_ERROR of the entries' reads. -/
def State.keepTreeRestart (s : State) (source : Nat) : State :=
  let s1 := s.takeAllEvents
  let evs := s1.allReports
  let s2 := { s1 with
    chans := s1.chans.map ChanState.restarted
    prescaler := 0
    fullLatch := false
    waiting := []
    pendingFullLatch := false
    notices := []
    overflow := false
    port := { txn := .idle, armed := none } }
  let s3 := s2.raise (Notice.restarted source)
  (s3.heldHandles.foldl (fun st h => st.restartEntry evs h) s3).rebuildQueues

/-- The reset that a RESTART request names (R160). -/
def State.takeReset (s : State) (k : RestartKind) (source : Nat) : State :=
  match k with
  | .keepTree => s.keepTreeRestart source
  | .full => s.fullReset

/-! ## Meanings -/

/-- POWER_UP: a full reset; KEEP plays no part in it (R159). -/
def execPowerUp (s : State) : Host.Outcome State Fault Refusal := .next s.fullReset

/-- RESET_ASSERT: the controller stops taking records and requests, the transaction in progress is
abandoned, and so is an armed RESTART (R159, R160). -/
def execResetAssert (s : State) : Host.Outcome State Fault Refusal :=
  .next { s with pins := { s.pins with resetLow := true }, port := { txn := .idle, armed := none } }

/-- RESET_RELEASE: KEEP is sampled and one reset is taken in that event (R159). -/
def execResetRelease (keep : Bool) (s : State) : Host.Outcome State Fault Refusal :=
  if s.pins.resetLow then
    let s1 := { s with pins := { s.pins with resetLow := false, keep := keep } }
    .next (s1.takeReset (if keep then .keepTree else .full) 1)
  else .next s

/-- SELECT_ASSERT: a transaction begins and the request buffer is emptied (R151); while RESET is asserted
none begins (R159). -/
def execSelectAssert (s : State) : Host.Outcome State Fault Refusal :=
  let s1 := { s with pins := { s.pins with select := true } }
  .next (s1.whenRunning fun st => { st with port := { st.port with txn := .receiving [] } })

/-- SELECT_RELEASE: the transaction ends, an incomplete request is discarded, and an armed RESTART takes its
reset (R151, R160). -/
def execSelectRelease (s : State) : Host.Outcome State Fault Refusal :=
  let s1 := { s with pins := { s.pins with select := false }, port := { txn := .idle, armed := none } }
  match s.port.armed with
  | some k => .next (s1.whenRunning (·.takeReset k 2))
  | none => .next s1

end Sys2Proof.Machine
end

