-- ==== Sys2Proof/Machine/Settings.lean ====
section
/-! DEFINITION. The tree and channel settings (Sections 1.3 and 11.2): TREE SET, TREE GET, CHANNEL SET,
CHANNEL GET and CALL as their owners judge them. -/

namespace Sys2Proof.Machine

/-- A reply without a body: every code but DONE and EMPTY (R164). -/
def Reply.bare (c : ReplyCode) : Reply := ⟨c, []⟩

/-! ## The settings by number (R164, Tables 1-3 and 11-3) -/

/-- The least and the greatest value of each setting, in setting-number order. -/
def settingRanges : List (Nat × Nat) :=
  [(4096, 262143), (0, 262143), (0, 1048575), (0, 1048575), (0, 1048575), (0, 4095), (1, 4095), (0, 63),
   (1, 4095), (1, 4095), (1, 4), (0, 255), (1, 15), (0, 63), (1, 15), (1, 255), (1, 1023)] ++
  [(1, 3), (16, 24), (1, 255), (0, 255), (1, 255), (0, 2), (0, 1), (0, 1)]

/-- The values held, in setting-number order. -/
def TreeSettings.values (t : TreeSettings) : List Nat :=
  [t.L, t.K, t.H, t.rtMin, t.rtMax, t.Tc, t.Uh, t.Jmax, t.Bd, t.Br, t.nConf, t.P, t.Rmax, t.Z, t.V, t.Cmax,
   t.Ejump] ++
  [t.r, t.p, t.mLost, t.retention, t.aHold, t.policy.code, flagToNat t.defectNotices, t.capture.code]
where
  /-- 0x00 off, 0x01 on. -/
  flagToNat (b : Bool) : Nat := if b then 1 else 0

/-- The settings with setting number i at value v; a number above 24 names no setting. -/
def TreeSettings.put (t : TreeSettings) (i v : Nat) : TreeSettings :=
  match i with
  | 0 => { t with L := v }
  | 1 => { t with K := v }
  | 2 => { t with H := v }
  | 3 => { t with rtMin := v }
  | 4 => { t with rtMax := v }
  | 5 => { t with Tc := v }
  | 6 => { t with Uh := v }
  | 7 => { t with Jmax := v }
  | 8 => { t with Bd := v }
  | 9 => { t with Br := v }
  | 10 => { t with nConf := v }
  | 11 => { t with P := v }
  | 12 => { t with Rmax := v }
  | 13 => { t with Z := v }
  | 14 => { t with V := v }
  | 15 => { t with Cmax := v }
  | 16 => { t with Ejump := v }
  | 17 => { t with r := v }
  | 18 => { t with p := v }
  | 19 => { t with mLost := v }
  | 20 => { t with retention := v }
  | 21 => { t with aHold := v }
  | 22 => { t with policy := DefaultPolicy.ofCode v }
  | 23 => { t with defectNotices := v == 1 }
  | 24 => { t with capture := if v = 0 then .all else .uncorrectable }
  | _ => t

/-- The settings a TREE SET carries, as pairs of setting number and value: bit n selects setting n (R164). -/
def carriedSettings (sel : BitVec 32) (slots : List (BitVec 24)) : List (Nat × Nat) :=
  ((List.range 25).filter fun i => sel.getLsbD i).map fun i => (i, (slots.getD i 0).toNat)

/-- A value within the range of its setting. -/
def inSettingRange (iv : Nat × Nat) : Bool :=
  match settingRanges[iv.1]? with
  | some r => decide (r.1 ≤ iv.2) && decide (iv.2 ≤ r.2)
  | none => false

/-- The settings that would result from accepting a TREE SET (R7, step 3). -/
def TreeSettings.putAll (t : TreeSettings) (l : List (Nat × Nat)) : TreeSettings :=
  l.foldl (fun u iv => u.put iv.1 iv.2) t

/-- The consistency conditions of Table 1-4. -/
def TreeSettings.consistent (t : TreeSettings) : Bool :=
  decide (t.rtMin ≤ t.rtMax) && decide (t.rtMax + t.Tc + 2047 ≤ t.H) &&
    decide (t.rtMax - t.rtMin + t.Jmax * t.Uh + t.Bd + 2 * t.Tc ≤ 4 * t.L) && decide (t.Z < t.Ejump)

/-- A channel link is ALIGNING or UP (R6). -/
def LinkState.locksL : LinkState → Bool
  | .aligning .. => true
  | .up _ => true
  | _ => false

/-- A change from settings t to settings u meets a lock of R6. -/
def State.settingsLocked (s : State) (t u : TreeSettings) : Bool :=
  (decide (u.H ≠ t.H ∨ u.K ≠ t.K) && s.anyWorking) ||
    (decide (u.L ≠ t.L) && (s.anyWorking || Chan.all.any fun c => (s.chan c).link.locksL))

/-- The drift streak cleared: no sign, count 0, sum 0 (R8). -/
def Terminal.clearStreak (t : Terminal) : Terminal :=
  match t.phase with
  | .active fix d missed => { t with phase := .active fix { d with streak := none } missed }
  | _ => t

/-- An entry with its drift streak cleared. -/
def Entry.clearStreak (e : Entry) : Entry := { e with term := e.term.map Terminal.clearStreak }

/-- The settings u replace the settings held; a change of V clears every drift streak, a change of p
restarts the prescaler count (R7, R8, R133, R153). -/
def State.replaceSettings (s : State) (u : TreeSettings) : State :=
  { s with
    tree := u
    registry := if u.V = s.tree.V then s.registry else s.registry.map Entry.clearStreak
    prescaler := if u.p = s.tree.p then s.prescaler else 0 }

/-- TREE SET as the management port judges it: range, locks, consistency (R7, R153); a selection bit that
names no setting is out of range (R164). -/
def State.reqTreeSet (s : State) (sel : BitVec 32) (slots : List (BitVec 24)) : State × Reply :=
  let vs := carriedSettings sel slots
  if sel.toNat < 2 ^ 25 ∧ vs.all inSettingRange = true then
    let u := s.tree.putAll vs
    if s.settingsLocked s.tree u then (s, Reply.bare .notIdle)
    else if u.consistent then (s.replaceSettings u, Reply.bare .done)
    else (s, Reply.bare .conflict)
  else (s, Reply.bare .outOfRange)

/-- TREE GET (R153). -/
def State.reqTreeGet (s : State) : State × Reply := (s, ⟨.done, s.tree.values.flatMap (natBytes 3)⟩)

/-! ## Channel settings (R154, R59, R5) -/

/-- A request that names a channel: above 3 it is refused with OUT_OF_RANGE (R152). -/
def State.onChannel (s : State) (ch : Byte) (f : Chan → State × Reply) : State × Reply :=
  match Chan.ofNum ch.toNat with
  | some c => f c
  | none => (s, Reply.bare .outOfRange)

/-- An accepted census mode takes effect (R59). -/
def State.setMode (s : State) (c : Chan) (m : CensusMode) : State :=
  match m with
  | .off =>
    if (s.chan c).mode = .off then s
    else
      let s1 := s.modChan c fun x => { x with mode := .off, due := false, dueAge := 0, quietPending := true }
      if (s.chan c).censusInFlight || (s.chan c).offer.any (fun o => o.kind == .census) then s1 else s1.quiet c
  | other => s.modChan c fun x => { x with mode := other, quietPending := false }

/-- A value judged by its range when it is selected: none is out of range. -/
def selected {α : Type} (bit : Bool) (held : α) (value : Option α) : Option α := if bit then value else some held

/-- CHANNEL SET as the management port judges it (R154): range, then the skew lock; fields not selected
are ignored, and a selection bit above 2 names no setting (R164). -/
def State.reqChannelSet (s : State) (ch sel mode : Byte) (period skew : BitVec 16) : State × Reply :=
  s.onChannel ch fun c =>
    let x := s.chan c
    let newMode := selected (sel.getLsbD 0) x.mode (CensusMode.ofCode mode.toNat)
    let newPeriod := selected (sel.getLsbD 1) x.period (if 16 ≤ period.toNat then some period.toNat else none)
    let newSkew := selected (sel.getLsbD 2) x.skew
      (if -2048 ≤ skew.toInt ∧ skew.toInt ≤ 2047 then some skew.toInt else none)
    match newMode, newPeriod, newSkew with
    | some m, some p, some k =>
      if 8 ≤ sel.toNat then (s, Reply.bare .outOfRange)
      else if k ≠ x.skew ∧ s.anyWorkingOn c = true then (s, Reply.bare .notIdle)
      else
        let s1 := s.modChan c fun y => { y with period := p, skew := k }
        (if sel.getLsbD 0 then s1.setMode c m else s1, Reply.bare .done)
    | _, _, _ => (s, Reply.bare .outOfRange)

/-- CHANNEL GET (R154). -/
def State.reqChannelGet (s : State) (ch : Byte) : State × Reply :=
  s.onChannel ch fun c =>
    let x := s.chan c
    (s, ⟨.done, natBytes 1 x.mode.code ++ natBytes 2 x.period ++ intBytes 2 x.skew⟩)

/-- CALL as the gap scheduler judges it (R60). -/
def State.reqCall (s : State) (ch : Byte) : State × Reply :=
  s.onChannel ch fun c =>
    if s.isUp c then (s.modChan c ChanState.makeDue, Reply.bare .done) else (s, Reply.bare .channelDown)

end Sys2Proof.Machine
end

