-- ==== Sys2Proof/Machine/EntryRequests.lean ====
section
/-! DEFINITION. The management requests on entries, admission, out-queues and the port's own reports, as
their owners judge them (Sections 2.4, 4.7, 6, 7.8, 10.1, 11): each answers the state and the reply. -/

namespace Sys2Proof.Machine

/-! ## Admission (R95, R96, R103 to R105) -/

/-- ADMIT (R103). -/
def State.reqAdmit (s : State) (m : Mark) : State × Reply :=
  match s.waitingItem m with
  | none => (s, Reply.bare .notPending)
  | some i =>
    if s.isUp i.chan then
      match s.newEntry m i.chan i.coarse with
      | (s1, some h) => (s1, ⟨.done, natBytes 2 h⟩)
      | (_, none) => (s, Reply.bare .registryFull)
    else (s, Reply.bare .channelDown)

/-- BAR (R104). -/
def State.reqBar (s : State) (m : Mark) : State × Reply :=
  match s.waitingItem m with
  | none => (s, Reply.bare .notPending)
  | some _ =>
    match tableLoad m .bar s.table with
    | some l => (({ s with table := l }).removeWaiting m, Reply.bare .done)
    | none => (s, Reply.bare .tableFull)

/-- TABLE LOAD (R95). -/
def State.reqTableLoad (s : State) (m : Mark) (policy : Byte) : State × Reply :=
  match TablePolicy.ofCode policy.toNat with
  | none => (s, Reply.bare .outOfRange)
  | some p =>
    if isBlank m then (s, Reply.bare .outOfRange)
    else
      match tableLoad m p s.table with
      | some l => ({ s with table := l }, Reply.bare .done)
      | none => (s, Reply.bare .tableFull)

/-- TABLE REMOVE (R96). -/
def State.reqTableRemove (s : State) (m : Mark) : State × Reply :=
  match tableFind m s.table with
  | some _ => ({ s with table := s.table.filter (fun e => !(e.mark == m)) }, Reply.bare .done)
  | none => (s, Reply.bare .noEntry)

/-- TABLE READ (R96). -/
def State.reqTableRead (s : State) (idx : Byte) : State × Reply :=
  if Config.tableSize ≤ idx.toNat then (s, Reply.bare .outOfRange)
  else
    match s.table[idx.toNat]? with
    | some e =>
      (s, ⟨.done, natBytes 1 s.table.length ++ markBytes e.mark ++ natBytes 1 e.policy.code ++ [flagByte e.seen]⟩)
    | none => (s, ⟨.empty, natBytes 1 s.table.length⟩)

/-- PENDING READ (R105). -/
def State.reqPendingRead (s : State) (idx : Byte) : State × Reply :=
  if Config.pendingSize ≤ idx.toNat then (s, Reply.bare .outOfRange)
  else
    match s.waiting[idx.toNat]? with
    | some i =>
      (s, ⟨.done, natBytes 1 s.waiting.length ++ markBytes i.mark ++ natBytes 1 i.chan.num ++ intBytes 3 i.coarse ++
        natBytes 1 i.age ++ natBytes 1 i.answers⟩)
    | none => (s, ⟨.empty, natBytes 1 s.waiting.length⟩)

/-! ## Reading an entry (R26, R121, Table 12-7) -/

/-- Where the range work of a RANGING entry stands (R121). -/
inductive RangeWork where
  | none
  | queued (position : Nat)
  | held (position : Nat)
  | offered (tag : Tag) (refCycle : Cyc)
  | inFlight (g : Gap) (seen : Bool) (expected : Cyc × Nat)
  deriving DecidableEq, Repr

/-- The expected instant of a range reply: K + S_c + estimate ticks after the reference instant, the
reference instant itself when that is below 0 (R121, R2). -/
def expectedInstant (t : TreeSettings) (S estimate : Int) (refCycle : Cyc) : Cyc × Nat :=
  instantAfter t.L refCycle (t.K + S + estimate).toNat

/-- The range work of entry h, read from the gap scheduler of its home channel (R121). -/
def State.rangeWork (s : State) (h : Handle) (t : Terminal) : RangeWork :=
  let x := s.chan t.home
  if x.rangeQ.contains h then
    let pos := x.rangeQ.idxOf h + 1
    if x.isUp then .queued pos else .held pos
  else
    match x.offer with
    | some o =>
      if o.names h then .offered o.tag o.refCycle else gapWork s x.gaps h t
    | Option.none => gapWork s x.gaps h t
where
  /-- The gap in flight that names h, if any. -/
  gapWork (s : State) (gaps : List Gap) (h : Handle) (t : Terminal) : RangeWork :=
    match gaps.find? (·.names h) with
    | some g =>
      match g.kind with
      | .range _ seen =>
        .inFlight g seen (expectedInstant s.tree (s.chan t.home).skew t.estimate g.refCycle)
      | _ => .none
    | Option.none => .none

/-- The 18 bytes of the range work (Table 12-7). -/
def RangeWork.bytes : RangeWork → List Byte
  | .none => natBytes 18 0
  | .queued pos => natBytes 1 1 ++ natBytes 2 pos ++ natBytes 15 0
  | .held pos => natBytes 1 2 ++ natBytes 2 pos ++ natBytes 15 0
  | .offered tag ref => natBytes 1 3 ++ natBytes 2 0 ++ [tag] ++ natBytes 2 ref.toNat ++ natBytes 12 0
  | .inFlight g seen e =>
    natBytes 1 4 ++ natBytes 2 0 ++ [g.tag] ++ natBytes 2 g.refCycle.toNat ++ natBytes 3 g.start ++ natBytes 3 g.len ++
      [flagByte seen] ++ natBytes 2 e.1.toNat ++ natBytes 3 e.2

/-- A value of n bytes with its presence, 0x00 bytes when absent (R164). -/
def optBytes (n : Nat) (v : Option Int) : List Byte :=
  match v with
  | some x => intBytes n x
  | none => natBytes n 0

/-- The samples of an entry, held in RANGING. -/
def Phase.samples : Phase → Option (List Int)
  | .ranging _ l _ _ => some l
  | _ => none

/-- The move target, held in RETUNING. -/
def Phase.target : Phase → Option Chan
  | .retuning _ c => some c
  | _ => none

/-- The drift record, held in ACTIVE. -/
def Phase.drift : Phase → Option Drift
  | .active _ d _ => some d
  | _ => none

/-- Missed scans, held in ACTIVE. -/
def Phase.missed : Phase → Option Nat
  | .active _ _ n => some n
  | _ => none

/-- Retention age, held in LOST. -/
def Phase.age : Phase → Option Nat
  | .lost _ n _ => some n
  | _ => none

/-- Dismiss sent, held in LOST and DISMISSING. -/
def Phase.dismissSent : Phase → Option Bool
  | .lost _ _ b => some b
  | .dismissing b _ => some b
  | _ => none

/-- The trim change held with trim-pending or an owed TRIM DELAY (Table 12-7). -/
def Terminal.trimChange (t : Terminal) : Option Int :=
  match t.phase.drift.bind (·.trimPending) with
  | some ch => some ch
  | none => t.owed.trim

/-- The owed set as a byte: bit k − 1 for message kind code k (Table 12-7). -/
def Owed.bits (o : Owed) : Nat :=
  (if o.enrol then 1 else 0) + (if o.setDelay then 2 else 0) + (if o.trim.isSome then 4 else 0) +
    (if o.hush then 8 else 0) + (if o.resume then 16 else 0) + (if o.retune then 32 else 0) +
    (if o.dismiss then 64 else 0)

/-- The drift record's five bytes (Table 12-7). -/
def Drift.bytes (d : Drift) : List Byte :=
  match d.streak with
  | none => natBytes 1 0 ++ natBytes 1 0 ++ natBytes 2 0 ++ natBytes 1 d.settle
  | some x =>
    natBytes 1 (if x.positive then 1 else 2) ++ natBytes 1 x.count ++ intBytes 2 x.sum ++ natBytes 1 d.settle

/-- The presence bits of an entry that is not DAMAGED (Table 12-7). -/
def Terminal.presence (t : Terminal) : Nat :=
  let bit (b : Bool) (k : Nat) : Nat := if b then 2 ^ k else 0
  let p := t.phase
  bit true 0 + bit true 1 + bit true 2 + bit p.final.isSome 3 + bit p.fill.isSome 4 + bit true 5 +
    bit p.dismissSent.isSome 6 + bit p.retry.isSome 7 + bit p.samples.isSome 8 + bit p.target.isSome 9 +
    bit p.drift.isSome 10 + bit t.trimChange.isSome 11 + bit p.missed.isSome 12 + bit p.age.isSome 13 +
    bit true 14 + bit p.samples.isSome 15

/-- The flags byte of an entry (Table 12-7). -/
def Terminal.flags (t : Terminal) : Nat :=
  let bit (b : Bool) (k : Nat) : Nat := if b then 2 ^ k else 0
  bit t.wasActive 0 + bit t.moveFlag 1 + bit t.heard 2 + bit (t.phase.dismissSent.getD false) 3

/-- The samples' thirteen bytes: the count, then four places (Table 12-7). -/
def sampleBytes (l : List Int) : List Byte :=
  natBytes 1 l.length ++ ((List.range 4).map fun i => intBytes 3 (l.getD i 0)).flatten

/-- The 66 bytes of an ENTRY READ reply (Table 12-7); a DAMAGED entry reports its handle and state. -/
def State.entryBytes (s : State) (h : Handle) : List Byte :=
  match s.term h with
  | none => natBytes 2 h ++ natBytes 1 (stateCode none) ++ natBytes 63 0
  | some t =>
    let p := t.phase
    natBytes 2 h ++ natBytes 1 (stateCode (some p)) ++ natBytes 2 t.presence ++ markBytes t.mark ++
      natBytes 1 t.home.num ++ intBytes 3 t.estimate ++ optBytes 3 p.final ++ optBytes 3 p.fill ++
      natBytes 1 t.flags ++ natBytes 1 (p.retry.getD 0) ++ sampleBytes (p.samples.getD []) ++
      natBytes 1 ((p.target.map Chan.num).getD 0) ++ ((p.drift.map Drift.bytes).getD (natBytes 5 0)) ++
      optBytes 2 t.trimChange ++ natBytes 1 (p.missed.getD 0) ++ natBytes 1 (p.age.getD 0) ++
      natBytes 1 t.owed.bits ++ (if p.samples.isSome then (s.rangeWork h t).bytes else natBytes 18 0)

/-- A request that names a handle: 0 or above 511 is OUT_OF_RANGE, a free handle NO_ENTRY; otherwise the
entry is read with the store check (R26, R35). -/
def State.onHandle (s : State) (h : BitVec 16) (f : State → State × Reply) : State × Reply :=
  if h.toNat = 0 ∨ Config.maxHandle < h.toNat then (s, Reply.bare .outOfRange)
  else if s.holds h.toNat then f (s.readEntry h.toNat)
  else (s, Reply.bare .noEntry)

/-- A request on an entry that is refused with WRONG_STATE when the entry is, or its read makes it, DAMAGED
(R26, R35). -/
def State.onEntry (s : State) (h : BitVec 16) (f : State → Terminal → State × Reply) : State × Reply :=
  s.onHandle h fun s1 =>
    match s1.term h.toNat with
    | some t => f s1 t
    | none => (s1, Reply.bare .wrongState)

/-- ENTRY READ (R26, R121). -/
def State.reqEntryRead (s : State) (h : BitVec 16) : State × Reply :=
  s.onHandle h fun s1 => (s1, ⟨.done, s1.entryBytes h.toNat⟩)

/-- ENTRY FIND (R20). -/
def State.reqEntryFind (s : State) (m : Mark) : State × Reply :=
  let s1 := s.readAll
  match s1.findMark m with
  | some (h, t) => (s1, ⟨.done, natBytes 2 h ++ natBytes 1 (stateCode (some t.phase))⟩)
  | none => (s1, Reply.bare .noEntry)

/-! ## Acting on an entry (R27 to R30, R37, R143, R144) -/

/-- DISMISS (R27). -/
def State.reqDismiss (s : State) (h : BitVec 16) : State × Reply :=
  s.onEntry h fun s1 t =>
    match t.phase with
    | .dismissing .. => (s1, Reply.bare .wrongState)
    | .lost .. => (s1.freeEntry h.toNat true, Reply.bare .done)
    | _ => (s1.enterDismissing h.toNat, Reply.bare .done)

/-- ACTIVE entry h becomes HUSHED (R28). -/
def State.hushEntry (s : State) (h : Handle) (t : Terminal) (fix : Fix) : State :=
  let s1 := (s.rosterLeave t.home h).modTerm h fun u => { u with moveFlag := false, phase := .hushed fix }
  s1.queueFor h (.hush h)

/-- HUSH (R28). -/
def State.reqHush (s : State) (h : BitVec 16) : State × Reply :=
  s.onEntry h fun s1 t =>
    match t.phase with
    | .active fix _ _ => (s1.hushEntry h.toNat t fix, Reply.bare .done)
    | .hushed _ => (s1, Reply.bare .done)
    | _ => (s1, Reply.bare .wrongState)

/-- HUSHED entry h becomes JOINING (R29). -/
def State.resumeEntry (s : State) (h : Handle) (fix : Fix) : State :=
  (s.modTerm h fun u => { u with phase := .joining fix }).queueFor h (.resume h)

/-- RESUME (R29). -/
def State.reqResume (s : State) (h : BitVec 16) : State × Reply :=
  s.onEntry h fun s1 t =>
    match t.phase with
    | .hushed fix => (s1.resumeEntry h.toNat fix, Reply.bare .done)
    | _ => (s1, Reply.bare .wrongState)

/-- ACTIVE or HUSHED entry h goes back to RANGING from its final round trip (R30). -/
def State.rerangeEntry (s : State) (h : Handle) (t : Terminal) (fix : Fix) : State :=
  let s1 := if t.phase.isActive then s.rosterLeave t.home h else s
  let s2 := s1.modTerm h fun u => u.reRanged fix.final
  (s2.queueFor h (.hush h)).rangeRequest h

/-- RERANGE (R30). -/
def State.reqRerange (s : State) (h : BitVec 16) : State × Reply :=
  s.onEntry h fun s1 t =>
    match t.phase with
    | .active fix _ _ => (s1.rerangeEntry h.toNat t fix, Reply.bare .done)
    | .hushed fix => (s1.rerangeEntry h.toNat t fix, Reply.bare .done)
    | _ => (s1, Reply.bare .wrongState)

/-- ACTIVE entry h becomes RETUNING toward a target (R144). -/
def State.moveEntry (s : State) (h : Handle) (t : Terminal) (fix : Fix) (target : Chan) : State :=
  let s1 := (s.rosterLeave t.home h).modTerm h fun u =>
    { u with moveFlag := true, phase := .retuning fix target }
  s1.queueFor h (.retune h target)

/-- MOVE (R143, R144). -/
def State.reqMove (s : State) (h : BitVec 16) (target : Byte) : State × Reply :=
  s.onEntry h fun s1 t =>
    match t.phase with
    | .active fix _ _ =>
      match Chan.ofNum target.toNat with
      | none => (s1, Reply.bare .outOfRange)
      | some c =>
        if c = t.home then (s1, Reply.bare .outOfRange)
        else if s1.isUp c then (s1.moveEntry h.toNat t fix c, Reply.bare .done)
        else (s1, Reply.bare .channelDown)
    | _ => (s1, Reply.bare .wrongState)

/-- CLEAR DAMAGED (R37); an entry that its read makes DAMAGED is freed too (R35). -/
def State.reqClearDamaged (s : State) (h : BitVec 16) : State × Reply :=
  s.onHandle h fun s1 =>
    match s1.term h.toNat with
    | some _ => (s1, Reply.bare .wrongState)
    | none => (s1.freeEntry h.toNat true, Reply.bare .done)

/-! ## INJECT (R74, R75) -/

/-- The message joins or replaces as R75 states, or finds no room (R74, case 3). -/
def State.injectOn (s : State) (c : Chan) (m : TreeMsg) : State × Reply :=
  let j := joinOrReplace (injectMsg s.tree.r m) (s.chan c).outq
  if j.taken then
    let s1 := s.modChan c fun x => { x with outq := j.queue }
    match j.evicted with
    | some v => (s1.takeReport .evicted c v.msg.kind v.msg.handle, Reply.bare .done)
    | none => (s1, Reply.bare .done)
  else (s, Reply.bare .tableFull)

/-- INJECT (R74, R75). -/
def State.reqInject (s : State) (ch kind : Byte) (h : BitVec 16) (fields : BitVec 64) : State × Reply :=
  s.onChannel ch fun c =>
    match injectedMsg kind h fields with
    | none => (s, Reply.bare .outOfRange)
    | some m => if s.isUp c then s.injectOn c m else (s, Reply.bare .channelDown)

/-! ## The port's own reports (R156 to R158, R36, R160) -/

/-- NOTICE READ (R156). -/
def State.reqNoticeRead (s : State) : State × Reply :=
  match s.notices with
  | n :: rest => ({ s with notices := rest, overflow := false }, ⟨.done, flagByte s.overflow :: n.bytes⟩)
  | [] => ({ s with overflow := false }, ⟨.empty, [flagByte s.overflow]⟩)

/-- TALLY READ (R157). -/
def State.reqTallyRead (s : State) (ch clear : Byte) : State × Reply :=
  s.onChannel ch fun c =>
    match clearOfCode clear.toNat with
    | none => (s, Reply.bare .outOfRange)
    | some b =>
      (if b then s.modChan c fun x => { x with tallies := Vector.replicate 22 0 } else s,
        ⟨.done, (s.chan c).tallies.toList.flatMap (natBytes 2)⟩)

/-- STORE RECORD READ (R36): captured, kind and handle. -/
def State.reqStoreRecordRead (s : State) (clear : Byte) : State × Reply :=
  match clearOfCode clear.toNat with
  | none => (s, Reply.bare .outOfRange)
  | some b =>
    let body :=
      match s.firstError with
      | some e => [flagByte true] ++ natBytes 1 (match e.kind with | .correctable => 1 | .uncorrectable => 2) ++
          natBytes 2 e.handle
      | none => natBytes 4 0
    (if b then { s with firstError := none } else s, ⟨.done, body⟩)

/-- The number of entries in the state of a code. -/
def State.countState (s : State) (code : Nat) : Nat :=
  (s.registry.filter fun e => stateCode (e.term.map (·.phase)) == code).length

/-- The 43 bytes of STATUS (R158, R164). -/
def State.statusBytes (s : State) : List Byte :=
  (Chan.all.flatMap fun c =>
    let x := s.chan c
    natBytes 1 x.link.code ++ natBytes 1 x.outq.length ++ natBytes 1 x.gaps.length ++ natBytes 2 x.rangeQ.length) ++
  ((List.range' 1 9).flatMap fun k => natBytes 2 (s.countState k)) ++ natBytes 2 s.freeCount ++
  natBytes 1 s.waiting.length ++ natBytes 1 s.notices.length ++ [flagByte s.overflow]

/-- STATUS (R158). -/
def State.reqStatus (s : State) : State × Reply := (s, ⟨.done, s.statusBytes⟩)

/-- RESTART: an accepted one arms its reset, taken when select is released (R160). -/
def State.reqRestart (s : State) (code : Byte) : State × Reply :=
  match RestartKind.ofCode code.toNat with
  | none => (s, Reply.bare .outOfRange)
  | some k => ({ s with port := { s.port with armed := some k } }, Reply.bare .done)

end Sys2Proof.Machine
end

