-- ==== Sys2Proof/Machine/Requests.lean ====
section
/-! DEFINITION. The management transaction (R151, R152, R164): the bytes shifted in and out, the layouts of
the requests, and the meanings of the request commands. -/

namespace Sys2Proof.Machine

/-- The body length of each request code (Table 12-6); none names no request. -/
def requestLength : Nat → Option Nat
  | 0x10 => some 79
  | 0x11 => some 0
  | 0x12 => some 7
  | 0x13 => some 1
  | 0x20 => some 1
  | 0x21 => some 7
  | 0x22 => some 7
  | 0x23 => some 8
  | 0x24 => some 7
  | 0x25 => some 1
  | 0x26 => some 1
  | 0x30 => some 2
  | 0x31 => some 7
  | 0x32 => some 2
  | 0x33 => some 2
  | 0x34 => some 2
  | 0x35 => some 2
  | 0x36 => some 3
  | 0x37 => some 2
  | 0x40 => some 12
  | 0x50 => some 0
  | 0x51 => some 2
  | 0x52 => some 1
  | 0x53 => some 0
  | 0x60 => some 1
  | _ => none

/-- The number of n bytes of a body from place i on. -/
def fieldOf (w : Nat) (body : List Byte) (i n : Nat) : BitVec w := BitVec.ofNat w (bytesNat ((body.drop i).take n))

/-- The 25 slots of a TREE SET body: four bytes of selection, then three bytes a slot (Table 12-6). -/
def slotsOf (body : List Byte) : List (BitVec 24) := (List.range 25).map fun i => fieldOf 24 body (4 + 3 * i) 3

/-- A complete request is taken: it is decoded by its code and passed to its owner (R151, R152, Table
12-6). -/
def State.decodeRequest (s : State) (code : Nat) (body : List Byte) : State × Reply :=
  let byte := fun i => fieldOf 8 body i 1
  let mark : Mark := fieldOf 56 body 0 7
  let handle : BitVec 16 := fieldOf 16 body 0 2
  match code with
  | 0x10 => s.reqTreeSet (fieldOf 32 body 0 4) (slotsOf body)
  | 0x11 => s.reqTreeGet
  | 0x12 => s.reqChannelSet (byte 0) (byte 1) (byte 2) (fieldOf 16 body 3 2) (fieldOf 16 body 5 2)
  | 0x13 => s.reqChannelGet (byte 0)
  | 0x20 => s.reqCall (byte 0)
  | 0x21 => s.reqAdmit mark
  | 0x22 => s.reqBar mark
  | 0x23 => s.reqTableLoad mark (byte 7)
  | 0x24 => s.reqTableRemove mark
  | 0x25 => s.reqTableRead (byte 0)
  | 0x26 => s.reqPendingRead (byte 0)
  | 0x30 => s.reqEntryRead handle
  | 0x31 => s.reqEntryFind mark
  | 0x32 => s.reqDismiss handle
  | 0x33 => s.reqHush handle
  | 0x34 => s.reqResume handle
  | 0x35 => s.reqRerange handle
  | 0x36 => s.reqMove handle (byte 2)
  | 0x37 => s.reqClearDamaged handle
  | 0x40 => s.reqInject (byte 0) (byte 1) (fieldOf 16 body 2 2) (fieldOf 64 body 4 8)
  | 0x50 => s.reqNoticeRead
  | 0x51 => s.reqTallyRead (byte 0) (byte 1)
  | 0x52 => s.reqStoreRecordRead (byte 0)
  | 0x53 => s.reqStatus
  | 0x60 => s.reqRestart (byte 0)
  | _ => (s, Reply.bare .unknown)

/-- The reply record is composed in the event that takes the request (R151). -/
def State.answer (r : State × Reply) : State := { r.1 with port := { r.1.port with txn := .answered r.2 0 } }

/-- One byte is clocked (R151): it joins the request buffer and may complete the request, which leaves the
buffer as it is taken, or it clocks out one byte of the reply, or finds no transaction. -/
def State.clockByte (s : State) (b : Byte) : State :=
  match s.port.txn with
  | .idle => s
  | .answered r n => { s with port := { s.port with txn := .answered r (n + 1) } }
  | .receiving buf =>
    let all := buf ++ [b]
    let code := (all.headD 0).toNat
    match requestLength code with
    | none => State.answer (s, Reply.bare .unknown)
    | some n =>
      if all.length = n + 1 then
        let s1 := { s with port := { s.port with txn := .receiving [] } }
        State.answer (s1.decodeRequest code (all.drop 1))
      else { s with port := { s.port with txn := .receiving all } }

/-- Bytes clocked one after the other. -/
def State.clockBytes (s : State) (bs : List Byte) : State := bs.foldl State.clockByte s

/-- The byte the port shifts out for byte n of a reply: 0x00 once the reply is exhausted (R151). -/
def Reply.byteAt (r : Reply) (n : Nat) : Byte := r.bytes.getD n 0

/-- The port stands at the start of a transaction, its request buffer empty, and RESET is not asserted. -/
def State.portReady (s : State) : Bool := !s.pins.resetLow && decide (s.port.txn = .receiving [])

/-- The bytes of one whole request are clocked: on a port that stands at the start of a transaction the
request is taken and its reply composed in that event; otherwise the bytes meet the port as it stands
(R151, R159). -/
def State.request (s : State) (bytes : List Byte) (act : State → State × Reply) : Host.Outcome State Fault Refusal :=
  .next (if s.portReady then State.answer (act s) else s.whenRunning (·.clockBytes bytes))

/-! ## Meanings -/

/-- UNKNOWN: bytes clocked as they come; a code that names no request is taken as soon as its byte is in
and answered UNKNOWN (R151). -/
def execUnknown (bytes : List Byte) (s : State) : Host.Outcome State Fault Refusal :=
  .next (s.whenRunning (·.clockBytes bytes))

/-- The body of a TREE SET (Table 12-6). -/
def treeSetBytes (sel : BitVec 32) (slots : List (BitVec 24)) : List Byte :=
  0x10 :: (natBytes 4 sel.toNat ++ slots.flatMap fun v => natBytes 3 v.toNat)

/-- TREE SET (R7, R153); fewer than 25 slots leave the request incomplete (R151, Table 12-6). -/
def execTreeSet (sel : BitVec 32) (slots : List (BitVec 24)) (s : State) : Host.Outcome State Fault Refusal :=
  if slots.length = 25 then s.request (treeSetBytes sel slots) (·.reqTreeSet sel slots)
  else .next (s.whenRunning (·.clockBytes (treeSetBytes sel slots)))

/-- TREE GET (R153). -/
def execTreeGet (s : State) : Host.Outcome State Fault Refusal := s.request [0x11] State.reqTreeGet

/-- CHANNEL SET (R154). -/
def execChannelSet (ch sel mode : Byte) (period skew : BitVec 16) (s : State) : Host.Outcome State Fault Refusal :=
  s.request ([0x12, ch, sel, mode] ++ natBytes 2 period.toNat ++ natBytes 2 skew.toNat)
    (·.reqChannelSet ch sel mode period skew)

/-- CHANNEL GET (R154). -/
def execChannelGet (ch : Byte) (s : State) : Host.Outcome State Fault Refusal :=
  s.request [0x13, ch] (·.reqChannelGet ch)

/-- CALL (R60). -/
def execCall (ch : Byte) (s : State) : Host.Outcome State Fault Refusal := s.request [0x20, ch] (·.reqCall ch)

/-- ADMIT (R103). -/
def execAdmit (m : Mark) (s : State) : Host.Outcome State Fault Refusal :=
  s.request (0x21 :: markBytes m) (·.reqAdmit m)

/-- BAR (R104). -/
def execBar (m : Mark) (s : State) : Host.Outcome State Fault Refusal := s.request (0x22 :: markBytes m) (·.reqBar m)

/-- TABLE LOAD (R95). -/
def execTableLoad (m : Mark) (policy : Byte) (s : State) : Host.Outcome State Fault Refusal :=
  s.request (0x23 :: markBytes m ++ [policy]) (·.reqTableLoad m policy)

/-- TABLE REMOVE (R96). -/
def execTableRemove (m : Mark) (s : State) : Host.Outcome State Fault Refusal :=
  s.request (0x24 :: markBytes m) (·.reqTableRemove m)

/-- TABLE READ (R96). -/
def execTableRead (idx : Byte) (s : State) : Host.Outcome State Fault Refusal :=
  s.request [0x25, idx] (·.reqTableRead idx)

/-- PENDING READ (R105). -/
def execPendingRead (idx : Byte) (s : State) : Host.Outcome State Fault Refusal :=
  s.request [0x26, idx] (·.reqPendingRead idx)

/-- ENTRY READ (R26, R121). -/
def execEntryRead (h : BitVec 16) (s : State) : Host.Outcome State Fault Refusal :=
  s.request (0x30 :: natBytes 2 h.toNat) (·.reqEntryRead h)

/-- ENTRY FIND (R20). -/
def execEntryFind (m : Mark) (s : State) : Host.Outcome State Fault Refusal :=
  s.request (0x31 :: markBytes m) (·.reqEntryFind m)

/-- DISMISS (R27). -/
def execDismiss (h : BitVec 16) (s : State) : Host.Outcome State Fault Refusal :=
  s.request (0x32 :: natBytes 2 h.toNat) (·.reqDismiss h)

/-- HUSH (R28). -/
def execHush (h : BitVec 16) (s : State) : Host.Outcome State Fault Refusal :=
  s.request (0x33 :: natBytes 2 h.toNat) (·.reqHush h)

/-- RESUME (R29). -/
def execResume (h : BitVec 16) (s : State) : Host.Outcome State Fault Refusal :=
  s.request (0x34 :: natBytes 2 h.toNat) (·.reqResume h)

/-- RERANGE (R30). -/
def execRerange (h : BitVec 16) (s : State) : Host.Outcome State Fault Refusal :=
  s.request (0x35 :: natBytes 2 h.toNat) (·.reqRerange h)

/-- MOVE (R143, R144). -/
def execMove (h : BitVec 16) (target : Byte) (s : State) : Host.Outcome State Fault Refusal :=
  s.request (0x36 :: natBytes 2 h.toNat ++ [target]) (·.reqMove h target)

/-- CLEAR DAMAGED (R37). -/
def execClearDamaged (h : BitVec 16) (s : State) : Host.Outcome State Fault Refusal :=
  s.request (0x37 :: natBytes 2 h.toNat) (·.reqClearDamaged h)

/-- INJECT (R74, R75). -/
def execInject (ch kind : Byte) (h : BitVec 16) (fields : BitVec 64) (s : State) : Host.Outcome State Fault Refusal :=
  s.request ([0x40, ch, kind] ++ natBytes 2 h.toNat ++ natBytes 8 fields.toNat) (·.reqInject ch kind h fields)

/-- NOTICE READ (R156). -/
def execNoticeRead (s : State) : Host.Outcome State Fault Refusal := s.request [0x50] State.reqNoticeRead

/-- TALLY READ (R157). -/
def execTallyRead (ch clear : Byte) (s : State) : Host.Outcome State Fault Refusal :=
  s.request [0x51, ch, clear] (·.reqTallyRead ch clear)

/-- STORE RECORD READ (R36). -/
def execStoreRecordRead (clear : Byte) (s : State) : Host.Outcome State Fault Refusal :=
  s.request [0x52, clear] (·.reqStoreRecordRead clear)

/-- STATUS (R158). -/
def execStatus (s : State) : Host.Outcome State Fault Refusal := s.request [0x53] State.reqStatus

/-- RESTART (R160). -/
def execRestart (code : Byte) (s : State) : Host.Outcome State Fault Refusal :=
  s.request [0x60, code] (·.reqRestart code)

end Sys2Proof.Machine
end

