-- ==== Sys2Proof/Machine/Frames.lean ====
section
/-! DEFINITION. Channel link frames (Section 12.1): the record check, the hunt for a start byte, the records
taken from bytes (R162, R163) and the frames of the records sent (Tables 12-1 to 12-5). -/

namespace Sys2Proof.Machine

/-! ## The record check (R162) -/

/-- One bit of the cyclic check with generator x^16 + x^12 + x^5 + 1. -/
def checkBit (r : BitVec 16) : BitVec 16 := if r.msb then (r <<< 1) ^^^ 0x1021 else r <<< 1

/-- One byte of the check, most significant bit first. -/
def checkByte (r : BitVec 16) (b : Byte) : BitVec 16 :=
  checkBit (checkBit (checkBit (checkBit (checkBit (checkBit (checkBit (checkBit (r ^^^ (b ++ (0 : Byte))))))))))

/-- The record check over kind code, body length and body, from 0xFFFF. -/
def recordCheck (bs : List Byte) : BitVec 16 := bs.foldl checkByte 0xFFFF

/-- A frame: start byte, kind code, body length, body, check, high byte first (Table 12-1). -/
def frame (kind : Byte) (body : List Byte) : List Byte :=
  let inner := kind :: BitVec.ofNat 8 body.length :: body
  0x7E :: (inner ++ natBytes 2 (recordCheck inner).toNat)

/-! ## Records sent (Tables 12-3 to 12-5) -/

/-- The twelve bytes of an offer record (Table 12-5). -/
def Offer.bytes (o : Offer) : List Byte :=
  [o.tag] ++
    (match o.kind with
      | .census => natBytes 1 1 ++ natBytes 2 0
      | .range h => natBytes 1 2 ++ natBytes 2 h
      | .voidRange => natBytes 1 2 ++ natBytes 2 0) ++
    natBytes 2 o.refCycle.toNat ++ natBytes 3 o.start ++ natBytes 3 o.len

/-- The frame of a record the controller sends. -/
def TxRecord.frame (r : TxRecord) : List Byte :=
  match r with
  | .helloAck ok len => Machine.frame 0x81 ([if ok then 0 else 1] ++ natBytes 3 len)
  | .cycleReply n msgs offer =>
    Machine.frame 0x82 (natBytes 2 n.toNat ++ natBytes 1 msgs.length ++ [flagByte offer.isSome] ++
      msgs.flatMap TreeMsg.bytes ++ ((offer.map Offer.bytes).getD []))
  | .rosterJoin h => Machine.frame 0x83 (natBytes 2 h)
  | .rosterLeave h => Machine.frame 0x84 (natBytes 2 h)

/-! ## Records taken (Table 12-2, R163) -/

/-- A record from a channel engine. -/
inductive RxRecord where
  | hello (len : BitVec 24) (cur : Cyc)
  | cycle (n : Cyc) (room : Byte)
  | placeResult (tag : Tag) (placed : Bool)
  | gapClosed (tag : Tag)
  | arrival (a : Arrival)
  | linkDown
  deriving DecidableEq, Repr

/-- The arrival kind of a code. -/
def ArrivalKind.ofCode : Nat → Option ArrivalKind
  | 1 => some .census
  | 2 => some .range
  | 3 => some .data
  | _ => none

/-- The delivery status of a code. -/
def Delivery.ofCode : Nat → Option Delivery
  | 0 => some .clean
  | 1 => some .delimiterFault
  | 2 => some .burstFault
  | _ => none

/-- The record of a kind code and body, or none in the cases R163 discards: an unknown kind code, a wrong
body length, or a coded field the table does not give. -/
def decodeRecord (kind : Byte) (body : List Byte) : Option RxRecord :=
  match kind.toNat, body.length with
  | 1, 5 => some (.hello (fieldOf 24 body 0 3) (fieldOf 16 body 3 2))
  | 2, 3 => some (.cycle (fieldOf 16 body 0 2) (fieldOf 8 body 2 1))
  | 3, 2 =>
    match bytesNat ((body.drop 1).take 1) with
    | 0 => some (.placeResult (fieldOf 8 body 0 1) true)
    | 1 => some (.placeResult (fieldOf 8 body 0 1) false)
    | _ => none
  | 4, 1 => some (.gapClosed (fieldOf 8 body 0 1))
  | 5, 21 =>
    match ArrivalKind.ofCode (bytesNat (body.take 1)), Delivery.ofCode (bytesNat ((body.drop 1).take 1)) with
    | some k, some st =>
      some (.arrival {
        kind := k
        status := st
        tag := fieldOf 8 body 2 1
        handle := fieldOf 16 body 3 2
        startCycle := fieldOf 16 body 5 2
        startOffset := fieldOf 24 body 7 3
        offset := fieldOf 16 body 10 2
        slot := fieldOf 8 body 12 1
        mark := fieldOf 64 body 13 8 })
    | _, _ => none
  | 6, 0 => some .linkDown
  | _, _ => none

/-- The link unit of channel c takes a record (Section 3). -/
def State.takeRecord (s : State) (c : Chan) (r : RxRecord) : State :=
  match r with
  | .hello len cur => s.takeHello c len cur
  | .cycle n room => s.takeCycle c n room
  | .placeResult tag placed => s.takePlaceResult c tag placed
  | .gapClosed tag => s.takeGapClosed c tag
  | .arrival a => s.takeArrival c a
  | .linkDown => s.takeLinkDown c

/-- A record whose check agrees is judged: taken, or discarded with LINK_DEFECT (R163). -/
def State.judgeRecord (s : State) (c : Chan) (kind : Byte) (body : List Byte) : State :=
  match decodeRecord kind body with
  | some r => s.takeRecord c r
  | none => s.bump c .linkDefect

/-! ## The hunt (R162) -/

/-- What the bytes at hand hold once a start byte stands first. -/
inductive Hunted where
  | incomplete
  | bad
  | good (kind : Byte) (body rest : List Byte)
  deriving DecidableEq, Repr

/-- The frame at the head of some bytes that follow a start byte (R162, Table 12-1). -/
def readFrame (after : List Byte) : Hunted :=
  match after with
  | kind :: len :: tail =>
    let n := len.toNat
    if tail.length < n + 2 then .incomplete
    else
      let body := tail.take n
      if bytesNat ((tail.drop n).take 2) = (recordCheck (kind :: len :: body)).toNat then
        .good kind body (tail.drop (n + 2))
      else .bad
  | _ => .incomplete

/-- The bytes of a begun frame that wait on channel c for more. -/
def State.holdBytes (s : State) (c : Chan) (bs : List Byte) : State := s.modChan c fun x => { x with rx := bs }

/-- The hunt over the bytes at hand: bytes before a start byte are passed over; a frame whose check
differs is discarded with LINK_DEFECT and the hunt resumes at the byte after its start byte; a frame whose
check agrees is judged, with no byte waiting, and the hunt resumes after its check; an incomplete frame waits for more
bytes (R162). Each turn uses a byte, so `fuel` bytes suffice. -/
def State.hunt (s : State) (c : Chan) : Nat → List Byte → State
  | 0, bs => s.holdBytes c bs
  | _ + 1, [] => s.holdBytes c []
  | fuel + 1, b :: bs =>
    if b = 0x7E then
      match readFrame bs with
      | .incomplete => s.holdBytes c (b :: bs)
      | .bad => (s.bump c .linkDefect).hunt c fuel bs
      | .good kind body rest => ((s.judgeRecord c kind body).holdBytes c []).hunt c fuel rest
    else s.hunt c fuel bs

/-- Bytes reach the link unit of channel c: the hunt takes up the bytes that wait there, and goes on with these
(R162). -/
def State.receive (s : State) (c : Chan) (bytes : List Byte) : State :=
  let bs := (s.chan c).rx ++ bytes
  (s.holdBytes c []).hunt c (bs.length + 1) bs

/-! ## Meanings -/

/-- LINK_DEFECT_CHECK: bytes reach channel c's link unit and are hunted and checked (R162); while RESET is
asserted they are discarded. -/
def execLinkDefectCheck (c : Chan) (bytes : List Byte) (s : State) : Host.Outcome State Fault Refusal :=
  .next (s.whenRunning (·.receive c bytes))

/-- LINK_DEFECT_RECORD: a record whose check agreed is judged under R163. Like every record command it is taken as a
whole record, and bytes of a frame begun before it stay in `rx` (DESIGN CHOICE, log entry 24). -/
def execLinkDefectRecord (c : Chan) (kind : Byte) (body : List Byte) (s : State) :
    Host.Outcome State Fault Refusal :=
  .next (s.whenRunning (·.judgeRecord c kind body))

end Sys2Proof.Machine
end

