-- ==== Sys2Proof/Machine/Dispatch.lean ====
section
/-! DEFINITION. One arm per command: each is one direct call of the command's meaning. -/

namespace Sys2Proof.Machine

def exec (i : Instr) (s : State) : Host.Outcome State Fault Refusal :=
  match i with
  | .hello c len cur => Sys2Proof.Machine.execHello c len cur s
  | .cycle c n room => Sys2Proof.Machine.execCycle c n room s
  | .placeResult c tag placed => Sys2Proof.Machine.execPlaceResult c tag placed s
  | .gapClosed c tag => Sys2Proof.Machine.execGapClosed c tag s
  | .arrival c a => Sys2Proof.Machine.execArrival c a s
  | .linkDown c => Sys2Proof.Machine.execLinkDown c s
  | .linkDefectCheck c bytes => Sys2Proof.Machine.execLinkDefectCheck c bytes s
  | .linkDefectRecord c kind body => Sys2Proof.Machine.execLinkDefectRecord c kind body s
  | .scanExpiry => Sys2Proof.Machine.execScanExpiry s
  | .gapLapse c n => Sys2Proof.Machine.execGapLapse c n s
  | .offerExpiry c n => Sys2Proof.Machine.execOfferExpiry c n s
  | .censusPeriodDue c => Sys2Proof.Machine.execCensusPeriodDue c s
  | .silenceTimeout c => Sys2Proof.Machine.execSilenceTimeout c s
  | .lost h => Sys2Proof.Machine.execLost h s
  | .retentionExpiry h => Sys2Proof.Machine.execRetentionExpiry h s
  | .pendingExpired m => Sys2Proof.Machine.execPendingExpired m s
  | .finalHandOutEvent c k h => Sys2Proof.Machine.execFinalHandOutEvent c k h s
  | .outQueueReport why c k h => Sys2Proof.Machine.execOutQueueReport why c k h s
  | .voidEvent c h => Sys2Proof.Machine.execVoidEvent c h s
  | .rosterJoinEvent c h => Sys2Proof.Machine.execRosterJoinEvent c h s
  | .rosterLeaveEvent c h => Sys2Proof.Machine.execRosterLeaveEvent c h s
  | .channelExitEvent c => Sys2Proof.Machine.execChannelExitEvent c s
  | .selectAssert => Sys2Proof.Machine.execSelectAssert s
  | .selectRelease => Sys2Proof.Machine.execSelectRelease s
  | .unknown bytes => Sys2Proof.Machine.execUnknown bytes s
  | .treeSet sel slots => Sys2Proof.Machine.execTreeSet sel slots s
  | .treeGet => Sys2Proof.Machine.execTreeGet s
  | .channelSet ch sel mode period skew => Sys2Proof.Machine.execChannelSet ch sel mode period skew s
  | .channelGet ch => Sys2Proof.Machine.execChannelGet ch s
  | .call ch => Sys2Proof.Machine.execCall ch s
  | .admitMark m => Sys2Proof.Machine.execAdmit m s
  | .bar m => Sys2Proof.Machine.execBar m s
  | .tableLoad m policy => Sys2Proof.Machine.execTableLoad m policy s
  | .tableRemove m => Sys2Proof.Machine.execTableRemove m s
  | .tableRead idx => Sys2Proof.Machine.execTableRead idx s
  | .pendingRead idx => Sys2Proof.Machine.execPendingRead idx s
  | .entryRead h => Sys2Proof.Machine.execEntryRead h s
  | .entryFind m => Sys2Proof.Machine.execEntryFind m s
  | .dismiss h => Sys2Proof.Machine.execDismiss h s
  | .hush h => Sys2Proof.Machine.execHush h s
  | .resume h => Sys2Proof.Machine.execResume h s
  | .rerange h => Sys2Proof.Machine.execRerange h s
  | .move h target => Sys2Proof.Machine.execMove h target s
  | .clearDamaged h => Sys2Proof.Machine.execClearDamaged h s
  | .inject ch kind h fields => Sys2Proof.Machine.execInject ch kind h fields s
  | .noticeRead => Sys2Proof.Machine.execNoticeRead s
  | .tallyRead ch clear => Sys2Proof.Machine.execTallyRead ch clear s
  | .storeRecordRead clear => Sys2Proof.Machine.execStoreRecordRead clear s
  | .status => Sys2Proof.Machine.execStatus s
  | .restart code => Sys2Proof.Machine.execRestart code s
  | .powerUp => Sys2Proof.Machine.execPowerUp s
  | .resetAssert => Sys2Proof.Machine.execResetAssert s
  | .resetRelease keep => Sys2Proof.Machine.execResetRelease keep s

end Sys2Proof.Machine
end

