-- ==== Sys2Proof/Machine/Encode.lean ====
section
/-! DEFINITION. The bytes a sender spells a command with: the request of the management link (Table 12-6)
and the framed record of a channel link (Tables 12-1 and 12-2). The decoders are `State.decodeRequest` and
`State.hunt`. -/

namespace Sys2Proof.Machine

/-- The code of an arrival kind (Table 12-2). -/
def ArrivalKind.code : ArrivalKind → Byte
  | .census => 1
  | .range => 2
  | .data => 3

/-- The code of a delivery status (Table 12-2). -/
def Delivery.code : Delivery → Byte
  | .clean => 0
  | .delimiterFault => 1
  | .burstFault => 2

/-- The 21 bytes of an ARRIVAL body (Table 12-2). -/
def arrivalBytes (a : Arrival) : List Byte :=
  [ArrivalKind.code a.kind, Delivery.code a.status, a.tag] ++ natBytes 2 a.handle.toNat ++ natBytes 2 a.startCycle.toNat ++
    natBytes 3 a.startOffset.toNat ++ natBytes 2 a.offset.toNat ++ [a.slot] ++ natBytes 8 a.mark.toNat

/-- The channel, kind code and body of a link record command (Table 12-2); none for the other commands. -/
def linkRecord : Instr → Option (Chan × Byte × List Byte)
  | .hello c len cur => some (c, 0x01, natBytes 3 len.toNat ++ natBytes 2 cur.toNat)
  | .cycle c n room => some (c, 0x02, natBytes 2 n.toNat ++ [room])
  | .placeResult c tag placed => some (c, 0x03, [tag, if placed then 0 else 1])
  | .gapClosed c tag => some (c, 0x04, [tag])
  | .arrival c a => some (c, 0x05, arrivalBytes a)
  | .linkDown c => some (c, 0x06, [])
  | _ => none

/-- The bytes of a management request (Table 12-6); none for the other commands. -/
def requestBytes : Instr → Option (List Byte)
  | .treeSet sel slots => some (treeSetBytes sel slots)
  | .treeGet => some [0x11]
  | .channelSet ch sel mode period skew =>
    some ([0x12, ch, sel, mode] ++ natBytes 2 period.toNat ++ natBytes 2 skew.toNat)
  | .channelGet ch => some [0x13, ch]
  | .call ch => some [0x20, ch]
  | .admitMark m => some (0x21 :: markBytes m)
  | .bar m => some (0x22 :: markBytes m)
  | .tableLoad m policy => some (0x23 :: markBytes m ++ [policy])
  | .tableRemove m => some (0x24 :: markBytes m)
  | .tableRead idx => some [0x25, idx]
  | .pendingRead idx => some [0x26, idx]
  | .entryRead h => some (0x30 :: natBytes 2 h.toNat)
  | .entryFind m => some (0x31 :: markBytes m)
  | .dismiss h => some (0x32 :: natBytes 2 h.toNat)
  | .hush h => some (0x33 :: natBytes 2 h.toNat)
  | .resume h => some (0x34 :: natBytes 2 h.toNat)
  | .rerange h => some (0x35 :: natBytes 2 h.toNat)
  | .move h target => some (0x36 :: natBytes 2 h.toNat ++ [target])
  | .clearDamaged h => some (0x37 :: natBytes 2 h.toNat)
  | .inject ch kind h fields => some ([0x40, ch, kind] ++ natBytes 2 h.toNat ++ natBytes 8 fields.toNat)
  | .noticeRead => some [0x50]
  | .tallyRead ch clear => some [0x51, ch, clear]
  | .storeRecordRead clear => some [0x52, clear]
  | .status => some [0x53]
  | .restart code => some [0x60, code]
  | _ => none

end Sys2Proof.Machine
end

