-- ==== Sys2Proof/Safety.lean ====
section
/-! DEFINITION. What a sound state of the controller is: the laws the manual states for its settings, queues,
lists, tallies, handles, marks, gaps, range work, drift streaks, fill delays and retention, and the words the
statements use. -/

namespace Sys2Proof.Machine

/-! ## Words the statements use -/

/-- RESET is not asserted (R159). -/
abbrev State.running (s : State) : Prop := s.pins.resetLow = false

/-- The port has composed a reply, of which no byte is clocked out yet (R151). -/
def State.replied (s : State) (code : ReplyCode) (body : List Byte) : State :=
  { s with port := { s.port with txn := .answered ⟨code, body⟩ 0 } }

/-- Handle h holds an entry with fields t whose check code agrees. -/
abbrev State.sound (s : State) (h : Handle) (t : Terminal) : Prop := s.entry h = some ⟨h, .sound, some t⟩

/-- The check code of every stored entry agrees, so that reading entries repairs and damages nothing (R33). -/
abbrev State.allSound (s : State) : Prop := ∀ e ∈ s.registry, e.flaw = .sound

/-! ## Queues, lists and tallies (R51, R65, R94, R100, R155, R157) -/

/-- An out-queue holds at most 48 messages and never two of the same kind for the same handle (R65). -/
def OutQueueLaw (q : List QMsg) : Prop :=
  q.length ≤ 48 ∧ q.Pairwise fun a b => ¬(a.msg.kind = b.msg.kind ∧ a.msg.handle = b.msg.handle)

/-- The laws of the notice queue, the admission table, the pending list, the out-queues, the lapsed-tag lists
and the tallies. -/
def QueueLaw (s : State) : Prop :=
  s.notices.length ≤ 64 ∧
    s.table.length ≤ 64 ∧ (s.table.map (·.mark)).Nodup ∧
    s.waiting.length ≤ 16 ∧ (s.waiting.map (·.mark)).Nodup ∧
    ∀ c, OutQueueLaw (s.chan c).outq ∧ (s.chan c).lapsed.length ≤ 4 ∧ ∀ k, (s.chan c).tally k ≤ 65535

/-! ## Settings (R4, R5, R7, R59) -/

/-- Every setting lies within its range (Tables 1-3 and 11-3). -/
def TreeSettings.inRange (t : TreeSettings) : Bool :=
  (t.values.zip settingRanges).all fun x => decide (x.2.1 ≤ x.1) && decide (x.1 ≤ x.2.2)

/-- The tree settings lie within their ranges and meet Table 1-4; each channel's skew and census period lie
within theirs. -/
def SettingsLaw (s : State) : Prop :=
  s.tree.inRange = true ∧ s.tree.consistent = true ∧
    ∀ c, -2048 ≤ (s.chan c).skew ∧ (s.chan c).skew ≤ 2047 ∧ 16 ≤ (s.chan c).period ∧ (s.chan c).period ≤ 65535

/-! ## The registry (R15, R18, R20, R23, R128) -/

/-- Each entry holds a handle 1..511 that no other entry holds: the entries stand in handle order (R18). -/
def HandleLaw (s : State) : Prop :=
  (s.registry.map (·.handle)).Pairwise (· < ·) ∧ ∀ e ∈ s.registry, 1 ≤ e.handle ∧ e.handle ≤ 511

/-- The final round trip and fill delay of JOINING, ACTIVE, HUSHED and RETUNING (R15). -/
def Phase.fix : Phase → Option Fix
  | .joining x => some x
  | .active x _ _ => some x
  | .hushed x => some x
  | .retuning x _ => some x
  | _ => none

/-- The law of the fill delay (R15). -/
def FillLaw (s : State) : Prop :=
  ∀ h t x, s.term h = some t → t.phase.fix = some x →
    x.fill = s.tree.H - (x.final + (s.chan t.home).skew) ∧ 0 ≤ x.fill ∧ x.fill ≤ s.tree.H

/-- The retention list holds the LOST entries, each once (R23). -/
def RetentionLaw (s : State) : Prop :=
  s.retention.Nodup ∧ ∀ h, h ∈ s.retention ↔ ∃ t, s.term h = some t ∧ t.phase.isLost = true

/-- The law of marks: no two entries other than DAMAGED ones hold the same mark, and no mark that one holds
is in the pending list (R20). -/
def MarkLaw (s : State) : Prop :=
  (∀ h h' t t', s.term h = some t → s.term h' = some t' → t.mark = t'.mark → h = h') ∧
    ∀ h t, s.term h = some t → ∀ i ∈ s.waiting, i.mark ≠ t.mark

/-- The law of drift: every entry's drift streak count is below V (R128). -/
def DriftLaw (s : State) : Prop :=
  ∀ h t fix d missed st, s.term h = some t → t.phase = .active fix d missed → d.streak = some st →
    st.count < s.tree.V

/-! ## Gaps and range work (R47, R49, R52) -/

/-- The gap is a census gap. -/
def Gap.isCensus (g : Gap) : Bool :=
  match g.kind with
  | .census _ => true
  | _ => false

/-- The counts of the law of gaps: at most one census gap, at most four range gaps, never both; and the
outstanding offer, placed, would keep them (R49, R52). -/
def ChanState.gapLaw (x : ChanState) : Prop :=
  (x.gaps.filter Gap.isCensus).length ≤ 1 ∧
    (x.gaps.filter fun g => !g.isCensus).length ≤ 4 ∧
    ((∃ g ∈ x.gaps, g.isCensus = true) → ∀ g ∈ x.gaps, g.isCensus = true) ∧
    ∀ o, x.offer = some o →
      (o.kind = .census → x.gaps = []) ∧
      (o.kind ≠ .census → (∀ g ∈ x.gaps, g.isCensus = false) ∧ x.gaps.length ≤ 3)

/-- The counts of the law of gaps on every channel (R49). -/
def GapLaw (s : State) : Prop := ∀ c, (s.chan c).gapLaw

/-- The spans of the law of gaps: no two spans in flight overlap, and the outstanding offer's overlaps none of them
(R49, R50). The gaps stand in the order of placement, so a later gap's reference instant is at or after an earlier
one's. -/
def ChanState.spanLaw (L : Nat) (x : ChanState) : Prop :=
  (x.gaps.Pairwise fun g g' => overlaps L g'.refCycle g'.start g'.len g = false) ∧
    ∀ o, x.offer = some o → ∀ g ∈ x.gaps, overlaps L o.refCycle o.start o.len g = false

/-- The spans of the law of gaps on every channel, for the cycle length the tree has (R49). -/
def SpanLaw (s : State) : Prop := ∀ c, (s.chan c).spanLaw s.tree.L

/-- How often handle h stands in one channel's range request queue, outstanding offer and non-void range
gaps. -/
def ChanState.workCount (x : ChanState) (h : Handle) : Nat :=
  x.rangeQ.count h + (if x.offer.any (·.names h) then 1 else 0) + (x.gaps.filter (·.names h)).length

/-- How often handle h stands among the range work of all four channels. -/
def State.workCount (s : State) (h : Handle) : Nat :=
  (s.chan .c0).workCount h + (s.chan .c1).workCount h + (s.chan .c2).workCount h + (s.chan .c3).workCount h

/-- The law of range work: a handle stands at most once among the range request queues, the outstanding range
offers and the non-void range gaps in flight of all four channels (R47). -/
def RangeWorkLaw (s : State) : Prop := ∀ h, s.workCount h ≤ 1

/-! ## Links (R40, R42, R44, R45) -/

/-- A channel that is not UP has an empty roster, an empty out-queue, no offer, no gap in flight and no lapsed tag;
the alignment count of ALIGNING is 1..3 between events, and the silence count is 0 in DOWN and MISMATCHED and below 2
elsewhere. -/
def ChanState.linkLaw (x : ChanState) : Prop :=
  (x.isUp = false → x.roster = [] ∧ x.outq = [] ∧ x.offer = none ∧ x.gaps = [] ∧ x.lapsed = []) ∧
    (∀ last count, x.link = .aligning last count → 1 ≤ count ∧ count ≤ 3) ∧
    (x.link = .down ∨ x.link = .mismatched → x.silence = 0) ∧ x.silence ≤ 1

/-- The law of links on every channel. -/
def LinkLaw (s : State) : Prop := ∀ c, (s.chan c).linkLaw

/-- The law of the roster (R62): the announced roster of an UP channel holds the ACTIVE entries homed on it, each once,
and that of a channel that is not UP holds none. -/
def RosterLaw (s : State) : Prop :=
  ∀ c, (s.chan c).roster.Nodup ∧ ∀ h, h ∈ (s.chan c).roster ↔
    s.isUp c = true ∧ ∃ t, s.term h = some t ∧ t.home = c ∧ t.phase.isActive = true

end Sys2Proof.Machine
end

