-- ==== Sys2Proof/Certificates/Slice0/Obligations.lean ====
section
/-! DEFINITION. The statements for the provers. Most say the next state as an equation, which is also the
frame: what the right-hand side does not change stays as it was. -/

open Sys2Proof Sys2Proof.Machine

/-! ## Steps, resets and pins -/

/-- A step takes the command at the front of the queue and runs it with the queue's rest. -/
def Obligations.StepTakesTheFrontCommand : Prop :=
  ∀ (s : State) (i : Instr) (rest : List Instr), s.pending = i :: rest → step s = exec i { s with pending := rest }

/-- With no command waiting a step takes the oldest internal event, or lets one reference clock period pass: the
prescaler counts, its return to 0 is a scan expiry, and RESET holds it (R133, R159). That this happens while no
command waits, and the order of events, are the model's choice (log entries 1 and 2). -/
def Obligations.IdleStepTakesAnEventOrAClockPeriod : Prop :=
  ∀ s : State, s.pending = [] →
    (∀ e rest, s.events = e :: rest → step s = .next (({ s with events := rest } : State).takeEvent e)) ∧
    (s.events = [] → s.pins.resetLow = true → step s = .next s) ∧
    (s.events = [] → s.running → s.prescaler + 1 < 2 ^ s.tree.p →
      step s = .next { s with prescaler := s.prescaler + 1 }) ∧
    (s.events = [] → s.running → 2 ^ s.tree.p ≤ s.prescaler + 1 → step s = exec .scanExpiry s)

/-- The values the manual gives after a full reset (R38, R63, R65, R107, R133, R161, Tables 1-3 and 11-3): the request
buffer is empty with no transaction begun and no RESTART armed (R160, R161), no internal event waits, and the hunt of
each link starts afresh (R162). The levels of the pins, the empty queue of commands and the empty
list of records sent are the model's choice (DESIGN CHOICE, log entry 14), and so is the list of internal events (log
entry 1). -/
def Obligations.ResetLeavesTheInitialValues : Prop :=
  State.reset.registry = [] ∧ State.reset.retention = [] ∧ State.reset.freeCount = 511 ∧
    State.reset.fullLatch = false ∧ State.reset.firstError = none ∧ State.reset.table = [] ∧
    State.reset.waiting = [] ∧ State.reset.pendingFullLatch = false ∧ State.reset.notices = [] ∧
    State.reset.overflow = false ∧ State.reset.attention = false ∧ State.reset.prescaler = 0 ∧
    State.reset.events = [] ∧ State.reset.port = ⟨.idle, none⟩ ∧
    State.reset.pending = [] ∧ State.reset.pins = ⟨false, false, false⟩ ∧
    State.reset.tree.values = [77760, 21773, 420000, 0, 124416, 64, 256, 31, 480, 320, 2, 8, 4, 2, 4, 16, 48] ++
      [2, 20, 3, 24, 48, 1, 0, 0] ∧
    ∀ c, (State.reset.chan c).link = .down ∧ (State.reset.chan c).silence = 0 ∧
      (State.reset.chan c).cycleSeen = false ∧ (State.reset.chan c).rx = [] ∧ (State.reset.chan c).tx = [] ∧
      (State.reset.chan c).roster = [] ∧ (State.reset.chan c).offer = none ∧ (State.reset.chan c).rangeQ = [] ∧
      (State.reset.chan c).gaps = [] ∧ (State.reset.chan c).lapsed = [] ∧ (State.reset.chan c).tagCtr = 0 ∧
      (State.reset.chan c).declineStreak = 0 ∧ (State.reset.chan c).starved = false ∧
      (State.reset.chan c).due = false ∧ (State.reset.chan c).dueAge = 0 ∧ (State.reset.chan c).periodCtr = 0 ∧
      (State.reset.chan c).quietPending = false ∧ (State.reset.chan c).mode = .off ∧
      (State.reset.chan c).period = 8000 ∧ (State.reset.chan c).skew = 0 ∧ (State.reset.chan c).outq = [] ∧
      ∀ k, (State.reset.chan c).tally k = 0

/-- The state after a full reset meets every law of Sys2Proof/Safety.lean. -/
def Obligations.ResetMeetsEveryLaw : Prop :=
  QueueLaw State.reset ∧ SettingsLaw State.reset ∧ HandleLaw State.reset ∧ FillLaw State.reset ∧
    RetentionLaw State.reset ∧ MarkLaw State.reset ∧ DriftLaw State.reset ∧ GapLaw State.reset ∧
    SpanLaw State.reset ∧ RosterLaw State.reset ∧ RangeWorkLaw State.reset ∧ LinkLaw State.reset ∧ State.reset.allSound

/-- POWER_UP takes a full reset whatever the KEEP strap (R159); RESET_ASSERT abandons the transaction and an
armed RESTART; RESET_RELEASE takes one reset by the KEEP strap, and does nothing when RESET was not asserted. The
pins, the waiting commands and the records already sent are not the controller's to reset (log entry 14). -/
def Obligations.PowerAndResetPinsTakeTheirResets : Prop :=
  ∀ s : State,
    exec .powerUp s = .next { State.reset with
      pins := s.pins
      pending := s.pending
      chans := ⟨{ ChanState.reset with tx := (s.chan .c0).tx }, { ChanState.reset with tx := (s.chan .c1).tx },
        { ChanState.reset with tx := (s.chan .c2).tx }, { ChanState.reset with tx := (s.chan .c3).tx }⟩ } ∧
    exec .resetAssert s = .next { s with
      pins := { s.pins with resetLow := true }
      port := { txn := .idle, armed := none } } ∧
    (s.pins.resetLow = true → exec (.resetRelease false) s =
      exec .powerUp { s with pins := { s.pins with resetLow := false, keep := false } }) ∧
    (s.pins.resetLow = true → exec (.resetRelease true) s =
      .next (({ s with pins := { s.pins with resetLow := false, keep := true } } : State).keepTreeRestart 1)) ∧
    (s.running → ∀ keep, exec (.resetRelease keep) s = .next s)

/-- While RESET is asserted no channel link record, no byte of either link, no request and no scan expiry is taken, and
no part of a service or of a scan that is given by itself (R159; log entry 3). -/
def Obligations.NothingIsTakenWhileResetIsAsserted : Prop :=
  ∀ (s : State) (i : Instr), s.pins.resetLow = true →
    (linkRecord i).isSome = true ∨ (requestBytes i).isSome = true ∨ i = .scanExpiry ∨
      (∃ c bytes, i = .linkDefectCheck c bytes) ∨ (∃ c k body, i = .linkDefectRecord c k body) ∨
      (∃ bytes, i = .unknown bytes) ∨ (∃ c n, i = .gapLapse c n ∨ i = .offerExpiry c n) ∨
      (∃ c, i = .censusPeriodDue c ∨ i = .silenceTimeout c) ∨ (∃ h, i = .lost h ∨ i = .retentionExpiry h) ∨
      (∃ m, i = .pendingExpired m) →
    exec i s = .next s

/-- SELECT_ASSERT begins a transaction with an empty buffer; SELECT_RELEASE ends it, and takes the reset an accepted
RESTART has armed; a RESTART with any other code is refused (R151, R160). While RESET is asserted no transaction begins
(R159). -/
def Obligations.SelectAndRestartRequests : Prop :=
  ∀ s : State,
    (s.running → exec .selectAssert s = .next { s with
      pins := { s.pins with select := true }
      port := { s.port with txn := .receiving [] } }) ∧
    (s.pins.resetLow = true → exec .selectAssert s = .next { s with pins := { s.pins with select := true } }) ∧
    (s.port.armed = none → exec .selectRelease s = .next { s with
      pins := { s.pins with select := false }
      port := { txn := .idle, armed := none } }) ∧
    (s.running → s.port.armed = some .full →
      exec .selectRelease s = exec .powerUp { s with pins := { s.pins with select := false } }) ∧
    (s.running → s.port.armed = some .keepTree →
      exec .selectRelease s = .next (({ s with
        pins := { s.pins with select := false }
        port := { txn := .idle, armed := none } } : State).keepTreeRestart 2)) ∧
    (s.portReady = true → ∀ code : Byte,
      (code = 1 → exec (.restart code) s = .next
        (({ s with port := { s.port with armed := some .keepTree } } : State).replied .done [])) ∧
      (code = 2 → exec (.restart code) s = .next
        (({ s with port := { s.port with armed := some .full } } : State).replied .done [])) ∧
      (code ≠ 1 → code ≠ 2 → exec (.restart code) s = .next (s.replied .outOfRange [])))

/-- A keep-tree restart first takes the events that wait and then starts the blocks anew: the settings,
the table and the channel settings stand, and everything else of the blocks is as after a full reset (R39, R47, R63,
R65, R107, R133, R161). The entries are read in handle order: RESTARTED is the first notice, and the first flaw that
the record takes raises the only other one, STORE_ERROR; an entry with an uncorrectable flaw, or DISMISSING, leaves the
retention list, and the RETUNING ones join its end (R33 to R36, R39). That the waiting events are taken oldest first is
the model's choice (DESIGN CHOICE, log entry 1), and so is that the pins, the waiting commands and the records already
sent are kept (DESIGN CHOICE, log entry 14). -/
def Obligations.KeepTreeRestartClearsTheBlocks : Prop :=
  ∀ (s taken : State) (source : Nat) (caught : Option FirstError), HandleLaw s →
    taken = s.events.foldl State.takeEvent { s with events := [] } →
    caught = (if taken.firstError = none then taken.registry.findSome? (fun e => match e.term, e.flaw with
      | some _, .uncorrectable => some ⟨.uncorrectable, e.handle⟩
      | some _, .correctable => if taken.tree.capture = .all then some ⟨.correctable, e.handle⟩ else none
      | _, _ => none) else none) →
    (s.keepTreeRestart source = { taken with
      registry := (s.keepTreeRestart source).registry
      retention :=
        (taken.retention.filter fun h => !(taken.registry.any fun e => e.handle == h && e.term.any fun t =>
          e.flaw == .uncorrectable || t.phase.isDismissing)) ++
        taken.registry.filterMap fun e => e.term.bind fun t => match t.phase with
          | .retuning .. => if e.flaw = .uncorrectable then none else some e.handle
          | _ => none
      firstError := if caught = none then taken.firstError else caught
      prescaler := 0
      fullLatch := false
      waiting := []
      pendingFullLatch := false
      notices := Notice.restarted source :: caught.toList.map fun r =>
        ⟨.storeError, some r.handle, none, none, some (if r.kind = .correctable then 1 else 2)⟩
      overflow := false
      port := { txn := .idle, armed := none }
      chans := (s.keepTreeRestart source).chans }) ∧
    ∀ c, (s.keepTreeRestart source).chan c = { ChanState.reset with
      mode := (taken.chan c).mode
      period := (taken.chan c).period
      skew := (taken.chan c).skew
      tx := (taken.chan c).tx
      rangeQ := taken.registry.filterMap fun e => e.term.bind fun t => match t.phase with
        | .ranging .. => if t.home = c ∧ e.flaw ≠ .uncorrectable then some e.handle else none
        | _ => none }

/-- Table 2-9: what a keep-tree restart makes of each entry, once the events that wait are taken. Each kind that an
emptied out-queue reported for it joins the owed set where the table wants the kind, and drops from it what it
supersedes (R24, R39; log entry 18). An entry with a correctable flaw is repaired and treated as any other, one with an
uncorrectable flaw is kept as DAMAGED, and so is one that was DAMAGED (R33, R34, R39). That the waiting events
are taken oldest first is the model's choice (DESIGN CHOICE, log entry 1). -/
def Obligations.KeepTreeRestartTransformsEveryEntry : Prop :=
  ∀ (s taken t1 : State) (source : Nat), HandleLaw s →
    taken = s.events.foldl State.takeEvent { s with events := [] } → t1 = s.keepTreeRestart source →
    (∀ h, taken.entry h = none → t1.entry h = none) ∧
    (∀ h f, taken.entry h = some ⟨h, f, none⟩ → t1.entry h = some ⟨h, f, none⟩) ∧
    (∀ h t, taken.entry h = some ⟨h, .uncorrectable, some t⟩ → t1.entry h = some ⟨h, .sound, none⟩) ∧
    ∀ (h : Handle) (t : Terminal) (f : Flaw) (told : MsgKind → Bool), taken.entry h = some ⟨h, f, some t⟩ →
      f ≠ .uncorrectable →
      (∀ k, told k = [Chan.c0, .c1, .c2, .c3].any fun c =>
        (taken.chan c).outq.any fun m => m.report && m.msg.kind == k && m.msg.handle == h) →
      match t.phase with
      | .enrolling .. => t1.sound h { t with
          heard := false
          owed := { t.owed with enrol := true, dismiss := false } }
      | .ranging n _ fin fill => t1.sound h { t with
          heard := false
          phase := .ranging n [] fin fill
          owed := if told .hush then { t.owed with hush := true, resume := false } else t.owed }
      | .joining _ => t1.sound h { t with
          heard := false
          owed := { t.owed with
            setDelay := t.owed.setDelay || told .setDelay
            resume := t.owed.resume || told .resume
            hush := t.owed.hush && !(told .setDelay || told .resume)
            trim := if told .setDelay then none else t.owed.trim } }
      | .active fix _ _ => t1.sound h { t with
          heard := false
          phase := .active fix { streak := none, settle := 2, trimPending := t.owed.trim } 0 }
      | .hushed _ => t1.sound h { t with
          heard := false
          owed := if told .hush then { t.owed with hush := true, resume := false } else t.owed }
      | .retuning fix _ => t1.sound h { t with
            heard := false
            moveFlag := false
            owed := { Owed.none with dismiss := true }
            phase := .lost (some fix.final) 0 false } ∧
          h ∈ t1.retention
      | .lost _ _ sent => t1.sound h { t with
          heard := false
          owed := if sent then t.owed else { Owed.none with dismiss := true } }
      | .dismissing .. => t1.entry h = none

/-! ## Laws that every step keeps -/

/-- The sizes of the notice queue, the admission table, the pending list, the out-queues, the lapsed-tag lists and
the tallies, and the marks and slots they hold once (R51, R65, R94, R100, R155, R157). -/
def Obligations.StepKeepsTheQueueLaws : Prop :=
  ∀ s t : State, step s = .next t → QueueLaw s → QueueLaw t

/-- The entries hold handles 1..511, each once (R18). That a step flaws no stored entry, so that `allSound` is kept,
is the model's choice: what flips a bit of the store is outside the manual (log entry 7). -/
def Obligations.StepKeepsTheHandleLaw : Prop :=
  ∀ s t : State, step s = .next t → HandleLaw s → HandleLaw t ∧ (s.allSound → t.allSound)

/-- A channel that is not UP holds no roster, no message, no offer, no gap and no lapsed tag, and the alignment and
silence counts stay within theirs (R40, R42, R44, R45). With that law, and with the handles and the retention list as
their laws say, the announced roster of an UP channel stays the set of ACTIVE entries homed on it (R62), but for a
roster event that is given by itself (log entry 5). -/
def Obligations.StepKeepsTheLinkLaw : Prop :=
  ∀ s t : State, step s = .next t → LinkLaw s → LinkLaw t ∧ (HandleLaw s → RetentionLaw s → RosterLaw s →
    (∀ c h, s.pending.head? ≠ some (.rosterJoinEvent c h) ∧ s.pending.head? ≠ some (.rosterLeaveEvent c h)) →
    (s.pending = [] → ∀ c h, s.events.head? ≠ some (.rosterJoin c h) ∧ s.events.head? ≠ some (.rosterLeave c h)) →
    RosterLaw t)

/-- The settings stay within their ranges and conditions (R4, R5, R7, R59), and every fill delay is H − (final round
trip + skew) and lies within 0..H (R15). -/
def Obligations.StepKeepsTheSettingsAndFillLaws : Prop :=
  ∀ s t : State, step s = .next t → HandleLaw s → SettingsLaw s → FillLaw s → SettingsLaw t ∧ FillLaw t

/-- At most one census gap, at most four range gaps and never both are in flight on a channel, and the outstanding
offer would keep it so (R49, R52). The spans in flight on one channel do not overlap, and neither would the outstanding
offer's (R49, R50); a channel that is not UP holds none, so that a change of L, which R6 then allows, moves no span. -/
def Obligations.StepKeepsTheGapLaw : Prop :=
  ∀ s t : State, step s = .next t → (GapLaw s → GapLaw t) ∧ (LinkLaw s → SpanLaw s → SpanLaw t)

/-- A handle stands at most once among the range work of all four channels (R47). -/
def Obligations.StepKeepsTheRangeWorkLaw : Prop :=
  ∀ s t : State, step s = .next t → HandleLaw s → RangeWorkLaw s → RangeWorkLaw t

/-- No two entries hold the same mark, and none that an entry holds is pending (R20). -/
def Obligations.StepKeepsTheLawOfMarks : Prop :=
  ∀ s t : State, step s = .next t → HandleLaw s → MarkLaw s → MarkLaw t

/-- The retention list holds the LOST entries, each once (R23). -/
def Obligations.StepKeepsTheRetentionLaw : Prop :=
  ∀ s t : State, step s = .next t → HandleLaw s → RetentionLaw s → RetentionLaw t

/-- Every drift streak count stays below V (R128). -/
def Obligations.StepKeepsTheLawOfDrift : Prop :=
  ∀ s t : State, step s = .next t → HandleLaw s → DriftLaw s → DriftLaw t

/-! ## Record layouts -/

/-- The bytes of every management request of Table 12-6, clocked one by one, are taken as that request with every
field at every value (R151, R164). That a request command clocks all its bytes in one step, and that UNKNOWN carries raw
bytes and takes a known request among them, is the model's choice (DESIGN CHOICE, log entry 13). -/
def Obligations.RequestBytesSpellTheRequest : Prop :=
  ∀ (i : Instr) (bytes : List Byte) (s : State), requestBytes i = some bytes → i.wf = true → s.portReady = true →
    exec (.unknown bytes) s = exec i s

/-- The frame of every channel link record of Table 12-2 is taken as that record with every field at every value (Table
12-1, R162). The records sent have the bodies of Table 12-3, with the tree messages of Table 12-4 and the offer of
Table 12-5. That LINK_DEFECT_CHECK carries raw link bytes and takes the valid frames among them is the model's choice
(DESIGN CHOICE, log entry 13). -/
def Obligations.LinkFramesSpellTheRecord : Prop :=
  (∀ (kind : Byte) (body : List Byte), frame kind body = 0x7E :: kind :: BitVec.ofNat 8 body.length :: (body ++
    natBytes 2 (recordCheck (kind :: BitVec.ofNat 8 body.length :: body)).toNat)) ∧
  (∀ m : TreeMsg, m.bytes = match m with
    | .enrol h mark => natBytes 1 1 ++ natBytes 2 h ++ natBytes 8 (withCheck mark).toNat
    | .setDelay h d => natBytes 1 2 ++ natBytes 2 h ++ intBytes 3 d ++ List.replicate 5 0
    | .trimDelay h ch => natBytes 1 3 ++ natBytes 2 h ++ intBytes 2 ch ++ List.replicate 6 0
    | .hush h => natBytes 1 4 ++ natBytes 2 h ++ List.replicate 8 0
    | .resume h => natBytes 1 5 ++ natBytes 2 h ++ List.replicate 8 0
    | .retune h c => natBytes 1 6 ++ natBytes 2 h ++ natBytes 1 c.num ++ List.replicate 7 0
    | .dismiss h => natBytes 1 7 ++ natBytes 2 h ++ List.replicate 8 0) ∧
  (∀ m : Mark, xorBytes (withCheck m) = 0 ∧ (withCheck m).extractLsb' 8 56 = m) ∧
  (∀ (o : Offer) (tail : List Byte), tail = natBytes 2 o.refCycle.toNat ++ natBytes 3 o.start ++ natBytes 3 o.len →
    (o.kind = .census → o.bytes = o.tag :: 1 :: 0 :: 0 :: tail) ∧
    ∀ h, o.kind = .range h → o.bytes = o.tag :: 2 :: (natBytes 2 h ++ tail)) ∧
  (∀ r : TxRecord, r.frame = match r with
    | .helloAck ok len => frame 0x81 ((if ok then 0 else 1) :: natBytes 3 len)
    | .cycleReply n msgs offer => frame 0x82 (natBytes 2 n.toNat ++ natBytes 1 msgs.length ++
        [if offer.isSome then 1 else 0] ++ msgs.flatMap TreeMsg.bytes ++ offer.elim [] Offer.bytes)
    | .rosterJoin h => frame 0x83 (natBytes 2 h)
    | .rosterLeave h => frame 0x84 (natBytes 2 h)) ∧
  ∀ (i : Instr) (c : Chan) (kind : Byte) (body : List Byte) (s t : State), linkRecord i = some (c, kind, body) →
    s.running → (s.chan c).rx = [] → exec i s = .next t →
    exec (.linkDefectCheck c (frame kind body)) s = .next (t.modChan c fun x => { x with rx := [] })

/-! ## The management port -/

/-- A code that names no request is answered UNKNOWN as soon as its byte is in, and the bytes after it clock out the
reply; a request cut short waits in the buffer (R151). The requests and the length of each body are those of Table
12-6, and a reply is its code of Table 12-9 and its body (R164). That an UNKNOWN command carries raw bytes, those
after the code and a known request cut short among them, is the model's choice (DESIGN CHOICE, log entry 13). -/
def Obligations.UnknownAndIncompleteRequests : Prop :=
  (∀ r : Reply, r.bytes = natBytes 1 (match r.code with
    | .done => 0 | .wrongState => 1 | .noEntry => 2 | .outOfRange => 3 | .conflict => 4 | .notIdle => 5
    | .tableFull => 6 | .registryFull => 7 | .notPending => 8 | .channelDown => 9 | .unknown => 10 | .empty => 11) ++
      r.body) ∧
  (∀ code, requestLength code = ([(0x10, 79), (0x11, 0), (0x12, 7), (0x13, 1), (0x20, 1), (0x21, 7), (0x22, 7),
    (0x23, 8), (0x24, 7), (0x25, 1), (0x26, 1), (0x30, 2), (0x31, 7), (0x32, 2), (0x33, 2), (0x34, 2), (0x35, 2),
    (0x36, 3), (0x37, 2), (0x40, 12), (0x50, 0), (0x51, 2), (0x52, 1), (0x53, 0), (0x60, 1)].find?
      (·.1 == code)).map (·.2)) ∧
  ∀ (s : State) (b : Byte) (rest : List Byte), s.portReady = true →
    (requestLength b.toNat = none → exec (.unknown (b :: rest)) s =
      .next { s with port := { s.port with txn := .answered ⟨.unknown, []⟩ rest.length } }) ∧
    (∀ n, requestLength b.toNat = some n → rest.length < n → exec (.unknown (b :: rest)) s =
      .next { s with port := { s.port with txn := .receiving (b :: rest) } })

/-- TREE SET is judged whole: range (Tables 1-3 and 11-3), then the locks on H, K and L (R6), then the consistency of
the settings that would result (Table 1-4); a refused one changes nothing (R7, R153). A working entry, of state code 1
to 6, locks the three, an ALIGNING or UP link locks L. That the locks look at the entries as they are stored, without
the store check, is the model's choice (DESIGN CHOICE, log entry 26). An accepted one gives every setting it carries
the value of its slot and leaves the others; a change of V clears the streak of every drift record (no sign, count 0,
sum 0) and keeps its settle count and trim-pending, and a change of p restarts the prescaler count; nothing else
changes (R8, R133, R164). -/
def Obligations.TreeSetIsJudgedAndReplaces : Prop :=
  (∀ t : TreeSettings, t.values = [t.L, t.K, t.H, t.rtMin, t.rtMax, t.Tc, t.Uh, t.Jmax, t.Bd, t.Br, t.nConf, t.P, t.Rmax,
    t.Z, t.V, t.Cmax, t.Ejump, t.r, t.p, t.mLost, t.retention, t.aHold,
    match t.policy with | .openAll => 0 | .ask => 1 | .closed => 2, if t.defectNotices then 1 else 0,
    match t.capture with | .all => 0 | .uncorrectable => 1]) ∧
  (∀ i v : Nat, inSettingRange (i, v) = true ↔ ∃ r, [(4096, 262143), (0, 262143), (0, 1048575), (0, 1048575),
    (0, 1048575), (0, 4095), (1, 4095), (0, 63), (1, 4095), (1, 4095), (1, 4), (0, 255), (1, 15), (0, 63), (1, 15),
    (1, 255), (1, 1023), (1, 3), (16, 24), (1, 255), (0, 255), (1, 255), (0, 2), (0, 1), (0, 1)][i]? = some r ∧
      r.1 ≤ v ∧ v ≤ r.2) ∧
  (∀ (s : State) (t u : TreeSettings), s.settingsLocked t u = true ↔
    (u.H ≠ t.H ∨ u.K ≠ t.K ∨ u.L ≠ t.L) ∧ (∃ e ∈ s.registry, ∃ x, e.term = some x ∧ stateCode (some x.phase) ≤ 6) ∨
    u.L ≠ t.L ∧ ∃ c, (∃ last count, (s.chan c).link = .aligning last count) ∨ ∃ last, (s.chan c).link = .up last) ∧
  (∀ t : TreeSettings, t.consistent = true ↔ t.rtMin ≤ t.rtMax ∧ t.rtMax + t.Tc + 2047 ≤ t.H ∧
    t.rtMax - t.rtMin + t.Jmax * t.Uh + t.Bd + 2 * t.Tc ≤ 4 * t.L ∧ t.Z < t.Ejump) ∧
  (∀ (sel : BitVec 32) (slots : List (BitVec 24)) (i v : Nat), (i, v) ∈ carriedSettings sel slots ↔
    i < 25 ∧ sel.getLsbD i = true ∧ v = (slots.getD i 0).toNat) ∧
  (∀ e : Entry, e.clearStreak = { e with term := e.term.map fun t => { t with phase := match t.phase with
    | .active fix d n => .active fix { d with streak := none } n
    | p => p } }) ∧
  ∀ (s : State) (sel : BitVec 32) (slots : List (BitVec 24)), s.portReady = true → slots.length = 25 →
    (¬(sel.toNat < 2 ^ 25 ∧ (carriedSettings sel slots).all inSettingRange = true) →
      exec (.treeSet sel slots) s = .next (s.replied .outOfRange [])) ∧
    (sel.toNat < 2 ^ 25 → (carriedSettings sel slots).all inSettingRange = true →
      (s.settingsLocked s.tree (s.tree.putAll (carriedSettings sel slots)) = true →
        exec (.treeSet sel slots) s = .next (s.replied .notIdle [])) ∧
      (s.settingsLocked s.tree (s.tree.putAll (carriedSettings sel slots)) = false →
        (s.tree.putAll (carriedSettings sel slots)).consistent = false →
        exec (.treeSet sel slots) s = .next (s.replied .conflict [])) ∧
      (s.settingsLocked s.tree (s.tree.putAll (carriedSettings sel slots)) = false →
        (s.tree.putAll (carriedSettings sel slots)).consistent = true →
        ∃ u : TreeSettings, exec (.treeSet sel slots) s = .next (({ s with
            tree := u
            registry := if u.V = s.tree.V then s.registry else s.registry.map Entry.clearStreak
            prescaler := if u.p = s.tree.p then s.prescaler else 0 } : State).replied .done []) ∧
          ∀ i, i < 25 → u.values[i]? = if sel.getLsbD i then (slots[i]?).map BitVec.toNat else s.tree.values[i]?))

/-- TREE GET, CHANNEL GET and STATUS report and change nothing (R153, R154, R158). The 43 bytes of STATUS give, for
each channel in turn, link state, out-queue depth, gaps in flight and range request queue length, then the nine
entry-state counts, the free handles, the pending and notice counts and the overflow flag (R158, R164). Every handle
1..511 is either free or held by one entry in one of the nine states, so that the free count and the nine counts add up
to 511 (R18). Numbers stand most significant byte first, signed ones in two's complement (R164). That a flag is sent as
0x01 or 0x00 is the model's choice (DESIGN CHOICE, log entry 27). -/
def Obligations.ReportsChangeNothing : Prop :=
  (∀ n v, (natBytes n v).length = n ∧ bytesNat (natBytes n v) = v % 256 ^ n) ∧
  (∀ (n : Nat) (v : Int), intBytes n v = natBytes n (v % 256 ^ n).toNat) ∧
  (∀ b, flagByte b = if b then 1 else 0) ∧
  (∀ m : CensusMode, m.code = match m with | .off => 0 | .periodic => 1 | .demand => 2) ∧
  (∀ p : Option Phase, stateCode p = match p with
    | some (.enrolling ..) => 1
    | some (.ranging ..) => 2
    | some (.joining _) => 3
    | some (.active ..) => 4
    | some (.hushed _) => 5
    | some (.retuning ..) => 6
    | some (.lost ..) => 7
    | some (.dismissing ..) => 8
    | none => 9) ∧
  ∀ s : State, s.portReady = true →
    exec .treeGet s = .next (s.replied .done (s.tree.values.flatMap (natBytes 3))) ∧
    exec .status s = .next (s.replied .done s.statusBytes) ∧ s.statusBytes.length = 43 ∧
    (∀ c : Chan, (s.statusBytes.drop (5 * c.num)).take 5 =
      (match (s.chan c).link with | .down => 0 | .aligning .. => 1 | .up _ => 2 | .mismatched => 3) ::
        (natBytes 1 (s.chan c).outq.length ++ natBytes 1 (s.chan c).gaps.length ++
          natBytes 2 (s.chan c).rangeQ.length)) ∧
    (∀ k, 1 ≤ k → k ≤ 9 → (s.statusBytes.drop (18 + 2 * k)).take 2 = natBytes 2 (s.countState k) ∧
      s.countState k = (s.registry.filter fun e => stateCode (e.term.map (·.phase)) == k).length) ∧
    s.statusBytes.drop 38 = natBytes 2 s.freeCount ++ natBytes 1 s.waiting.length ++ natBytes 1 s.notices.length ++
      [flagByte s.overflow] ∧
    (∀ ch c, Chan.ofNum ch.toNat = some c → exec (.channelGet ch) s = .next (s.replied .done
      (natBytes 1 (s.chan c).mode.code ++ natBytes 2 (s.chan c).period ++ intBytes 2 (s.chan c).skew))) ∧
    (∀ ch : Byte, 3 < ch.toNat → exec (.channelGet ch) s = .next (s.replied .outOfRange [])) ∧
    (HandleLaw s → s.freeCount + ((List.range' 1 9).map s.countState).sum = 511)

/-- A tally rises by one and stays at 65,535, and no other tally of the channel changes with it. TALLY READ reports the
22 tallies of a channel in the order of Table 11-5 and clears them when asked; a DEFECT notice carries the tally's
position in that order; STORE RECORD READ reports the first-error record and clears it when asked; another clear code
is refused (R36, R157, Table 12-6). That the captured flag is sent as 0x01 is the model's choice (DESIGN CHOICE, log
entry 27). -/
def Obligations.TalliesCountAndAreReadAndCleared : Prop :=
  (∀ (s : State) (c : Chan) (k : TallyKind),
    ((s.bump c k).chan c).tally k = min ((s.chan c).tally k + 1) 65535 ∧
    (∀ j, j ≠ k → ((s.bump c k).chan c).tally j = (s.chan c).tally j) ∧
    s.bump c k = s.modChan c fun x => { x with tallies := ((s.bump c k).chan c).tallies }) ∧
  ([TallyKind.deliveryDefect, .checkDefect, .blankMark, .holdoffRange, .outOfSpan, .duplicateInGap, .answerOverflow,
    .outOfReach, .barredAnswer, .closedAnswer, .markConflict, .registryFull, .noReply, .mismatch, .spreadFail, .trims,
    .reranges, .linkDefect, .unalignedRecord, .strayArrival, .declines, .lapses].map (·.idx.val) = List.range 22) ∧
  (∀ (x : ChanState) (i : Fin 22) (k : TallyKind), k.idx = i → x.tallies[i] = x.tally k) ∧
  (∀ c m k, Notice.defect c m k = ⟨.defect, none, some c, m, some k.idx.val⟩) ∧
  ∀ s : State, s.portReady = true →
    (∀ ch c, Chan.ofNum ch.toNat = some c →
      exec (.tallyRead ch 0) s = .next (s.replied .done ((s.chan c).tallies.toList.flatMap (natBytes 2))) ∧
      exec (.tallyRead ch 1) s = .next ((s.modChan c fun x => { x with tallies := Vector.replicate 22 0 }).replied .done
        ((s.chan c).tallies.toList.flatMap (natBytes 2)))) ∧
    (∀ ch clear : Byte, 3 < ch.toNat ∨ 1 < clear.toNat →
      exec (.tallyRead ch clear) s = .next (s.replied .outOfRange [])) ∧
    (∀ body, (s.firstError = none → body = [0, 0, 0, 0]) →
      (∀ h, s.firstError = some ⟨.correctable, h⟩ → body = [1, 1] ++ natBytes 2 h) →
      (∀ h, s.firstError = some ⟨.uncorrectable, h⟩ → body = [1, 2] ++ natBytes 2 h) →
      exec (.storeRecordRead 0) s = .next (s.replied .done body) ∧
      exec (.storeRecordRead 1) s = .next (({ s with firstError := none } : State).replied .done body)) ∧
    ∀ clear : Byte, 1 < clear.toNat → exec (.storeRecordRead clear) s = .next (s.replied .outOfRange [])

/-- CHANNEL SET: a channel above 3 or a value out of range is refused, then a changed skew under the lock; an accepted
one sets the selected fields. A mode set to OFF from another mode ends the due census, with CENSUS_QUIET at once unless
a census gap or offer stands (R5, R59, R154, R164). That the lock looks at the entries as they are stored, without the
store check, is the model's choice (DESIGN CHOICE, log entry 26). -/
def Obligations.ChannelSetIsJudgedAndTakesEffect : Prop :=
  ∀ (s : State) (ch sel mode : Byte) (period skew : BitVec 16), s.portReady = true →
    (3 < ch.toNat → exec (.channelSet ch sel mode period skew) s = .next (s.replied .outOfRange [])) ∧
    (∀ c, s.anyWorkingOn c = true ↔
      ∃ e ∈ s.registry, ∃ t, e.term = some t ∧ t.home = c ∧ stateCode (some t.phase) ≤ 6) ∧
    (∀ x : ChanState, x.censusInFlight = true ↔ ∃ g ∈ x.gaps, ∃ answers, g.kind = .census answers) ∧
    ∀ (c : Chan) (p : Nat) (k : Int), Chan.ofNum ch.toNat = some c →
    p = (if sel.getLsbD 1 then period.toNat else (s.chan c).period) →
    k = (if sel.getLsbD 2 then skew.toInt else (s.chan c).skew) →
    ((8 ≤ sel.toNat ∨ (sel.getLsbD 0 = true ∧ 2 < mode.toNat) ∨ (sel.getLsbD 1 = true ∧ period.toNat < 16) ∨
        (sel.getLsbD 2 = true ∧ ¬(-2048 ≤ skew.toInt ∧ skew.toInt ≤ 2047))) →
      exec (.channelSet ch sel mode period skew) s = .next (s.replied .outOfRange [])) ∧
    (sel.toNat < 8 → (sel.getLsbD 0 = true → mode.toNat ≤ 2) → (sel.getLsbD 1 = true → 16 ≤ period.toNat) →
      (sel.getLsbD 2 = true → -2048 ≤ skew.toInt ∧ skew.toInt ≤ 2047) →
      (k ≠ (s.chan c).skew → s.anyWorkingOn c = true →
        exec (.channelSet ch sel mode period skew) s = .next (s.replied .notIdle [])) ∧
      (k = (s.chan c).skew ∨ s.anyWorkingOn c = false →
        (sel.getLsbD 0 = false ∨ (mode = 0 ∧ (s.chan c).mode = .off) →
          exec (.channelSet ch sel mode period skew) s =
            .next ((s.modChan c fun x => { x with period := p, skew := k }).replied .done [])) ∧
        (sel.getLsbD 0 = true → mode = 1 → exec (.channelSet ch sel mode period skew) s =
          .next ((s.modChan c fun x => { x with
            period := p, skew := k, mode := .periodic, quietPending := false }).replied .done [])) ∧
        (sel.getLsbD 0 = true → mode = 2 → exec (.channelSet ch sel mode period skew) s =
          .next ((s.modChan c fun x => { x with
            period := p, skew := k, mode := .demand, quietPending := false }).replied .done [])) ∧
        (sel.getLsbD 0 = true → mode = 0 → (s.chan c).mode ≠ .off →
          ((s.chan c).censusInFlight = true ∨ (∃ o, (s.chan c).offer = some o ∧ o.kind = .census) →
            exec (.channelSet ch sel mode period skew) s = .next ((s.modChan c fun x => { x with
              period := p, skew := k, mode := .off, due := false, dueAge := 0, quietPending := true }).replied
                .done [])) ∧
          ((s.chan c).censusInFlight = false → (∀ o, (s.chan c).offer = some o → o.kind ≠ .census) →
            exec (.channelSet ch sel mode period skew) s = .next (((s.modChan c fun x => { x with
              period := p, skew := k, mode := .off, due := false, dueAge := 0, quietPending := false }).raise
                (Notice.censusQuiet c)).replied .done [])))))

/-- CALL makes census due on an UP channel in any census mode, keeping the age of a census already due; above channel
3 it is refused with OUT_OF_RANGE and on a channel that is not UP with CHANNEL_DOWN (R58, R60). -/
def Obligations.CallMakesCensusDue : Prop :=
  ∀ (s : State) (ch : Byte), s.portReady = true →
    (3 < ch.toNat → exec (.call ch) s = .next (s.replied .outOfRange [])) ∧
    (∀ c, Chan.ofNum ch.toNat = some c → s.isUp c = false → exec (.call ch) s = .next (s.replied .channelDown [])) ∧
    (∀ c, Chan.ofNum ch.toNat = some c → s.isUp c = true → exec (.call ch) s = .next ((s.modChan c fun x => { x with
      due := true
      dueAge := if x.due then x.dueAge else 0 }).replied .done []))

/-- R156 whole: NOTICE READ takes out the oldest notice with the overflow flag, or answers EMPTY with it, and clears
the flag. That the flag is sent as 0x01 or 0x00 is the model's choice (DESIGN CHOICE, log entry 27). -/
def Obligations.NoticeReadTakesTheOldest : Prop :=
  ∀ s : State, s.portReady = true →
    (∀ n rest, s.notices = n :: rest → exec .noticeRead s =
      .next (({ s with notices := rest, overflow := false } : State).replied .done (flagByte s.overflow :: n.bytes))) ∧
    (s.notices = [] → exec .noticeRead s =
      .next (({ s with overflow := false } : State).replied .empty [flagByte s.overflow]))

/-- R155: a notice joins the tail, or is dropped with the overflow flag set when 64 stand there; of two that meet 63,
the first is kept. The attention line is asserted while the queue holds a notice. Each kind carries the fields of Table
11-4, its value as the number Table 12-9 gives. Its record has the 15 bytes of Table 12-8, with a presence bit for each
field. -/
def Obligations.NoticesJoinTheQueueOrOverflow : Prop :=
  ([NoticeKind.registered, .activated, .rangeFailed, .driftRerange, .lost, .freed, .pending, .pendingExpired,
    .pendingFull, .barredSeen, .markConflict, .registryFull, .channelState, .censusQuiet, .gapStarved, .moveDone,
    .moveFailed, .storeError, .defect, .restarted].map NoticeKind.code = List.range' 1 20) ∧
  (∀ (h : Handle) (c : Chan) (m : Mark),
    Notice.registered h c m = ⟨.registered, some h, some c, some m, none⟩ ∧
    (∀ fill : Int, Notice.activated h c fill = ⟨.activated, some h, some c, none, some fill.toNat⟩) ∧
    (∀ n, Notice.rangeFailed h c n = ⟨.rangeFailed, some h, some c, none, some n⟩) ∧
    [RangeOutcome.noReply, .mismatch, .spreadFail, .outOfReach, .censusRestart].map RangeOutcome.code = [1, 2, 3, 4, 5] ∧
    (∀ e : Int, Notice.driftRerange h c e = ⟨.driftRerange, some h, some c, none, some e.toNat⟩) ∧
    Notice.lost h c m = ⟨.lost, some h, some c, some m, none⟩ ∧
    (∀ mark, Notice.freed h mark = ⟨.freed, some h, none, mark, none⟩) ∧
    Notice.pending m = ⟨.pending, none, none, some m, none⟩ ∧
    Notice.pendingExpired m = ⟨.pendingExpired, none, none, some m, none⟩ ∧
    Notice.pendingFull c m = ⟨.pendingFull, none, some c, some m, none⟩ ∧
    Notice.barredSeen c m = ⟨.barredSeen, none, some c, some m, none⟩ ∧
    Notice.markConflict h c m = ⟨.markConflict, some h, some c, some m, none⟩ ∧
    Notice.registryFull c m = ⟨.registryFull, none, some c, some m, none⟩ ∧
    (∀ l, Notice.channelState c l = ⟨.channelState, none, some c, none, some (match l with
      | .down => 0 | .aligning .. => 1 | .up _ => 2 | .mismatched => 3)⟩) ∧
    Notice.censusQuiet c = ⟨.censusQuiet, none, some c, none, none⟩ ∧
    Notice.gapStarved c = ⟨.gapStarved, none, some c, none, none⟩ ∧
    Notice.moveDone h c = ⟨.moveDone, some h, some c, none, none⟩ ∧
    Notice.moveTargetDown h c = ⟨.moveFailed, some h, some c, none, some 1⟩ ∧
    Notice.moveRangingFailed h c = ⟨.moveFailed, some h, some c, none, some 2⟩ ∧
    (∀ k, Notice.storeError h k = ⟨.storeError, some h, none, none, some (match k with
      | .correctable => 1 | .uncorrectable => 2)⟩) ∧
    ∀ source, Notice.restarted source = ⟨.restarted, none, none, none, some source⟩) ∧
  (∀ n : Notice, n.bytes = natBytes 1 n.kind.code ++
    natBytes 1 ((if n.handle = none then 0 else 1) + (if n.chan = none then 0 else 2) +
      (if n.mark = none then 0 else 4) + (if n.value = none then 0 else 8)) ++
    natBytes 2 (n.handle.getD 0) ++ natBytes 1 (n.chan.elim 0 Chan.num) ++ natBytes 7 (n.mark.getD 0).toNat ++
    natBytes 3 (n.value.getD 0)) ∧
  ∀ (s : State) (n m : Notice),
    (s.notices.length < 64 → s.raise n = { s with notices := s.notices ++ [n] }) ∧
    (64 ≤ s.notices.length → s.raise n = { s with overflow := true }) ∧
    (s.notices.length ≤ 64 → (s.raise n).notices.length ≤ 64) ∧
    (s.notices.length = 63 →
      (s.raise n).raise m = { s with notices := s.notices ++ [n], overflow := true }) ∧
    (s.attention = true ↔ s.notices ≠ []) ∧ (s.raise n).attention = true

/-! ## Admission requests -/

/-- R95: what a TABLE LOAD does to the admission table, and that it touches nothing else. -/
def Obligations.TableLoadKeepsPlaces : Prop :=
  ∀ (s : State) (m : Mark) (policy : Byte), s.portReady = true →
    (policy ≠ 1 ∧ policy ≠ 2 ∨ m = 0 ∨ m = BitVec.allOnes 56 →
      exec (.tableLoad m policy) s = .next (s.replied .outOfRange [])) ∧
    (∀ p, (policy = 1 ∧ p = .letIn ∨ policy = 2 ∧ p = .bar) → m ≠ 0 → m ≠ BitVec.allOnes 56 →
      (m ∈ s.table.map (·.mark) → exec (.tableLoad m policy) s = .next (({ s with
        table := s.table.map fun e => if e.mark = m then { e with policy := p, seen := false } else e } :
          State).replied .done [])) ∧
      (m ∉ s.table.map (·.mark) → s.table.length < 64 → exec (.tableLoad m policy) s =
        .next (({ s with table := s.table ++ [⟨m, p, false⟩] } : State).replied .done [])) ∧
      (m ∉ s.table.map (·.mark) → 64 ≤ s.table.length →
        exec (.tableLoad m policy) s = .next (s.replied .tableFull [])))

/-- R96: TABLE REMOVE closes the table up behind the entry, whose mark then has no ruling; TABLE READ reports the entry
at a place in load order and changes nothing. That the seen flag is sent as 0x01 or 0x00 is the model's choice (DESIGN
CHOICE, log entry 27). -/
def Obligations.TableRemoveAndTableRead : Prop :=
  (∀ m l, tableFind m l = l.find? (·.mark == m)) ∧ (∀ m : Mark, markBytes m = natBytes 7 m.toNat) ∧
  (∀ p : TablePolicy, p.code = match p with | .letIn => 1 | .bar => 2) ∧
  ∀ s : State, s.portReady = true →
    (∀ m, m ∈ s.table.map (·.mark) → exec (.tableRemove m) s =
        .next (({ s with table := s.table.filter fun e => !(e.mark == m) } : State).replied .done []) ∧
      tableFind m (s.table.filter fun e => !(e.mark == m)) = none) ∧
    (∀ m, m ∉ s.table.map (·.mark) → exec (.tableRemove m) s = .next (s.replied .noEntry [])) ∧
    (∀ idx : Byte, 63 < idx.toNat → exec (.tableRead idx) s = .next (s.replied .outOfRange [])) ∧
    (∀ idx : Byte, idx.toNat ≤ 63 → s.table.length ≤ idx.toNat →
      exec (.tableRead idx) s = .next (s.replied .empty (natBytes 1 s.table.length))) ∧
    ∀ (idx : Byte) (e : TableEntry), idx.toNat ≤ 63 → s.table[idx.toNat]? = some e →
      exec (.tableRead idx) s = .next (s.replied .done
        (natBytes 1 s.table.length ++ markBytes e.mark ++ natBytes 1 e.policy.code ++ [flagByte e.seen]))

/-- R103: ADMIT of a pending mark creates its entry on the item's channel under the lowest free handle, queues ENROL
and raises REGISTERED, or is refused with nothing changed; with no handle free the oldest LOST entry makes room. That
the evicted entry is freed as it is stored, without the store check, is the model's choice (DESIGN CHOICE, log entry
30). -/
def Obligations.AdmitCreatesTheEntryOfAPendingMark : Prop :=
  ∀ (s : State) (m : Mark), s.portReady = true →
    s.waitingItem m = s.waiting.find? (·.mark == m) ∧
    (s.waitingItem m = none → exec (.admitMark m) s = .next (s.replied .notPending [])) ∧
    ∀ i, s.waitingItem m = some i →
      (s.isUp i.chan = false → exec (.admitMark m) s = .next (s.replied .channelDown [])) ∧
      (s.isUp i.chan = true →
        (∀ h, s.lowestFree = some h → exec (.admitMark m) s =
          .next ((((s.createEntry h m i.chan i.coarse).queueFor h (.enrol h m)).raise
            (Notice.registered h i.chan m)).replied .done (natBytes 2 h))) ∧
        (s.lowestFree = none → s.retention = [] → exec (.admitMark m) s = .next (s.replied .registryFull [])) ∧
        (∀ o rest h, s.lowestFree = none → s.retention = o :: rest → (s.freeEntry o true).lowestFree = some h →
          exec (.admitMark m) s =
            .next (((((s.freeEntry o true).createEntry h m i.chan i.coarse).queueFor h (.enrol h m)).raise
              (Notice.registered h i.chan m)).replied .done (natBytes 2 h))))

/-- R18, R21: a handle 1..511 is free exactly when no entry holds it, and there is no lowest free handle exactly when
every one is held. A new entry takes the lowest free handle 1..511, holds the mark ENROLLING on its channel with the
coarse round trip as estimate and retry count 0, every other entry stands, and the mark's pending item leaves. -/
def Obligations.NewEntriesTakeTheLowestFreeHandle : Prop :=
  (∀ s : State, s.lowestFree = none ↔ ∀ k, 1 ≤ k → k ≤ 511 → ∃ e, s.entry k = some e) ∧
  (∀ (s : State) (h : Handle), s.lowestFree = some h ↔
    1 ≤ h ∧ h ≤ 511 ∧ s.entry h = none ∧ ∀ k, 1 ≤ k → k < h → ∃ e, s.entry k = some e) ∧
  ∀ (s : State) (h : Handle) (m : Mark) (c : Chan) (coarse : Int), HandleLaw s → s.lowestFree = some h →
    1 ≤ h ∧ h ≤ 511 ∧ s.entry h = none ∧ (∀ k, 1 ≤ k → k < h → ∃ e, s.entry k = some e) ∧
    HandleLaw (s.createEntry h m c coarse) ∧
    (s.createEntry h m c coarse).entry h = some ⟨h, .sound, some {
      mark := m
      home := c
      estimate := coarse
      wasActive := false
      moveFlag := false
      heard := false
      owed := Owed.none
      phase := .enrolling 0 none }⟩ ∧
    (∀ k, k ≠ h → (s.createEntry h m c coarse).entry k = s.entry k) ∧
    ∃ latch, s.createEntry h m c coarse = { s with
        registry := (s.createEntry h m c coarse).registry
        waiting := s.waiting.filter fun i => !(i.mark == m)
        pendingFullLatch := latch } ∧
      ((∀ i ∈ s.waiting, i.mark ≠ m) → latch = s.pendingFullLatch) ∧
      (∀ i ∈ s.waiting, i.mark = m → latch = false)

/-- R104 whole: what a BAR does to the admission table and the pending list. -/
def Obligations.BarMovesAPendingMarkToTheTable : Prop :=
  ∀ (s : State) (m : Mark), s.portReady = true →
    (m ∉ s.waiting.map (·.mark) → exec (.bar m) s = .next (s.replied .notPending [])) ∧
    (m ∈ s.waiting.map (·.mark) →
      (m ∈ s.table.map (·.mark) → exec (.bar m) s = .next (({ s with
        table := s.table.map fun e => if e.mark = m then { e with policy := .bar, seen := false } else e
        waiting := s.waiting.filter fun i => !(i.mark == m)
        pendingFullLatch := false } : State).replied .done [])) ∧
      (m ∉ s.table.map (·.mark) → s.table.length < 64 → exec (.bar m) s = .next (({ s with
        table := s.table ++ [⟨m, .bar, false⟩]
        waiting := s.waiting.filter fun i => !(i.mark == m)
        pendingFullLatch := false } : State).replied .done [])) ∧
      (m ∉ s.table.map (·.mark) → 64 ≤ s.table.length → exec (.bar m) s = .next (s.replied .tableFull [])))

/-- R105 whole: PENDING READ reports the item at a place in list order with the number of items, and changes nothing;
STATUS reports the same number. -/
def Obligations.PendingReadReportsThePlace : Prop :=
  ∀ s : State, s.portReady = true →
    (∀ idx : Byte, 15 < idx.toNat → exec (.pendingRead idx) s = .next (s.replied .outOfRange [])) ∧
    (∀ idx : Byte, idx.toNat ≤ 15 → s.waiting.length ≤ idx.toNat →
      exec (.pendingRead idx) s = .next (s.replied .empty (natBytes 1 s.waiting.length))) ∧
    (∀ (idx : Byte) (i : PendingItem), idx.toNat ≤ 15 → s.waiting[idx.toNat]? = some i →
      exec (.pendingRead idx) s = .next (s.replied .done
        (natBytes 1 s.waiting.length ++ markBytes i.mark ++ natBytes 1 i.chan.num ++ intBytes 3 i.coarse ++
          natBytes 1 i.age ++ natBytes 1 i.answers))) ∧
    s.statusBytes[40]? = some (BitVec.ofNat 8 s.waiting.length)

/-! ## Requests on an entry -/

/-- Every request that names a handle is refused with OUT_OF_RANGE for 0 and above 511 and with NO_ENTRY for a free
handle; those that act on a sound entry are refused with WRONG_STATE for a DAMAGED one (R26). Each reads the entry with
the store check and then acts on what the read left: a correctable flaw is repaired in place and, with the capture
setting ALL, offered to the first-error record (R33); an uncorrectable one makes the entry DAMAGED, voids its range
work, takes it off every roster and the retention list, removes its messages, queues an urgent DISMISS on every UP
channel that can take one and offers the flaw to the record (R34, R35). The record takes the first flaw, with
STORE_ERROR, and no other (R36). A message that such a DISMISS evicts, the youngest normal
one of its queue, is reported to its own entry, which can gain the kind as owed (R69); no other entry changes. -/
def Obligations.EntryRequestsRefuseOtherHandles : Prop :=
  ∀ (s : State) (h : BitVec 16) (target : Byte), s.portReady = true →
    (∀ i ∈ [Instr.entryRead h, .dismiss h, .hush h, .resume h, .rerange h, .move h target, .clearDamaged h],
      (h.toNat = 0 ∨ 511 < h.toNat → exec i s = .next (s.replied .outOfRange [])) ∧
      (1 ≤ h.toNat → h.toNat ≤ 511 → s.entry h.toNat = none → exec i s = .next (s.replied .noEntry [])) ∧
      (1 ≤ h.toNat → h.toNat ≤ 511 → exec i s = exec i (s.readEntry h.toNat))) ∧
    (∀ i ∈ [Instr.dismiss h, .hush h, .resume h, .rerange h, .move h target],
      ∀ f, 1 ≤ h.toNat → h.toNat ≤ 511 → s.entry h.toNat = some ⟨h.toNat, f, none⟩ →
        exec i s = .next (s.replied .wrongState [])) ∧
    (∀ t repaired, s.entry h.toNat = some ⟨h.toNat, .correctable, some t⟩ →
      repaired = ({ s with
        registry := s.registry.map fun e => if e.handle = h.toNat then ⟨h.toNat, .sound, some t⟩ else e } : State) →
      (s.tree.capture = .all → s.firstError = none → s.readEntry h.toNat =
        ({ repaired with firstError := some ⟨.correctable, h.toNat⟩ } : State).raise
          ⟨.storeError, some h.toNat, none, none, some 1⟩) ∧
      (s.tree.capture = .uncorrectable ∨ s.firstError ≠ none → s.readEntry h.toNat = repaired)) ∧
    ∀ (t : Terminal) (r noted : State) (out : Chan → Option QMsg),
      s.entry h.toNat = some ⟨h.toNat, .uncorrectable, some t⟩ → r = s.readEntry h.toNat →
      (∀ c q, q = (s.chan c).outq.filter (fun m => !(m.msg.handle == h.toNat)) → out c =
        if s.isUp c = true ∧ 48 ≤ q.length then (q.filter fun m => !m.urgent).getLast? else none) →
      noted = (match s.firstError with
        | none => ({ s with firstError := some ⟨.uncorrectable, h.toNat⟩ } : State).raise
          ⟨.storeError, some h.toNat, none, none, some 2⟩
        | some _ => s) →
      r = { noted with
        registry := r.registry, chans := r.chans, retention := s.retention.filter fun k => !(k == h.toNat) } ∧
      r.registry = (Chan.all.foldl (fun (w : State) c => match out c with
          | some v => w.takeReport .evicted c v.msg.kind v.msg.handle
          | none => w)
        ({ s with registry := s.registry.map fun e => if e.handle = h.toNat then ⟨h.toNat, .sound, none⟩ else e } :
          State)).registry ∧
      r.entry h.toNat = some ⟨h.toNat, .sound, none⟩ ∧
      (∀ k u, k ≠ h.toNat → s.term k = some u → ∃ o, r.term k = some { u with owed := o }) ∧
      ((∀ c, s.isUp c = true → (s.chan c).outq.length < 48) → ∀ k, k ≠ h.toNat → r.entry k = s.entry k) ∧
      ∀ (c : Chan) (q : List QMsg), q = (s.chan c).outq.filter (fun m => !(m.msg.handle == h.toNat)) →
        r.chan c = { s.chan c with
          rangeQ := (s.chan c).rangeQ.filter fun k => !(k == h.toNat)
          gaps := (s.chan c).gaps.map fun g => if g.names h.toNat then { g with kind := .voidRange } else g
          offer := (s.chan c).offer.map fun o => if o.names h.toNat then { o with kind := .voidRange } else o
          roster := (s.chan c).roster.filter fun k => !(k == h.toNat)
          tx := if h.toNat ∈ (s.chan c).roster then (s.chan c).tx ++ [.rosterLeave h.toNat] else (s.chan c).tx
          outq := (r.chan c).outq } ∧
        (s.isUp c = false → (r.chan c).outq = q) ∧
        (s.isUp c = true → q.length < 48 → (r.chan c).outq = q ++ [⟨.dismiss h.toNat, true, s.tree.r, true⟩]) ∧
        (s.isUp c = true → 48 ≤ q.length → (∀ m ∈ q, m.urgent = true) → (r.chan c).outq = q) ∧
        ∀ a v b, s.isUp c = true → 48 ≤ q.length → q = a ++ v :: b → v.urgent = false → (∀ m ∈ b, m.urgent = true) →
          (r.chan c).outq = a ++ b ++ [⟨.dismiss h.toNat, true, s.tree.r, true⟩]

/-- ENTRY READ reports the entry in 66 bytes, a DAMAGED one by handle and state alone; ENTRY FIND reports the handle
and the state code of the entry that holds the mark, or NO_ENTRY (R20, R26). The fields of the report stand at the
offsets of Table 12-7, each present one with its presence bit and each absent one as 0x00, and a RANGING entry's range
work is reported as queued, held, offered or in flight with its expected instant (R121, R164). That the reply-seen flag
is sent as 0x01 is the model's choice (DESIGN CHOICE, log entry 27). -/
def Obligations.EntriesAreReadAndFound : Prop :=
  ∀ s : State, s.portReady = true →
    (∀ (h : BitVec 16) (t : Terminal), 1 ≤ h.toNat → h.toNat ≤ 511 → s.sound h.toNat t →
      exec (.entryRead h) s = .next (s.replied .done (s.entryBytes h.toNat))) ∧
    (∀ (h : BitVec 16) (f : Flaw), 1 ≤ h.toNat → h.toNat ≤ 511 → s.entry h.toNat = some ⟨h.toNat, f, none⟩ →
      exec (.entryRead h) s = .next (s.replied .done (natBytes 2 h.toNat ++ 9 :: List.replicate 63 0))) ∧
    (∀ h, (s.entryBytes h).length = 66) ∧
    (∀ (m : Mark) (h : Handle) (t : Terminal), HandleLaw s → MarkLaw s → s.allSound → s.term h = some t → t.mark = m →
      exec (.entryFind m) s = .next (s.replied .done (natBytes 2 h ++ natBytes 1 (stateCode (some t.phase))))) ∧
    (∀ m : Mark, s.allSound → (∀ h t, s.term h = some t → t.mark ≠ m) →
      exec (.entryFind m) s = .next (s.replied .noEntry [])) ∧
    ∀ (h : Handle) (t : Terminal) (part : Nat → Nat → List Byte) (code : Nat) (fin fill trim : Option Int)
      (sent : Option Bool) (retry : Option Nat) (smp : Option (List Int)) (target : Option Chan) (drift : Option Drift)
      (missed age : Option Nat), s.sound h t → (∀ o n, part o n = ((s.entryBytes h).drop o).take n) →
      (match t.phase with
        | .enrolling n f => code = 1 ∧ fin = f ∧ fill = none ∧ sent = none ∧ retry = some n ∧ smp = none ∧
          target = none ∧ drift = none ∧ missed = none ∧ age = none
        | .ranging n l f d => code = 2 ∧ fin = f ∧ fill = d ∧ sent = none ∧ retry = some n ∧ smp = some l ∧
          target = none ∧ drift = none ∧ missed = none ∧ age = none
        | .joining x => code = 3 ∧ fin = some x.final ∧ fill = some x.fill ∧ sent = none ∧ retry = none ∧ smp = none ∧
          target = none ∧ drift = none ∧ missed = none ∧ age = none
        | .active x d n => code = 4 ∧ fin = some x.final ∧ fill = some x.fill ∧ sent = none ∧ retry = none ∧
          smp = none ∧ target = none ∧ drift = some d ∧ missed = some n ∧ age = none
        | .hushed x => code = 5 ∧ fin = some x.final ∧ fill = some x.fill ∧ sent = none ∧ retry = none ∧ smp = none ∧
          target = none ∧ drift = none ∧ missed = none ∧ age = none
        | .retuning x c => code = 6 ∧ fin = some x.final ∧ fill = some x.fill ∧ sent = none ∧ retry = none ∧
          smp = none ∧ target = some c ∧ drift = none ∧ missed = none ∧ age = none
        | .lost f n b => code = 7 ∧ fin = f ∧ fill = none ∧ sent = some b ∧ retry = none ∧ smp = none ∧
          target = none ∧ drift = none ∧ missed = none ∧ age = some n
        | .dismissing b _ => code = 8 ∧ fin = none ∧ fill = none ∧ sent = some b ∧ retry = none ∧ smp = none ∧
          target = none ∧ drift = none ∧ missed = none ∧ age = none) →
      trim = (match drift.bind (·.trimPending) with | some ch => some ch | none => t.owed.trim) →
      stateCode (some t.phase) = code ∧
      part 0 2 = natBytes 2 h ∧ part 2 1 = natBytes 1 code ∧
      part 3 2 = natBytes 2 (([true, true, true, fin.isSome, fill.isSome, true, sent.isSome, retry.isSome, smp.isSome,
        target.isSome, drift.isSome, trim.isSome, missed.isSome, age.isSome, true, smp.isSome].zipIdx.map
          fun p => if p.1 then 2 ^ p.2 else 0).sum) ∧
      part 5 7 = natBytes 7 t.mark.toNat ∧ part 12 1 = natBytes 1 t.home.num ∧ part 13 3 = intBytes 3 t.estimate ∧
      part 16 3 = fin.elim [0, 0, 0] (intBytes 3) ∧ part 19 3 = fill.elim [0, 0, 0] (intBytes 3) ∧
      part 22 1 = natBytes 1 (([t.wasActive, t.moveFlag, t.heard, sent.getD false].zipIdx.map
        fun p => if p.1 then 2 ^ p.2 else 0).sum) ∧
      part 23 1 = natBytes 1 (retry.getD 0) ∧
      part 24 13 = smp.elim (List.replicate 13 0) (fun l => natBytes 1 l.length ++
        intBytes 3 (l.getD 0 0) ++ intBytes 3 (l.getD 1 0) ++ intBytes 3 (l.getD 2 0) ++ intBytes 3 (l.getD 3 0)) ∧
      part 37 1 = natBytes 1 (target.elim 0 Chan.num) ∧
      part 38 5 = drift.elim (List.replicate 5 0) (fun d =>
        (match d.streak with
          | none => [0, 0, 0, 0]
          | some z => (if z.positive then 1 else 2) :: (natBytes 1 z.count ++ intBytes 2 z.sum)) ++
            natBytes 1 d.settle) ∧
      part 43 2 = trim.elim [0, 0] (intBytes 2) ∧ part 45 1 = natBytes 1 (missed.getD 0) ∧
      part 46 1 = natBytes 1 (age.getD 0) ∧
      part 47 1 = natBytes 1 (([t.owed.enrol, t.owed.setDelay, t.owed.trim.isSome, t.owed.hush, t.owed.resume,
        t.owed.retune, t.owed.dismiss].zipIdx.map fun p => if p.1 then 2 ^ p.2 else 0).sum) ∧
      (smp = none → part 48 18 = List.replicate 18 0) ∧
      (∀ l x, smp = some l → x = s.chan t.home →
        (∀ a b, x.rangeQ = a ++ h :: b → h ∉ a →
          part 48 18 = (if s.isUp t.home then 1 else 2) :: (natBytes 2 (a.length + 1) ++ List.replicate 15 0)) ∧
        (∀ o, h ∉ x.rangeQ → x.offer = some o → o.kind = .range h →
          part 48 18 = [3, 0, 0, o.tag] ++ natBytes 2 o.refCycle.toNat ++ List.replicate 12 0) ∧
        (∀ a b g seen E, h ∉ x.rangeQ → (∀ o, x.offer = some o → o.kind ≠ .range h) → x.gaps = a ++ g :: b →
          g.kind = .range h seen → (∀ g' ∈ a, g'.names h = false) →
          E = (s.tree.K + x.skew + t.estimate : Int).toNat →
          part 48 18 = [4, 0, 0, g.tag] ++ natBytes 2 g.refCycle.toNat ++ natBytes 3 g.start ++ natBytes 3 g.len ++
            [flagByte seen] ++ natBytes 2 (g.refCycle + BitVec.ofNat 16 (E / s.tree.L)).toNat ++
            natBytes 3 (E % s.tree.L)) ∧
        (x.hasWork h = false → part 48 18 = List.replicate 18 0))

/-- DISMISS frees a LOST entry at once, is refused for a DISMISSING one and takes any other into DISMISSING; CLEAR
DAMAGED frees a DAMAGED entry and is refused for any other (R27, R37). -/
def Obligations.DismissAndClearDamaged : Prop :=
  ∀ (s : State) (h : BitVec 16), s.portReady = true → 1 ≤ h.toNat → h.toNat ≤ 511 →
    (∀ t f age sent, s.sound h.toNat t → t.phase = .lost f age sent →
      exec (.dismiss h) s = .next ((s.freeEntry h.toNat true).replied .done [])) ∧
    (∀ t sent due, s.sound h.toNat t → t.phase = .dismissing sent due →
      exec (.dismiss h) s = .next (s.replied .wrongState [])) ∧
    (∀ t, s.sound h.toNat t → t.phase.isLost = false → t.phase.isDismissing = false →
      exec (.dismiss h) s = .next ((s.enterDismissing h.toNat).replied .done [])) ∧
    (∀ f, s.entry h.toNat = some ⟨h.toNat, f, none⟩ →
      exec (.clearDamaged h) s = .next ((s.freeEntry h.toNat true).replied .done [])) ∧
    (∀ t, s.sound h.toNat t → exec (.clearDamaged h) s = .next (s.replied .wrongState []))

/-- HUSH makes an ACTIVE entry HUSHED and RESUME a HUSHED one JOINING, each with its message queued and round trip and
fill delay kept; HUSH of a HUSHED entry is DONE (R28, R29). RERANGE sends an ACTIVE or HUSHED entry back to RANGING from
its final round trip, with HUSH queued and a range request made (R30); MOVE takes an ACTIVE entry into RETUNING toward
another UP channel, with RETUNE queued, and is judged by state, target range, own channel and link in that order (R143,
R144). Every other state refuses. -/
def Obligations.HushResumeRerangeAndMove : Prop :=
  ∀ (s : State) (h : BitVec 16) (t : Terminal) (target : Byte), s.portReady = true → HandleLaw s → 1 ≤ h.toNat →
    h.toNat ≤ 511 → s.sound h.toNat t →
    (∀ fix d n, t.phase = .active fix d n → exec (.hush h) s = .next ((((s.rosterLeave t.home h.toNat).modTerm h.toNat
      fun u => { u with moveFlag := false, phase := .hushed fix }).queueFor h.toNat (.hush h.toNat)).replied .done [])) ∧
    (∀ fix, t.phase = .hushed fix → exec (.hush h) s = .next (s.replied .done []) ∧
      exec (.resume h) s = .next (((s.modTerm h.toNat fun u => { u with phase := .joining fix }).queueFor h.toNat
        (.resume h.toNat)).replied .done [])) ∧
    ((∀ fix d n, t.phase ≠ .active fix d n) → (∀ fix, t.phase ≠ .hushed fix) →
      exec (.hush h) s = .next (s.replied .wrongState [])) ∧
    ((∀ fix, t.phase ≠ .hushed fix) → exec (.resume h) s = .next (s.replied .wrongState [])) ∧
    (∀ fix d n, t.phase = .active fix d n →
      exec (.rerange h) s = .next (((((s.rosterLeave t.home h.toNat).modTerm h.toNat fun u => { u with
        estimate := fix.final
        phase := .ranging 0 [] (some fix.final) (some fix.fill) }).queueFor h.toNat (.hush h.toNat)).rangeRequest
          h.toNat).replied .done []) ∧
      (Chan.ofNum target.toNat = none ∨ Chan.ofNum target.toNat = some t.home →
        exec (.move h target) s = .next (s.replied .outOfRange [])) ∧
      (∀ c, Chan.ofNum target.toNat = some c → c ≠ t.home → s.isUp c = false →
        exec (.move h target) s = .next (s.replied .channelDown [])) ∧
      (∀ c, Chan.ofNum target.toNat = some c → c ≠ t.home → s.isUp c = true →
        exec (.move h target) s = .next ((((s.rosterLeave t.home h.toNat).modTerm h.toNat fun u => { u with
          moveFlag := true
          phase := .retuning fix c }).queueFor h.toNat (.retune h.toNat c)).replied .done []))) ∧
    (∀ fix, t.phase = .hushed fix → exec (.rerange h) s = .next ((((s.modTerm h.toNat fun u => { u with
        estimate := fix.final
        phase := .ranging 0 [] (some fix.final) (some fix.fill) }).queueFor h.toNat (.hush h.toNat)).rangeRequest
          h.toNat).replied .done [])) ∧
    ((∀ fix d n, t.phase ≠ .active fix d n) → exec (.move h target) s = .next (s.replied .wrongState [])) ∧
    ((∀ fix d n, t.phase ≠ .active fix d n) → (∀ fix, t.phase ≠ .hushed fix) →
      exec (.rerange h) s = .next (s.replied .wrongState []))

/-- INJECT: a message that R64 does not give, a channel that is not UP, then no room are refused in that order. The
seven kinds have the handles and field ranges of R64: handle 0 for HUSH, RESUME and DISMISS alone, none above 511, an
ENROL with a mark that passes its check, a fill delay of 0 to 1,048,575, a change of −255 to +255, a target channel
(R74 case 1; field bytes a kind does not use are ignored, log entry 12). Else the message replaces its like in place,
joins the tail, or evicts the youngest normal message, whose report makes its kind owed. An injected message is urgent,
with fresh repeats and report flag no (R68, R69, R74, R75). -/
def Obligations.InjectJoinsOrReplaces : Prop :=
  (∀ x : BitVec 64, xorBytes x = ((List.range 8).map fun i => x.extractLsb' (8 * i) 8).foldl (· ^^^ ·) 0) ∧
  (∀ (kind : Byte) (h : BitVec 16) (fields : BitVec 64) (m : TreeMsg), injectedMsg kind h fields = some m ↔
    h.toNat ≤ 511 ∧
      (kind = 1 ∧ 1 ≤ h.toNat ∧ xorBytes fields = 0 ∧ m = .enrol h.toNat (fields.extractLsb' 8 56) ∨
      kind = 2 ∧ 1 ≤ h.toNat ∧ (fields.extractLsb' 40 24).toNat ≤ 1048575 ∧
        m = .setDelay h.toNat (fields.extractLsb' 40 24).toNat ∨
      kind = 3 ∧ 1 ≤ h.toNat ∧ -255 ≤ (fields.extractLsb' 48 16).toInt ∧ (fields.extractLsb' 48 16).toInt ≤ 255 ∧
        m = .trimDelay h.toNat (fields.extractLsb' 48 16).toInt ∨
      kind = 4 ∧ m = .hush h.toNat ∨
      kind = 5 ∧ m = .resume h.toNat ∨
      kind = 6 ∧ 1 ≤ h.toNat ∧ (∃ c, Chan.ofNum (fields.extractLsb' 56 8).toNat = some c ∧ m = .retune h.toNat c) ∨
      kind = 7 ∧ m = .dismiss h.toNat)) ∧
  ∀ (s : State) (ch kind : Byte) (h : BitVec 16) (fields : BitVec 64), s.portReady = true →
    (3 < ch.toNat ∨ injectedMsg kind h fields = none →
      exec (.inject ch kind h fields) s = .next (s.replied .outOfRange [])) ∧
    ∀ c m, Chan.ofNum ch.toNat = some c → injectedMsg kind h fields = some m →
      (s.isUp c = false → exec (.inject ch kind h fields) s = .next (s.replied .channelDown [])) ∧
      (s.isUp c = true →
        (∀ x ∈ (s.chan c).outq, x.msg.kind = m.kind → x.msg.handle = m.handle →
          exec (.inject ch kind h fields) s = .next ((s.modChan c fun y => { y with
            outq := y.outq.map fun z => if z.msg.kind = m.kind ∧ z.msg.handle = m.handle
              then ⟨m, true, repeatsOf s.tree.r m.kind, z.report⟩ else z }).replied .done [])) ∧
        ((∀ x ∈ (s.chan c).outq, ¬(x.msg.kind = m.kind ∧ x.msg.handle = m.handle)) →
          ((s.chan c).outq.length < 48 → exec (.inject ch kind h fields) s = .next ((s.modChan c fun y => { y with
            outq := y.outq ++ [⟨m, true, repeatsOf s.tree.r m.kind, false⟩] }).replied .done [])) ∧
          (48 ≤ (s.chan c).outq.length → (∀ x ∈ (s.chan c).outq, x.urgent = true) →
            exec (.inject ch kind h fields) s = .next (s.replied .tableFull [])) ∧
          (∀ a v b, 48 ≤ (s.chan c).outq.length → (s.chan c).outq = a ++ v :: b → v.urgent = false →
            (∀ x ∈ b, x.urgent = true) → exec (.inject ch kind h fields) s = .next (((s.modChan c fun y => { y with
              outq := a ++ b ++ [⟨m, true, repeatsOf s.tree.r m.kind, false⟩] }).takeReport .evicted c v.msg.kind
                v.msg.handle).replied .done []))))

/-! ## The registry's shared operations -/

/-- R24: the registry queues a message for entry h on its home channel, dropping the owed kinds it supersedes; the kind
becomes owed when the home channel is not UP or a full queue does not take it, but for a DISMISS of a DISMISSING entry
off a channel that is not UP (R66 to R69). An urgent message that meets a full queue with a normal message evicts the
youngest normal one, whose kind becomes owed on its own entry whatever that entry's state (R69; log entry 11). Table
4-2 says what a message supersedes, R24 which owed kinds it drops, R64 its class and repeats; a TRIM DELAY is made owed
in ACTIVE with trim-pending set alone. -/
def Obligations.QueueForSendsOrOwes : Prop :=
  (∀ k j : MsgKind, supersedes k j = true ↔ k = .dismiss ∧ j ≠ .dismiss ∨ k = .enrol ∧ j = .dismiss ∨
    k = .hush ∧ j = .resume ∨ k = .resume ∧ j = .hush ∨ k = .setDelay ∧ j = .trimDelay) ∧
  (∀ k, isUrgentKind k = true ↔ k = .hush ∨ k = .dismiss) ∧
  (∀ r k, repeatsOf r k = if k = .trimDelay then 1 else r) ∧
  (∀ (o : Owed) (k : MsgKind), o.dropFor k = match k with
    | .dismiss => ⟨false, false, false, false, false, false, none⟩
    | .enrol => { o with dismiss := false }
    | .hush => { o with resume := false }
    | .resume => { o with hush := false }
    | .setDelay => { o with trim := none, hush := false }
    | .trimDelay => o
    | .retune => o) ∧
  (∀ (o : Owed) (k : MsgKind), o.add k = match k with
    | .enrol => { o with enrol := true }
    | .setDelay => { o with setDelay := true }
    | .trimDelay => o
    | .hush => { o with hush := true }
    | .resume => { o with resume := true }
    | .retune => { o with retune := true }
    | .dismiss => { o with dismiss := true }) ∧
  (∀ (u : Terminal) (k : MsgKind), k ≠ .trimDelay → u.makeOwed k = { u with owed := (u.owed.dropFor k).add k }) ∧
  (∀ (u : Terminal) (fix : Fix) (d : Drift) (n : Nat) (ch : Int), u.phase = .active fix d n → d.trimPending = some ch →
    u.makeOwed .trimDelay = { u with owed := { u.owed with trim := some ch } }) ∧
  (∀ u : Terminal, (∀ fix d n, u.phase = .active fix d n → d.trimPending = none) → u.makeOwed .trimDelay = u) ∧
  ∀ (s : State) (h : Handle) (m : TreeMsg) (t : Terminal) (q : List QMsg), HandleLaw s → s.term h = some t →
    m.handle = h →
    q = ((s.chan t.home).outq.filter fun x => !(x.msg.handle == h && supersedes m.kind x.msg.kind)) →
    (s.isUp t.home = false → (m.kind = .dismiss → t.phase.isDismissing = false) →
      s.queueFor h m = s.modTerm h fun u => ({ u with owed := u.owed.dropFor m.kind } : Terminal).makeOwed m.kind) ∧
    (s.isUp t.home = false → m.kind = .dismiss → t.phase.isDismissing = true →
      s.queueFor h m = s.modTerm h fun u => { u with owed := Owed.none }) ∧
    (s.isUp t.home = true → (∀ x ∈ q, ¬(x.msg.kind = m.kind ∧ x.msg.handle = h)) →
      (q.length < 48 → s.queueFor h m = (s.modTerm h fun u => { u with owed := u.owed.dropFor m.kind }).modChan t.home
        fun x => { x with outq := q ++ [⟨m, isUrgentKind m.kind, repeatsOf s.tree.r m.kind, true⟩] }) ∧
      (48 ≤ q.length → isUrgentKind m.kind = false ∨ (∀ x ∈ q, x.urgent = true) →
        s.queueFor h m = (s.modTerm h fun u => ({ u with owed := u.owed.dropFor m.kind } : Terminal).makeOwed
          m.kind).modChan t.home fun x => { x with outq := q }) ∧
      (∀ a v b, 48 ≤ q.length → isUrgentKind m.kind = true → q = a ++ v :: b → v.urgent = false →
        (∀ x ∈ b, x.urgent = true) →
        s.queueFor h m = ((s.modTerm h fun u => { u with owed := u.owed.dropFor m.kind }).modChan t.home
          fun x => { x with outq := a ++ b ++ [⟨m, true, repeatsOf s.tree.r m.kind, true⟩] }).takeReport .evicted t.home
            v.msg.kind v.msg.handle ∧
        (s.term v.msg.handle = none → s.queueFor h m = (s.modTerm h fun u => { u with
          owed := u.owed.dropFor m.kind }).modChan t.home
            fun x => { x with outq := a ++ b ++ [⟨m, true, repeatsOf s.tree.r m.kind, true⟩] }) ∧
        ∀ u, v.msg.handle ≠ h → s.term v.msg.handle = some u →
          (v.msg.kind ≠ .trimDelay → v.msg.kind ≠ .dismiss → (s.queueFor h m).term v.msg.handle = some { u with
            owed := (u.owed.dropFor v.msg.kind).add v.msg.kind }) ∧
          (∀ fix d n ch, v.msg.kind = .trimDelay → u.phase = .active fix d n → d.trimPending = some ch →
            (s.queueFor h m).term v.msg.handle = some { u with owed := { u.owed with trim := some ch } }) ∧
          (v.msg.kind = .trimDelay → (∀ fix d n, u.phase = .active fix d n → d.trimPending = none) →
            (s.queueFor h m).term v.msg.handle = some u))) ∧
    (s.isUp t.home = true → (∃ x ∈ q, x.msg.kind = m.kind ∧ x.msg.handle = h) →
      s.queueFor h m = (s.modTerm h fun u => { u with owed := u.owed.dropFor m.kind }).modChan t.home
        fun x => { x with outq := q.map fun z => if z.msg.kind = m.kind ∧ z.msg.handle = h
          then ⟨m, isUrgentKind m.kind, repeatsOf s.tree.r m.kind, true⟩ else z })

/-- R22: freeing an entry voids its range work, removes its messages but DISMISS, takes it from the registry and the
retention list, clears the registry-full latch and raises FREED with its mark, or without one for a DAMAGED entry. -/
def Obligations.FreeingAnEntry : Prop :=
  ∀ (s : State) (h : Handle),
    s.freeEntry h true = ({ s with
      registry := s.registry.filter fun e => !(e.handle == h)
      retention := s.retention.filter fun x => !(x == h)
      fullLatch := false
      chans := s.chans.map fun x => { x with
        rangeQ := x.rangeQ.filter fun y => !(y == h)
        gaps := x.gaps.map (·.voidFor h)
        offer := x.offer.map (·.voidFor h)
        outq := x.outq.filter fun m => !(m.msg.handle == h) || m.msg.kind == .dismiss } } : State).raise
          ⟨.freed, some h, none, (s.term h).map (·.mark), none⟩ ∧
    (s.freeEntry h true).entry h = none ∧ (∀ k, k ≠ h → (s.freeEntry h true).entry k = s.entry k) ∧
    h ∉ (s.freeEntry h true).retention ∧ (s.freeEntry h true).hasWork h = false

/-- R27: an entry that enters DISMISSING loses its owed kinds, its move and all its range work, and leaves the roster
when it was ACTIVE; its DISMISS is queued, owed, or on a channel that is not UP neither, since it is then due to be
freed at the next scan (R24; log entry 21). The whole next state is that of the DISMISS queued for the entry (stated in
QueueForSendsOrOwes) after those changes and no other. -/
def Obligations.EnteringDismissing : Prop :=
  ∀ (s : State) (h : Handle) (t : Terminal), s.term h = some t →
    s.enterDismissing h = (((if t.phase.isActive then s.rosterLeave t.home h else s).voidAll h).modTerm h fun u => { u with
      owed := Owed.none, moveFlag := false, phase := .dismissing false (!s.isUp t.home) }).queueFor h (.dismiss h) ∧
    ∃ owed, (s.enterDismissing h).term h = some { t with
        owed := owed, moveFlag := false, phase := .dismissing false (!s.isUp t.home) } ∧
      (owed = Owed.none ∨ owed = { Owed.none with dismiss := true }) ∧
      (s.isUp t.home = false → owed = Owed.none) ∧
      (s.enterDismissing h).hasWork h = false ∧
      (t.phase.isActive = true → h ∉ ((s.enterDismissing h).chan t.home).roster) ∧
      (s.isUp t.home = true → owed = Owed.none →
        ∃ m ∈ ((s.enterDismissing h).chan t.home).outq, m.msg = .dismiss h ∧ m.urgent = true ∧ m.left = s.tree.r) ∧
      ∀ k u, k ≠ h → s.term k = some u →
        ∃ o, (s.enterDismissing h).term k = some { u with owed := o }

/-- R23: an entry that enters LOST keeps its final round trip, joins the end of the retention list with age 0 and leaves
the roster; its DISMISS is queued or owed. The whole next state is that of the DISMISS queued for the entry (stated in
QueueForSendsOrOwes) after those changes and no other. -/
def Obligations.EnteringLost : Prop :=
  (∀ p : Phase, p.final = match p with
    | .enrolling _ f | .ranging _ _ f _ | .lost f _ _ => f
    | .joining x | .active x _ _ | .hushed x | .retuning x _ => some x.final
    | .dismissing .. => none) ∧
  ∀ (s : State) (h : Handle) (t : Terminal), s.term h = some t →
    s.enterLost h = ({ (s.rosterLeave t.home h).modTerm h fun u => { u with
      moveFlag := false, phase := .lost t.phase.final 0 false } with
        retention := s.retention ++ [h] } : State).queueFor h (.dismiss h) ∧
    (s.enterLost h).retention = s.retention ++ [h] ∧
    h ∉ ((s.enterLost h).chan t.home).roster ∧
    ∃ owed, (s.enterLost h).term h = some { t with
        owed := owed, moveFlag := false, phase := .lost t.phase.final 0 false } ∧
      (owed = Owed.none ∨ owed = { Owed.none with dismiss := true }) ∧
      (s.isUp t.home = false → owed = { Owed.none with dismiss := true }) ∧
      (s.isUp t.home = true → owed = Owed.none →
        ∃ m ∈ ((s.enterLost h).chan t.home).outq, m.msg = .dismiss h ∧ m.urgent = true ∧ m.left = s.tree.r) ∧
      ∀ k u, k ≠ h → s.term k = some u → ∃ o, (s.enterLost h).term k = some { u with owed := o }

/-! ## Channel links -/

/-- Bytes before a start byte are passed over. A frame whose check bytes differ from the check of its kind code, length
and body counts one LINK_DEFECT and is discarded, and the hunt resumes at the byte after its start byte, whatever start
bytes the discarded frame holds; one whose check agrees is taken as its record, whatever start bytes it holds, and the
hunt resumes after its check. A frame that is not whole waits, and the bytes of the next command go on from those that
wait (R162). A record with an unknown kind code, a wrong body length, or an outcome, arrival kind or status the tables
do not give counts one LINK_DEFECT and is discarded too (R163). That LINK_DEFECT_CHECK carries raw link bytes, as many
as the command holds, is the model's choice (DESIGN CHOICE, log entry 13). The check is that of the generator x^16 +
x^12 + x^5 + 1 from 0xFFFF, each byte most significant bit first. -/
def Obligations.DefectiveRecordsAreDiscarded : Prop :=
  (recordCheck [] = 0xFFFF ∧ ∀ (bytes : List Byte) (b : Byte), recordCheck (bytes ++ [b]) =
    (List.range 8).foldl (fun r _ => if r.msb then (r <<< 1) ^^^ 0x1021 else r <<< 1)
      (recordCheck bytes ^^^ (b ++ (0 : Byte)))) ∧
  ∀ (s : State) (c : Chan), s.running →
    (∀ (kind : Byte) (body : List Byte),
      (kind.toNat = 0 ∨ 6 < kind.toNat ∨
        (∃ p ∈ [(1, 5), (2, 3), (3, 2), (4, 1), (5, 21), (6, 0)], kind.toNat = p.1 ∧ body.length ≠ p.2) ∨
        (kind = 3 ∧ ∃ tag outcome : Byte, body = [tag, outcome] ∧ 1 < outcome.toNat) ∨
        (kind = 5 ∧ ∃ (k st : Byte) (tail : List Byte), body = k :: st :: tail ∧
          (k.toNat = 0 ∨ 3 < k.toNat ∨ 2 < st.toNat))) →
      exec (.linkDefectRecord c kind body) s = .next (s.bump c .linkDefect)) ∧
    (∀ bytes : List Byte, exec (.linkDefectCheck c bytes) s =
      exec (.linkDefectCheck c ((s.chan c).rx ++ bytes)) (s.modChan c fun x => { x with rx := [] })) ∧
    ((s.chan c).rx = [] →
      (∀ bytes : List Byte, (∀ b ∈ bytes, b ≠ 0x7E) → exec (.linkDefectCheck c bytes) s = .next s ∧
        ∀ rest, exec (.linkDefectCheck c (bytes ++ rest)) s = exec (.linkDefectCheck c rest) s) ∧
      (∀ after : List Byte, after.length < 2 ∨
          (∃ (kind len : Byte) (tail : List Byte), after = kind :: len :: tail ∧ tail.length < len.toNat + 2) →
        exec (.linkDefectCheck c (0x7E :: after)) s = .next (s.modChan c fun x => { x with rx := 0x7E :: after })) ∧
      ∀ (kind len : Byte) (body check rest : List Byte), body.length = len.toNat → check.length = 2 →
        (bytesNat check ≠ (recordCheck (kind :: len :: body)).toNat →
          exec (.linkDefectCheck c (0x7E :: kind :: len :: body ++ check ++ rest)) s =
            exec (.linkDefectCheck c (kind :: len :: body ++ check ++ rest)) (s.bump c .linkDefect) ∧
          ((∀ b ∈ kind :: len :: body ++ check, b ≠ 0x7E) →
            exec (.linkDefectCheck c (0x7E :: kind :: len :: body ++ check)) s = .next (s.bump c .linkDefect))) ∧
        (bytesNat check = (recordCheck (kind :: len :: body)).toNat →
          ∀ t, exec (.linkDefectRecord c kind body) s = .next t →
            exec (.linkDefectCheck c (0x7E :: kind :: len :: body ++ check ++ rest)) s =
              exec (.linkDefectCheck c rest) (t.modChan c fun x => { x with rx := [] })))

/-- HELLO with the tree's cycle length starts the alignment at count 1, in any link state; with any other length the
link is MISMATCHED. CHANNEL_STATE is raised when the state changes, UP is left with its effects, and one HELLO ACK is
sent (R41). That the cycle-seen flag stays where no rule speaks of it, on the way to MISMATCHED, is the model's reading
(DEDUCED, log entry 16). -/
def Obligations.HelloIsJudgedAgainstTheCycleLength : Prop :=
  ∀ (s : State) (c : Chan) (len : BitVec 24) (cur : Cyc), s.running →
    (len.toNat = s.tree.L →
      ((s.chan c).link = .down ∨ (s.chan c).link = .mismatched → exec (.hello c len cur) s =
        .next ((s.modChan c fun x => { x with
          link := .aligning cur 1, silence := 0, cycleSeen := true
          tx := x.tx ++ [.helloAck true s.tree.L] }).raise (Notice.channelState c (.aligning cur 1)))) ∧
      (∀ last count, (s.chan c).link = .aligning last count → exec (.hello c len cur) s =
        .next (s.modChan c fun x => { x with
          link := .aligning cur 1, silence := 0, cycleSeen := true
          tx := x.tx ++ [.helloAck true s.tree.L] })) ∧
      (∀ last, (s.chan c).link = .up last → exec (.hello c len cur) s =
        .next ((s.leaveUp c (.aligning cur 1)).modChan c fun x => { x with
          silence := 0, cycleSeen := true, tx := x.tx ++ [.helloAck true s.tree.L] }))) ∧
    (len.toNat ≠ s.tree.L →
      ((s.chan c).link = .mismatched → exec (.hello c len cur) s =
        .next (s.modChan c fun x => { x with tx := x.tx ++ [.helloAck false s.tree.L] })) ∧
      ((s.chan c).link = .down ∨ (∃ last count, (s.chan c).link = .aligning last count) →
        exec (.hello c len cur) s = .next ((s.modChan c fun x => { x with
          link := .mismatched, silence := 0, tx := x.tx ++ [.helloAck false s.tree.L] }).raise
            (Notice.channelState c .mismatched))) ∧
      (∀ last, (s.chan c).link = .up last → exec (.hello c len cur) s =
        .next ((s.leaveUp c .mismatched).modChan c fun x => { x with tx := x.tx ++ [.helloAck false s.tree.L] }))) ∧
    (SettingsLaw s → len.toNat < 4096 ∨ 262143 < len.toNat → len.toNat ≠ s.tree.L)

/-- Leaving UP returns the handles of the range offer and of the range gaps to the head of the queue, forgets the
offer, the gaps, the lapsed tags, the out-queue and the roster, ends a quiet census and raises CHANNEL_STATE; the exit
and the discarded messages are composed for the registry. LINK DOWN, and the second silent scan, take a link DOWN
(R44, R45, R66). The order of the composed events is the model's choice (log entry 6), and that the
cycle-seen flag stays on the way to DOWN its reading (DEDUCED, log entry 16). -/
def Obligations.LeavingUpForDown : Prop :=
  (∀ g : Gap, g.rangeHandle = match g.kind with | .range h _ => some h | _ => none) ∧
  (∀ o : Offer, o.rangeHandle = match o.kind with | .range h => some h | _ => none) ∧
  ∀ (s : State) (c : Chan),
    (∀ (last : Cyc) (l : LinkState) (left : State), (s.chan c).link = .up last →
      left = ({ s with
        events := s.events ++ Event.channelExit c ::
          ((s.chan c).outq.filter (·.report)).map (fun m => Event.report .discarded c m.msg.kind m.msg.handle)
        chans := s.chans.set c { s.chan c with
          link := l
          silence := if l = .down ∨ l = .mismatched then 0 else (s.chan c).silence
          rangeQ := ((s.chan c).offer.bind Offer.rangeHandle).toList ++
            (s.chan c).gaps.filterMap Gap.rangeHandle ++ (s.chan c).rangeQ
          offer := none
          gaps := []
          lapsed := []
          dueAge := 0
          outq := []
          roster := []
          quietPending := false } } : State) →
      s.leaveUp c l = ((if (s.chan c).quietPending then left.raise (Notice.censusQuiet c) else left).raise
        (Notice.channelState c l))) ∧
    (s.running →
      ((s.chan c).link = .down → exec (.linkDown c) s = .next s) ∧
      ((s.chan c).link = .mismatched → exec (.linkDown c) s =
        .next ((s.modChan c fun x => { x with link := .down, silence := 0 }).raise (Notice.channelState c .down))) ∧
      (∀ last count, (s.chan c).link = .aligning last count →
        exec (.linkDown c) s = .next ((s.modChan c fun x => { x with link := .down, silence := 0 }).raise
          (Notice.channelState c .down)) ∧
        ((s.chan c).cycleSeen = false → 1 ≤ (s.chan c).silence → exec (.silenceTimeout c) s =
          .next ((s.modChan c fun x => { x with link := .down, silence := 0 }).raise (Notice.channelState c .down)))) ∧
      (∀ last, (s.chan c).link = .up last →
        exec (.linkDown c) s = .next (s.leaveUp c .down) ∧
        ((s.chan c).cycleSeen = false → 1 ≤ (s.chan c).silence →
          exec (.silenceTimeout c) s = .next (s.leaveUp c .down))) ∧
      ((s.chan c).link = .down ∨ (s.chan c).link = .mismatched ∨ (s.chan c).cycleSeen = true ∨
        (s.chan c).silence = 0 → exec (.silenceTimeout c) s = .next s))

/-- A CYCLE in DOWN or MISMATCHED counts one UNALIGNED_RECORD; on an UP link it slips unless its number follows the
last one; in ALIGNING it is counted, and at count 4 the link is UP, its ACTIVE entries are announced in handle order,
each read with the store check first, which makes one with an uncorrectable flaw DAMAGED in place of announcing it, and
a periodic census is due (R33, R34, R42, R43). That CHANNEL_STATE (UP) is raised before the entries are read, so that a
STORE_ERROR of a read follows it, is the model's reading (DEDUCED, log entry 16). -/
def Obligations.CyclesOutsideAService : Prop :=
  ∀ (s : State) (c : Chan) (n : Cyc) (room : Byte), s.running →
    ((s.chan c).link = .down ∨ (s.chan c).link = .mismatched →
      exec (.cycle c n room) s = .next (s.bump c .unalignedRecord)) ∧
    (∀ last, (s.chan c).link = .up last → n ≠ last + 1 → exec (.cycle c n room) s =
      .next ((s.leaveUp c (.aligning n 1)).modChan c fun x => { x with
        cycleSeen := true, tx := x.tx ++ [.cycleReply n [] none] })) ∧
    ∀ last count count', (s.chan c).link = .aligning last count →
      count' = (if n = last + 1 then count + 1 else 1) →
      (count' < 4 → exec (.cycle c n room) s = .next (s.modChan c fun x => { x with
        link := .aligning n count', cycleSeen := true, tx := x.tx ++ [.cycleReply n [] none] })) ∧
      (4 ≤ count' → HandleLaw s → exec (.cycle c n room) s = .next ((((s.registry.filter fun e =>
          e.term.any fun t => t.phase.isActive && decide (t.home = c)).map (·.handle)).foldl
        (fun (w : State) h => if (w.readEntry h).term h = none ∨ h ∈ ((w.readEntry h).chan c).roster
          then w.readEntry h
          else (w.readEntry h).modChan c fun x => { x with roster := x.roster ++ [h], tx := x.tx ++ [.rosterJoin h] })
        ((s.modChan c fun x => { x with
          link := .up n
          cycleSeen := true
          tx := x.tx ++ [.cycleReply n [] none]
          dueAge := 0
          declineStreak := 0
          starved := false
          due := x.due || x.mode == .periodic
          periodCtr := if x.mode = .periodic then 0 else x.periodCtr }).raise (Notice.channelState c (.up n)))))) ∧
      ∀ joins, joins = (s.registry.filter fun e => !((s.chan c).roster.contains e.handle) &&
          e.term.any fun t => t.phase.isActive && decide (t.home = c)).map (·.handle) →
        4 ≤ count' → HandleLaw s → s.allSound →
        exec (.cycle c n room) s = .next ((s.modChan c fun x => { x with
          link := .up n
          cycleSeen := true
          tx := x.tx ++ .cycleReply n [] none :: joins.map TxRecord.rosterJoin
          roster := x.roster ++ joins
          dueAge := 0
          declineStreak := 0
          starved := false
          due := x.due || x.mode == .periodic
          periodCtr := if x.mode = .periodic then 0 else x.periodCtr }).raise (Notice.channelState c (.up n)))

/-- A hand-out takes the urgent messages in queue order, then the normal ones, up to the room; each message taken loses
a repeat and keeps its place, or leaves the queue with its last one (R70, R71). -/
def Obligations.HandOutTakesUrgentMessagesFirst : Prop :=
  ∀ (q taken : List QMsg) (room : Nat), OutQueueLaw q →
    taken = ((q.filter (·.urgent)) ++ (q.filter fun m => !m.urgent)).take room →
    (handOut room q).carried = taken.map (·.msg) ∧
    (handOut room q).finals = taken.filter (fun m => decide (m.left ≤ 1)) ∧
    (handOut room q).queue = q.filterMap fun m =>
      if m ∈ taken then (if m.left ≤ 1 then none else some { m with left := m.left - 1 }) else some m

/-- The service of a consecutive CYCLE on an UP link: the hand-out, then the gaps that have lapsed, then the expiry of
the outstanding offer, then the choice of at most one offer, in one CYCLE REPLY with up to four messages (R43, R46,
R53). While an offer is outstanding none is chosen. An overdue census holds back range offers until no gap is in flight
and is then offered; a census gap or four range gaps in flight hold them back too; else the queue is searched from its
head: each request's entry is read, which repairs a correctable flaw and makes one with an uncorrectable flaw DAMAGED,
as EntryRequestsRefuseOtherHandles states of a read, and the first request whose entry the read leaves undamaged and
whose span fits beside the gaps is offered, those before it passed over, the undamaged ones in their places; else a due
census, when no gap is in flight (R33 to R35, R50 to R52). That a due census is offered also after a search that offers
no range gap is the model's reading of R52 (c) (DEDUCED, log entry 18). The census counters then advance, and
CENSUS_PERIOD_DUE is the part of that which makes census due, on an UP channel (R58; log entry 3). A tag in flight or
lapsed is not given again: the tag is the first from the counter on that is neither (R51). The spans are those of R9
and R12, clamped at 0, the end cycle is that of R2, and two spans overlap when a tick lies in both (R50). -/
def Obligations.CycleServiceOffersAtMostOneGap : Prop :=
  (∀ (L : Nat) (g : Cyc) (start len : Nat), endCycle L g start len = g + BitVec.ofNat 16 ((start + len) / L)) ∧
  (∀ (t : TreeSettings) (S lo hi : Int), lo = t.K + S + t.rtMin - t.Tc →
    hi = t.K + S + t.rtMax + t.Jmax * t.Uh + t.Bd + t.Tc →
    censusSpan t S = ((max lo 0).toNat, if hi ≤ 0 then 0 else (hi - max lo 0).toNat)) ∧
  (∀ (t : TreeSettings) (S estimate lo hi : Int), lo = t.K + S + estimate - t.Tc →
    hi = t.K + S + estimate + t.Br + t.Tc →
    rangeSpan t S estimate = ((max lo 0).toNat, if hi ≤ 0 then 0 else (hi - max lo 0).toNat)) ∧
  (∀ (L : Nat) (m : Cyc) (start len : Nat) (g : Gap) (lo : Int), lo = g.start - (m - g.refCycle).toNat * L →
    (overlaps L m start len g = true ↔
      ∃ tick : Int, (start : Int) ≤ tick ∧ tick < start + len ∧ lo ≤ tick ∧ tick < lo + g.len)) ∧
  (∀ (u : State) (k : Handle), u.term k = none ∨ (∃ t, u.sound k t) → u.readEntry k = u) ∧
  (∀ (s : State) (c : Chan), s.running → s.isUp c = false → exec (.censusPeriodDue c) s = .next s) ∧
  (∀ (x : ChanState) (tag : Tag), x.tagBusy tag = true ↔ (∃ g ∈ x.gaps, g.tag = tag) ∨ tag ∈ x.lapsed) ∧
  ∀ (s : State) (c : Chan) (n last : Cyc) (room : Byte) (x : ChanState), s.running → x = s.chan c →
    x.link = .up last →
    (∀ now, now = (x.mode == .periodic && decide (x.period ≤ min (x.periodCtr + 1) 65535)) →
      (now = true → exec (.censusPeriodDue c) s = .next (s.modChan c fun z => { z with
        periodCtr := min (z.periodCtr + 1) 65535, due := true, dueAge := if z.due then z.dueAge else 0 })) ∧
      (now = false → exec (.censusPeriodDue c) s = .next s)) ∧
    (∀ m : State, n = last + 1 → m = { s with
        events := s.events ++ ((handOut (min room.toNat 4) x.outq).finals.filter (·.report)).map
          (fun q => Event.finalHandOut c q.msg.kind q.msg.handle)
        chans := s.chans.set c { x with
          link := .up n
          cycleSeen := true
          outq := (handOut (min room.toNat 4) x.outq).queue } } →
      ∃ l e, exec (.gapLapse c n) m = .next l ∧ exec (.offerExpiry c n) l = .next e ∧
        ((∀ g ∈ x.gaps, 32768 ≤ (n - (g.endCycle + 8)).toNat) → l = m ∧
          ((∀ o, x.offer = some o → o.refCycle ≠ n ∧ (o.refCycle - n).toNat < 32768) → e = m)) ∧
        ∀ (z : ChanState) (now : Bool) (walk : List Handle → State) (passed : State → Handle → Prop)
          (skipped : List Handle → Prop) (served : State → List Handle → Option Offer → Tag → Option Offer → State),
          z = e.chan c → now = (z.mode == .periodic && decide (z.period ≤ min (z.periodCtr + 1) 65535)) →
          (∀ l, walk l = l.foldl State.readEntry e) →
          (∀ u k, passed u k ↔ (u.readEntry k).term k = none ∨ ∃ t, (u.readEntry k).term k = some t ∧
            ∃ g ∈ ((u.readEntry k).chan c).gaps, g.names k = true ∨ overlaps e.tree.L (n + 2)
              (rangeSpan e.tree z.skew t.estimate).1 (rangeSpan e.tree z.skew t.estimate).2 g = true) →
          (∀ l, skipped l ↔ ∀ a k b, l = a ++ k :: b → passed (walk a) k) →
          (∀ w q o tag sent, served w q o tag sent = { w with
            chans := w.chans.set c { w.chan c with
              periodCtr := min (z.periodCtr + 1) 65535
              due := z.due || now
              dueAge := if z.due then min (z.dueAge + 1) 65535 else if now then 0 else z.dueAge
              rangeQ := q
              offer := o
              tagCtr := tag
              tx := (w.chan c).tx ++ [.cycleReply n (handOut (min room.toNat 4) x.outq).carried sent] } }) →
          (∀ o, z.offer = some o → exec (.cycle c n room) s = .next (served e z.rangeQ (some o) z.tagCtr none)) ∧
          (z.offer = none →
            (z.due = true → 16 ≤ z.dueAge → z.gaps ≠ [] →
              exec (.cycle c n room) s = .next (served e z.rangeQ none z.tagCtr none)) ∧
            (z.due = false ∨ z.dueAge < 16 →
              (∃ g ∈ z.gaps, g.isCensus = true) ∨ 4 ≤ (z.gaps.filter fun g => !g.isCensus).length →
              exec (.cycle c n room) s = .next (served e z.rangeQ none z.tagCtr none)) ∧
            (z.due = false ∨ z.gaps ≠ [] → z.due = false ∨ z.dueAge < 16 → (∀ g ∈ z.gaps, g.isCensus = false) →
              z.gaps.length ≤ 3 → skipped z.rangeQ → exec (.cycle c n room) s =
                .next (served (walk z.rangeQ) ((walk z.rangeQ).chan c).rangeQ none z.tagCtr none)) ∧
            (∀ o tag, tag = z.nextTag → o = ({
                tag := tag
                kind := .census
                refCycle := n + 2
                start := (censusSpan e.tree z.skew).1
                len := (censusSpan e.tree z.skew).2
                endCycle := endCycle e.tree.L (n + 2) (censusSpan e.tree z.skew).1 (censusSpan e.tree z.skew).2 } :
                  Offer) → z.due = true → z.gaps = [] →
              (16 ≤ z.dueAge → exec (.cycle c n room) s = .next (served e z.rangeQ (some o) (tag + 1) (some o))) ∧
              (z.dueAge < 16 → skipped z.rangeQ → exec (.cycle c n room) s =
                .next (served (walk z.rangeQ) ((walk z.rangeQ).chan c).rangeQ (some o) (tag + 1) (some o)))) ∧
            (∀ before h after t o tag, z.rangeQ = before ++ h :: after → skipped before →
              (walk (before ++ [h])).term h = some t → tag = z.nextTag → o = ({
                tag := tag
                kind := .range h
                refCycle := n + 2
                start := (rangeSpan e.tree z.skew t.estimate).1
                len := (rangeSpan e.tree z.skew t.estimate).2
                endCycle := endCycle e.tree.L (n + 2) (rangeSpan e.tree z.skew t.estimate).1
                  (rangeSpan e.tree z.skew t.estimate).2 } : Offer) →
              z.due = false ∨ z.dueAge < 16 → (∀ g ∈ z.gaps, g.isCensus = false) → z.gaps.length ≤ 3 →
              (∀ g ∈ ((walk (before ++ [h])).chan c).gaps,
                g.names h = false ∧ overlaps e.tree.L (n + 2) o.start o.len g = false) →
              exec (.cycle c n room) s = .next (served (walk (before ++ [h]))
                (((walk (before ++ [h])).chan c).rangeQ.filter fun k => !(k == h)) (some o) (tag + 1) (some o))))) ∧
    (x.gaps.length ≤ 5 → x.lapsed.length ≤ 4 → x.tagBusy x.nextTag = false ∧
      (∃ k, x.nextTag = x.tagCtr + BitVec.ofNat 8 k ∧ ∀ j, j < k → x.tagBusy (x.tagCtr + BitVec.ofNat 8 j) = true) ∧
      (x.tagBusy x.tagCtr = false → x.nextTag = x.tagCtr))

/-- PLACE RESULT for the outstanding offer puts its gap in flight, a census no longer due, or ends it: a declined range
offer's handle returns to the head of the queue, a declined quiet census ends, and the streak of declines raises
GAP_STARVED once at 64. An offer whose reference cycle is n or before n counts as declined at cycle n, and any other
PLACE RESULT counts one UNALIGNED_RECORD (R53, R54, R55, R59). OFFER_EXPIRY is that expiry taken by itself (log entry
3). That GAP_STARVED is raised at a streak of 64 or more with the latch clear, and that a declined quiet census ends the
due census even when a CALL came between, and leaves the due age, is the model's reading (DEDUCED, log entry 16). -/
def Obligations.OffersArePlacedDeclinedOrExpire : Prop :=
  ∀ (s : State) (c : Chan), s.running →
    (∀ tag placed, s.isUp c = false ∨ (∀ o, (s.chan c).offer = some o → o.tag ≠ tag) →
      exec (.placeResult c tag placed) s = .next (s.bump c .unalignedRecord)) ∧
    (∀ n, s.isUp c = false ∨
        (∀ o, (s.chan c).offer = some o → o.refCycle ≠ n ∧ (o.refCycle - n).toNat < 32768) →
      exec (.offerExpiry c n) s = .next s) ∧
    ∀ o, s.isUp c = true → (s.chan c).offer = some o →
      (o.kind = .census → exec (.placeResult c o.tag true) s = .next (s.modChan c fun x => { x with
        gaps := x.gaps ++ [⟨o.tag, .census [], o.refCycle, o.start, o.len, o.endCycle⟩]
        offer := none, declineStreak := 0, starved := false, due := false, dueAge := 0, periodCtr := 0 })) ∧
      (∀ h, o.kind = .range h → exec (.placeResult c o.tag true) s = .next (s.modChan c fun x => { x with
        gaps := x.gaps ++ [⟨o.tag, .range h false, o.refCycle, o.start, o.len, o.endCycle⟩]
        offer := none, declineStreak := 0, starved := false })) ∧
      (o.kind = .voidRange → exec (.placeResult c o.tag true) s = .next (s.modChan c fun x => { x with
        gaps := x.gaps ++ [⟨o.tag, .voidRange, o.refCycle, o.start, o.len, o.endCycle⟩]
        offer := none, declineStreak := 0, starved := false })) ∧
      ∀ (quiet starve : Bool) (back : List Handle) (ended : State), quiet = (o.kind == .census && (s.chan c).quietPending) →
        starve = (decide (64 ≤ (s.chan c).declineStreak + 1) && !(s.chan c).starved) →
        back = (match o.kind with | .range h => [h] | _ => []) →
        ended = (((if quiet then [Notice.censusQuiet c] else []) ++
          (if starve then [Notice.gapStarved c] else [])).foldl State.raise
            ((s.modChan c fun x => { x with
              offer := none
              rangeQ := back ++ x.rangeQ
              due := x.due && !quiet
              quietPending := x.quietPending && !quiet
              declineStreak := min (x.declineStreak + 1) 65535
              starved := x.starved || starve }).bump c .declines)) →
        exec (.placeResult c o.tag false) s = .next ended ∧
          ∀ n : Cyc, o.refCycle = n ∨ 32768 ≤ (o.refCycle - n).toNat → exec (.offerExpiry c n) s = .next ended

/-- GAP CLOSED takes the gap of its tag out of flight, or drops a lapsed tag, or counts one UNALIGNED_RECORD. The close
of a census gap ends a quiet census; that of a range gap reads its entry, with the repair or the damage that
EntryRequestsRefuseOtherHandles states of a read, and then makes the next request, or counts NO_REPLY and a retry, the
last of which fails the attempt; for an entry the read finds DAMAGED it does nothing more (R33, R35). A gap lapses at 8
cycles after its end cycle as if it had been closed, and its tag is kept; gaps that lapse in one service do so one
after the other in the order of placement (R51, R56, R57, R112). A range request joins the tail of its entry's home
queue, unless the handle stands in a queue, an outstanding offer or a non-void gap of any channel (R47). GAP_LAPSE is
that part of a service taken by itself (log entry 3). -/
def Obligations.GapsCloseAndLapse : Prop :=
  (∀ (s : State) (h : Handle) (stands : Prop),
    (stands ↔ ∃ c, h ∈ (s.chan c).rangeQ ∨ (∃ o, (s.chan c).offer = some o ∧ o.kind = .range h) ∨
      ∃ g ∈ (s.chan c).gaps, ∃ seen, g.kind = .range h seen) →
    (s.term h = none ∨ stands → s.rangeRequest h = s) ∧
    ∀ t, s.term h = some t → ¬stands →
      s.rangeRequest h = s.modChan t.home fun x => { x with rangeQ := x.rangeQ ++ [h] }) ∧
  (∀ (x : ChanState) (tag : Tag), x.gapOf tag = x.gaps.find? (·.tag == tag)) ∧
  ∀ (s : State) (c : Chan), s.running →
    (∀ tag, s.isUp c = false ∨ ((∀ g ∈ (s.chan c).gaps, g.tag ≠ tag) ∧ tag ∉ (s.chan c).lapsed) →
      exec (.gapClosed c tag) s = .next (s.bump c .unalignedRecord)) ∧
    (∀ tag, s.isUp c = true → (∀ g ∈ (s.chan c).gaps, g.tag ≠ tag) → tag ∈ (s.chan c).lapsed →
      exec (.gapClosed c tag) s = .next (s.modChan c fun x => { x with
        lapsed := x.lapsed.filter fun t => !(t == tag) })) ∧
    (∀ n, s.isUp c = false ∨ (∀ g ∈ (s.chan c).gaps, 32768 ≤ (n - (g.endCycle + 8)).toNat) →
      exec (.gapLapse c n) s = .next s) ∧
    ∀ (a b : List Gap) (g : Gap) (s1 : State), s.isUp c = true → (s.chan c).gaps = a ++ g :: b →
      (∀ g' ∈ a ++ b, g'.tag ≠ g.tag) → s1 = (s.modChan c fun x => { x with gaps := a ++ b }) →
      (g.kind = .voidRange → exec (.gapClosed c g.tag) s = .next s1) ∧
      (∀ answers, g.kind = .census answers →
        ((s.chan c).quietPending = false → exec (.gapClosed c g.tag) s = .next s1) ∧
        ((s.chan c).quietPending = true → exec (.gapClosed c g.tag) s =
          .next ((s1.modChan c fun x => { x with quietPending := false }).raise (Notice.censusQuiet c)))) ∧
      (∀ (h : Handle) (flaw : Flaw) (t : Terminal) (seen : Bool) (s2 : State), HandleLaw s →
        s.entry h = some ⟨h, flaw, some t⟩ → g.kind = .range h seen → s2 = s1.readEntry h →
        (flaw = .sound → s2 = s1) ∧
        (flaw = .uncorrectable ∨ (∀ k smp f d, t.phase ≠ .ranging k smp f d) →
          exec (.gapClosed c g.tag) s = .next s2) ∧
        (flaw ≠ .uncorrectable → ∀ k smp f d, t.phase = .ranging k smp f d →
          (seen = true → exec (.gapClosed c g.tag) s = .next (s2.rangeRequest h)) ∧
          (seen = false → k + 1 < s.tree.Rmax → exec (.gapClosed c g.tag) s =
            .next (((s2.bump c .noReply).modTerm h fun u => { u with phase := .ranging (k + 1) smp f d }).rangeRequest
              h)) ∧
          (seen = false → s.tree.Rmax ≤ k + 1 → exec (.gapClosed c g.tag) s =
            .next ((s2.bump c .noReply).failAttempt h .noReply)))) ∧
      (∀ h seen, g.kind = .range h seen → s.term h = none → exec (.gapClosed c g.tag) s = .next s1) ∧
      ∀ n : Cyc, (n - (g.endCycle + 8)).toNat < 32768 →
        (∀ g' ∈ a, 32768 ≤ (n - (g'.endCycle + 8)).toNat) →
        ∃ closed, exec (.gapClosed c g.tag) s = .next closed ∧
          ∀ first, first = (closed.modChan c fun x => { x with
            lapsed := (if 4 ≤ x.lapsed.length then x.lapsed.drop 1 else x.lapsed) ++ [g.tag] }).bump c .lapses →
            exec (.gapLapse c n) s = exec (.gapLapse c n) first ∧
            ((∀ g' ∈ b, 32768 ≤ (n - (g'.endCycle + 8)).toNat) → exec (.gapLapse c n) s = .next first)

/-! ## Arrivals -/

/-- A census reply is judged by the eight checks in the order of Table 5-1, the first that fails naming its defect, and
passes them with coarse round trip E − K − j·U_h − S. A defect is counted, and reported when defect notices are on; a
sound reply joins the answer list, and then the mark of an entry is matched (R10, R11, R61, R77 to R86). An unknown
mark is judged by its pending item, the admission table and the default policy: registered under the lowest free
handle, or after the oldest LOST entry is freed, or counted REGISTRY_FULL with the latched notice; barred with the
seen-once notice; refreshed or appended in the pending list, or PENDING_FULL with the latched notice; or closed (R21,
R87 to R89, R98 to R101). Every entry is read with the store check before the mark is looked up, which repairs and
damages as it does elsewhere (R33 to R35); that all are read is the model's reading (log entry 8). -/
def Obligations.CensusRepliesAreJudgedAndMatched : Prop :=
  ∀ (s : State) (c : Chan) (a : Arrival) (g : Gap) (answers : List Mark) (m : Mark) (E : Nat) (rt : Int),
    s.running →
    s.isUp c = true → a.kind = .census → (s.chan c).gapOf a.tag = some g → g.kind = .census answers →
    m = a.mark.extractLsb' 8 56 → E = (a.startCycle - g.refCycle).toNat * s.tree.L + a.startOffset.toNat →
    rt = (E : Int) - s.tree.K - a.slot.toNat * s.tree.Uh - (s.chan c).skew →
    censusVerdict s.tree (s.chan c).skew g answers a =
      (if a.status ≠ .clean then .defect .deliveryDefect
      else if xorBytes a.mark ≠ 0 then .defect .checkDefect
      else if m = 0 ∨ m = BitVec.allOnes 56 then .defect .blankMark
      else if s.tree.Jmax < a.slot.toNat then .defect .holdoffRange
      else if 32768 ≤ (a.startCycle - g.refCycle).toNat ∨ s.tree.L ≤ a.startOffset.toNat ∨ E < g.start ∨
        g.start + g.len < E + s.tree.Bd then .defect .outOfSpan
      else if rt < 0 ∨ 1048575 < rt ∨ rt + (s.chan c).skew < 0 ∨
        rt + (s.chan c).skew < (s.tree.rtMin : Int) - s.tree.Tc ∨
        s.tree.rtMax + s.tree.Tc < rt + (s.chan c).skew then .defect .outOfReach
      else if m ∈ answers then .defect .duplicateInGap
      else if 8 ≤ answers.length then .defect .answerOverflow
      else .sound rt) ∧
    (∀ x : Int, censusVerdict s.tree (s.chan c).skew g answers a = .sound x ↔
      a.status = .clean ∧ xorBytes a.mark = 0 ∧ m ≠ 0 ∧ m ≠ BitVec.allOnes 56 ∧ a.slot.toNat ≤ s.tree.Jmax ∧
      (a.startCycle - g.refCycle).toNat < 32768 ∧ a.startOffset.toNat < s.tree.L ∧ g.start ≤ E ∧
      E + s.tree.Bd ≤ g.start + g.len ∧ x = (E : Int) - s.tree.K - a.slot.toNat * s.tree.Uh - (s.chan c).skew ∧
      0 ≤ x ∧ x ≤ 1048575 ∧ 0 ≤ x + (s.chan c).skew ∧
      (s.tree.rtMin : Int) - s.tree.Tc ≤ x + (s.chan c).skew ∧ x + (s.chan c).skew ≤ s.tree.rtMax + s.tree.Tc ∧
      m ∉ answers ∧ answers.length < 8) ∧
    (∀ k, censusVerdict s.tree (s.chan c).skew g answers a = .defect k →
      (s.tree.defectNotices = false → exec (.arrival c a) s = .next (s.bump c k)) ∧
      (s.tree.defectNotices = true → exec (.arrival c a) s = .next ((s.bump c k).raise
        ⟨.defect, none, some c, if k = .deliveryDefect ∨ k = .checkDefect then none else some m,
          some k.idx.val⟩))) ∧
    ∀ (x : Int) (s0 s1 : State), censusVerdict s.tree (s.chan c).skew g answers a = .sound x →
      s0 = (s.modChan c fun y => { y with gaps := y.gaps.map fun g' =>
        if g'.tag = a.tag then
          match g'.kind with
          | .census l => { g' with kind := .census (l ++ [m]) }
          | _ => g'
        else g' }) →
      s1 = (s.registry.map Entry.handle).foldl (fun (w : State) h => w.readEntry h) s0 → (s.allSound → s1 = s0) ∧
      (∀ h t, HandleLaw s → MarkLaw s → s1.sound h t → t.mark = m →
        (∀ f age sent, t.phase = .lost f age sent →
          exec (.arrival c a) s = .next (s1.reEnrol h c x 0 (decide (t.home ≠ c)) true)) ∧
        (∀ n, t.phase.retry = some n →
          (n + 1 < s.tree.Rmax →
            exec (.arrival c a) s = .next (s1.reEnrol h c x (n + 1) (decide (t.home ≠ c)) (decide (t.home ≠ c)))) ∧
          (s.tree.Rmax ≤ n + 1 → exec (.arrival c a) s = .next (((if t.home = c then s1.voidAll h else
            (s1.voidAll h).modChan t.home fun y => { y with outq := y.outq.filter fun q => !(q.msg.handle == h) }).modTerm
              h fun u => { u with home := c }).failAttempt h .censusRestart))) ∧
        (∀ sent due, t.phase = .dismissing sent due → exec (.arrival c a) s = .next s1) ∧
        (∀ fix, t.phase.fix = some fix →
          (t.heard = true → exec (.arrival c a) s =
            .next ((s1.bump c .markConflict).raise (Notice.markConflict h c m))) ∧
          (t.heard = false → exec (.arrival c a) s = .next (s1.reEnrol h c x 0 true true)))) ∧
      (HandleLaw s → (∀ h t, s1.term h = some t → t.mark ≠ m) →
        (tableFind m s.table = none → s.waitingItem m = none →
          (s.tree.policy = .closed → exec (.arrival c a) s = .next (s1.bump c .closedAnswer)) ∧
          (s.tree.policy = .ask → s.waiting.length < 16 → exec (.arrival c a) s =
            .next (({ s1 with waiting := s.waiting ++ [⟨m, c, x, 0, 1⟩] } : State).raise (Notice.pending m))) ∧
          (s.tree.policy = .ask → 16 ≤ s.waiting.length →
            (s.pendingFullLatch = true → exec (.arrival c a) s = .next s1) ∧
            (s.pendingFullLatch = false → exec (.arrival c a) s =
              .next (({ s1 with pendingFullLatch := true } : State).raise (Notice.pendingFull c m))))) ∧
        (tableFind m s.table = none → s.waitingItem m ≠ none → exec (.arrival c a) s = .next { s1 with
          waiting := s.waiting.map fun i => if i.mark = m
            then { i with chan := c, coarse := x, age := 0, answers := min (i.answers + 1) 255 } else i }) ∧
        (∀ (e : TableEntry) (s2 : State), tableFind m s.table = some e → e.policy = .bar →
          s2 = (if (s.waitingItem m).isSome = true then { s1 with
            waiting := s.waiting.filter fun i => !(i.mark == m), pendingFullLatch := false } else s1) →
          (e.seen = true → exec (.arrival c a) s = .next (s2.bump c .barredAnswer)) ∧
          (e.seen = false → exec (.arrival c a) s = .next (({ s2.bump c .barredAnswer with
            table := s.table.map fun e' => if e'.mark = m then { e' with seen := true } else e' } : State).raise
              (Notice.barredSeen c m)))) ∧
        ((∃ e, tableFind m s.table = some e ∧ e.policy = .letIn) ∨
          (tableFind m s.table = none ∧ s.waitingItem m = none ∧ s.tree.policy = .openAll) →
          (∀ h, s.lowestFree = some h → exec (.arrival c a) s =
            .next (((s1.createEntry h m c x).queueFor h (.enrol h m)).raise (Notice.registered h c m))) ∧
          (∀ o rest h, s.lowestFree = none → s1.retention = o :: rest → (s1.freeEntry o true).lowestFree = some h →
            exec (.arrival c a) s = .next ((((s1.freeEntry o true).createEntry h m c x).queueFor h (.enrol h m)).raise
              (Notice.registered h c m))) ∧
          (∀ full : State, s.lowestFree = none → s1.retention = [] →
            full = ({ s1.bump c .registryFull with
              waiting := s.waiting.map fun i => if i.mark = m
                then { i with chan := c, coarse := x, age := 0, answers := min (i.answers + 1) 255 } else i
              fullLatch := true } : State) →
            (s.fullLatch = true → exec (.arrival c a) s = .next full) ∧
            (s.fullLatch = false → exec (.arrival c a) s = .next (full.raise (Notice.registryFull c m))))))

/-- A re-enrolment keeps mark, was-ACTIVE, heard and final round trip; its entry is ENROLLING on the channel of the
reply with the coarse round trip as estimate, is no longer LOST, and holds no range work; its ENROL is queued or owed.
With the removal asked for, every message for the handle leaves the out-queue of its old home, where the new ENROL may
then stand (step 3). The whole next state is that of the ENROL queued for the entry (stated in QueueForSendsOrOwes)
after those changes and no other, and with the announcement REGISTERED (R81). The final hand-outs of the handle's
earlier ENROL that wait are not acted on: they leave the waiting events, which keep every other one (R90; log entry
25). -/
def Obligations.ReEnrollingAnEntry : Prop :=
  ∀ (s : State) (h : Handle) (t : Terminal) (c : Chan) (x : Int) (retry : Nat) (remove announce : Bool),
    s.term h = some t →
    (∀ gone left asked : State,
      gone = ({ s with events := s.events.filter fun e =>
        !(Chan.all.any fun d => e == .finalHandOut d .enrol h) } : State).voidAll h →
      left = (if t.phase.isActive then gone.rosterLeave t.home h else gone) →
      asked = ({ (if remove then left.modChan t.home fun y => { y with outq := y.outq.filter fun m => !(m.msg.handle == h) }
        else left).modTerm h fun u => { u with
          home := c, estimate := x, moveFlag := false, owed := Owed.none, phase := .enrolling retry u.phase.final } with
        retention := if t.phase.isLost then s.retention.filter fun k => !(k == h) else s.retention } : State).queueFor h
          (.enrol h t.mark) →
      s.reEnrol h c x retry remove announce =
        if announce then asked.raise (Notice.registered h c t.mark) else asked) ∧
    (s.reEnrol h c x retry remove announce).hasWork h = false ∧
    (s.reEnrol h c x retry remove announce).events = s.events.filter (fun e =>
      !(Chan.all.any fun d => e == .finalHandOut d .enrol h)) ∧
    (s.reEnrol h c x retry remove announce).retention =
      (if t.phase.isLost then s.retention.filter fun k => !(k == h) else s.retention) ∧
    (t.phase.isActive = true → h ∉ ((s.reEnrol h c x retry remove announce).chan t.home).roster) ∧
    (t.home ≠ c → ((s.reEnrol h c x retry remove announce).chan t.home).outq =
      if remove then (s.chan t.home).outq.filter fun m => !(m.msg.handle == h) else (s.chan t.home).outq) ∧
    (t.home = c → remove = true → ∀ m ∈ ((s.reEnrol h c x retry remove announce).chan c).outq, m.msg.handle = h →
      m.msg = .enrol h t.mark) ∧
    (s.isUp c = true → s.notices.length < 64 → announce = true →
      Notice.registered h c t.mark ∈ (s.reEnrol h c x retry remove announce).notices) ∧
    (∃ owed, (s.reEnrol h c x retry remove announce).term h = some { t with
        home := c
        estimate := x
        moveFlag := false
        owed := owed
        phase := .enrolling retry t.phase.final } ∧
      (owed = Owed.none ∨ owed = { Owed.none with enrol := true }) ∧
      (s.isUp c = false → owed = { Owed.none with enrol := true }) ∧
      (s.isUp c = true → owed = Owed.none →
        ∃ m ∈ ((s.reEnrol h c x retry remove announce).chan c).outq, m.msg = .enrol h t.mark ∧ m.left = s.tree.r)) ∧
    ∀ k u, k ≠ h → s.term k = some u → ∃ o, (s.reEnrol h c x retry remove announce).term k = some { u with owed := o }

/-- A range reply that is not clean or names another handle counts one MISMATCH and a retry; a clean one sets heard,
and is a mismatch or a sample by its span and its distance from the estimate. With n_conf samples or more the attempt
ends: too wide a spread counts SPREAD_FAIL, a round trip out of reach counts OUT_OF_REACH, each of which clears them
and counts a retry, and a round trip within reach makes the entry JOINING with its fill delay and SET DELAY queued. The
retry that reaches R_max fails the attempt. The mean is rounded to the nearest tick. A failed attempt dismisses a fresh
entry and loses one that has been ACTIVE, with MOVE_FAILED when its move flag is set; that a fresh entry has no move is
the model's reading (DEDUCED, log entry 16). The entry is read first: a correctable flaw is repaired, and an
uncorrectable one makes the reply stray (R11, R33, R35, R13, R14, R15, R109, R110, R111, R114, R115, R116). -/
def Obligations.RangeRepliesAreMeasured : Prop :=
  (∀ l : List Int, l ≠ [] → 2 * l.length * roundedMean l ≤ 2 * l.sum + l.length ∧
    2 * l.sum + l.length < 2 * l.length * (roundedMean l + 1)) ∧
  (∀ l : List Int, l ≠ [] → ∃ a ∈ l, ∃ b ∈ l, spread l = a - b ∧ ∀ x ∈ l, b ≤ x ∧ x ≤ a) ∧
  (∀ o : RangeOutcome, o.code = match o with
    | .noReply => 1 | .mismatch => 2 | .spreadFail => 3 | .outOfReach => 4 | .censusRestart => 5) ∧
  (∀ (s : State) (h : Handle) (t : Terminal) (o : RangeOutcome), s.term h = some t →
    s.failAttempt h o = (if t.wasActive then
      (if t.moveFlag then
        ((((s.voidAll h).raise (Notice.rangeFailed h t.home o.code)).enterLost h).raise
          (Notice.moveRangingFailed h t.home))
      else ((s.voidAll h).raise (Notice.rangeFailed h t.home o.code)).enterLost h)
    else ((s.voidAll h).raise (Notice.rangeFailed h t.home o.code)).enterDismissing h)) ∧
  (∀ (s : State) (c : Chan) (a : Arrival) (g : Gap) (h : Handle) (t : Terminal) (seen : Bool), s.running →
    s.isUp c = true → a.kind = .range → (s.chan c).gapOf a.tag = some g → g.kind = .range h seen →
    s.entry h = some ⟨h, .uncorrectable, some t⟩ →
    exec (.arrival c a) s = .next ((s.readEntry h).bump c .strayArrival)) ∧
  ∀ (s : State) (c : Chan) (a : Arrival) (g : Gap) (h : Handle) (t : Terminal) (k : Nat) (smp : List Int)
    (f d : Option Int) (E : Nat) (flaw : Flaw) (s0 s1 : State), s.running → HandleLaw s → s.isUp c = true →
    a.kind = .range → (s.chan c).gapOf a.tag = some g → s.entry h = some ⟨h, flaw, some t⟩ → flaw ≠ .uncorrectable →
    t.phase = .ranging k smp f d → s0 = s.readEntry h →
    E = (a.startCycle - g.refCycle).toNat * s.tree.L + a.startOffset.toNat →
    s1 = (s0.modChan c fun y => { y with gaps := y.gaps.map fun g' =>
      if g'.tag = a.tag then
        match g'.kind with
        | .range h' _ => { g' with kind := .range h' true }
        | _ => g'
      else g' }) →
    (flaw = .sound → s0 = s) ∧
    (g.kind = .range h true → exec (.arrival c a) s = .next (s0.bump c .strayArrival)) ∧
    (g.kind = .range h false →
      (a.status ≠ .clean ∨ a.handle.toNat ≠ h →
        (k + 1 < s.tree.Rmax → exec (.arrival c a) s =
          .next ((s1.bump c .mismatch).modTerm h fun u => { u with phase := .ranging (k + 1) smp f d })) ∧
        (s.tree.Rmax ≤ k + 1 → exec (.arrival c a) s = .next ((s1.bump c .mismatch).failAttempt h .mismatch))) ∧
      (a.status = .clean → a.handle.toNat = h →
        (∀ x : Int, rangeSample s.tree (s.chan c).skew t.estimate g.refCycle g.start g.len a = some x ↔
          (a.startCycle - g.refCycle).toNat < 32768 ∧ a.startOffset.toNat < s.tree.L ∧ g.start ≤ E ∧
          E + s.tree.Br ≤ g.start + g.len ∧ x = (E : Int) - s.tree.K - (s.chan c).skew ∧ 0 ≤ x ∧
          x - t.estimate ≤ s.tree.Tc ∧ t.estimate - x ≤ s.tree.Tc) ∧
        (rangeSample s.tree (s.chan c).skew t.estimate g.refCycle g.start g.len a = none →
          (k + 1 < s.tree.Rmax → exec (.arrival c a) s = .next ((s1.bump c .mismatch).modTerm h fun u => { u with
            heard := true, phase := .ranging (k + 1) smp f d })) ∧
          (s.tree.Rmax ≤ k + 1 → exec (.arrival c a) s = .next (((s1.bump c .mismatch).modTerm h fun u => { u with
            heard := true }).failAttempt h .mismatch))) ∧
        ∀ x, rangeSample s.tree (s.chan c).skew t.estimate g.refCycle g.start g.len a = some x →
          ((smp ++ [x]).length < s.tree.nConf → exec (.arrival c a) s =
            .next (s1.modTerm h fun u => { u with heard := true, phase := .ranging k (smp ++ [x]) f d })) ∧
          (s.tree.nConf ≤ (smp ++ [x]).length → 1 < (smp ++ [x]).length → (s.tree.P : Int) < spread (smp ++ [x]) →
            (k + 1 < s.tree.Rmax → exec (.arrival c a) s = .next ((s1.bump t.home .spreadFail).modTerm h fun u =>
              { u with heard := true, phase := .ranging (k + 1) [] f d })) ∧
            (s.tree.Rmax ≤ k + 1 → exec (.arrival c a) s = .next (((s1.bump t.home .spreadFail).modTerm h fun u =>
              { u with heard := true, phase := .ranging k [] f d }).failAttempt h .spreadFail))) ∧
          ∀ fin fill : Int, s.tree.nConf ≤ (smp ++ [x]).length →
            (smp ++ [x]).length = 1 ∨ spread (smp ++ [x]) ≤ s.tree.P → fin = roundedMean (smp ++ [x]) →
            fill = s.tree.H - (fin + (s.chan t.home).skew) →
            (reachOk s.tree (s.chan t.home).skew fin = true ↔ 0 ≤ fin ∧ fin ≤ 1048575 ∧
              0 ≤ fin + (s.chan t.home).skew ∧ (s.tree.rtMin : Int) - s.tree.Tc ≤ fin + (s.chan t.home).skew ∧
              fin + (s.chan t.home).skew ≤ s.tree.rtMax + s.tree.Tc) ∧
            (reachOk s.tree (s.chan t.home).skew fin = true → exec (.arrival c a) s =
              .next (((s1.voidAll h).modTerm h fun u => { u with
                heard := true, phase := .joining ⟨fin, fill⟩ }).queueFor h (.setDelay h fill))) ∧
            (reachOk s.tree (s.chan t.home).skew fin = false →
              (k + 1 < s.tree.Rmax → exec (.arrival c a) s = .next ((s1.bump t.home .outOfReach).modTerm h fun u =>
                { u with heard := true, phase := .ranging (k + 1) [] f d })) ∧
              (s.tree.Rmax ≤ k + 1 → exec (.arrival c a) s = .next (((s1.bump t.home .outOfReach).modTerm h fun u =>
                { u with heard := true, phase := .ranging k [] f d }).failAttempt h .outOfReach)))))

/-- A data burst for an ACTIVE entry on the channel's roster sets heard. A clean one that meets no trim and no settle
count moves the drift streak, trims the fill delay when the streak is V long, or sends the entry back to ranging on a
jump above E_jump or a trim out of reach. Any other burst, any arrival on a link that is not UP, and a census or range
reply whose tag names no gap, a void gap or a gap of the other kind is stray, and so is a range reply in the gap of an
entry that is free or DAMAGED. A burst's entry is read first: a correctable flaw is repaired, and an uncorrectable one
makes the burst stray (R16, R33, R35, R61, R124 to R130). -/
def Obligations.DataBurstsAreTracked : Prop :=
  ∀ (s : State) (c : Chan) (a : Arrival) (h : Handle) (e : Int), s.running → HandleLaw s → h = a.handle.toNat →
    e = a.offset.toInt →
    (s.isUp c = false → exec (.arrival c a) s = .next (s.bump c .strayArrival)) ∧
    (s.isUp c = true → a.kind ≠ .data → (s.chan c).gapOf a.tag = none →
      exec (.arrival c a) s = .next (s.bump c .strayArrival)) ∧
    (∀ g, s.isUp c = true → (s.chan c).gapOf a.tag = some g →
      (a.kind = .census → (∀ answers, g.kind ≠ .census answers) →
        exec (.arrival c a) s = .next (s.bump c .strayArrival)) ∧
      (a.kind = .range → (∀ k seen, g.kind = .range k seen → s.term k = none) →
        exec (.arrival c a) s = .next (s.bump c .strayArrival))) ∧
    (s.isUp c = true → a.kind = .data → h ∉ (s.chan c).roster →
      exec (.arrival c a) s = .next (s.bump c .strayArrival)) ∧
    (s.isUp c = true → a.kind = .data → s.term h = none → exec (.arrival c a) s = .next (s.bump c .strayArrival)) ∧
    ∀ (t : Terminal) (flaw : Flaw) (s0 : State), s.isUp c = true → a.kind = .data → h ∈ (s.chan c).roster →
      s.entry h = some ⟨h, flaw, some t⟩ → s0 = s.readEntry h → (flaw = .sound → s0 = s) ∧
      (flaw = .uncorrectable ∨ t.phase.isActive = false →
        exec (.arrival c a) s = .next (s0.bump c .strayArrival)) ∧
      ∀ fix d missed, flaw ≠ .uncorrectable → t.phase = .active fix d missed →
        (a.status ≠ .clean ∨ d.trimPending ≠ none ∨ t.owed.trim ≠ none →
          exec (.arrival c a) s = .next (s0.modTerm h fun u => { u with heard := true })) ∧
        (a.status = .clean → d.trimPending = none → t.owed.trim = none →
          (0 < d.settle → exec (.arrival c a) s = .next (s0.modTerm h fun u => { u with
            heard := true, phase := .active fix { d with settle := d.settle - 1 } missed })) ∧
          (d.settle = 0 →
            (∀ est, est = max 0 (min (fix.final + e) 1048575) → s.tree.Ejump < e.natAbs → exec (.arrival c a) s =
              .next ((((((s0.rosterLeave t.home h).modTerm h fun u => { u with
                heard := true
                estimate := est
                phase := .ranging 0 [] (some fix.final) (some fix.fill) }).queueFor h (.hush h)).rangeRequest h).bump
                  t.home .reranges).raise (Notice.driftRerange h t.home est))) ∧
            (e.natAbs ≤ s.tree.Ejump → e.natAbs ≤ s.tree.Z → exec (.arrival c a) s = .next (s0.modTerm h fun u =>
              { u with heard := true, phase := .active fix { d with streak := none } missed })) ∧
            ∀ st, e.natAbs ≤ s.tree.Ejump → s.tree.Z < e.natAbs →
              st = (match d.streak with
                | some z => if z.positive = decide (0 < e) then ⟨z.positive, z.count + 1, z.sum + e⟩
                  else ⟨decide (0 < e), 1, e⟩
                | none => ⟨decide (0 < e), 1, e⟩) →
              (st.count < s.tree.V → exec (.arrival c a) s = .next (s0.modTerm h fun u =>
                { u with heard := true, phase := .active fix { d with streak := some st } missed })) ∧
              ∀ ch : Int, s.tree.V ≤ st.count →
                ch = max (-(s.tree.Cmax : Int)) (min (st.sum.tdiv s.tree.V) s.tree.Cmax) →
                (reachOk s.tree (s.chan t.home).skew (fix.final + ch) = true → exec (.arrival c a) s =
                  .next (((s0.modTerm h fun u => { u with
                    heard := true
                    phase := .active ⟨fix.final + ch, fix.fill - ch⟩
                      { d with streak := none, trimPending := some (-ch) } missed }).bump t.home .trims).queueFor h
                        (.trimDelay h (-ch)))) ∧
                (reachOk s.tree (s.chan t.home).skew (fix.final + ch) = false → exec (.arrival c a) s =
                  .next ((((((s0.rosterLeave t.home h).modTerm h fun u => { u with
                    heard := true
                    estimate := fix.final
                    phase := .ranging 0 [] (some fix.final) (some fix.fill) }).queueFor h (.hush h)).rangeRequest
                      h).bump t.home .reranges).raise (Notice.driftRerange h t.home fix.final)))))

/-! ## Internal events -/

/-- Table 2-6: a final hand-out acts on an entry homed on the event's channel in the state the table names, and on no
other: an event for a free handle or a DAMAGED entry is ignored, and so is one whose read finds an uncorrectable flaw
beyond what the read does; a correctable flaw is repaired first (R25, R33 to R35, R117, R123, R131, R146). A settled
trim clears trim-pending, or sets it with the owed trim change while TRIM DELAY is owed (R123; the model's reading, log
entry 28). -/
def Obligations.FinalHandOutsActAsTheTableSays : Prop :=
  ∀ (s : State) (c : Chan) (k : MsgKind) (h : Handle), HandleLaw s →
    (s.term h = none → exec (.finalHandOutEvent c k h) s = .next (s.dropEvent (.finalHandOut c k h))) ∧
    ∀ (flaw : Flaw) (t : Terminal) (s0 : State), s.entry h = some ⟨h, flaw, some t⟩ →
      s0 = (s.dropEvent (.finalHandOut c k h)).readEntry h →
      (flaw = .sound → s0 = s.dropEvent (.finalHandOut c k h)) ∧
      (flaw = .uncorrectable ∨ t.home ≠ c ∨ k = .hush → exec (.finalHandOutEvent c k h) s = .next s0) ∧
      (flaw ≠ .uncorrectable → t.home = c →
        (∀ n f, k = .enrol → t.phase = .enrolling n f → exec (.finalHandOutEvent c k h) s =
          .next ((s0.modTerm h fun u => { u with phase := .ranging n [] f none }).rangeRequest h)) ∧
        (∀ fix s1, t.phase = .joining fix → (k = .setDelay ∨ k = .resume) →
          s1 = ((s0.modTerm h fun u => { u with
            phase := .active fix ⟨none, 2, u.owed.trim⟩ 0
            wasActive := true
            heard := false
            moveFlag := false }).rosterJoin c h).raise (Notice.activated h c fix.fill) →
          exec (.finalHandOutEvent c k h) s =
            .next (if t.moveFlag then s1.raise (Notice.moveDone h c) else s1)) ∧
        (∀ fix d n ch, k = .trimDelay → t.phase = .active fix d n → d.trimPending = some ch →
          exec (.finalHandOutEvent c k h) s = .next (s0.modTerm h fun u => { u with
            phase := .active fix { d with trimPending := u.owed.trim, settle := 2 } n })) ∧
        (∀ fix target, k = .retune → t.phase = .retuning fix target → exec (.finalHandOutEvent c k h) s =
          .next (((s0.modTerm h fun u => { u with
            home := target
            estimate := fix.final
            owed := { u.owed with trim := none }
            phase := .ranging 0 [] (some fix.final) (some fix.fill) }).modChan target fun x => { x with
              outq := x.outq.filter fun m => !(m.msg.handle == h && m.msg.kind == .dismiss) }).rangeRequest h)) ∧
        (∀ sent due, k = .dismiss → t.phase = .dismissing sent due → exec (.finalHandOutEvent c k h) s =
          .next (s0.modTerm h fun u => { u with phase := .dismissing true due })) ∧
        (∀ f age sent, k = .dismiss → t.phase = .lost f age sent → exec (.finalHandOutEvent c k h) s =
          .next (s0.modTerm h fun u => { u with phase := .lost f age true })) ∧
        ((k = .enrol → ∀ n f, t.phase ≠ .enrolling n f) →
          (k = .setDelay ∨ k = .resume → ∀ fix, t.phase ≠ .joining fix) →
          (k = .trimDelay → ∀ fix d n, t.phase = .active fix d n → d.trimPending = none) →
          (k = .retune → ∀ fix target, t.phase ≠ .retuning fix target) →
          (k = .dismiss → t.phase.isDismissing = false ∧ t.phase.isLost = false) →
          exec (.finalHandOutEvent c k h) s = .next s0))

/-- A void event takes the handle out of one channel's range work (R48); roster events keep the announced roster and
send their record, a join for a handle 1..511 alone (R62; log entry 5). The out-queue reports make a kind owed: a
discarded one on an entry homed on the channel in the state that still wants it, and it is dropped in any other (R31,
R32, R66, R149); an evicted or not taken one whatever the state of the entry, which is the model's reading (log entry
11), but for a DISMISS of a DISMISSING entry whose home channel is not UP and a TRIM DELAY outside ACTIVE with
trim-pending set, whose reports are dropped (R24, R69). A report for a handle that holds no entry, or a DAMAGED one, is
dropped. -/
def Obligations.ReportsVoidsAndRosterEvents : Prop :=
  (∀ (s : State) (e : Event), s.dropEvent e = { s with events := s.events.erase e }) ∧
  (∀ (g : Gap) (h : Handle), (g.names h = true ↔ ∃ seen, g.kind = .range h seen) ∧
    g.voidFor h = if g.names h then { g with kind := .voidRange } else g) ∧
  (∀ (o : Offer) (h : Handle), (o.names h = true ↔ o.kind = .range h) ∧
    o.voidFor h = if o.names h then { o with kind := .voidRange } else o) ∧
  (∀ (x : ChanState) (h : Handle), x.hasWork h = true ↔ h ∈ x.rangeQ ∨ (∃ o, x.offer = some o ∧ o.names h = true) ∨
    ∃ g ∈ x.gaps, g.names h = true) ∧
  (∀ (s : State) (h : Handle), (s.hasWork h = true ↔ ∃ c, (s.chan c).hasWork h = true) ∧
    s.voidAll h = { s with chans := s.chans.map fun x => { x with
      rangeQ := x.rangeQ.filter fun k => !(k == h)
      gaps := x.gaps.map (·.voidFor h)
      offer := x.offer.map (·.voidFor h) } }) ∧
  (∀ (s : State) (c : Chan) (h : Handle), s.rosterLeave c h = if h ∈ (s.chan c).roster
    then s.modChan c fun x => { x with roster := x.roster.filter fun k => !(k == h), tx := x.tx ++ [.rosterLeave h] }
    else s) ∧
  (∀ (s : State) (why : ReportCause) (c : Chan) (k : MsgKind) (h : Handle),
    exec (.outQueueReport why c k h) s = .next ((s.dropEvent (.report why c k h)).takeReport why c k h)) ∧
  ∀ (s : State) (c : Chan) (h : Handle),
    exec (.voidEvent c h) s = .next ((s.dropEvent (.void c h)).modChan c fun x => { x with
      rangeQ := x.rangeQ.filter fun k => !(k == h)
      gaps := x.gaps.map fun g => if g.names h then { g with kind := .voidRange } else g
      offer := x.offer.map fun o => if o.names h then { o with kind := .voidRange } else o }) ∧
    (s.isUp c = true → h ∉ (s.chan c).roster → 1 ≤ h → h ≤ 511 → exec (.rosterJoinEvent c h) s =
      .next ((s.dropEvent (.rosterJoin c h)).modChan c fun x => { x with
        roster := x.roster ++ [h], tx := x.tx ++ [.rosterJoin h] })) ∧
    (s.isUp c = false ∨ h ∈ (s.chan c).roster ∨ h = 0 ∨ 511 < h → exec (.rosterJoinEvent c h) s =
      .next (s.dropEvent (.rosterJoin c h))) ∧
    (h ∈ (s.chan c).roster → exec (.rosterLeaveEvent c h) s =
      .next ((s.dropEvent (.rosterLeave c h)).modChan c fun x => { x with
        roster := x.roster.filter fun k => !(k == h), tx := x.tx ++ [.rosterLeave h] })) ∧
    (h ∉ (s.chan c).roster → exec (.rosterLeaveEvent c h) s = .next (s.dropEvent (.rosterLeave c h))) ∧
    ∀ (k : MsgKind) (why : ReportCause), HandleLaw s →
      (s.term h = none → exec (.outQueueReport why c k h) s = .next (s.dropEvent (.report why c k h))) ∧
      ∀ t, s.term h = some t →
        (why ≠ .discarded →
          (k ≠ .trimDelay → k ≠ .dismiss ∨ t.phase.isDismissing = false ∨ s.isUp t.home = true →
            exec (.outQueueReport why c k h) s = .next ((s.dropEvent (.report why c k h)).modTerm h fun u => { u with
              owed := (u.owed.dropFor k).add k })) ∧
          (t.phase.isDismissing = true → s.isUp t.home = false →
            exec (.outQueueReport why c .dismiss h) s = .next (s.dropEvent (.report why c .dismiss h))) ∧
          (∀ fix d n ch, t.phase = .active fix d n → d.trimPending = some ch →
            exec (.outQueueReport why c .trimDelay h) s =
              .next ((s.dropEvent (.report why c .trimDelay h)).modTerm h fun u => { u with
                owed := { u.owed with trim := some ch } })) ∧
          ((∀ fix d n, t.phase = .active fix d n → d.trimPending = none) →
            exec (.outQueueReport why c .trimDelay h) s = .next (s.dropEvent (.report why c .trimDelay h)))) ∧
        ∀ wanted : Prop, (wanted ↔ t.home = c ∧ (k = .enrol ∧ (∃ n f, t.phase = .enrolling n f) ∨
            k = .hush ∧ ((∃ n l f d, t.phase = .ranging n l f d) ∨ ∃ fix, t.phase = .hushed fix) ∨
            (k = .setDelay ∨ k = .resume) ∧ (∃ fix, t.phase = .joining fix) ∨
            k = .retune ∧ (∃ fix target, t.phase = .retuning fix target) ∨
            k = .dismiss ∧ ∃ f age, t.phase = .lost f age false)) →
          (wanted → exec (.outQueueReport .discarded c k h) s =
            .next ((s.dropEvent (.report .discarded c k h)).modTerm h fun u => { u with
              owed := (u.owed.dropFor k).add k })) ∧
          (¬wanted → exec (.outQueueReport .discarded c k h) s = .next (s.dropEvent (.report .discarded c k h)))

/-- A channel's exit from UP reads the entries homed on it and those moving toward it: a correctable flaw is repaired,
an uncorrectable one makes the entry DAMAGED (R33 to R35; which it reads: log entry 9). The exit clears the samples of
its RANGING entries and the streaks of its ACTIVE ones, whose settle count starts anew, cancels the moves toward it,
whose entries are ACTIVE again on their home, and makes the freeing of its DISMISSING ones due (log entry 21); every
other entry stays as it is (R31, R32, R148, R149). A cancelled move's RETUNE leaves the owed set or, when it is not
owed, the source's out-queue; the handle joins the roster of a source that is UP, with its ROSTER JOIN sent, and
MOVE_FAILED (target down) is raised. That the entries are taken in handle order, which orders those records and
notices, is the model's choice (log entry 29). The first clauses give the whole next state, entry by entry; a read is
what EntryRequestsRefuseOtherHandles states. A trim-pending that the exit leaves is the trim change owed as the entry
is taken (R123); the DISMISS of an entry that becomes DAMAGED can then evict a message of it, whose report can take
that change out of the owed set (R24, R69), never another. -/
def Obligations.ChannelExitReachesItsEntries : Prop :=
  (∀ (s : State) (c : Chan) (h : Handle), s.rosterJoin c h =
    if s.isUp c = true ∧ h ∉ (s.chan c).roster ∧ 1 ≤ h ∧ h ≤ 511
    then s.modChan c fun x => { x with roster := x.roster ++ [h], tx := x.tx ++ [.rosterJoin h] } else s) ∧
  (∀ (s : State) (c : Chan), exec (.channelExitEvent c) s = .next ((s.registry.map (·.handle)).foldl
    (fun (w : State) h =>
      if (w.term h).any fun t => decide (t.home = c) || match t.phase with
        | .retuning _ target => decide (target = c)
        | _ => false
      then match (w.readEntry h).term h with
        | none => w.readEntry h
        | some t => match t.phase with
          | .ranging .. => (w.readEntry h).modTerm h fun u => { u with phase := match u.phase with
            | .ranging n _ f d => .ranging n [] f d
            | p => p }
          | .active fix _ n => (w.readEntry h).modTerm h fun u => { u with
            phase := .active fix ⟨none, 2, u.owed.trim⟩ n }
          | .retuning fix target => if target = c
            then (((if t.owed.retune
                then (w.readEntry h).modTerm h fun u => { u with owed := { u.owed with retune := false } }
                else (w.readEntry h).modChan t.home fun x => { x with
                  outq := x.outq.filter fun m => !(m.msg.handle == h && m.msg.kind == .retune) }).modTerm h
              fun u => { u with moveFlag := false, phase := .active fix ⟨none, 2, u.owed.trim⟩ 0 }).rosterJoin t.home
                h).raise ⟨.moveFailed, some h, some t.home, none, some 1⟩
            else w.readEntry h
          | .dismissing sent _ => (w.readEntry h).modTerm h fun u => { u with phase := .dismissing sent true }
          | _ => w.readEntry h
      else w)
    ({ s with events := s.events.erase (.channelExit c) } : State))) ∧
  (∀ (s : State) (c : Chan), HandleLaw s → ∃ s', exec (.channelExitEvent c) s = .next s' ∧
    (∀ h, s.term h = none → s'.entry h = s.entry h) ∧
    ∀ (h : Handle) (flaw : Flaw) (t : Terminal) (read : Bool), s.entry h = some ⟨h, flaw, some t⟩ →
      read = (decide (t.home = c) || match t.phase with | .retuning _ target => decide (target = c) | _ => false) →
      (read = true → flaw = .uncorrectable → s'.entry h = some ⟨h, .sound, none⟩) ∧
      (read = false → ∃ o, s'.entry h = some ⟨h, flaw, some { t with owed := o }⟩) ∧
      (read = true → flaw ≠ .uncorrectable → ∃ (o : Owed) (p : Option Int), (p = o.trim ∨ o.trim = none) ∧
        s'.sound h (match t.phase with
        | .ranging n _ f d => { t with owed := o, phase := .ranging n [] f d }
        | .active fix _ n => { t with owed := o, phase := .active fix ⟨none, 2, p⟩ n }
        | .retuning fix target =>
          if target = c then { t with owed := o, moveFlag := false, phase := .active fix ⟨none, 2, p⟩ 0 }
          else { t with owed := o }
        | .dismissing sent _ => { t with owed := o, phase := .dismissing sent true }
        | _ => { t with owed := o }))) ∧
  ∀ (s : State) (c : Chan) (moves : List (Handle × Terminal)) (new : List Notice), HandleLaw s → s.allSound →
    moves = s.registry.filterMap (fun e => e.term.bind fun t => match t.phase with
      | .retuning _ target => if target = c then some (e.handle, t) else none
      | _ => none) →
    new = moves.map (fun p => ⟨.moveFailed, some p.1, some p.2.home, none, some 1⟩) →
    ∃ s', exec (.channelExitEvent c) s = .next s' ∧
      s' = { s with
        events := s.events.erase (.channelExit c)
        registry := s'.registry
        chans := s'.chans
        notices := s'.notices
        overflow := s'.overflow } ∧
      (s.notices.length ≤ 64 → s'.notices = (s.notices ++ new).take 64 ∧
        s'.overflow = (s.overflow || decide (64 < s.notices.length + new.length))) ∧
      (∀ d joins, joins = (moves.filter fun p => decide (p.2.home = d) && s.isUp d &&
          !((s.chan d).roster.contains p.1)).map (·.1) →
        s'.chan d = { s.chan d with
          outq := (s.chan d).outq.filter fun m => !(m.msg.kind == .retune &&
            moves.any fun p => decide (p.2.home = d) && !p.2.owed.retune && m.msg.handle == p.1)
          roster := (s.chan d).roster ++ joins
          tx := (s.chan d).tx ++ joins.map TxRecord.rosterJoin }) ∧
      (∀ h, s.term h = none → s'.entry h = s.entry h) ∧
      ∀ h t, s.sound h t → s'.term h = some (match t.phase with
        | .ranging n smp f d => { t with phase := .ranging n (if t.home = c then [] else smp) f d }
        | .active fix d n => { t with
            phase := .active fix (if t.home = c then ⟨none, 2, t.owed.trim⟩ else d) n }
        | .retuning fix target =>
          if target = c then { t with
            owed := { t.owed with retune := false }
            moveFlag := false
            phase := .active fix ⟨none, 2, t.owed.trim⟩ 0 }
          else t
        | .dismissing sent due => { t with phase := .dismissing sent (due || decide (t.home = c)) }
        | _ => t)

/-! ## The presence scanner -/

/-- A scan expiry takes every entry in handle order: an ACTIVE one on an UP channel is counted for presence and lost at
M_lost, a LOST one ages and is freed past the retention, a DISMISSING one is freed once its DISMISS is sent, its
channel has left UP or is not UP as the scan comes (log entry 21), every heard flag is cleared and every other state
stays. Then the pending list ages, and then each link counts silence, channels 0 to 3 in number order (the model's
choice of order, log entry 22). Each entry is read with the store check first: a correctable flaw is repaired, an
uncorrectable one makes the entry DAMAGED, which takes no step, and the first flaw the record takes raises STORE_ERROR
at its entry's place (R33 to R36). LOST, FREED, PENDING_EXPIRED and CHANNEL_STATE are raised in that order (R44, R102,
R134 to R138, R140, R141). At its owed step an entry with its home channel UP offers the kinds owed as the step begins
(log entry 15) in the order HUSH, DISMISS, ENROL, SET DELAY, RESUME, TRIM DELAY, RETUNE, each composed from the entry
as it stands: a kind taken leaves the owed set, one not taken stays, and a message evicted for it becomes owed on its
own entry (R139). -/
def Obligations.ScanExpiryWalksTheRegistry : Prop :=
  (∀ (s : State) (caught : Option FirstError) (new : List Notice), s.running → HandleLaw s →
    caught = (if s.firstError = none then s.registry.findSome? (fun e => match e.term, e.flaw with
      | some _, .uncorrectable => some ⟨.uncorrectable, e.handle⟩
      | some _, .correctable => if s.tree.capture = .all then some ⟨.correctable, e.handle⟩ else none
      | _, _ => none) else none) →
    new = s.registry.flatMap (fun e =>
        ((caught.toList.filter fun r => r.handle == e.handle).map fun r =>
          ⟨.storeError, some e.handle, none, none, some (if r.kind = .correctable then 1 else 2)⟩) ++
        match if e.flaw = .uncorrectable then none else e.term with
        | none => []
        | some t => match t.phase with
          | .active _ _ missed => if s.isUp t.home && !t.heard && decide (s.tree.mLost ≤ missed + 1)
              then [⟨.lost, some e.handle, some t.home, some t.mark, none⟩] else []
          | .lost _ age _ => if s.tree.retention ≤ age then [⟨.freed, some e.handle, none, some t.mark, none⟩] else []
          | .dismissing sent due => if sent || due || !s.isUp t.home
              then [⟨.freed, some e.handle, none, some t.mark, none⟩] else []
          | _ => []) ++
      (s.waiting.filter fun i => decide (s.tree.aHold ≤ i.age + 1)).map
        (fun i => ⟨.pendingExpired, none, none, some i.mark, none⟩) ++
      [Chan.c0, .c1, .c2, .c3].flatMap (fun c =>
        if (s.chan c).cycleSeen = false ∧ 1 ≤ (s.chan c).silence then
          match (s.chan c).link with
          | .aligning .. => [⟨.channelState, none, some c, none, some 0⟩]
          | .up _ => (if (s.chan c).quietPending then [⟨.censusQuiet, none, some c, none, none⟩] else []) ++
              [⟨.channelState, none, some c, none, some 0⟩]
          | _ => []
        else []) →
    ∃ s', exec .scanExpiry s = .next s' ∧ s'.prescaler = 0 ∧
      s' = [Chan.c0, .c1, .c2, .c3].foldl (fun (w : State) c => w.countSilence c)
        ((s.registry.map Entry.handle).foldl
          (fun (w : State) h => (((w.readEntry h).stateStep h).owedStep h).heardStep h)
          { s with prescaler := 0 }).ageWaiting ∧
      (s.notices.length ≤ 64 → s'.notices = (s.notices ++ new).take 64 ∧
        s'.overflow = (s.overflow || decide (64 < s.notices.length + new.length))) ∧
      s'.waiting = (s.waiting.map fun i => { i with age := i.age + 1 }).filter (fun i => decide (i.age < s.tree.aHold)) ∧
      s'.table = s.table ∧ s'.tree = s.tree ∧ s'.firstError = (if caught = none then s.firstError else caught) ∧
      (∀ h, s.term h = none → s'.entry h = s.entry h) ∧
      (∀ h t, s.entry h = some ⟨h, .uncorrectable, some t⟩ →
        s'.entry h = some ⟨h, .sound, none⟩ ∧ h ∉ s'.retention) ∧
      (∀ h t flaw, s.entry h = some ⟨h, flaw, some t⟩ → flaw ≠ .uncorrectable → ∃ o : Owed,
        match t.phase with
        | .active fix d missed =>
          (s.isUp t.home = false → s'.sound h { t with heard := false, owed := o }) ∧
          (s.isUp t.home = true → t.heard = true →
            s'.sound h { t with heard := false, owed := o, phase := .active fix d 0 }) ∧
          (s.isUp t.home = true → t.heard = false → missed + 1 < s.tree.mLost →
            s'.sound h { t with heard := false, owed := o, phase := .active fix d (missed + 1) }) ∧
          (s.isUp t.home = true → t.heard = false → s.tree.mLost ≤ missed + 1 →
            s'.sound h { t with
              heard := false, owed := o, moveFlag := false, phase := .lost (some fix.final) 0 false } ∧
            h ∈ s'.retention)
        | .lost f age sent =>
          (age < s.tree.retention →
            s'.sound h { t with heard := false, owed := o, phase := .lost f (age + 1) sent }) ∧
          (s.tree.retention ≤ age → s'.entry h = none ∧ h ∉ s'.retention)
        | .dismissing sent due =>
          (sent = true ∨ due = true ∨ s.isUp t.home = false → s'.entry h = none) ∧
          (sent = false → due = false → s.isUp t.home = true →
            s'.sound h { t with heard := false, owed := o })
        | _ => s'.sound h { t with heard := false, owed := o }) ∧
      ∀ c, match (s.chan c).link with
        | .down => (s'.chan c).link = .down ∧ (s'.chan c).silence = (s.chan c).silence
        | .mismatched => (s'.chan c).link = .mismatched ∧ (s'.chan c).silence = (s.chan c).silence
        | l =>
          ((s.chan c).cycleSeen = true →
            (s'.chan c).link = l ∧ (s'.chan c).silence = 0 ∧ (s'.chan c).cycleSeen = false) ∧
          ((s.chan c).cycleSeen = false → (s.chan c).silence = 0 →
            (s'.chan c).link = l ∧ (s'.chan c).silence = 1 ∧ (s'.chan c).cycleSeen = false) ∧
          ((s.chan c).cycleSeen = false → 1 ≤ (s.chan c).silence →
            (s'.chan c).link = .down ∧ (s'.chan c).silence = 0)) ∧
  (∀ (o : Owed) (k : MsgKind), o.has k = (match k with
      | .enrol => o.enrol
      | .setDelay => o.setDelay
      | .trimDelay => o.trim.isSome
      | .hush => o.hush
      | .resume => o.resume
      | .retune => o.retune
      | .dismiss => o.dismiss) ∧
    o.remove k = match k with
      | .enrol => { o with enrol := false }
      | .setDelay => { o with setDelay := false }
      | .trimDelay => { o with trim := none }
      | .hush => { o with hush := false }
      | .resume => { o with resume := false }
      | .retune => { o with retune := false }
      | .dismiss => { o with dismiss := false }) ∧
  ∀ (s : State) (h : Handle) (t : Terminal), s.term h = some t →
    (s.isUp t.home = false → s.owedStep h = s) ∧
    (s.isUp t.home = true → s.owedStep h = ([MsgKind.hush, .dismiss, .enrol, .setDelay, .resume, .trimDelay,
      .retune].filter fun k => t.owed.has k).foldl (fun w k => w.offerOwed h k) s) ∧
    ∀ (k : MsgKind) (m : TreeMsg) (q : List QMsg) (n : QMsg), s.isUp t.home = true →
      (match k with
        | .hush => m = .hush h
        | .dismiss => m = .dismiss h
        | .enrol => m = .enrol h t.mark
        | .setDelay => ∃ d, t.phase.fill = some d ∧ m = .setDelay h d
        | .resume => m = .resume h
        | .trimDelay => ∃ ch, t.owed.trim = some ch ∧ m = .trimDelay h ch
        | .retune => ∃ fix target, t.phase = .retuning fix target ∧ m = .retune h target) →
      q = (s.chan t.home).outq.filter (fun x => !(x.msg.handle == h && supersedes k x.msg.kind)) →
      n = ⟨m, isUrgentKind k, repeatsOf s.tree.r k, true⟩ →
      ((∃ x ∈ q, x.msg.kind = k ∧ x.msg.handle = h) → s.offerOwed h k =
        (s.modTerm h fun u => { u with owed := u.owed.remove k }).modChan t.home fun y => { y with
          outq := q.map fun x => if x.msg.kind = k ∧ x.msg.handle = h then n else x }) ∧
      ((∀ x ∈ q, ¬(x.msg.kind = k ∧ x.msg.handle = h)) →
        (q.length < 48 → s.offerOwed h k =
          (s.modTerm h fun u => { u with owed := u.owed.remove k }).modChan t.home fun y => { y with
            outq := q ++ [n] }) ∧
        (48 ≤ q.length → isUrgentKind k = false ∨ (∀ x ∈ q, x.urgent = true) →
          s.offerOwed h k = s.modChan t.home fun y => { y with outq := q }) ∧
        ∀ a v b, 48 ≤ q.length → isUrgentKind k = true → q = a ++ v :: b → v.urgent = false →
          (∀ x ∈ b, x.urgent = true) → s.offerOwed h k =
            ((s.modChan t.home fun y => { y with outq := a ++ b ++ [n] }).takeReport .evicted t.home v.msg.kind
              v.msg.handle).modTerm h fun u => { u with owed := u.owed.remove k })

/-- The loss of an unheard ACTIVE entry at M_lost, the freeing of a LOST entry past the retention, and the expiry of a
pending item at A_hold, each of which a scan takes (R102, R135, R136, R137). Each acts on what the read of its entry
left (R33 to R35). That each is a command by itself is the model's choice (log entry 3). -/
def Obligations.LossRetentionAndPendingExpire : Prop :=
  ∀ s : State, s.running →
    (∀ h, exec (.lost h) s = exec (.lost h) (s.readEntry h) ∧
      exec (.retentionExpiry h) s = exec (.retentionExpiry h) (s.readEntry h)) ∧
    (∀ h t, s.sound h t →
      (∀ fix d n, t.phase = .active fix d n → s.isUp t.home = true → t.heard = false → s.tree.mLost ≤ n + 1 →
        exec (.lost h) s = .next ((s.enterLost h).raise (Notice.lost h t.home t.mark))) ∧
      (∀ fix d n, t.phase = .active fix d n → s.isUp t.home = false ∨ t.heard = true ∨ n + 1 < s.tree.mLost →
        exec (.lost h) s = .next s) ∧
      (t.phase.isActive = false → exec (.lost h) s = .next s) ∧
      (∀ f age sent, t.phase = .lost f age sent →
        (s.tree.retention ≤ age → exec (.retentionExpiry h) s = .next (s.freeEntry h true)) ∧
        (age < s.tree.retention → exec (.retentionExpiry h) s = .next s)) ∧
      (t.phase.isLost = false → exec (.retentionExpiry h) s = .next s)) ∧
    (∀ h, s.term h = none → exec (.lost h) s = .next s ∧ exec (.retentionExpiry h) s = .next s) ∧
    ∀ m, ((∀ i ∈ s.waiting, i.mark ≠ m) → exec (.pendingExpired m) s = .next s) ∧
      ∀ i, s.waitingItem m = some i →
        (i.age + 1 < s.tree.aHold → exec (.pendingExpired m) s = .next s) ∧
        (s.tree.aHold ≤ i.age + 1 → exec (.pendingExpired m) s = .next (({ s with
          waiting := s.waiting.filter fun j => !(j.mark == m)
          pendingFullLatch := false } : State).raise (Notice.pendingExpired m)))
end

