-- ==== Sys2Proof/Laws/Bytes.lean ====
section
/-! SUPPORT. Numbers in bytes: what `natBytes` writes, `bytesNat` and `fieldOf` read back. -/

namespace Sys2Proof.Machine

@[simp] theorem natBytes_length (n v : Nat) : (natBytes n v).length = n := by
  induction n generalizing v with
  | zero => rfl
  | succ n ih => simp [natBytes, ih]

theorem bytesNat_append_one (l : List Byte) (b : Byte) : bytesNat (l ++ [b]) = bytesNat l * 256 + b.toNat := by
  simp [bytesNat]

/-- A number that fits its bytes is read back as written. -/
theorem bytesNat_natBytes (n v : Nat) (h : v < 256 ^ n) : bytesNat (natBytes n v) = v := by
  induction n generalizing v with
  | zero =>
    have : v = 0 := by simpa using h
    subst this; rfl
  | succ n ih =>
    rw [natBytes, bytesNat_append_one, ih (v / 256) (by rw [Nat.div_lt_iff_lt_mul (by decide)]; rw [pow_succ] at h; exact h)]
    rw [BitVec.toNat_ofNat]
    exact Nat.div_add_mod' v 256

/-- A field is read from its place in a body: behind `front`, before `rest`. -/
theorem fieldOf_append {w n v i : Nat} {front rest : List Byte} (hi : front.length = i) (h : v < 256 ^ n) :
    fieldOf w (front ++ (natBytes n v ++ rest)) i n = BitVec.ofNat w v := by
  unfold fieldOf
  rw [List.drop_append_of_le_length (le_of_eq hi.symm), List.drop_of_length_le (le_of_eq hi), List.nil_append,
    List.take_append_of_le_length (by simp), List.take_of_length_le (by simp), bytesNat_natBytes n v h]

/-- A byte is read from its place in a body. -/
theorem fieldOf_byte {i : Nat} {front rest : List Byte} {b : Byte} (hi : front.length = i) :
    fieldOf 8 (front ++ b :: rest) i 1 = b := by
  unfold fieldOf
  rw [List.drop_append_of_le_length (le_of_eq hi.symm), List.drop_of_length_le (le_of_eq hi), List.nil_append]
  simp [bytesNat]

end Sys2Proof.Machine
end

