-- ==== Sys2Proof/Laws/State.lean ====
section
/-! SUPPORT. What each small update of the state leaves in each field: one lemma per field per update, true by
`rfl`, so that no later proof unfolds a record update. -/

namespace Sys2Proof.Machine

/-! ## One channel's part -/

@[simp] theorem State.chan_modChan_same (s : State) (c : Chan) (f : ChanState → ChanState) :
    (s.modChan c f).chan c = f (s.chan c) := by simp [State.chan, State.modChan]

theorem State.chan_modChan_ne (s : State) {c d : Chan} (h : d ≠ c) (f : ChanState → ChanState) :
    (s.modChan c f).chan d = s.chan d := PerChan.get_set_of_ne s.chans h _

@[simp] theorem State.chan_modChans (s : State) (c : Chan) (f : ChanState → ChanState) :
    (s.modChans f).chan c = f (s.chan c) := by simp [State.chan, State.modChans]

theorem State.chan_modChan (s : State) (c d : Chan) (f : ChanState → ChanState) :
    (s.modChan c f).chan d = if d = c then f (s.chan c) else s.chan d := by
  by_cases h : d = c
  · subst h; simp
  · simp [h, State.chan_modChan_ne]

/-! ## modChan, modChans -/

@[simp] theorem State.modChan_pending (s : State) (c : Chan) (f : ChanState → ChanState) :
    (s.modChan c f).pending = s.pending := rfl
@[simp] theorem State.modChan_events (s : State) (c : Chan) (f : ChanState → ChanState) :
    (s.modChan c f).events = s.events := rfl
@[simp] theorem State.modChan_pins (s : State) (c : Chan) (f : ChanState → ChanState) :
    (s.modChan c f).pins = s.pins := rfl
@[simp] theorem State.modChan_prescaler (s : State) (c : Chan) (f : ChanState → ChanState) :
    (s.modChan c f).prescaler = s.prescaler := rfl
@[simp] theorem State.modChan_tree (s : State) (c : Chan) (f : ChanState → ChanState) :
    (s.modChan c f).tree = s.tree := rfl
@[simp] theorem State.modChan_registry (s : State) (c : Chan) (f : ChanState → ChanState) :
    (s.modChan c f).registry = s.registry := rfl
@[simp] theorem State.modChan_retention (s : State) (c : Chan) (f : ChanState → ChanState) :
    (s.modChan c f).retention = s.retention := rfl
@[simp] theorem State.modChan_fullLatch (s : State) (c : Chan) (f : ChanState → ChanState) :
    (s.modChan c f).fullLatch = s.fullLatch := rfl
@[simp] theorem State.modChan_firstError (s : State) (c : Chan) (f : ChanState → ChanState) :
    (s.modChan c f).firstError = s.firstError := rfl
@[simp] theorem State.modChan_table (s : State) (c : Chan) (f : ChanState → ChanState) :
    (s.modChan c f).table = s.table := rfl
@[simp] theorem State.modChan_waiting (s : State) (c : Chan) (f : ChanState → ChanState) :
    (s.modChan c f).waiting = s.waiting := rfl
@[simp] theorem State.modChan_pendingFullLatch (s : State) (c : Chan) (f : ChanState → ChanState) :
    (s.modChan c f).pendingFullLatch = s.pendingFullLatch := rfl
@[simp] theorem State.modChan_notices (s : State) (c : Chan) (f : ChanState → ChanState) :
    (s.modChan c f).notices = s.notices := rfl
@[simp] theorem State.modChan_overflow (s : State) (c : Chan) (f : ChanState → ChanState) :
    (s.modChan c f).overflow = s.overflow := rfl
@[simp] theorem State.modChan_port (s : State) (c : Chan) (f : ChanState → ChanState) :
    (s.modChan c f).port = s.port := rfl

@[simp] theorem State.modChans_pending (s : State) (f : ChanState → ChanState) :
    (s.modChans f).pending = s.pending := rfl
@[simp] theorem State.modChans_events (s : State) (f : ChanState → ChanState) :
    (s.modChans f).events = s.events := rfl
@[simp] theorem State.modChans_pins (s : State) (f : ChanState → ChanState) :
    (s.modChans f).pins = s.pins := rfl
@[simp] theorem State.modChans_prescaler (s : State) (f : ChanState → ChanState) :
    (s.modChans f).prescaler = s.prescaler := rfl
@[simp] theorem State.modChans_tree (s : State) (f : ChanState → ChanState) :
    (s.modChans f).tree = s.tree := rfl
@[simp] theorem State.modChans_registry (s : State) (f : ChanState → ChanState) :
    (s.modChans f).registry = s.registry := rfl
@[simp] theorem State.modChans_retention (s : State) (f : ChanState → ChanState) :
    (s.modChans f).retention = s.retention := rfl
@[simp] theorem State.modChans_fullLatch (s : State) (f : ChanState → ChanState) :
    (s.modChans f).fullLatch = s.fullLatch := rfl
@[simp] theorem State.modChans_firstError (s : State) (f : ChanState → ChanState) :
    (s.modChans f).firstError = s.firstError := rfl
@[simp] theorem State.modChans_table (s : State) (f : ChanState → ChanState) :
    (s.modChans f).table = s.table := rfl
@[simp] theorem State.modChans_waiting (s : State) (f : ChanState → ChanState) :
    (s.modChans f).waiting = s.waiting := rfl
@[simp] theorem State.modChans_pendingFullLatch (s : State) (f : ChanState → ChanState) :
    (s.modChans f).pendingFullLatch = s.pendingFullLatch := rfl
@[simp] theorem State.modChans_notices (s : State) (f : ChanState → ChanState) :
    (s.modChans f).notices = s.notices := rfl
@[simp] theorem State.modChans_overflow (s : State) (f : ChanState → ChanState) :
    (s.modChans f).overflow = s.overflow := rfl
@[simp] theorem State.modChans_port (s : State) (f : ChanState → ChanState) :
    (s.modChans f).port = s.port := rfl

/-! ## send, bump: updates of one channel's part -/

@[simp] theorem State.send_pending (s : State) (c : Chan) (r : TxRecord) :
    (s.send c r).pending = s.pending := rfl
@[simp] theorem State.send_events (s : State) (c : Chan) (r : TxRecord) :
    (s.send c r).events = s.events := rfl
@[simp] theorem State.send_pins (s : State) (c : Chan) (r : TxRecord) :
    (s.send c r).pins = s.pins := rfl
@[simp] theorem State.send_prescaler (s : State) (c : Chan) (r : TxRecord) :
    (s.send c r).prescaler = s.prescaler := rfl
@[simp] theorem State.send_tree (s : State) (c : Chan) (r : TxRecord) :
    (s.send c r).tree = s.tree := rfl
@[simp] theorem State.send_registry (s : State) (c : Chan) (r : TxRecord) :
    (s.send c r).registry = s.registry := rfl
@[simp] theorem State.send_retention (s : State) (c : Chan) (r : TxRecord) :
    (s.send c r).retention = s.retention := rfl
@[simp] theorem State.send_fullLatch (s : State) (c : Chan) (r : TxRecord) :
    (s.send c r).fullLatch = s.fullLatch := rfl
@[simp] theorem State.send_firstError (s : State) (c : Chan) (r : TxRecord) :
    (s.send c r).firstError = s.firstError := rfl
@[simp] theorem State.send_table (s : State) (c : Chan) (r : TxRecord) :
    (s.send c r).table = s.table := rfl
@[simp] theorem State.send_waiting (s : State) (c : Chan) (r : TxRecord) :
    (s.send c r).waiting = s.waiting := rfl
@[simp] theorem State.send_pendingFullLatch (s : State) (c : Chan) (r : TxRecord) :
    (s.send c r).pendingFullLatch = s.pendingFullLatch := rfl
@[simp] theorem State.send_notices (s : State) (c : Chan) (r : TxRecord) :
    (s.send c r).notices = s.notices := rfl
@[simp] theorem State.send_overflow (s : State) (c : Chan) (r : TxRecord) :
    (s.send c r).overflow = s.overflow := rfl
@[simp] theorem State.send_port (s : State) (c : Chan) (r : TxRecord) :
    (s.send c r).port = s.port := rfl

@[simp] theorem State.bump_pending (s : State) (c : Chan) (k : TallyKind) :
    (s.bump c k).pending = s.pending := rfl
@[simp] theorem State.bump_events (s : State) (c : Chan) (k : TallyKind) :
    (s.bump c k).events = s.events := rfl
@[simp] theorem State.bump_pins (s : State) (c : Chan) (k : TallyKind) :
    (s.bump c k).pins = s.pins := rfl
@[simp] theorem State.bump_prescaler (s : State) (c : Chan) (k : TallyKind) :
    (s.bump c k).prescaler = s.prescaler := rfl
@[simp] theorem State.bump_tree (s : State) (c : Chan) (k : TallyKind) :
    (s.bump c k).tree = s.tree := rfl
@[simp] theorem State.bump_registry (s : State) (c : Chan) (k : TallyKind) :
    (s.bump c k).registry = s.registry := rfl
@[simp] theorem State.bump_retention (s : State) (c : Chan) (k : TallyKind) :
    (s.bump c k).retention = s.retention := rfl
@[simp] theorem State.bump_fullLatch (s : State) (c : Chan) (k : TallyKind) :
    (s.bump c k).fullLatch = s.fullLatch := rfl
@[simp] theorem State.bump_firstError (s : State) (c : Chan) (k : TallyKind) :
    (s.bump c k).firstError = s.firstError := rfl
@[simp] theorem State.bump_table (s : State) (c : Chan) (k : TallyKind) :
    (s.bump c k).table = s.table := rfl
@[simp] theorem State.bump_waiting (s : State) (c : Chan) (k : TallyKind) :
    (s.bump c k).waiting = s.waiting := rfl
@[simp] theorem State.bump_pendingFullLatch (s : State) (c : Chan) (k : TallyKind) :
    (s.bump c k).pendingFullLatch = s.pendingFullLatch := rfl
@[simp] theorem State.bump_notices (s : State) (c : Chan) (k : TallyKind) :
    (s.bump c k).notices = s.notices := rfl
@[simp] theorem State.bump_overflow (s : State) (c : Chan) (k : TallyKind) :
    (s.bump c k).overflow = s.overflow := rfl
@[simp] theorem State.bump_port (s : State) (c : Chan) (k : TallyKind) :
    (s.bump c k).port = s.port := rfl

/-! ## modTerm, setEntry: updates of the registry -/

@[simp] theorem State.modTerm_pending (s : State) (h : Handle) (f : Terminal → Terminal) :
    (s.modTerm h f).pending = s.pending := rfl
@[simp] theorem State.modTerm_events (s : State) (h : Handle) (f : Terminal → Terminal) :
    (s.modTerm h f).events = s.events := rfl
@[simp] theorem State.modTerm_pins (s : State) (h : Handle) (f : Terminal → Terminal) :
    (s.modTerm h f).pins = s.pins := rfl
@[simp] theorem State.modTerm_prescaler (s : State) (h : Handle) (f : Terminal → Terminal) :
    (s.modTerm h f).prescaler = s.prescaler := rfl
@[simp] theorem State.modTerm_tree (s : State) (h : Handle) (f : Terminal → Terminal) :
    (s.modTerm h f).tree = s.tree := rfl
@[simp] theorem State.modTerm_chans (s : State) (h : Handle) (f : Terminal → Terminal) :
    (s.modTerm h f).chans = s.chans := rfl
@[simp] theorem State.modTerm_retention (s : State) (h : Handle) (f : Terminal → Terminal) :
    (s.modTerm h f).retention = s.retention := rfl
@[simp] theorem State.modTerm_fullLatch (s : State) (h : Handle) (f : Terminal → Terminal) :
    (s.modTerm h f).fullLatch = s.fullLatch := rfl
@[simp] theorem State.modTerm_firstError (s : State) (h : Handle) (f : Terminal → Terminal) :
    (s.modTerm h f).firstError = s.firstError := rfl
@[simp] theorem State.modTerm_table (s : State) (h : Handle) (f : Terminal → Terminal) :
    (s.modTerm h f).table = s.table := rfl
@[simp] theorem State.modTerm_waiting (s : State) (h : Handle) (f : Terminal → Terminal) :
    (s.modTerm h f).waiting = s.waiting := rfl
@[simp] theorem State.modTerm_pendingFullLatch (s : State) (h : Handle) (f : Terminal → Terminal) :
    (s.modTerm h f).pendingFullLatch = s.pendingFullLatch := rfl
@[simp] theorem State.modTerm_notices (s : State) (h : Handle) (f : Terminal → Terminal) :
    (s.modTerm h f).notices = s.notices := rfl
@[simp] theorem State.modTerm_overflow (s : State) (h : Handle) (f : Terminal → Terminal) :
    (s.modTerm h f).overflow = s.overflow := rfl
@[simp] theorem State.modTerm_port (s : State) (h : Handle) (f : Terminal → Terminal) :
    (s.modTerm h f).port = s.port := rfl

@[simp] theorem State.setEntry_pending (s : State) (h : Handle) (e : Entry) :
    (s.setEntry h e).pending = s.pending := rfl
@[simp] theorem State.setEntry_events (s : State) (h : Handle) (e : Entry) :
    (s.setEntry h e).events = s.events := rfl
@[simp] theorem State.setEntry_pins (s : State) (h : Handle) (e : Entry) :
    (s.setEntry h e).pins = s.pins := rfl
@[simp] theorem State.setEntry_prescaler (s : State) (h : Handle) (e : Entry) :
    (s.setEntry h e).prescaler = s.prescaler := rfl
@[simp] theorem State.setEntry_tree (s : State) (h : Handle) (e : Entry) :
    (s.setEntry h e).tree = s.tree := rfl
@[simp] theorem State.setEntry_chans (s : State) (h : Handle) (e : Entry) :
    (s.setEntry h e).chans = s.chans := rfl
@[simp] theorem State.setEntry_retention (s : State) (h : Handle) (e : Entry) :
    (s.setEntry h e).retention = s.retention := rfl
@[simp] theorem State.setEntry_fullLatch (s : State) (h : Handle) (e : Entry) :
    (s.setEntry h e).fullLatch = s.fullLatch := rfl
@[simp] theorem State.setEntry_firstError (s : State) (h : Handle) (e : Entry) :
    (s.setEntry h e).firstError = s.firstError := rfl
@[simp] theorem State.setEntry_table (s : State) (h : Handle) (e : Entry) :
    (s.setEntry h e).table = s.table := rfl
@[simp] theorem State.setEntry_waiting (s : State) (h : Handle) (e : Entry) :
    (s.setEntry h e).waiting = s.waiting := rfl
@[simp] theorem State.setEntry_pendingFullLatch (s : State) (h : Handle) (e : Entry) :
    (s.setEntry h e).pendingFullLatch = s.pendingFullLatch := rfl
@[simp] theorem State.setEntry_notices (s : State) (h : Handle) (e : Entry) :
    (s.setEntry h e).notices = s.notices := rfl
@[simp] theorem State.setEntry_overflow (s : State) (h : Handle) (e : Entry) :
    (s.setEntry h e).overflow = s.overflow := rfl
@[simp] theorem State.setEntry_port (s : State) (h : Handle) (e : Entry) :
    (s.setEntry h e).port = s.port := rfl

@[simp] theorem State.chan_modTerm (s : State) (h : Handle) (f : Terminal → Terminal) (c : Chan) :
    (s.modTerm h f).chan c = s.chan c := rfl
@[simp] theorem State.chan_setEntry (s : State) (h : Handle) (e : Entry) (c : Chan) :
    (s.setEntry h e).chan c = s.chan c := rfl
@[simp] theorem State.isUp_modTerm (s : State) (h : Handle) (f : Terminal → Terminal) (c : Chan) :
    (s.modTerm h f).isUp c = s.isUp c := rfl

/-! ## dropEvent -/

@[simp] theorem State.dropEvent_pending (s : State) (e : Event) :
    (s.dropEvent e).pending = s.pending := rfl
@[simp] theorem State.dropEvent_pins (s : State) (e : Event) :
    (s.dropEvent e).pins = s.pins := rfl
@[simp] theorem State.dropEvent_prescaler (s : State) (e : Event) :
    (s.dropEvent e).prescaler = s.prescaler := rfl
@[simp] theorem State.dropEvent_tree (s : State) (e : Event) :
    (s.dropEvent e).tree = s.tree := rfl
@[simp] theorem State.dropEvent_chans (s : State) (e : Event) :
    (s.dropEvent e).chans = s.chans := rfl
@[simp] theorem State.dropEvent_registry (s : State) (e : Event) :
    (s.dropEvent e).registry = s.registry := rfl
@[simp] theorem State.dropEvent_retention (s : State) (e : Event) :
    (s.dropEvent e).retention = s.retention := rfl
@[simp] theorem State.dropEvent_fullLatch (s : State) (e : Event) :
    (s.dropEvent e).fullLatch = s.fullLatch := rfl
@[simp] theorem State.dropEvent_firstError (s : State) (e : Event) :
    (s.dropEvent e).firstError = s.firstError := rfl
@[simp] theorem State.dropEvent_table (s : State) (e : Event) :
    (s.dropEvent e).table = s.table := rfl
@[simp] theorem State.dropEvent_waiting (s : State) (e : Event) :
    (s.dropEvent e).waiting = s.waiting := rfl
@[simp] theorem State.dropEvent_pendingFullLatch (s : State) (e : Event) :
    (s.dropEvent e).pendingFullLatch = s.pendingFullLatch := rfl
@[simp] theorem State.dropEvent_notices (s : State) (e : Event) :
    (s.dropEvent e).notices = s.notices := rfl
@[simp] theorem State.dropEvent_overflow (s : State) (e : Event) :
    (s.dropEvent e).overflow = s.overflow := rfl
@[simp] theorem State.dropEvent_port (s : State) (e : Event) :
    (s.dropEvent e).port = s.port := rfl

/-! ## voidAll, takeVoid -/

@[simp] theorem State.voidAll_pending (s : State) (h : Handle) :
    (s.voidAll h).pending = s.pending := rfl
@[simp] theorem State.voidAll_events (s : State) (h : Handle) :
    (s.voidAll h).events = s.events := rfl
@[simp] theorem State.voidAll_pins (s : State) (h : Handle) :
    (s.voidAll h).pins = s.pins := rfl
@[simp] theorem State.voidAll_prescaler (s : State) (h : Handle) :
    (s.voidAll h).prescaler = s.prescaler := rfl
@[simp] theorem State.voidAll_tree (s : State) (h : Handle) :
    (s.voidAll h).tree = s.tree := rfl
@[simp] theorem State.voidAll_registry (s : State) (h : Handle) :
    (s.voidAll h).registry = s.registry := rfl
@[simp] theorem State.voidAll_retention (s : State) (h : Handle) :
    (s.voidAll h).retention = s.retention := rfl
@[simp] theorem State.voidAll_fullLatch (s : State) (h : Handle) :
    (s.voidAll h).fullLatch = s.fullLatch := rfl
@[simp] theorem State.voidAll_firstError (s : State) (h : Handle) :
    (s.voidAll h).firstError = s.firstError := rfl
@[simp] theorem State.voidAll_table (s : State) (h : Handle) :
    (s.voidAll h).table = s.table := rfl
@[simp] theorem State.voidAll_waiting (s : State) (h : Handle) :
    (s.voidAll h).waiting = s.waiting := rfl
@[simp] theorem State.voidAll_pendingFullLatch (s : State) (h : Handle) :
    (s.voidAll h).pendingFullLatch = s.pendingFullLatch := rfl
@[simp] theorem State.voidAll_notices (s : State) (h : Handle) :
    (s.voidAll h).notices = s.notices := rfl
@[simp] theorem State.voidAll_overflow (s : State) (h : Handle) :
    (s.voidAll h).overflow = s.overflow := rfl
@[simp] theorem State.voidAll_port (s : State) (h : Handle) :
    (s.voidAll h).port = s.port := rfl

/-! ## raise: a notice touches the notice queue and the overflow flag alone -/

@[simp] theorem State.raise_pending (s : State) (n : Notice) :
    (s.raise n).pending = s.pending := by unfold State.raise; split <;> rfl
@[simp] theorem State.raise_events (s : State) (n : Notice) :
    (s.raise n).events = s.events := by unfold State.raise; split <;> rfl
@[simp] theorem State.raise_pins (s : State) (n : Notice) :
    (s.raise n).pins = s.pins := by unfold State.raise; split <;> rfl
@[simp] theorem State.raise_prescaler (s : State) (n : Notice) :
    (s.raise n).prescaler = s.prescaler := by unfold State.raise; split <;> rfl
@[simp] theorem State.raise_tree (s : State) (n : Notice) :
    (s.raise n).tree = s.tree := by unfold State.raise; split <;> rfl
@[simp] theorem State.raise_chans (s : State) (n : Notice) :
    (s.raise n).chans = s.chans := by unfold State.raise; split <;> rfl
@[simp] theorem State.raise_registry (s : State) (n : Notice) :
    (s.raise n).registry = s.registry := by unfold State.raise; split <;> rfl
@[simp] theorem State.raise_retention (s : State) (n : Notice) :
    (s.raise n).retention = s.retention := by unfold State.raise; split <;> rfl
@[simp] theorem State.raise_fullLatch (s : State) (n : Notice) :
    (s.raise n).fullLatch = s.fullLatch := by unfold State.raise; split <;> rfl
@[simp] theorem State.raise_firstError (s : State) (n : Notice) :
    (s.raise n).firstError = s.firstError := by unfold State.raise; split <;> rfl
@[simp] theorem State.raise_table (s : State) (n : Notice) :
    (s.raise n).table = s.table := by unfold State.raise; split <;> rfl
@[simp] theorem State.raise_waiting (s : State) (n : Notice) :
    (s.raise n).waiting = s.waiting := by unfold State.raise; split <;> rfl
@[simp] theorem State.raise_pendingFullLatch (s : State) (n : Notice) :
    (s.raise n).pendingFullLatch = s.pendingFullLatch := by unfold State.raise; split <;> rfl
@[simp] theorem State.raise_port (s : State) (n : Notice) :
    (s.raise n).port = s.port := by unfold State.raise; split <;> rfl
@[simp] theorem State.chan_raise (s : State) (n : Notice) (c : Chan) : (s.raise n).chan c = s.chan c := by
  simp [State.chan]
@[simp] theorem State.isUp_raise (s : State) (n : Notice) (c : Chan) : (s.raise n).isUp c = s.isUp c := by
  simp [State.isUp]

/-! ## Fields of one channel after send and bump -/

@[simp] theorem State.chan_send_same (s : State) (c : Chan) (r : TxRecord) :
    (s.send c r).chan c = { s.chan c with tx := (s.chan c).tx ++ [r] } := by simp [State.send]
theorem State.chan_send_ne (s : State) {c d : Chan} (h : d ≠ c) (r : TxRecord) :
    (s.send c r).chan d = s.chan d := State.chan_modChan_ne s h _
theorem State.chan_bump_same (s : State) (c : Chan) (k : TallyKind) :
    (s.bump c k).chan c =
      { s.chan c with tallies := (s.chan c).tallies.set k.idx (satSucc ((s.chan c).tally k)) } := by
  simp [State.bump]
theorem State.chan_bump_ne (s : State) {c d : Chan} (h : d ≠ c) (k : TallyKind) :
    (s.bump c k).chan d = s.chan d := State.chan_modChan_ne s h _

@[simp] theorem State.bump_chan_link (s : State) (c d : Chan) (k : TallyKind) :
    ((s.bump c k).chan d).link = (s.chan d).link := by
  unfold State.bump; rw [State.chan_modChan]; split <;> simp_all
@[simp] theorem State.bump_chan_silence (s : State) (c d : Chan) (k : TallyKind) :
    ((s.bump c k).chan d).silence = (s.chan d).silence := by
  unfold State.bump; rw [State.chan_modChan]; split <;> simp_all
@[simp] theorem State.bump_chan_cycleSeen (s : State) (c d : Chan) (k : TallyKind) :
    ((s.bump c k).chan d).cycleSeen = (s.chan d).cycleSeen := by
  unfold State.bump; rw [State.chan_modChan]; split <;> simp_all
@[simp] theorem State.bump_chan_roster (s : State) (c d : Chan) (k : TallyKind) :
    ((s.bump c k).chan d).roster = (s.chan d).roster := by
  unfold State.bump; rw [State.chan_modChan]; split <;> simp_all
@[simp] theorem State.bump_chan_offer (s : State) (c d : Chan) (k : TallyKind) :
    ((s.bump c k).chan d).offer = (s.chan d).offer := by
  unfold State.bump; rw [State.chan_modChan]; split <;> simp_all
@[simp] theorem State.bump_chan_rangeQ (s : State) (c d : Chan) (k : TallyKind) :
    ((s.bump c k).chan d).rangeQ = (s.chan d).rangeQ := by
  unfold State.bump; rw [State.chan_modChan]; split <;> simp_all
@[simp] theorem State.bump_chan_gaps (s : State) (c d : Chan) (k : TallyKind) :
    ((s.bump c k).chan d).gaps = (s.chan d).gaps := by
  unfold State.bump; rw [State.chan_modChan]; split <;> simp_all
@[simp] theorem State.bump_chan_lapsed (s : State) (c d : Chan) (k : TallyKind) :
    ((s.bump c k).chan d).lapsed = (s.chan d).lapsed := by
  unfold State.bump; rw [State.chan_modChan]; split <;> simp_all
@[simp] theorem State.bump_chan_tagCtr (s : State) (c d : Chan) (k : TallyKind) :
    ((s.bump c k).chan d).tagCtr = (s.chan d).tagCtr := by
  unfold State.bump; rw [State.chan_modChan]; split <;> simp_all
@[simp] theorem State.bump_chan_declineStreak (s : State) (c d : Chan) (k : TallyKind) :
    ((s.bump c k).chan d).declineStreak = (s.chan d).declineStreak := by
  unfold State.bump; rw [State.chan_modChan]; split <;> simp_all
@[simp] theorem State.bump_chan_starved (s : State) (c d : Chan) (k : TallyKind) :
    ((s.bump c k).chan d).starved = (s.chan d).starved := by
  unfold State.bump; rw [State.chan_modChan]; split <;> simp_all
@[simp] theorem State.bump_chan_due (s : State) (c d : Chan) (k : TallyKind) :
    ((s.bump c k).chan d).due = (s.chan d).due := by
  unfold State.bump; rw [State.chan_modChan]; split <;> simp_all
@[simp] theorem State.bump_chan_dueAge (s : State) (c d : Chan) (k : TallyKind) :
    ((s.bump c k).chan d).dueAge = (s.chan d).dueAge := by
  unfold State.bump; rw [State.chan_modChan]; split <;> simp_all
@[simp] theorem State.bump_chan_periodCtr (s : State) (c d : Chan) (k : TallyKind) :
    ((s.bump c k).chan d).periodCtr = (s.chan d).periodCtr := by
  unfold State.bump; rw [State.chan_modChan]; split <;> simp_all
@[simp] theorem State.bump_chan_quietPending (s : State) (c d : Chan) (k : TallyKind) :
    ((s.bump c k).chan d).quietPending = (s.chan d).quietPending := by
  unfold State.bump; rw [State.chan_modChan]; split <;> simp_all
@[simp] theorem State.bump_chan_mode (s : State) (c d : Chan) (k : TallyKind) :
    ((s.bump c k).chan d).mode = (s.chan d).mode := by
  unfold State.bump; rw [State.chan_modChan]; split <;> simp_all
@[simp] theorem State.bump_chan_period (s : State) (c d : Chan) (k : TallyKind) :
    ((s.bump c k).chan d).period = (s.chan d).period := by
  unfold State.bump; rw [State.chan_modChan]; split <;> simp_all
@[simp] theorem State.bump_chan_skew (s : State) (c d : Chan) (k : TallyKind) :
    ((s.bump c k).chan d).skew = (s.chan d).skew := by
  unfold State.bump; rw [State.chan_modChan]; split <;> simp_all
@[simp] theorem State.bump_chan_outq (s : State) (c d : Chan) (k : TallyKind) :
    ((s.bump c k).chan d).outq = (s.chan d).outq := by
  unfold State.bump; rw [State.chan_modChan]; split <;> simp_all
@[simp] theorem State.bump_chan_rx (s : State) (c d : Chan) (k : TallyKind) :
    ((s.bump c k).chan d).rx = (s.chan d).rx := by
  unfold State.bump; rw [State.chan_modChan]; split <;> simp_all
@[simp] theorem State.bump_chan_tx (s : State) (c d : Chan) (k : TallyKind) :
    ((s.bump c k).chan d).tx = (s.chan d).tx := by
  unfold State.bump; rw [State.chan_modChan]; split <;> simp_all
@[simp] theorem State.send_chan_link (s : State) (c d : Chan) (r : TxRecord) :
    ((s.send c r).chan d).link = (s.chan d).link := by
  unfold State.send; rw [State.chan_modChan]; split <;> simp_all
@[simp] theorem State.send_chan_silence (s : State) (c d : Chan) (r : TxRecord) :
    ((s.send c r).chan d).silence = (s.chan d).silence := by
  unfold State.send; rw [State.chan_modChan]; split <;> simp_all
@[simp] theorem State.send_chan_cycleSeen (s : State) (c d : Chan) (r : TxRecord) :
    ((s.send c r).chan d).cycleSeen = (s.chan d).cycleSeen := by
  unfold State.send; rw [State.chan_modChan]; split <;> simp_all
@[simp] theorem State.send_chan_roster (s : State) (c d : Chan) (r : TxRecord) :
    ((s.send c r).chan d).roster = (s.chan d).roster := by
  unfold State.send; rw [State.chan_modChan]; split <;> simp_all
@[simp] theorem State.send_chan_offer (s : State) (c d : Chan) (r : TxRecord) :
    ((s.send c r).chan d).offer = (s.chan d).offer := by
  unfold State.send; rw [State.chan_modChan]; split <;> simp_all
@[simp] theorem State.send_chan_rangeQ (s : State) (c d : Chan) (r : TxRecord) :
    ((s.send c r).chan d).rangeQ = (s.chan d).rangeQ := by
  unfold State.send; rw [State.chan_modChan]; split <;> simp_all
@[simp] theorem State.send_chan_gaps (s : State) (c d : Chan) (r : TxRecord) :
    ((s.send c r).chan d).gaps = (s.chan d).gaps := by
  unfold State.send; rw [State.chan_modChan]; split <;> simp_all
@[simp] theorem State.send_chan_lapsed (s : State) (c d : Chan) (r : TxRecord) :
    ((s.send c r).chan d).lapsed = (s.chan d).lapsed := by
  unfold State.send; rw [State.chan_modChan]; split <;> simp_all
@[simp] theorem State.send_chan_tagCtr (s : State) (c d : Chan) (r : TxRecord) :
    ((s.send c r).chan d).tagCtr = (s.chan d).tagCtr := by
  unfold State.send; rw [State.chan_modChan]; split <;> simp_all
@[simp] theorem State.send_chan_declineStreak (s : State) (c d : Chan) (r : TxRecord) :
    ((s.send c r).chan d).declineStreak = (s.chan d).declineStreak := by
  unfold State.send; rw [State.chan_modChan]; split <;> simp_all
@[simp] theorem State.send_chan_starved (s : State) (c d : Chan) (r : TxRecord) :
    ((s.send c r).chan d).starved = (s.chan d).starved := by
  unfold State.send; rw [State.chan_modChan]; split <;> simp_all
@[simp] theorem State.send_chan_due (s : State) (c d : Chan) (r : TxRecord) :
    ((s.send c r).chan d).due = (s.chan d).due := by
  unfold State.send; rw [State.chan_modChan]; split <;> simp_all
@[simp] theorem State.send_chan_dueAge (s : State) (c d : Chan) (r : TxRecord) :
    ((s.send c r).chan d).dueAge = (s.chan d).dueAge := by
  unfold State.send; rw [State.chan_modChan]; split <;> simp_all
@[simp] theorem State.send_chan_periodCtr (s : State) (c d : Chan) (r : TxRecord) :
    ((s.send c r).chan d).periodCtr = (s.chan d).periodCtr := by
  unfold State.send; rw [State.chan_modChan]; split <;> simp_all
@[simp] theorem State.send_chan_quietPending (s : State) (c d : Chan) (r : TxRecord) :
    ((s.send c r).chan d).quietPending = (s.chan d).quietPending := by
  unfold State.send; rw [State.chan_modChan]; split <;> simp_all
@[simp] theorem State.send_chan_mode (s : State) (c d : Chan) (r : TxRecord) :
    ((s.send c r).chan d).mode = (s.chan d).mode := by
  unfold State.send; rw [State.chan_modChan]; split <;> simp_all
@[simp] theorem State.send_chan_period (s : State) (c d : Chan) (r : TxRecord) :
    ((s.send c r).chan d).period = (s.chan d).period := by
  unfold State.send; rw [State.chan_modChan]; split <;> simp_all
@[simp] theorem State.send_chan_skew (s : State) (c d : Chan) (r : TxRecord) :
    ((s.send c r).chan d).skew = (s.chan d).skew := by
  unfold State.send; rw [State.chan_modChan]; split <;> simp_all
@[simp] theorem State.send_chan_outq (s : State) (c d : Chan) (r : TxRecord) :
    ((s.send c r).chan d).outq = (s.chan d).outq := by
  unfold State.send; rw [State.chan_modChan]; split <;> simp_all
@[simp] theorem State.send_chan_tallies (s : State) (c d : Chan) (r : TxRecord) :
    ((s.send c r).chan d).tallies = (s.chan d).tallies := by
  unfold State.send; rw [State.chan_modChan]; split <;> simp_all
@[simp] theorem State.send_chan_rx (s : State) (c d : Chan) (r : TxRecord) :
    ((s.send c r).chan d).rx = (s.chan d).rx := by
  unfold State.send; rw [State.chan_modChan]; split <;> simp_all

@[simp] theorem State.isUp_bump (s : State) (c d : Chan) (k : TallyKind) : (s.bump c k).isUp d = s.isUp d := by
  simp [State.isUp, ChanState.isUp]
@[simp] theorem State.isUp_send (s : State) (c d : Chan) (r : TxRecord) : (s.send c r).isUp d = s.isUp d := by
  simp [State.isUp, ChanState.isUp]

/-! ## Gates -/

/-- While RESET is not asserted an event is taken (R159). -/
theorem State.whenRunning_of_not_reset (s : State) (f : State → State) (h : s.pins.resetLow = false) :
    s.whenRunning f = f s := by simp [State.whenRunning, h]

/-- While RESET is asserted nothing is taken (R159). -/
theorem State.whenRunning_of_reset (s : State) (f : State → State) (h : s.pins.resetLow = true) :
    s.whenRunning f = s := by simp [State.whenRunning, h]

/-- What a gated event can answer. -/
theorem State.whenRunning_cases (s : State) (f : State → State) : s.whenRunning f = s ∨ s.whenRunning f = f s := by
  unfold State.whenRunning; split <;> simp

end Sys2Proof.Machine
end

