-- ==== Sys2Proof/Laws/Micro.lean ====
section
/-! SUPPORT. What a step can do, said once: a step is a chain of small changes (`Micro`), each carrying what the laws
of Sys2Proof/Safety.lean need of it, or it replaces the settings (`Took`). A law is kept by every step when every `Micro`
and a replacement of the settings keep it. -/

namespace Sys2Proof.Machine

/-! ## Small changes -/

/-- What a change of one channel's part keeps of the laws, L the tree's cycle length. -/
structure ChanKeeps (L : Nat) (x y : ChanState) : Prop where
  outq : OutQueueLaw x.outq → OutQueueLaw y.outq
  lapsed : y.lapsed.length ≤ 4 ∨ y.lapsed.length ≤ x.lapsed.length
  tally : ∀ k, y.tally k ≤ 65535 ∨ y.tally k ≤ x.tally k
  gap : x.gapLaw → y.gapLaw
  span : x.spanLaw L → y.spanLaw L
  work : ∀ h, y.workCount h ≤ x.workCount h
  skew : y.skew = x.skew
  period : y.period = x.period ∨ (16 ≤ y.period ∧ y.period ≤ 65535)

/-- What a change of an entry's fields in state s keeps of the laws. -/
structure TermKeeps (s : State) (t t' : Terminal) : Prop where
  mark : t'.mark = t.mark
  lost : t'.phase.isLost = t.phase.isLost
  fix : ∀ x', t'.phase.fix = some x' → t'.home = t.home ∧
    (t.phase.fix = some x' ∨
      (reachOk s.tree (s.chan t.home).skew x'.final = true ∧
        (x'.fill = fillDelay s.tree (s.chan t.home).skew x'.final ∨
          ∃ x, t.phase.fix = some x ∧ x'.fill + x'.final = x.fill + x.final)))
  streak : ∀ f d n st, t'.phase = .active f d n → d.streak = some st →
    st.count < s.tree.V ∨ ∃ f' d' n', t.phase = .active f' d' n' ∧ d'.streak = some st

/-- A small change of the state, the settings but for a full reset kept. -/
inductive Micro : State → State → Prop
  | other {s t : State} (tree : t.tree = s.tree) (chans : t.chans = s.chans) (registry : t.registry = s.registry)
      (retention : t.retention = s.retention) (table : t.table = s.table) (waiting : t.waiting = s.waiting)
      (notices : t.notices = s.notices) : Micro s t
  | notices {s : State} (l : List Notice) (h : l.length ≤ 64 ∨ l.length ≤ s.notices.length) :
      Micro s { s with notices := l }
  | table {s : State} (l : List TableEntry) (h : l.length ≤ 64 ∨ l.length ≤ s.table.length)
      (nodup : (s.table.map (·.mark)).Nodup → (l.map (·.mark)).Nodup) : Micro s { s with table := l }
  | waiting {s : State} (l : List PendingItem) (h : (l.map (·.mark)).Sublist (s.waiting.map (·.mark))) :
      Micro s { s with waiting := l }
  | append {s : State} (i : PendingItem) (room : s.waiting.length < 16)
      (free : s.findMark i.mark = none) (fresh : s.waitingItem i.mark = none) :
      Micro s { s with waiting := s.waiting ++ [i] }
  | chan {s : State} (c : Chan) (x : ChanState) (keeps : ChanKeeps s.tree.L (s.chan c) x) :
      Micro s { s with chans := s.chans.set c x }
  | skew {s : State} (c : Chan) (v : Int) (lo : -2048 ≤ v) (hi : v ≤ 2047)
      (free : v = (s.chan c).skew ∨ s.anyWorkingOn c = false) :
      Micro s { s with chans := s.chans.set c { s.chan c with skew := v } }
  | request {s : State} (c : Chan) (h : Handle) (free : s.hasWork h = false) :
      Micro s (s.modChan c fun x => { x with rangeQ := x.rangeQ ++ [h] })
  | rebuild {s : State}
      (empty : ∀ c, (s.chan c).offer = none ∧ (s.chan c).gaps = []) : Micro s s.rebuildQueues
  | term {s : State} (h : Handle) (f : Terminal → Terminal) (t : Terminal) (ht : s.term h = some t)
      (keeps : TermKeeps s t (f t)) : Micro s (s.modTerm h f)
  | fields {s : State} (h : Handle) (f : Terminal → Terminal)
      (keeps : ∀ u, (f u).mark = u.mark ∧ (f u).home = u.home ∧ (f u).phase = u.phase) : Micro s (s.modTerm h f)
  | repair {s : State} (h : Handle) (e : Entry) (he : s.entry h = some e) :
      Micro s (s.setEntry h { e with flaw := .sound })
  | damage {s : State} (h : Handle) :
      Micro s (s.storeDamaged h)
  | free {s : State} (h : Handle) :
      Micro s { s with
        registry := s.registry.filter (fun e => !(e.handle == h))
        retention := s.retention.filter (fun x => !(x == h)) }
  | create {s : State} (h : Handle) (m : Mark) (c : Chan) (coarse : Int) (held : s.holds h = false)
      (lo : 1 ≤ h) (hi : h ≤ 511) (known : s.findMark m = none ∨ (s.waitingItem m).isSome = true) :
      Micro s (s.createEntry h m c coarse)
  | reEnrol {s : State} (h : Handle) (t : Terminal) (ht : s.term h = some t) (c : Chan) (coarse : Int) (n : Nat) :
      Micro s { s.modTerm h fun u => u.reEnrolled c coarse n with
        retention := if t.phase.isLost then s.retention.filter (fun x => !(x == h)) else s.retention }
  | lose {s : State} (h : Handle) (t : Terminal) (ht : s.term h = some t) (present : t.phase.isLost = false)
      (age : Nat) (sent : Bool) :
      Micro s { s.modTerm h fun u => { u with moveFlag := false, phase := .lost t.phase.final age sent } with
        retention := s.retention ++ [h] }
  | full {s : State} : Micro s s.fullReset

/-- The two states agree in every part the laws speak of. -/
structure Same (s t : State) : Prop where
  tree : t.tree = s.tree
  chans : t.chans = s.chans
  registry : t.registry = s.registry
  retention : t.retention = s.retention
  table : t.table = s.table
  waiting : t.waiting = s.waiting
  notices : t.notices = s.notices

theorem Same.refl (s : State) : Same s s := ⟨rfl, rfl, rfl, rfl, rfl, rfl, rfl⟩

theorem Same.trans {s t u : State} (a : Same s t) (b : Same t u) : Same s u :=
  ⟨b.tree.trans a.tree, b.chans.trans a.chans, b.registry.trans a.registry, b.retention.trans a.retention,
    b.table.trans a.table, b.waiting.trans a.waiting, b.notices.trans a.notices⟩

theorem Same.micro {s t : State} (k : Same s t) : Micro s t :=
  .other k.tree k.chans k.registry k.retention k.table k.waiting k.notices

/-- A chain of small changes. -/
abbrev Micros : State → State → Prop := Relation.ReflTransGen Micro

/-- What a command takes: a chain of small changes, or consistent settings in place of those held, which no lock
forbids. -/
inductive Took (s t : State) : Prop
  | chain (k : Micros s t)
  | settings (s1 : State) (u : TreeSettings) (before : Same s s1) (range : s.tree.inRange = true → u.inRange = true)
      (ok : u.consistent = true) (free : s1.settingsLocked s1.tree u = false) (after : Same (s1.replaceSettings u) t)

theorem Took.refl (s : State) : Took s s := .chain .refl

theorem Took.same {s t : State} (k : Same s t) : Took s t := .chain (.single k.micro)

theorem Took.after {s t u : State} (a : Same s t) : Took t u → Took s u
  | .chain k => .chain (.head a.micro k)
  | .settings s1 v b r ok free c => .settings s1 v (a.trans b) (fun h => r (by rw [a.tree]; exact h)) ok free c

theorem Took.before {s t u : State} (b : Same t u) : Took s t → Took s u
  | .chain k => .chain (k.tail b.micro)
  | .settings s1 v a r ok free c => .settings s1 v a r ok free (c.trans b)

theorem Micros.rfl' {s : State} : Micros s s := Relation.ReflTransGen.refl

/-! ## Chains: one channel's part -/

theorem modChan_eq (s : State) (c : Chan) (f : ChanState → ChanState) :
    s.modChan c f = { s with chans := s.chans.set c (f (s.chan c)) } := rfl

theorem micros_modChan {s : State} {c : Chan} {f : ChanState → ChanState}
    (k : ChanKeeps s.tree.L (s.chan c) (f (s.chan c))) : Micros s (s.modChan c f) :=
  .single (.chan c _ k)

theorem modChans_eq (s : State) (f : ChanState → ChanState) :
    s.modChans f = (((s.modChan .c0 f).modChan .c1 f).modChan .c2 f).modChan .c3 f := rfl

theorem micros_modChans {s : State} {f : ChanState → ChanState} (k : ∀ c, ChanKeeps s.tree.L (s.chan c) (f (s.chan c))) :
    Micros s (s.modChans f) := by
  rw [modChans_eq]
  refine (((micros_modChan (k .c0)).trans (micros_modChan ?_)).trans (micros_modChan ?_)).trans (micros_modChan ?_)
  · rw [State.chan_modChan_ne s (by decide)]; exact k _
  · rw [State.chan_modChan_ne _ (by decide), State.chan_modChan_ne s (by decide)]; exact k _
  · rw [State.chan_modChan_ne _ (by decide), State.chan_modChan_ne _ (by decide), State.chan_modChan_ne s (by decide)]
    exact k _

/-- A change that leaves the fields the laws speak of keeps every law. -/
theorem ChanKeeps.of_same {L : Nat} {x y : ChanState} (outq : y.outq = x.outq) (lapsed : y.lapsed = x.lapsed)
    (tallies : y.tallies = x.tallies) (gaps : y.gaps = x.gaps) (offer : y.offer = x.offer)
    (rangeQ : y.rangeQ = x.rangeQ) (skew : y.skew = x.skew) (period : y.period = x.period) : ChanKeeps L x y where
  outq := by rw [outq]; exact id
  lapsed := .inr (by rw [lapsed])
  tally k := .inr (by simp [ChanState.tally, tallies])
  gap := by unfold ChanState.gapLaw; rw [gaps, offer]; exact id
  span := by unfold ChanState.spanLaw; rw [gaps, offer]; exact id
  work h := by simp [ChanState.workCount, gaps, offer, rangeQ]
  skew := skew
  period := .inl period

/-- A change of the out-queue that keeps its law. -/
theorem ChanKeeps.of_outq {L : Nat} {x : ChanState} {q : List QMsg} (k : OutQueueLaw x.outq → OutQueueLaw q) :
    ChanKeeps L x { x with outq := q } where
  outq := k
  lapsed := .inr le_rfl
  tally _ := .inr le_rfl
  gap := id
  span := id
  work _ := le_rfl
  skew := rfl
  period := .inl rfl

theorem tally_set (x : ChanState) (k k' : TallyKind) (v : Nat) :
    ({ x with tallies := x.tallies.set k.idx v } : ChanState).tally k' = if k.idx = k'.idx then v else x.tally k' := by
  unfold ChanState.tally
  simp [Vector.getElem_set, Fin.ext_iff]

theorem ChanKeeps.of_bump {L : Nat} (x : ChanState) (k : TallyKind) :
    ChanKeeps L x { x with tallies := x.tallies.set k.idx (satSucc (x.tally k)) } where
  outq := id
  lapsed := .inr le_rfl
  tally k' := by
    rw [tally_set]
    split
    · exact .inl (by simp [satSucc, Config.count16])
    · exact .inr le_rfl
  gap := id
  span := id
  work _ := le_rfl
  skew := rfl
  period := .inl rfl

theorem micros_bump (s : State) (c : Chan) (k : TallyKind) : Micros s (s.bump c k) :=
  micros_modChan (ChanKeeps.of_bump _ _)

theorem micros_send (s : State) (c : Chan) (r : TxRecord) : Micros s (s.send c r) :=
  micros_modChan (ChanKeeps.of_same rfl rfl rfl rfl rfl rfl rfl rfl)

theorem micros_raise (s : State) (n : Notice) : Micros s (s.raise n) := by
  unfold State.raise
  split
  · rename_i h
    exact .single (.notices _ (.inl (by simp [Config.noticeQueueSize] at h ⊢; omega)))
  · exact .single (.other rfl rfl rfl rfl rfl rfl rfl)

end Sys2Proof.Machine
end

