-- ==== Sys2Proof/Laws/OutQueue.lean ====
section
/-! SUPPORT. What the out-queue operations do to a queue: lengths, and the law of the out-queues (R65). -/

namespace Sys2Proof.Machine

theorem QMsg.sameSlot_iff (a b : QMsg) :
    a.sameSlot b = true ↔ a.msg.kind = b.msg.kind ∧ a.msg.handle = b.msg.handle := by
  simp [QMsg.sameSlot]

/-- A part of a lawful queue is lawful. -/
theorem OutQueueLaw.sublist {q r : List QMsg} (s : r.Sublist q) (h : OutQueueLaw q) : OutQueueLaw r :=
  ⟨s.length_le.trans h.1, h.2.sublist s⟩

theorem OutQueueLaw.filter {q : List QMsg} (f : QMsg → Bool) (h : OutQueueLaw q) : OutQueueLaw (q.filter f) :=
  h.sublist List.filter_sublist

theorem OutQueueLaw.nil : OutQueueLaw [] := ⟨by simp, List.Pairwise.nil⟩

/-- Messages mapped to the same kind and handle keep the law. -/
theorem OutQueueLaw.map {q : List QMsg} {f : QMsg → QMsg} (h : OutQueueLaw q)
    (k : ∀ x, (f x).msg.kind = x.msg.kind ∧ (f x).msg.handle = x.msg.handle) : OutQueueLaw (q.map f) := by
  refine ⟨by simpa using h.1, ?_⟩
  rw [List.pairwise_map]
  exact h.2.imp fun {a b} hab => by simpa [(k a).1, (k a).2, (k b).1, (k b).2] using hab

theorem replaceIn_law {m : QMsg} {q : List QMsg} (h : OutQueueLaw q) : OutQueueLaw (replaceIn m q) := by
  refine h.map fun x => ?_
  split
  · rename_i hs
    simpa using (QMsg.sameSlot_iff m x).1 hs
  · simp

/-- The evicted message is the youngest normal one: nothing but urgent messages stands behind it (R69). -/
theorem evictYoungest_spec {q : List QMsg} {v : QMsg} {r : List QMsg} (h : evictYoungest q = some (v, r)) :
    ∃ a b, q = a ++ v :: b ∧ r = a ++ b ∧ v.urgent = false ∧ ∀ x ∈ b, x.urgent = true := by
  induction q generalizing v r with
  | nil => simp [evictYoungest] at h
  | cons x xs ih =>
    unfold evictYoungest at h
    cases e : evictYoungest xs with
    | some p =>
      obtain ⟨w, ys⟩ := p
      simp only [e, Option.some.injEq, Prod.mk.injEq] at h
      obtain ⟨a, b, hq, hr, hu, hb⟩ := ih e
      obtain ⟨rfl, rfl⟩ := h
      exact ⟨x :: a, b, by simp [hq], by simp [hr], hu, hb⟩
    | none =>
      simp only [e] at h
      split at h
      · cases h
      · rename_i hx
        simp only [Option.some.injEq, Prod.mk.injEq] at h
        obtain ⟨rfl, rfl⟩ := h
        refine ⟨[], xs, rfl, rfl, by simpa using hx, ?_⟩
        intro y hy
        clear ih hx
        induction xs with
        | nil => cases hy
        | cons z zs ih2 =>
          unfold evictYoungest at e
          cases e2 : evictYoungest zs with
          | some p => simp [e2] at e
          | none =>
            simp only [e2] at e
            split at e
            · rename_i hz
              rcases List.mem_cons.1 hy with rfl | hy
              · exact hz
              · exact ih2 e2 hy
            · cases e

theorem evictYoungest_sublist {q : List QMsg} {v : QMsg} {r : List QMsg} (h : evictYoungest q = some (v, r)) :
    r.Sublist q := by
  obtain ⟨a, b, rfl, rfl, -, -⟩ := evictYoungest_spec h
  exact (List.Sublist.refl a).append (List.sublist_cons_self v b)

theorem evictYoungest_length {q : List QMsg} {v : QMsg} {r : List QMsg} (h : evictYoungest q = some (v, r)) :
    r.length + 1 = q.length := by
  obtain ⟨a, b, rfl, rfl, -, -⟩ := evictYoungest_spec h
  simp; omega

theorem OutQueueLaw.append {m : QMsg} {q : List QMsg} (h : OutQueueLaw q) (room : q.length < 48)
    (fresh : q.any m.sameSlot = false) : OutQueueLaw (q ++ [m]) := by
  refine ⟨by simp; omega, ?_⟩
  rw [List.pairwise_append]
  refine ⟨h.2, List.pairwise_singleton _ _, ?_⟩
  intro a ha b hb hab
  rw [List.mem_singleton] at hb
  subst hb
  have : q.any b.sameSlot = true := List.any_eq_true.2 ⟨a, ha, (QMsg.sameSlot_iff b a).2 ⟨hab.1.symm, hab.2.symm⟩⟩
  rw [fresh] at this; cases this

theorem joinTail_law {m : QMsg} {q : List QMsg} (h : OutQueueLaw q) (fresh : q.any m.sameSlot = false) :
    OutQueueLaw (joinTail m q).queue := by
  unfold joinTail
  split
  · rename_i hl; exact h.append (by simpa [Config.outQueueSize] using hl) fresh
  · split
    · split
      · rename_i v rest e
        refine (h.sublist (evictYoungest_sublist e)).append ?_ ?_
        · have := evictYoungest_length e
          have := h.1
          omega
        · rw [← Bool.not_eq_true] at fresh ⊢
          intro hx
          obtain ⟨a, ha, hs⟩ := List.any_eq_true.1 hx
          exact fresh (List.any_eq_true.2 ⟨a, (evictYoungest_sublist e).subset ha, hs⟩)
      · exact h
    · exact h

theorem joinOrReplace_law {m : QMsg} {q : List QMsg} (h : OutQueueLaw q) :
    OutQueueLaw (joinOrReplace m q).queue := by
  unfold joinOrReplace
  split
  · exact replaceIn_law h
  · rename_i hs; exact joinTail_law h (by simpa using hs)

theorem joinRegistry_law {r : Nat} {m : TreeMsg} {q : List QMsg} (h : OutQueueLaw q) :
    OutQueueLaw (joinRegistry r m q).queue := joinOrReplace_law (h.filter _)

theorem markTaken_map_fst (u n : Nat) (q : List QMsg) : (markTaken u n q).map (·.1) = q := by
  induction q generalizing u n with
  | nil => simp [markTaken]
  | cons x xs ih =>
    unfold markTaken
    split
    · split <;> simp [ih]
    · split <;> simp [ih]

theorem handOut_law {room : Nat} {q : List QMsg} (h : OutQueueLaw q) : OutQueueLaw (handOut room q).queue := by
  unfold handOut
  simp only
  generalize hm : markTaken room (room - (q.filter (·.urgent)).length) q = l
  have hq : l.map (·.1) = q := by rw [← hm]; exact markTaken_map_fst _ _ _
  rw [← hq] at h
  clear hm hq
  constructor
  · exact (List.length_filterMap_le _ _).trans (by simpa using h.1)
  · rw [List.pairwise_filterMap]
    have h2 := h.2
    rw [List.pairwise_map] at h2
    refine h2.imp ?_
    intro a b hab b1 hb1 c1 hc1
    have key : ∀ (x : QMsg × Bool) (y : QMsg), afterHandOut x = some y → y.msg = x.1.msg := by
      intro x y hy
      unfold afterHandOut at hy
      split at hy
      · split at hy
        · cases hy
        · cases hy; rfl
      · cases hy; rfl
    rw [key _ _ hb1, key _ _ hc1]
    exact hab

end Sys2Proof.Machine
end

