-- ==== Sys2Proof/Laws/Registry.lean ====
section
/-! SUPPORT. The registry's shared operations as chains of small changes, and what they leave of the registry. -/

namespace Sys2Proof.Machine

/-! ## Lookups -/

theorem State.entry_congr {s t : State} (h : s.registry = t.registry) (x : Handle) : s.entry x = t.entry x := by
  simp [State.entry, h]

theorem State.term_congr {s t : State} (h : s.registry = t.registry) (x : Handle) : s.term x = t.term x := by
  simp [State.term, State.entry_congr h]

theorem State.holds_congr {s t : State} (h : s.registry = t.registry) (x : Handle) : s.holds x = t.holds x := by
  simp [State.holds, h]

theorem State.findMark_congr {s t : State} (h : s.registry = t.registry) (m : Mark) :
    s.findMark m = t.findMark m := by simp [State.findMark, State.heldHandles, h, State.term_congr h]

/-- The entry of a handle after an update that maps the registry and keeps every handle. -/
theorem find_map_handle {l : List Entry} {f : Entry → Entry} (k : ∀ e, (f e).handle = e.handle) (h : Handle) :
    (l.map f).find? (fun e => e.handle == h) = (l.find? (fun e => e.handle == h)).map f := by
  induction l with
  | nil => rfl
  | cons x xs ih => simp only [List.map_cons, List.find?_cons, k]; split <;> simp [ih]

@[simp] theorem Entry.modTerm_handle (e : Entry) (h : Handle) (f : Terminal → Terminal) :
    (e.modTerm h f).handle = e.handle := by unfold Entry.modTerm; split <;> rfl

theorem State.entry_handle {s : State} {h : Handle} {e : Entry} (he : s.entry h = some e) : e.handle = h := by
  have := List.find?_some he
  simpa using this

theorem State.entry_mem {s : State} {h : Handle} {e : Entry} (he : s.entry h = some e) : e ∈ s.registry :=
  List.mem_of_find?_eq_some he

/-- The entry a handle holds after its fields are changed. -/
theorem State.entry_modTerm (s : State) (h x : Handle) (f : Terminal → Terminal) :
    (s.modTerm h f).entry x = (s.entry x).map (·.modTerm h f) := by
  unfold State.entry State.modTerm
  exact find_map_handle (fun e => Entry.modTerm_handle e h f) x

theorem State.entry_modTerm_ne (s : State) {h x : Handle} (hx : x ≠ h) (f : Terminal → Terminal) :
    (s.modTerm h f).entry x = s.entry x := by
  rw [State.entry_modTerm]
  cases e : s.entry x with
  | none => rfl
  | some y => simp [Entry.modTerm, State.entry_handle e, hx]

theorem State.term_modTerm_ne (s : State) {h x : Handle} (hx : x ≠ h) (f : Terminal → Terminal) :
    (s.modTerm h f).term x = s.term x := by simp [State.term, State.entry_modTerm_ne s hx]

/-- The fields of an entry after they are changed. -/
@[simp] theorem State.term_modTerm_same (s : State) (h : Handle) (f : Terminal → Terminal) :
    (s.modTerm h f).term h = (s.term h).map f := by
  unfold State.term
  rw [State.entry_modTerm]
  cases e : s.entry h with
  | none => rfl
  | some y => simp [Entry.modTerm, State.entry_handle e]

theorem State.entry_of_term {s : State} {h : Handle} {t : Terminal} (ht : s.term h = some t) :
    ∃ e, s.entry h = some e ∧ e.term = some t := by
  unfold State.term at ht
  cases e : s.entry h with
  | none => simp [e] at ht
  | some y => exact ⟨y, rfl, by simpa [e] using ht⟩

theorem State.holds_of_entry {s : State} {h : Handle} {e : Entry} (he : s.entry h = some e) : s.holds h = true := by
  unfold State.holds
  exact List.any_eq_true.2 ⟨e, State.entry_mem he, by simp [State.entry_handle he]⟩

theorem State.entry_eq_none_of_not_holds {s : State} {h : Handle} (he : s.holds h = false) : s.entry h = none := by
  cases e : s.entry h with
  | none => rfl
  | some y => rw [State.holds_of_entry e] at he; cases he

/-! ## What each operation leaves of the registry and of the lists -/

@[simp] theorem State.rosterJoin_registry (s : State) (c : Chan) (h : Handle) :
    (s.rosterJoin c h).registry = s.registry := by unfold State.rosterJoin; split <;> simp
@[simp] theorem State.rosterLeave_registry (s : State) (c : Chan) (h : Handle) :
    (s.rosterLeave c h).registry = s.registry := by unfold State.rosterLeave; split <;> simp
@[simp] theorem State.rosterLeave_retention (s : State) (c : Chan) (h : Handle) :
    (s.rosterLeave c h).retention = s.retention := by unfold State.rosterLeave; split <;> simp
@[simp] theorem State.rosterLeave_tree (s : State) (c : Chan) (h : Handle) :
    (s.rosterLeave c h).tree = s.tree := by unfold State.rosterLeave; split <;> simp

@[simp] theorem State.rosterLeave_skew (s : State) (c d : Chan) (h : Handle) :
    ((s.rosterLeave c h).chan d).skew = (s.chan d).skew := by
  unfold State.rosterLeave
  split
  · rw [State.send_chan_skew, State.chan_modChan]; split <;> simp_all
  · rfl

@[simp] theorem ChanState.voidFor_skew (x : ChanState) (h : Handle) : (x.voidFor h).skew = x.skew := rfl

@[simp] theorem State.offerFlaw_registry (s : State) (k : FlawKind) (h : Handle) :
    (s.offerFlaw k h).registry = s.registry := by unfold State.offerFlaw; split <;> simp
@[simp] theorem State.offerFlaw_retention (s : State) (k : FlawKind) (h : Handle) :
    (s.offerFlaw k h).retention = s.retention := by unfold State.offerFlaw; split <;> simp

@[simp] theorem State.rangeRequest_registry (s : State) (h : Handle) :
    (s.rangeRequest h).registry = s.registry := by unfold State.rangeRequest; split; rfl; split <;> rfl

/-! ## Owed kinds -/

@[simp] theorem Terminal.makeOwed_mark (t : Terminal) (k : MsgKind) : (t.makeOwed k).mark = t.mark := by
  unfold Terminal.makeOwed; (repeat' split) <;> rfl
@[simp] theorem Terminal.makeOwed_home (t : Terminal) (k : MsgKind) : (t.makeOwed k).home = t.home := by
  unfold Terminal.makeOwed; (repeat' split) <;> rfl
@[simp] theorem Terminal.makeOwed_phase (t : Terminal) (k : MsgKind) : (t.makeOwed k).phase = t.phase := by
  unfold Terminal.makeOwed; (repeat' split) <;> rfl
@[simp] theorem Terminal.makeOwed_heard (t : Terminal) (k : MsgKind) : (t.makeOwed k).heard = t.heard := by
  unfold Terminal.makeOwed; (repeat' split) <;> rfl

theorem micros_takeReport (s : State) (why : ReportCause) (c : Chan) (k : MsgKind) (h : Handle) :
    Micros s (s.takeReport why c k h) := by
  unfold State.takeReport
  split
  all_goals exact .single (.fields _ _ fun u => by split <;> simp)

/-! ## Queueing -/

theorem micros_outq (s : State) (c : Chan) (q : List QMsg) (k : OutQueueLaw (s.chan c).outq → OutQueueLaw q) :
    Micros s (s.modChan c fun x => { x with outq := q }) := micros_modChan (ChanKeeps.of_outq k)

theorem micros_offerMsg (s : State) (c : Chan) (m : TreeMsg) : Micros s (s.offerMsg c m).1 := by
  unfold State.offerMsg
  split
  · dsimp only
    split
    · rename_i v _
      refine (micros_outq s c (joinRegistry s.tree.r m (s.chan c).outq).queue joinRegistry_law).trans ?_
      exact micros_takeReport _ .evicted c v.msg.kind v.msg.handle
    · exact micros_outq s c _ joinRegistry_law
  · exact .refl

theorem micros_queueFor (s : State) (h : Handle) (m : TreeMsg) : Micros s (s.queueFor h m) := by
  unfold State.queueFor
  split
  · exact .refl
  · have k : Micros s (s.modTerm h fun u => { u with owed := u.owed.dropFor m.kind }) :=
      .single (.fields _ _ fun u => ⟨rfl, rfl, rfl⟩)
    dsimp only
    split
    · exact k.trans (micros_offerMsg _ _ _)
    · exact (k.trans (micros_offerMsg _ _ _)).trans (micros_takeReport _ _ _ _ _)

/-! ## Void and roster events -/

@[simp] theorem Gap.voidFor_isCensus (g : Gap) (h : Handle) : (g.voidFor h).isCensus = g.isCensus := by
  unfold Gap.voidFor
  split
  · split
    · rename_i h' _ e _; simp [Gap.isCensus, e]
    · rfl
  · rfl

theorem Offer.voidFor_census (o : Offer) (h : Handle) : (o.voidFor h).kind = .census ↔ o.kind = .census := by
  unfold Offer.voidFor
  split
  · split
    · rename_i h' e _; simp [e]
    · rfl
  · rfl

theorem Gap.names_voidFor (g : Gap) (h x : Handle) (k : (g.voidFor h).names x = true) : g.names x = true := by
  unfold Gap.voidFor at k
  split at k
  · split at k
    · simp [Gap.names] at k
    · exact k
  · exact k

theorem Offer.names_voidFor (o : Offer) (h x : Handle) (k : (o.voidFor h).names x = true) : o.names x = true := by
  unfold Offer.voidFor at k
  split at k
  · split at k
    · simp [Offer.names] at k
    · exact k
  · exact k

/-- Gaps mapped to gaps of the same class keep the counts of the law of gaps. -/
theorem ChanState.gapLaw_map {x y : ChanState} {f : Gap → Gap} (kg : ∀ g, (f g).isCensus = g.isCensus)
    (hg : y.gaps = x.gaps.map f)
    (ho : ∀ o, y.offer = some o → ∃ o', x.offer = some o' ∧ (o.kind = .census ↔ o'.kind = .census))
    (hx : x.gapLaw) : y.gapLaw := by
  obtain ⟨h1, h2, h3, h4⟩ := hx
  refine ⟨?_, ?_, ?_, ?_⟩
  · rw [hg, List.filter_map, List.length_map]
    have : (Gap.isCensus ∘ f) = Gap.isCensus := funext kg
    rw [this]; exact h1
  · rw [hg, List.filter_map, List.length_map]
    have : ((fun g => !g.isCensus) ∘ f) = fun g : Gap => !g.isCensus := funext fun g => by simp [kg]
    rw [this]; exact h2
  · rw [hg]
    rintro ⟨g, hgm, hc⟩ g' hg'
    obtain ⟨a, ha, rfl⟩ := List.mem_map.1 hgm
    obtain ⟨b, hb, rfl⟩ := List.mem_map.1 hg'
    rw [kg] at hc ⊢
    exact h3 ⟨a, ha, hc⟩ b hb
  · intro o hoy
    obtain ⟨o', ho', hk⟩ := ho o hoy
    obtain ⟨a, b⟩ := h4 o' ho'
    refine ⟨fun hc => by rw [hg, a (hk.1 hc)]; rfl, fun hc => ?_⟩
    obtain ⟨b1, b2⟩ := b fun h => hc (hk.2 h)
    refine ⟨fun g hgm => ?_, by rw [hg]; simpa using b2⟩
    rw [hg] at hgm
    obtain ⟨a, ha, rfl⟩ := List.mem_map.1 hgm
    rw [kg]; exact b1 a ha

/-- Gaps and an offer mapped without a change of their spans keep the law of spans. -/
theorem ChanState.spanLaw_map {L : Nat} {x y : ChanState} {f : Gap → Gap}
    (kf : ∀ g, (f g).refCycle = g.refCycle ∧ (f g).start = g.start ∧ (f g).len = g.len) (hg : y.gaps = x.gaps.map f)
    (ho : ∀ o, y.offer = some o → ∃ o', x.offer = some o' ∧ o'.refCycle = o.refCycle ∧ o'.start = o.start ∧
      o'.len = o.len) : x.spanLaw L → y.spanLaw L := by
  have kl : ∀ m a n g, overlaps L m a n (f g) = overlaps L m a n g := fun m a n g => by
    unfold overlaps; rw [(kf g).1, (kf g).2.1, (kf g).2.2]
  rintro ⟨h1, h2⟩
  refine ⟨?_, fun o hoy g hgy => ?_⟩
  · rw [hg, List.pairwise_map]
    refine h1.imp fun {a b} k => ?_
    rw [kl, (kf b).1, (kf b).2.1, (kf b).2.2]; exact k
  · obtain ⟨o', ho', e1, e2, e3⟩ := ho o hoy
    rw [hg] at hgy
    obtain ⟨g', hg', rfl⟩ := List.mem_map.1 hgy
    rw [kl, ← e1, ← e2, ← e3]; exact h2 o' ho' g' hg'

theorem filter_map_length_le {α : Type} {f : α → α} {p : α → Bool} (k : ∀ a, p (f a) = true → p a = true)
    (l : List α) : ((l.map f).filter p).length ≤ (l.filter p).length := by
  induction l with
  | nil => simp
  | cons a as ih =>
    simp only [List.map_cons, List.filter_cons]
    by_cases h : p (f a) = true
    · simp [h, k a h, ih]
    · by_cases h2 : p a = true
      · simp [h, h2]; omega
      · simp [h, h2, ih]

theorem ChanKeeps.voidFor {L : Nat} (x : ChanState) (h : Handle) : ChanKeeps L x (x.voidFor h) where
  outq := id
  lapsed := .inr le_rfl
  tally _ := .inr le_rfl
  gap := ChanState.gapLaw_map (fun g => Gap.voidFor_isCensus g h) rfl (by
    intro o ho
    simp only [ChanState.voidFor, Option.map_eq_some_iff] at ho
    obtain ⟨o', ho', rfl⟩ := ho
    exact ⟨o', ho', Offer.voidFor_census o' h⟩)
  span := ChanState.spanLaw_map (f := (·.voidFor h)) (fun g => by
    unfold Gap.voidFor; split <;> (try split) <;> exact ⟨rfl, rfl, rfl⟩)
    rfl (by
      intro o ho
      simp only [ChanState.voidFor, Option.map_eq_some_iff] at ho
      obtain ⟨o', ho', rfl⟩ := ho
      exact ⟨o', ho', by unfold Offer.voidFor; split <;> (try split) <;> exact ⟨rfl, rfl, rfl⟩⟩)
  work y := by
    simp only [ChanState.workCount, ChanState.voidFor]
    have a : (x.rangeQ.filter (fun h' => !(h' == h))).count y ≤ x.rangeQ.count y :=
      List.filter_sublist.count_le _
    have b : ((x.gaps.map (·.voidFor h)).filter (·.names y)).length ≤ (x.gaps.filter (·.names y)).length :=
      filter_map_length_le (fun g => Gap.names_voidFor g h y) _
    have c : (if (x.offer.map (·.voidFor h)).any (·.names y) then 1 else 0) ≤
        (if x.offer.any (·.names y) then 1 else 0) := by
      cases x.offer with
      | none => simp
      | some o =>
        simp only [Option.map_some, Option.any_some]
        split
        · rename_i h1; rw [if_pos (Offer.names_voidFor o h y h1)]
        · simp
    exact Nat.add_le_add (Nat.add_le_add a c) b
  skew := rfl
  period := .inl rfl

theorem micros_voidAll (s : State) (h : Handle) : Micros s (s.voidAll h) :=
  micros_modChans fun _ => ChanKeeps.voidFor _ _

theorem micros_takeVoid (s : State) (c : Chan) (h : Handle) : Micros s (s.modChan c (·.voidFor h)) :=
  micros_modChan (ChanKeeps.voidFor _ _)

theorem micros_rosterJoin (s : State) (c : Chan) (h : Handle) : Micros s (s.rosterJoin c h) := by
  unfold State.rosterJoin
  split
  · exact (micros_modChan (f := fun x => { x with roster := x.roster ++ [h] })
      (ChanKeeps.of_same rfl rfl rfl rfl rfl rfl rfl rfl)).trans (micros_send _ _ _)
  · exact .refl

theorem micros_rosterLeave (s : State) (c : Chan) (h : Handle) : Micros s (s.rosterLeave c h) := by
  unfold State.rosterLeave
  split
  · exact (micros_modChan (f := fun x => { x with roster := x.roster.filter (fun h' => !(h' == h)) })
      (ChanKeeps.of_same rfl rfl rfl rfl rfl rfl rfl rfl)).trans (micros_send _ _ _)
  · exact .refl

theorem micros_rangeRequest (s : State) (h : Handle) : Micros s (s.rangeRequest h) := by
  unfold State.rangeRequest
  split
  · exact .refl
  · split
    · exact .refl
    · rename_i hw
      exact .single (.request _ _ (by simpa using hw))

/-! ## The store check -/

theorem micros_offerFlaw (s : State) (k : FlawKind) (h : Handle) : Micros s (s.offerFlaw k h) := by
  unfold State.offerFlaw
  split
  · exact .refl
  · refine Relation.ReflTransGen.trans ?_ (micros_raise _ _)
    exact .single (.other rfl rfl rfl rfl rfl rfl rfl)

theorem micros_foldl {α : Type} (l : List α) (f : State → α → State) (k : ∀ s a, Micros s (f s a)) (s : State) :
    Micros s (l.foldl f s) := by
  induction l generalizing s with
  | nil => exact .refl
  | cons a as ih => exact (k s a).trans (ih _)

theorem foldl_keeps {α β : Type} (l : List α) (f : State → α → State) (p : State → β) (k : ∀ s a, p (f s a) = p s)
    (s : State) : p (l.foldl f s) = p s := by
  induction l generalizing s with
  | nil => rfl
  | cons a as ih => rw [List.foldl_cons, ih, k]

theorem micros_removeAll (s : State) (h : Handle) :
    Micros s (s.modChans fun x => { x with outq := removeAll h x.outq }) :=
  micros_modChans fun _ => ChanKeeps.of_outq fun k => k.filter _

theorem micros_damage (s : State) (h : Handle) : Micros s (s.damage h) := by
  unfold State.damage
  refine Relation.ReflTransGen.trans ?_ (micros_offerFlaw _ _ _)
  refine Relation.ReflTransGen.trans ?_ (micros_foldl _ _ (fun s c => micros_offerMsg s c _) _)
  refine Relation.ReflTransGen.trans ?_ (.single (.damage h))
  exact ((micros_voidAll s h).trans (micros_removeAll _ h)).trans
    (micros_foldl _ _ (fun s c => micros_rosterLeave s c h) _)

theorem micros_readEntry (s : State) (h : Handle) : Micros s (s.readEntry h) := by
  unfold State.readEntry
  split
  · exact .refl
  · rename_i e he
    split
    · exact .refl
    · exact .refl
    · have k : Micros s (s.setEntry h { e with flaw := .sound }) := .single (.repair h e he)
      dsimp only
      split
      · exact k.trans (micros_offerFlaw _ _ _)
      · exact k
    · exact micros_damage s h

/-! ## Entry transitions -/

theorem micros_freeEntry (s : State) (h : Handle) (notice : Bool) : Micros s (s.freeEntry h notice) := by
  unfold State.freeEntry
  dsimp only
  have k : Micros s ((s.voidAll h).modChans fun x => { x with outq := removeAllButDismiss h x.outq }) :=
    (micros_voidAll s h).trans (micros_modChans fun _ => ChanKeeps.of_outq fun k => k.filter _)
  have k2 := k.tail (.free h)
  have k3 := k2.tail (.other (t := { ((s.voidAll h).modChans fun x => { x with outq := removeAllButDismiss h x.outq }) with
    registry := ((s.voidAll h).modChans fun x => { x with outq := removeAllButDismiss h x.outq }).registry.filter
      (fun e => !(e.handle == h))
    retention := ((s.voidAll h).modChans fun x => { x with outq := removeAllButDismiss h x.outq }).retention.filter
      (fun x => !(x == h))
    fullLatch := false }) rfl rfl rfl rfl rfl rfl rfl)
  split
  · exact k3.trans (micros_raise _ _)
  · exact k3

@[simp] theorem State.term_voidAll (s : State) (h x : Handle) : (s.voidAll h).term x = s.term x := rfl
@[simp] theorem State.term_rosterLeave (s : State) (c : Chan) (h x : Handle) :
    (s.rosterLeave c h).term x = s.term x := State.term_congr (by simp) x
@[simp] theorem State.term_rosterJoin (s : State) (c : Chan) (h x : Handle) :
    (s.rosterJoin c h).term x = s.term x := State.term_congr (by simp) x
@[simp] theorem State.term_raise (s : State) (n : Notice) (x : Handle) : (s.raise n).term x = s.term x :=
  State.term_congr (by simp) x
@[simp] theorem State.term_bump (s : State) (c : Chan) (k : TallyKind) (x : Handle) :
    (s.bump c k).term x = s.term x := rfl
@[simp] theorem State.term_modChan (s : State) (c : Chan) (f : ChanState → ChanState) (x : Handle) :
    (s.modChan c f).term x = s.term x := rfl
@[simp] theorem State.term_modChans (s : State) (f : ChanState → ChanState) (x : Handle) :
    (s.modChans f).term x = s.term x := rfl
@[simp] theorem State.term_send (s : State) (c : Chan) (r : TxRecord) (x : Handle) :
    (s.send c r).term x = s.term x := rfl
@[simp] theorem State.term_forgetEnrol (s : State) (h x : Handle) : (s.forgetEnrol h).term x = s.term x := rfl
@[simp] theorem State.forgetEnrol_chans (s : State) (h : Handle) : (s.forgetEnrol h).chans = s.chans := rfl
@[simp] theorem State.forgetEnrol_retention (s : State) (h : Handle) : (s.forgetEnrol h).retention = s.retention := rfl
@[simp] theorem State.forgetEnrol_notices (s : State) (h : Handle) : (s.forgetEnrol h).notices = s.notices := rfl

theorem micros_forgetEnrol (s : State) (h : Handle) : Micros s (s.forgetEnrol h) :=
  .single (.other rfl rfl rfl rfl rfl rfl rfl)

/-- A change to a state that holds no final round trip with a fill delay keeps the laws of the entry. -/
theorem TermKeeps.of_unfixed {s : State} {t t' : Terminal} (mark : t'.mark = t.mark)
    (lost : t'.phase.isLost = t.phase.isLost) (fix : t'.phase.fix = none) : TermKeeps s t t' where
  mark := mark
  lost := lost
  fix x' hx := by rw [fix] at hx; cases hx
  streak f d n st hp := by rw [hp] at fix; cases fix

/-- A change that keeps home channel, round trip and fill delay, with no streak or the streak held. -/
theorem TermKeeps.of_fix {s : State} {t t' : Terminal} (mark : t'.mark = t.mark) (home : t'.home = t.home)
    (lost : t'.phase.isLost = t.phase.isLost) (fix : t'.phase.fix = t.phase.fix)
    (streak : ∀ f d n st, t'.phase = .active f d n → d.streak = some st →
      st.count < s.tree.V ∨ ∃ f' d' n', t.phase = .active f' d' n' ∧ d'.streak = some st) : TermKeeps s t t' where
  mark := mark
  lost := lost
  fix x' hx := ⟨home, .inl (by rw [← fix]; exact hx)⟩
  streak := streak

theorem micros_enterDismissing (s : State) (h : Handle) (k : ∀ t, s.term h = some t → t.phase.isLost = false) :
    Micros s (s.enterDismissing h) := by
  unfold State.enterDismissing
  split
  · exact .refl
  · rename_i t ht
    refine Relation.ReflTransGen.trans ?_ (micros_queueFor _ _ _)
    have k1 : Micros s (if t.phase.isActive then s.rosterLeave t.home h else s) := by
      split
      · exact micros_rosterLeave _ _ _
      · exact .refl
    refine (k1.trans (micros_voidAll _ h)).tail (.term h _ t ?_ ?_)
    · rw [State.term_voidAll]; split <;> simp [ht]
    · exact TermKeeps.of_unfixed rfl (by rw [k t ht]; rfl) rfl

theorem micros_enterLost (s : State) (h : Handle) (k : ∀ t, s.term h = some t → t.phase.isLost = false) :
    Micros s (s.enterLost h) := by
  unfold State.enterLost
  split
  · exact .refl
  · rename_i t ht
    refine Relation.ReflTransGen.trans ?_ (micros_queueFor _ _ _)
    exact (micros_rosterLeave s t.home h).tail (.lose h t (by simpa using ht) (k t ht) 0 false)

theorem State.lowestFree_spec {s : State} {h : Handle} (k : s.lowestFree = some h) :
    s.holds h = false ∧ 1 ≤ h ∧ h ≤ 511 := by
  unfold State.lowestFree at k
  have h1 := List.find?_some k
  have h2 := List.mem_of_find?_eq_some k
  rw [List.mem_range'_1] at h2
  simp only [Config.maxHandle] at h2
  exact ⟨by simpa using h1, h2.1, Nat.lt_succ_iff.1 h2.2⟩

theorem State.mem_heldHandles_of_term {s : State} {h : Handle} {t : Terminal} (k : s.term h = some t) :
    h ∈ s.heldHandles := by
  obtain ⟨e, he, -⟩ := Option.bind_eq_some_iff.1 k
  exact List.mem_map.2 ⟨e, State.entry_mem he, State.entry_handle he⟩

/-- No entry, DAMAGED ones apart, holds the mark. -/
theorem State.findMark_eq_none {s : State} {m : Mark} :
    s.findMark m = none ↔ ∀ h t, s.term h = some t → t.mark ≠ m := by
  unfold State.findMark
  rw [List.findSome?_eq_none_iff]
  constructor
  · intro k h t ht hm
    have := k h (State.mem_heldHandles_of_term ht)
    simp [ht, hm] at this
  · intro k h _
    cases ht : s.term h with
    | none => rfl
    | some t => simp [Option.filter, k h t ht]

theorem State.findMark_eq_some {s : State} {m : Mark} {h : Handle} {t : Terminal} (k : s.findMark m = some (h, t)) :
    s.term h = some t ∧ t.mark = m := by
  unfold State.findMark at k
  obtain ⟨x, -, e⟩ := List.exists_of_findSome?_eq_some k
  obtain ⟨u, hu, e2⟩ := Option.map_eq_some_iff.1 e
  cases e2
  rw [Option.filter_eq_some_iff] at hu
  exact ⟨hu.1, by simpa using hu.2⟩

theorem State.freeEntry_registry (s : State) (h : Handle) (notice : Bool) :
    (s.freeEntry h notice).registry = s.registry.filter (fun e => !(e.handle == h)) := by
  unfold State.freeEntry; dsimp only; split <;> simp

theorem State.term_freeEntry (s : State) (h x : Handle) (notice : Bool) :
    (s.freeEntry h notice).term x = if x = h then none else s.term x := by
  unfold State.term State.entry
  rw [State.freeEntry_registry, List.find?_filter]
  split
  · rename_i e; subst e
    rw [List.find?_eq_none.2 (by intro y _; cases y.handle == x <;> simp)]; rfl
  · rename_i e
    congr 2
    funext y
    by_cases hy : y.handle = x
    · simp [hy, e]
    · simp [hy]

@[simp] theorem State.freeEntry_waiting (s : State) (h : Handle) (notice : Bool) :
    (s.freeEntry h notice).waiting = s.waiting := by
  unfold State.freeEntry; dsimp only; split <;> simp

theorem micros_takeHandle (s : State) : Micros s s.takeHandle.1 := by
  unfold State.takeHandle
  split
  · exact .refl
  · split
    · exact .refl
    · rename_i oldest _ _; exact micros_freeEntry s oldest true

/-- The handle taken is free, and what was known of a mark stands (R21). -/
theorem State.takeHandle_spec {s s1 : State} {h : Handle} (e : s.takeHandle = (s1, some h)) :
    s1.holds h = false ∧ 1 ≤ h ∧ h ≤ 511 ∧ s1.waiting = s.waiting ∧
      ∀ m, s.findMark m = none → s1.findMark m = none := by
  unfold State.takeHandle at e
  split at e
  · rename_i h' hl
    cases e
    exact ⟨(State.lowestFree_spec hl).1, (State.lowestFree_spec hl).2.1, (State.lowestFree_spec hl).2.2, rfl,
      fun _ => id⟩
  · split at e
    · cases e
    · rename_i o rest _
      simp only [Prod.mk.injEq] at e
      obtain ⟨rfl, hl⟩ := e
      refine ⟨(State.lowestFree_spec hl).1, (State.lowestFree_spec hl).2.1, (State.lowestFree_spec hl).2.2, by simp,
        fun m hm => ?_⟩
      rw [State.findMark_eq_none] at hm ⊢
      intro x t hx
      rw [State.term_freeEntry] at hx
      split at hx
      · cases hx
      · exact hm x t hx

theorem micros_newEntry (s : State) (m : Mark) (c : Chan) (coarse : Int)
    (k : s.findMark m = none ∨ (s.waitingItem m).isSome = true) : Micros s (s.newEntry m c coarse).1 := by
  unfold State.newEntry
  have kt := micros_takeHandle s
  split
  · rename_i s1 e; rw [e] at kt; exact kt
  · rename_i s1 h e
    rw [e] at kt
    obtain ⟨h1, h2, h3, h4, h5⟩ := State.takeHandle_spec e
    refine Relation.ReflTransGen.trans ?_ (micros_raise _ _)
    refine Relation.ReflTransGen.trans ?_ (micros_queueFor _ _ _)
    refine kt.tail (.create h m c coarse h1 h2 h3 ?_)
    rcases k with k | k
    · exact .inl (h5 m k)
    · exact .inr (by simpa [State.waitingItem, h4] using k)

theorem micros_reEnrol (s : State) (h : Handle) (c : Chan) (coarse : Int) (retry : Nat) (remove announce : Bool) :
    Micros s (s.reEnrol h c coarse retry remove announce) := by
  unfold State.reEnrol
  split
  · exact .refl
  · rename_i t ht
    dsimp only
    have k1 := (micros_forgetEnrol s h).trans (micros_voidAll _ h)
    have e1 : ((s.forgetEnrol h).voidAll h).term h = some t := by simp [ht]
    revert k1 e1
    generalize (s.forgetEnrol h).voidAll h = s1
    intro k1 e1
    have k2 : Micros s (if t.phase.isActive then s1.rosterLeave t.home h else s1) := by
      split
      · exact k1.trans (micros_rosterLeave _ _ _)
      · exact k1
    have e2 : (if t.phase.isActive then s1.rosterLeave t.home h else s1).term h = some t := by
      split <;> simp [e1]
    revert k2 e2
    generalize (if t.phase.isActive then s1.rosterLeave t.home h else s1) = s2
    intro k2 e2
    have k3 : Micros s (if remove then s2.modChan t.home fun x => { x with outq := removeAll h x.outq } else s2) := by
      split
      · exact k2.trans (micros_modChan (ChanKeeps.of_outq fun k => k.filter _))
      · exact k2
    have e3 : (if remove then s2.modChan t.home fun x => { x with outq := removeAll h x.outq } else s2).term h
        = some t := by
      split
      · exact e2
      · exact e2
    revert k3 e3
    generalize (if remove then s2.modChan t.home fun x => { x with outq := removeAll h x.outq } else s2) = s3
    intro k3 e3
    have k4 := (k3.tail (.reEnrol h t e3 c coarse retry)).trans (micros_queueFor _ h (.enrol h t.mark))
    split
    · exact k4.trans (micros_raise _ _)
    · exact k4

end Sys2Proof.Machine
end

