-- ==== Sys2Proof/Laws/Compose.lean ====
section
/-! SUPPORT. How the small updates follow one another: two updates of one part are one, updates of different
parts change places, and a read of a sound entry leaves the state alone. -/

namespace Sys2Proof.Machine

/-! ## One channel's part -/

@[simp] theorem PerChan.set_set {α : Type} (q : PerChan α) (c : Chan) (x y : α) : (q.set c x).set c y = q.set c y := by
  cases c <;> rfl

@[simp] theorem PerChan.set_get {α : Type} (q : PerChan α) (c : Chan) : q.set c (q.get c) = q := by cases c <;> rfl

theorem State.modChan_modChan (s : State) (c : Chan) (f g : ChanState → ChanState) :
    (s.modChan c f).modChan c g = s.modChan c fun x => g (f x) := by simp [State.modChan]

theorem State.modChan_id (s : State) (c : Chan) (f : ChanState → ChanState) (k : f (s.chan c) = s.chan c) :
    s.modChan c f = s := by
  have e : f (s.chans.get c) = s.chans.get c := k
  simp [State.modChan, e]

theorem State.modChan_congr (s : State) (c : Chan) {f g : ChanState → ChanState} (k : f (s.chan c) = g (s.chan c)) :
    s.modChan c f = s.modChan c g := by
  have e : f (s.chans.get c) = g (s.chans.get c) := k
  simp [State.modChan, e]

theorem State.send_eq (s : State) (c : Chan) (r : TxRecord) :
    s.send c r = s.modChan c fun x => { x with tx := x.tx ++ [r] } := rfl

/-! ## Notices change places with the other updates -/

theorem State.raise_modChan (s : State) (n : Notice) (c : Chan) (f : ChanState → ChanState) :
    (s.raise n).modChan c f = (s.modChan c f).raise n := by
  unfold State.raise; simp only [State.modChan_notices]; split <;> simp [*] <;> rfl

theorem State.raise_modTerm (s : State) (n : Notice) (h : Handle) (f : Terminal → Terminal) :
    (s.raise n).modTerm h f = (s.modTerm h f).raise n := by
  unfold State.raise; simp only [State.modTerm_notices]; split <;> simp [*] <;> rfl

theorem State.raise_bump (s : State) (n : Notice) (c : Chan) (k : TallyKind) :
    (s.raise n).bump c k = (s.bump c k).raise n := by
  unfold State.bump; rw [State.raise_modChan]

/-! ## Entries -/

theorem State.modTerm_modTerm (s : State) (h : Handle) (f g : Terminal → Terminal) :
    (s.modTerm h f).modTerm h g = s.modTerm h fun u => g (f u) := by
  unfold State.modTerm
  simp only [List.map_map]
  congr 1
  apply List.map_congr_left
  intro e _
  simp only [Function.comp, Entry.modTerm]
  split
  · simp; rfl
  · simp

theorem State.modTerm_modChan (s : State) (h : Handle) (c : Chan) (f : Terminal → Terminal)
    (g : ChanState → ChanState) : (s.modChan c g).modTerm h f = (s.modTerm h f).modChan c g := rfl

theorem State.modTerm_bump (s : State) (h : Handle) (c : Chan) (f : Terminal → Terminal) (k : TallyKind) :
    (s.bump c k).modTerm h f = (s.modTerm h f).bump c k := rfl

theorem State.modTerm_voidAll (s : State) (h k : Handle) (f : Terminal → Terminal) :
    (s.voidAll k).modTerm h f = (s.modTerm h f).voidAll k := rfl

/-- The read of a sound entry leaves the state alone (R33). -/
theorem State.readEntry_sound {s : State} {h : Handle} {t : Terminal} (k : s.entry h = some ⟨h, .sound, some t⟩) :
    s.readEntry h = s := by simp [State.readEntry, k]

/-- A DAMAGED entry and a free handle are not read (R33, R34). -/
theorem State.readEntry_term_none {s : State} {h : Handle} (k : s.term h = none) : s.readEntry h = s := by
  unfold State.readEntry
  split
  · rfl
  · rename_i e he
    have : e.term = none := by simpa [State.term, he] using k
    simp [this]

theorem State.term_of_sound {s : State} {h : Handle} {t : Terminal} (k : s.entry h = some ⟨h, .sound, some t⟩) :
    s.term h = some t := by simp [State.term, k]

/-- Reading an entry of a state without flaws leaves the state alone. -/
theorem State.readEntry_of_allSound {s : State} (k : ∀ e ∈ s.registry, e.flaw = .sound) (h : Handle) :
    s.readEntry h = s := by
  unfold State.readEntry
  split
  · rfl
  · rename_i e he
    have hf := k e (State.entry_mem he)
    split
    · rfl
    · rfl
    · rename_i e2; rw [hf] at e2; cases e2
    · rename_i e2; rw [hf] at e2; cases e2

theorem State.whenRunning_running {s : State} (k : s.pins.resetLow = false) (f : State → State) :
    s.whenRunning f = f s := by simp [State.whenRunning, k]

/-- Of entries in handle order the one found is the only one with its handle. -/
theorem State.entry_of_mem {s : State} (k : (s.registry.map (·.handle)).Pairwise (· < ·)) {e : Entry}
    (he : e ∈ s.registry) : s.entry e.handle = some e := by
  unfold State.entry
  generalize s.registry = l at *
  induction l with
  | nil => cases he
  | cons x xs ih =>
    rw [List.map_cons, List.pairwise_cons] at k
    rcases List.mem_cons.1 he with rfl | he
    · simp
    · have lt := k.1 e.handle (List.mem_map_of_mem he)
      have ne : (x.handle == e.handle) = false := beq_false_of_ne (Nat.ne_of_lt lt)
      rw [List.find?_cons, ne]
      exact ih k.2 he

/-- Two changes of entry h that agree on its fields are one, the entries standing in handle order. -/
theorem State.modTerm_congr {s : State} {h : Handle} {f g : Terminal → Terminal}
    (k : (s.registry.map (·.handle)).Pairwise (· < ·)) (e : ∀ t, s.term h = some t → f t = g t) :
    s.modTerm h f = s.modTerm h g := by
  unfold State.modTerm
  congr 1
  apply List.map_congr_left
  intro x hx
  unfold Entry.modTerm
  split
  · rename_i hh
    have hf := State.entry_of_mem k hx
    rw [hh] at hf
    have ht : s.term h = x.term := by simp [State.term, hf]
    cases ex : x.term with
    | none => rfl
    | some t => rw [ex] at ht; simp [e t ht]
  · rfl

theorem State.modTerm_id {s : State} {h : Handle} {f : Terminal → Terminal}
    (k : (s.registry.map (·.handle)).Pairwise (· < ·)) (e : ∀ t, s.term h = some t → f t = t) : s.modTerm h f = s := by
  rw [State.modTerm_congr k (g := id) e]
  unfold State.modTerm
  have : s.registry.map (·.modTerm h id) = s.registry := by
    conv_rhs => rw [← List.map_id s.registry]
    exact List.map_congr_left fun x _ => by unfold Entry.modTerm; split <;> simp
  rw [this]

end Sys2Proof.Machine
end

