-- ==== Sys2Proof/Laws/Ranging.lean ====
section
/-! SUPPORT. Ranging and the gap scheduler as chains of small changes. -/

namespace Sys2Proof.Machine

/-! ## Ranging -/

theorem Phase.withRetry_isLost (p : Phase) (n : Nat) : (p.withRetry n).isLost = p.isLost := by cases p <;> rfl
theorem Phase.withRetry_fix (p : Phase) (n : Nat) : (p.withRetry n).fix = p.fix := by cases p <;> rfl

theorem micros_failAttempt (s : State) (h : Handle) (o : RangeOutcome)
    (k : ∀ t, s.term h = some t → t.phase.isLost = false) : Micros s (s.failAttempt h o) := by
  unfold State.failAttempt
  split
  · exact .refl
  · rename_i t ht
    dsimp only
    have k1 := (micros_voidAll s h).trans (micros_raise (s.voidAll h) (Notice.rangeFailed h t.home o.code))
    have kt : ∀ u, ((s.voidAll h).raise (Notice.rangeFailed h t.home o.code)).term h = some u →
        u.phase.isLost = false := by intro u hu; rw [State.term_raise, State.term_voidAll] at hu; exact k u hu
    split
    · have k2 := k1.trans (micros_enterLost _ h kt)
      split
      · exact k2.trans (micros_raise _ _)
      · exact k2
    · exact k1.trans (micros_enterDismissing _ h kt)

theorem Phase.isLost_of_retry {p : Phase} {n : Nat} (h : p.retry = some n) : p.isLost = false := by
  cases p <;> simp_all [Phase.retry, Phase.isLost]

theorem Phase.fix_of_retry {p : Phase} {n : Nat} (h : p.retry = some n) : p.fix = none := by
  cases p <;> simp_all [Phase.retry, Phase.fix]

theorem micros_addRetry (s : State) (h : Handle) (o : RangeOutcome) : Micros s (s.addRetry h o) := by
  unfold State.addRetry
  split
  · exact .refl
  · rename_i t ht
    split
    · exact .refl
    · rename_i n hn
      split
      · refine micros_failAttempt s h o fun u hu => ?_
        rw [ht] at hu; cases hu
        exact Phase.isLost_of_retry hn
      · exact .single (.term h _ t ht (TermKeeps.of_unfixed rfl (Phase.withRetry_isLost _ _)
          (by rw [Phase.withRetry_fix]; exact Phase.fix_of_retry hn)))

theorem micros_clearSamples {s : State} {h : Handle} {t : Terminal} (ht : s.term h = some t) :
    Micros s (s.modTerm h Terminal.clearSamples) := by
  refine .single (.term h _ t ht ?_)
  unfold Terminal.clearSamples
  split
  · rename_i e; exact TermKeeps.of_unfixed rfl (by rw [e]; rfl) rfl
  · exact TermKeeps.of_fix rfl rfl rfl rfl fun f d n st hp hs => .inr ⟨f, d, n, hp, hs⟩

theorem micros_acceptAttempt (s : State) (h : Handle) (final : Int) {t : Terminal} (ht : s.term h = some t)
    (ok : reachOk s.tree (s.chan t.home).skew final = true) (k : t.phase.isLost = false) :
    Micros s (s.acceptAttempt h final) := by
  unfold State.acceptAttempt
  rw [ht]
  dsimp only
  refine Relation.ReflTransGen.trans ?_ (micros_queueFor _ _ _)
  refine (micros_voidAll s h).tail (.term h _ t (by simpa using ht) ?_)
  have sk : ((s.voidAll h).chan t.home).skew = (s.chan t.home).skew := by simp [State.voidAll]
  refine ⟨rfl, by rw [k]; rfl, ?_, ?_⟩
  · intro x' hx
    cases hx
    refine ⟨rfl, .inr ⟨?_, .inl ?_⟩⟩
    · rw [sk]; exact ok
    · rw [sk]; rfl
  · intro f d n st hp; cases hp

theorem completion_accepted {t : TreeSettings} {S final : Int} {l : List Int}
    (h : completion t S l = .accepted final) : reachOk t S final = true ∧ final = roundedMean l := by
  unfold completion at h
  split at h
  · cases h
  · split at h
    · rename_i hr; cases h; exact ⟨hr, rfl⟩
    · cases h

theorem micros_completeAttempt (s : State) (h : Handle) (l : List Int)
    (k : ∀ t, s.term h = some t → t.phase.isLost = false) : Micros s (s.completeAttempt h l) := by
  unfold State.completeAttempt
  split
  · exact .refl
  · rename_i t ht
    split
    · exact ((micros_bump s t.home .spreadFail).trans (micros_clearSamples (t := t) (by simpa using ht))).trans
        (micros_addRetry _ _ _)
    · exact ((micros_bump s t.home .outOfReach).trans (micros_clearSamples (t := t) (by simpa using ht))).trans
        (micros_addRetry _ _ _)
    · rename_i final e
      exact micros_acceptAttempt s h final ht (completion_accepted e).1 (k t ht)

theorem micros_appendSample (s : State) (h : Handle) (x : Int) : Micros s (s.appendSample h x) := by
  unfold State.appendSample
  split
  · exact .refl
  · rename_i t ht
    split
    · rename_i n smp f d e
      dsimp only
      have k1 : Micros s (s.modTerm h fun u => { u with phase := .ranging n (smp ++ [x]) f d }) :=
        .single (.term h _ t ht (TermKeeps.of_unfixed rfl (by rw [e]; rfl) rfl))
      split
      · refine k1.trans (micros_completeAttempt _ h _ fun u hu => ?_)
        rw [State.term_modTerm_same, ht] at hu
        cases hu; rfl
      · exact k1
    · exact .refl

theorem micros_mismatch (s : State) (c : Chan) (h : Handle) : Micros s (s.mismatch c h) :=
  (micros_bump _ _ _).trans (micros_addRetry _ _ _)

/-- Gaps mapped to gaps of the same class and name keep every law. -/
theorem ChanKeeps.of_gaps_map {L : Nat} {x : ChanState} {f : Gap → Gap} (kc : ∀ g, (f g).isCensus = g.isCensus)
    (kn : ∀ g h, (f g).names h = g.names h)
    (kf : ∀ g, (f g).refCycle = g.refCycle ∧ (f g).start = g.start ∧ (f g).len = g.len) : ChanKeeps L x { x with gaps := x.gaps.map f } where
  outq := id
  lapsed := .inr le_rfl
  tally _ := .inr le_rfl
  gap := ChanState.gapLaw_map kc rfl fun o ho => ⟨o, ho, Iff.rfl⟩
  span := ChanState.spanLaw_map kf rfl fun o ho => ⟨o, ho, rfl, rfl, rfl⟩
  work h := by
    simp only [ChanState.workCount]
    exact Nat.add_le_add_left (filter_map_length_le (fun g k => by rw [kn] at k; exact k) _) _
  skew := rfl
  period := .inl rfl

theorem micros_setSeen (s : State) (c : Chan) (tag : Tag) : Micros s (s.setSeen c tag) := by
  refine micros_modChan (ChanKeeps.of_gaps_map ?_ ?_ ?_)
  · intro g; split
    · split
      · rename_i e; simp [Gap.isCensus, e]
      · rfl
    · rfl
  · intro g h; split
    · split
      · rename_i e; simp [Gap.names, e]
      · rfl
    · rfl
  · intro g; split
    · split <;> exact ⟨rfl, rfl, rfl⟩
    · exact ⟨rfl, rfl, rfl⟩

theorem micros_setHeard (s : State) (h : Handle) : Micros s (s.setHeard h) :=
  .single (.fields _ _ fun _ => ⟨rfl, rfl, rfl⟩)

theorem micros_takeRangeReply (s : State) (c : Chan) (g : Gap) (h : Handle) (seen : Bool) (a : Arrival) :
    Micros s (s.takeRangeReply c g h seen a) := by
  unfold State.takeRangeReply
  have k1 := micros_readEntry s h
  dsimp only
  split
  · exact k1.trans (micros_bump _ _ _)
  · split
    · exact k1.trans (micros_bump _ _ _)
    · have k2 := k1.trans (micros_setSeen (s.readEntry h) c g.tag)
      split
      · exact k2.trans (micros_mismatch _ _ _)
      · have k3 := k2.trans (micros_setHeard ((s.readEntry h).setSeen c g.tag) h)
        split
        · exact k3.trans (micros_mismatch _ _ _)
        · exact k3.trans (micros_appendSample _ _ _)

theorem micros_gapCloseEvent (s : State) (c : Chan) (h : Handle) (seen : Bool) :
    Micros s (s.gapCloseEvent c h seen) := by
  unfold State.gapCloseEvent
  have k1 := micros_readEntry s h
  dsimp only
  split
  · exact k1
  · split
    · split
      · exact k1.trans (micros_rangeRequest _ _)
      · have k2 := (k1.trans (micros_bump _ c .noReply)).trans (micros_addRetry _ h .noReply)
        split
        · exact k2
        · exact k2.trans (micros_rangeRequest _ _)
    · exact k1

theorem micros_activate (s : State) (h : Handle) : Micros s (s.activate h) := by
  unfold State.activate
  split
  · exact .refl
  · rename_i t ht
    split
    · rename_i fix e
      dsimp only
      have k1 : Micros s (s.modTerm h fun u => { u with
          phase := .active fix (freshDrift u.owed) 0, wasActive := true, heard := false, moveFlag := false }) := by
        refine .single (.term h _ t ht (TermKeeps.of_fix rfl rfl ?_ ?_ ?_))
        · rw [e]; rfl
        · rw [e]; rfl
        · intro f d n st hp hs
          cases hp; cases hs
      have k2 := (k1.trans (micros_rosterJoin _ t.home h)).trans (micros_raise _ (Notice.activated h t.home fix.fill))
      split
      · exact k2.trans (micros_raise _ _)
      · exact k2
    · exact .refl

/-! ## The gap scheduler -/

theorem Offer.names_iff (o : Offer) (h : Handle) : o.names h = true ↔ o.rangeHandle = some h := by
  unfold Offer.names Offer.rangeHandle
  cases o.kind <;> simp

theorem count_toList (o : Offer) (h : Handle) :
    o.rangeHandle.toList.count h = if o.names h then 1 else 0 := by
  by_cases k : o.names h = true
  · rw [if_pos k, (Offer.names_iff o h).1 k]; simp
  · rw [if_neg k]
    rw [Offer.names_iff] at k
    cases e : o.rangeHandle with
    | none => simp
    | some y =>
      rw [e] at k
      have hy : y ≠ h := fun hy => k (by rw [hy])
      simp [hy]

theorem isCensus_or (l : List Gap) (h : l = []) : ∀ g ∈ l, g.isCensus = false := by subst h; simp

/-- The outstanding offer ends and its handle returns to the head of the queue. -/
theorem ChanKeeps.decline {L : Nat} {x : ChanState} {o : Offer} (ho : x.offer = some o) :
    ChanKeeps L x { x with offer := none, rangeQ := o.rangeHandle.toList ++ x.rangeQ } where
  outq := id
  lapsed := .inr le_rfl
  tally _ := .inr le_rfl
  gap hx := ⟨hx.1, hx.2.1, hx.2.2.1, fun o' ho' => by cases ho'⟩
  span hx := ⟨hx.1, fun o' ho' => by cases ho'⟩
  work h := by
    simp only [ChanState.workCount, ho, List.count_append, count_toList, Option.any_some, Option.any_none]
    simp only [Bool.false_eq_true, if_false]
    exact le_of_eq (by ring)
  skew := rfl
  period := .inl rfl

theorem micros_quiet (s : State) (c : Chan) : Micros s (s.quiet c) := by
  unfold State.quiet
  split
  · refine Relation.ReflTransGen.trans ?_ (micros_raise _ _)
    exact micros_modChan (f := fun x => { x with quietPending := false })
      (ChanKeeps.of_same rfl rfl rfl rfl rfl rfl rfl rfl)
  · exact .refl

theorem micros_declineOffer (s : State) (c : Chan) (o : Offer) (ho : (s.chan c).offer = some o) :
    Micros s (s.declineOffer c o) := by
  unfold State.declineOffer
  dsimp only
  have k1 : Micros s (s.modChan c fun x => { x with offer := none, rangeQ := o.rangeHandle.toList ++ x.rangeQ }) :=
    micros_modChan (ChanKeeps.decline ho)
  revert k1
  generalize (s.modChan c fun x => { x with offer := none, rangeQ := o.rangeHandle.toList ++ x.rangeQ }) = s1
  intro k1
  have k2 : Micros s (if o.kind = .census ∧ (s1.chan c).quietPending = true then
      (s1.modChan c fun x => { x with due := false }).quiet c else s1) := by
    split
    · refine Relation.ReflTransGen.trans ?_ (micros_quiet _ _)
      exact k1.trans (micros_modChan (f := fun x => { x with due := false })
        (ChanKeeps.of_same rfl rfl rfl rfl rfl rfl rfl rfl))
    · exact k1
  revert k2
  generalize (if o.kind = .census ∧ (s1.chan c).quietPending = true then
      (s1.modChan c fun x => { x with due := false }).quiet c else s1) = s2
  intro k2
  have k3 := (k2.trans (micros_modChan (c := c) (f := fun x => { x with declineStreak := satSucc x.declineStreak })
    (ChanKeeps.of_same rfl rfl rfl rfl rfl rfl rfl rfl))).trans (micros_bump _ c .declines)
  split
  · refine Relation.ReflTransGen.trans ?_ (micros_raise _ _)
    exact k3.trans (micros_modChan (f := fun x => { x with starved := true })
      (ChanKeeps.of_same rfl rfl rfl rfl rfl rfl rfl rfl))
  · exact k3

theorem micros_expireOffer (s : State) (c : Chan) (n : Cyc) : Micros s (s.expireOffer c n) := by
  unfold State.expireOffer
  split
  · rename_i o ho
    split
    · exact micros_declineOffer s c o ho
    · exact .refl
  · exact .refl

/-- A census offer on an empty table keeps every law. -/
theorem micros_offerCensus (s : State) (c : Chan) (n : Cyc) (hg : (s.chan c).gaps = []) :
    Micros s (s.offerCensus c n) := by
  unfold State.offerCensus State.makeOffer
  refine micros_modChan ⟨id, .inr le_rfl, fun _ => .inr le_rfl, ?_, ?_, ?_, rfl, .inl rfl⟩
  · rintro ⟨h1, h2, h3, h4⟩
    refine ⟨h1, h2, h3, fun o ho => ?_⟩
    cases ho
    exact ⟨fun _ => hg, fun h => absurd rfl h⟩
  · rintro ⟨h1, -⟩
    exact ⟨h1, fun o _ g hgm => by rw [hg] at hgm; cases hgm⟩
  · intro h
    simp only [ChanState.workCount, requestsLeft, Option.any_some, Offer.names, Bool.false_eq_true, if_false]
    omega

/-- A range offer beside at most three range gaps, for a queued handle, keeps every law. -/
theorem micros_offerRangeOne (s : State) (c : Chan) (n : Cyc) (h : Handle) (sp : Nat × Nat)
    (hq : h ∈ (s.chan c).rangeQ) (hc : ∀ g ∈ (s.chan c).gaps, g.isCensus = false)
    (hl : (s.chan c).gaps.length ≤ 3)
    (hf : ∀ g ∈ (s.chan c).gaps, overlaps s.tree.L (n + 2) sp.1 sp.2 g = false) : Micros s (s.makeOffer c n (.range h) sp) := by
  unfold State.makeOffer
  refine micros_modChan ⟨id, .inr le_rfl, fun _ => .inr le_rfl, ?_, ?_, ?_, rfl, .inl rfl⟩
  · rintro ⟨h1, h2, h3, h4⟩
    refine ⟨h1, h2, h3, fun o ho => ?_⟩
    cases ho
    exact ⟨fun hk => (by cases hk), fun _ => ⟨hc, hl⟩⟩
  · rintro ⟨h1, -⟩
    refine ⟨h1, fun o ho g hgm => ?_⟩
    cases ho
    exact hf g hgm
  · intro y
    simp only [ChanState.workCount, requestsLeft, Option.any_some, Offer.names]
    by_cases hy : h = y
    · subst hy
      have : ((s.chan c).rangeQ.filter fun h' => !(h' == h)).count h = 0 := by
        rw [List.count_eq_zero]
        intro hm
        have := (List.mem_filter.1 hm).2
        simp at this
      have h2 : 0 < (s.chan c).rangeQ.count h := List.count_pos_iff.2 hq
      simp only [this, beq_self_eq_true, if_true]
      omega
    · have : ((s.chan c).rangeQ.filter fun h' => !(h' == h)).count y ≤ (s.chan c).rangeQ.count y :=
        List.filter_sublist.count_le _
      have h2 : (h == y) = false := by simpa using hy
      simp only [h2, Bool.false_eq_true, if_false]
      omega

end Sys2Proof.Machine
end

