-- ==== Sys2Proof/Laws/Gaps.lean ====
section
/-! SUPPORT. What a read with the store check leaves of the channels, and the offer choice, placement, closing and
lapse of gaps as chains of small changes. -/

namespace Sys2Proof.Machine

/-! ## What a read leaves -/

theorem State.entry_setEntry (s : State) (h x : Handle) (e : Entry) (he : e.handle = h) :
    (s.setEntry h e).entry x = if x = h then (s.entry h).map (fun _ => e) else s.entry x := by
  unfold State.entry State.setEntry
  dsimp only
  rw [find_map_handle (f := fun y => if y.handle = h then e else y) (fun y => by
    split
    · rename_i hy; rw [he, hy]
    · rfl)]
  by_cases hx : x = h
  · subst hx
    rw [if_pos rfl]
    cases k : s.registry.find? (fun e => e.handle == x) with
    | none => rfl
    | some y =>
      have : y.handle = x := by simpa using List.find?_some k
      simp [this]
  · rw [if_neg hx]
    cases k : s.registry.find? (fun e => e.handle == x) with
    | none => rfl
    | some y =>
      have : y.handle = x := by simpa using List.find?_some k
      have h2 : y.handle ≠ h := by rw [this]; exact hx
      simp [h2]

theorem State.term_modTerm_none {s : State} {x : Handle} (h : Handle) (f : Terminal → Terminal)
    (k : s.term x = none) : (s.modTerm h f).term x = none := by
  by_cases hx : x = h
  · subst hx; rw [State.term_modTerm_same, k]; rfl
  · rw [State.term_modTerm_ne s hx, k]

theorem State.takeReport_chan (s : State) (why : ReportCause) (c d : Chan) (k : MsgKind) (h : Handle) :
    (s.takeReport why c k h).chan d = s.chan d := by unfold State.takeReport; split <;> rfl

theorem State.takeReport_term_none {s : State} {x : Handle} (why : ReportCause) (c : Chan) (k : MsgKind) (h : Handle)
    (e : s.term x = none) : (s.takeReport why c k h).term x = none := by
  unfold State.takeReport; split <;> exact State.term_modTerm_none _ _ e

theorem State.offerMsg_term_none {s : State} {x : Handle} (c : Chan) (m : TreeMsg) (e : s.term x = none) :
    (s.offerMsg c m).1.term x = none := by
  unfold State.offerMsg
  split
  · dsimp only; split
    · exact State.takeReport_term_none _ _ _ _ e
    · exact e
  · exact e

/-- Offering a message changes nothing of a channel but its out-queue. -/
theorem State.offerMsg_chan (s : State) (c d : Chan) (m : TreeMsg) :
    ∃ q, (s.offerMsg c m).1.chan d = { s.chan d with outq := q } := by
  unfold State.offerMsg
  split
  · dsimp only; split
    · rw [State.takeReport_chan, State.chan_modChan]
      split
      · rename_i e; subst e; exact ⟨_, rfl⟩
      · exact ⟨_, rfl⟩
    · rw [State.chan_modChan]
      split
      · rename_i e; subst e; exact ⟨_, rfl⟩
      · exact ⟨_, rfl⟩
  · exact ⟨_, rfl⟩

theorem State.offerMsg_keeps {β : Type} (p : ChanState → β) (k : ∀ x q, p { x with outq := q } = p x) (s : State)
    (c d : Chan) (m : TreeMsg) : p ((s.offerMsg c m).1.chan d) = p (s.chan d) := by
  obtain ⟨q, e⟩ := s.offerMsg_chan c d m
  rw [e, k]

/-- A roster-leave changes nothing of a channel but its roster and the records sent. -/
theorem State.rosterLeave_chan (s : State) (c d : Chan) (h : Handle) :
    ∃ r t, (s.rosterLeave c h).chan d = { s.chan d with roster := r, tx := t } := by
  unfold State.rosterLeave
  split
  · unfold State.send
    by_cases e : d = c
    · subst e; rw [State.chan_modChan_same, State.chan_modChan_same]; exact ⟨_, _, rfl⟩
    · rw [State.chan_modChan_ne _ e, State.chan_modChan_ne _ e]; exact ⟨_, _, rfl⟩
  · exact ⟨_, _, rfl⟩

theorem State.rosterLeave_keeps {β : Type} (p : ChanState → β) (k : ∀ x r t, p { x with roster := r, tx := t } = p x)
    (s : State) (c d : Chan) (h : Handle) : p ((s.rosterLeave c h).chan d) = p (s.chan d) := by
  obtain ⟨r, t, e⟩ := s.rosterLeave_chan c d h
  rw [e, k]

theorem State.chan_offerFlaw (s : State) (k : FlawKind) (h : Handle) (c : Chan) :
    (s.offerFlaw k h).chan c = s.chan c := by
  unfold State.offerFlaw; split
  · rfl
  · rw [State.chan_raise]; rfl

theorem State.term_offerFlaw (s : State) (k : FlawKind) (h x : Handle) :
    (s.offerFlaw k h).term x = s.term x := State.term_congr (by simp) x

/-- The DISMISS messages of a damage touch of a channel its out-queue alone. -/
theorem State.dismissEverywhere_keeps {β : Type} (p : ChanState → β) (k : ∀ x q, p { x with outq := q } = p x)
    (s : State) (h : Handle) (c : Chan) : p ((s.dismissEverywhere h).chan c) = p (s.chan c) :=
  foldl_keeps Chan.all (fun st c => st.dismissDamaged h c) (fun s => p (s.chan c))
    (fun s d => State.offerMsg_keeps p k s d c _) s

theorem State.leaveRosters_keeps {β : Type} (p : ChanState → β) (k : ∀ x r t, p { x with roster := r, tx := t } = p x)
    (s : State) (h : Handle) (c : Chan) : p ((s.leaveRosters h).chan c) = p (s.chan c) :=
  foldl_keeps Chan.all (fun (st : State) c => st.rosterLeave c h) (fun s => p (s.chan c))
    (fun s d => State.rosterLeave_keeps p k s d c h) s

@[simp] theorem State.leaveRosters_registry (s : State) (h : Handle) : (s.leaveRosters h).registry = s.registry :=
  foldl_keeps Chan.all (fun (st : State) c => st.rosterLeave c h) (fun s => s.registry)
    (fun s d => State.rosterLeave_registry s d h) s

theorem State.dismissEverywhere_term_none {x : Handle} (s : State) (h : Handle) (e : s.term x = none) :
    (s.dismissEverywhere h).term x = none := by
  unfold State.dismissEverywhere
  generalize Chan.all = l
  induction l generalizing s with
  | nil => exact e
  | cons c cs ih => exact ih _ (State.offerMsg_term_none _ _ e)

@[simp] theorem State.storeDamaged_chan (s : State) (h : Handle) (c : Chan) : (s.storeDamaged h).chan c = s.chan c := rfl

theorem State.term_storeDamaged (s : State) (h x : Handle) :
    (s.storeDamaged h).term x = if x = h then none else s.term x := by
  have e : (s.storeDamaged h).entry x = (s.setEntry h ⟨h, .sound, none⟩).entry x := rfl
  unfold State.term
  rw [e, State.entry_setEntry s h x ⟨h, .sound, none⟩ rfl]
  split
  · cases s.entry h <;> rfl
  · rfl

/-- What becoming DAMAGED leaves of a channel's range work (R34, R48). -/
theorem State.damage_keeps {β : Type} (p : ChanState → β) (kq : ∀ x q, p { x with outq := q } = p x)
    (kr : ∀ x r t, p { x with roster := r, tx := t } = p x) (s : State) (h : Handle) (c : Chan) :
    p ((s.damage h).chan c) = p ((s.chan c).voidFor h) := by
  unfold State.damage
  dsimp only
  rw [State.chan_offerFlaw, State.dismissEverywhere_keeps p kq, State.storeDamaged_chan, State.leaveRosters_keeps p kr,
    State.chan_modChans, kq]
  unfold State.voidAll
  rw [State.chan_modChans]

theorem State.term_damage_none {x : Handle} (s : State) (h : Handle) (k : x = h ∨ s.term x = none) :
    (s.damage h).term x = none := by
  unfold State.damage
  dsimp only
  rw [State.term_offerFlaw]
  refine State.dismissEverywhere_term_none _ _ ?_
  rw [State.term_storeDamaged]
  split
  · rfl
  · rename_i e
    rw [State.term_congr (State.leaveRosters_registry _ _)]
    exact k.resolve_left e

/-- A read either leaves the channels alone or voids the handle and leaves no fields to read. -/
theorem State.readEntry_cases (s : State) (h : Handle) :
    ((s.readEntry h).chans = s.chans ∧ ∀ x, (s.readEntry h).term x = s.term x) ∨
      (s.readEntry h = s.damage h) := by
  unfold State.readEntry
  split
  · exact .inl ⟨rfl, fun _ => rfl⟩
  · rename_i e he
    split
    · exact .inl ⟨rfl, fun _ => rfl⟩
    · exact .inl ⟨rfl, fun _ => rfl⟩
    · refine .inl ?_
      have ht : ∀ x, (s.setEntry h { e with flaw := .sound }).term x = s.term x := by
        intro x
        have hh := State.entry_handle he
        have k := State.entry_setEntry s h x { e with flaw := .sound } hh
        unfold State.term
        rw [k]
        split
        · rename_i hx; subst hx; rw [he]; rfl
        · rfl
      dsimp only
      split
      · refine ⟨?_, fun x => by rw [State.term_offerFlaw, ht]⟩
        unfold State.offerFlaw
        split
        · rfl
        · rw [State.raise_chans]; rfl
      · exact ⟨rfl, ht⟩
    · exact .inr rfl

/-- What a read of entry h leaves of a projection of a channel that speaks of range work alone. -/
theorem State.readEntry_gaps (s : State) (h : Handle) (c : Chan) :
    ∃ f : Gap → Gap, (∀ g, (f g).isCensus = g.isCensus) ∧ ((s.readEntry h).chan c).gaps = (s.chan c).gaps.map f := by
  rcases s.readEntry_cases h with ⟨e, -⟩ | e
  · refine ⟨id, fun _ => rfl, ?_⟩
    simp [State.chan, e]
  · refine ⟨(·.voidFor h), fun g => Gap.voidFor_isCensus g h, ?_⟩
    rw [e]
    exact State.damage_keeps (·.gaps) (fun _ _ => rfl) (fun _ _ _ => rfl) s h c

theorem State.readEntry_offer_none (s : State) (h : Handle) (c : Chan) (k : (s.chan c).offer = none) :
    ((s.readEntry h).chan c).offer = none := by
  rcases s.readEntry_cases h with ⟨e, -⟩ | e
  · simpa [State.chan, e] using k
  · rw [e]
    rw [State.damage_keeps (·.offer) (fun _ _ => rfl) (fun _ _ _ => rfl) s h c]
    simp [ChanState.voidFor, k]

theorem State.readEntry_rangeQ (s : State) (h x : Handle) (c : Chan) (k : x ∈ (s.chan c).rangeQ ∨ s.term x = none) :
    x ∈ ((s.readEntry h).chan c).rangeQ ∨ (s.readEntry h).term x = none := by
  rcases s.readEntry_cases h with ⟨e, et⟩ | e
  · rw [et]; simpa [State.chan, e] using k
  · rw [e]
    by_cases hx : x = h
    · subst hx; exact .inr (State.term_damage_none s x (.inl rfl))
    · rcases k with k | k
      · left
        rw [State.damage_keeps (·.rangeQ) (fun _ _ => rfl) (fun _ _ _ => rfl) s h c]
        simp [ChanState.voidFor, k, hx]
      · exact .inr (State.term_damage_none s h (.inr k))

/-! ## The offer choice -/

theorem micros_offerRange (c : Chan) (n : Cyc) (hs : List Handle) (s : State)
    (hq : ∀ x ∈ hs, x ∈ (s.chan c).rangeQ ∨ s.term x = none) (hc : ∀ g ∈ (s.chan c).gaps, g.isCensus = false)
    (hl : (s.chan c).gaps.length ≤ 3) : Micros s (s.offerRange c n hs) := by
  induction hs generalizing s with
  | nil => exact .refl
  | cons h hs ih =>
    unfold State.offerRange
    dsimp only
    have k1 := micros_readEntry s h
    have hq' : ∀ x ∈ h :: hs, x ∈ ((s.readEntry h).chan c).rangeQ ∨ (s.readEntry h).term x = none := fun x hx =>
      State.readEntry_rangeQ s h x c (hq x hx)
    obtain ⟨f, kf, eg⟩ := s.readEntry_gaps h c
    have hc' : ∀ g ∈ ((s.readEntry h).chan c).gaps, g.isCensus = false := by
      intro g hg
      rw [eg] at hg
      obtain ⟨g', hg', rfl⟩ := List.mem_map.1 hg
      rw [kf]; exact hc g' hg'
    have hl' : ((s.readEntry h).chan c).gaps.length ≤ 3 := by rw [eg]; simpa using hl
    have kr := k1.trans (ih (s.readEntry h) (fun x hx => hq' x (List.mem_cons_of_mem _ hx)) hc' hl')
    split
    · exact kr
    · rename_i t ht
      split
      · rename_i fits
        refine k1.trans (micros_offerRangeOne _ c n h _ ?_ hc' hl' fun g hg => ?_)
        rotate_left
        · have := List.all_eq_true.1 fits g hg
          simp only [Bool.and_eq_true, Bool.not_eq_true'] at this
          exact this.1
        rcases hq' h (List.mem_cons_self ..) with k | k
        · exact k
        · rw [ht] at k; cases k
      · exact kr

theorem isCensus_match (g : Gap) : (match g.kind with | .census _ => true | _ => false) = g.isCensus := rfl

theorem isRange_match (g : Gap) : (match g.kind with | .census _ => false | _ => true) = !g.isCensus := by
  unfold Gap.isCensus; cases g.kind <;> rfl

theorem ChanState.not_censusInFlight {x : ChanState} (h : x.censusInFlight = false) :
    ∀ g ∈ x.gaps, g.isCensus = false := by
  intro g hg
  unfold ChanState.censusInFlight at h
  rw [List.any_eq_false] at h
  have k := h g hg
  unfold Gap.isCensus
  cases e : g.kind <;> simp_all

theorem ChanState.rangeGaps_eq (x : ChanState) : x.rangeGaps = (x.gaps.filter fun g => !g.isCensus).length := by
  unfold ChanState.rangeGaps
  congr 1
  exact List.filter_congr fun g _ => isRange_match g

theorem micros_chooseOffer (s : State) (c : Chan) (n : Cyc) : Micros s (s.chooseOffer c n) := by
  unfold State.chooseOffer
  dsimp only
  split
  · split
    · rename_i hg
      exact micros_offerCensus s c n (by simpa using hg)
    · exact .refl
  · have k1 : Micros s (if (s.chan c).censusInFlight = false ∧ (s.chan c).rangeGaps < Config.maxRangeGaps then
        s.offerRange c n (s.chan c).rangeQ else s) := by
      split
      · rename_i h
        have hc := ChanState.not_censusInFlight h.1
        refine micros_offerRange c n _ s (fun x hx => .inl hx) hc ?_
        have h2 := h.2
        rw [ChanState.rangeGaps_eq] at h2
        have : (s.chan c).gaps.filter (fun g => !g.isCensus) = (s.chan c).gaps :=
          List.filter_eq_self.2 fun g hg => by simp [hc g hg]
        rw [this] at h2
        simp only [Config.maxRangeGaps] at h2
        omega
      · exact .refl
    revert k1
    generalize (if (s.chan c).censusInFlight = false ∧ (s.chan c).rangeGaps < Config.maxRangeGaps then
        s.offerRange c n (s.chan c).rangeQ else s) = s1
    intro k1
    split
    · rename_i h
      exact k1.trans (micros_offerCensus _ c n (by simpa using h.2.2))
    · exact k1

theorem micros_offerStep (s : State) (c : Chan) (n : Cyc) : Micros s (s.offerStep c n).1 := by
  unfold State.offerStep
  dsimp only
  have k1 := micros_expireOffer s c n
  split
  · exact k1
  · exact k1.trans (micros_chooseOffer _ _ _)

/-! ## Placement, closing and lapse -/

theorem Offer.placed_isCensus (o : Offer) : o.placed.isCensus = true ↔ o.kind = .census := by
  unfold Offer.placed Gap.isCensus; cases o.kind <;> simp

theorem Offer.placed_names (o : Offer) (h : Handle) : o.placed.names h = o.names h := by
  unfold Offer.placed Gap.names Offer.names; cases o.kind <;> simp

theorem gapLaw_place {x : ChanState} {o : Offer} (ho : x.offer = some o) (hx : x.gapLaw) (y : ChanState)
    (hg : y.gaps = x.gaps ++ [o.placed]) (hy : y.offer = none) : y.gapLaw := by
  obtain ⟨h1, h2, h3, h4⟩ := hx
  obtain ⟨hc, hr⟩ := h4 o ho
  unfold ChanState.gapLaw
  rw [hg, hy]
  by_cases hk : o.kind = .census
  · rw [hc hk]
    have hp := (Offer.placed_isCensus o).2 hk
    simp [hp]
  · obtain ⟨r1, r2⟩ := hr hk
    have hp : o.placed.isCensus = false := by
      rw [← Bool.not_eq_true, Offer.placed_isCensus]; exact hk
    refine ⟨?_, ?_, ?_, fun o' ho' => by cases ho'⟩
    · have : (x.gaps ++ [o.placed]).filter Gap.isCensus = [] := by
        rw [List.filter_eq_nil_iff]
        intro g hgm
        rcases List.mem_append.1 hgm with hgm | hgm
        · simp [r1 g hgm]
        · rw [List.mem_singleton] at hgm; subst hgm; simp [hp]
      rw [this]; simp
    · exact (List.length_filter_le _ _).trans (by simp; omega)
    · rintro ⟨g, hgm, hcg⟩
      rcases List.mem_append.1 hgm with hgm | hgm
      · rw [r1 g hgm] at hcg; cases hcg
      · rw [List.mem_singleton] at hgm; subst hgm; rw [hp] at hcg; cases hcg

theorem ChanKeeps.place {L : Nat} {x : ChanState} {o : Offer} (ho : x.offer = some o) : ChanKeeps L x (x.place o) where
  outq := by unfold ChanState.place; cases o.kind <;> exact id
  lapsed := .inr (by unfold ChanState.place; cases o.kind <;> exact le_rfl)
  tally k := .inr (by unfold ChanState.place; cases o.kind <;> exact le_rfl)
  gap hx := gapLaw_place ho hx _ (by unfold ChanState.place; cases o.kind <;> rfl)
    (by unfold ChanState.place; cases o.kind <;> rfl)
  span hx := by
    have e2 : (x.place o).offer = none := by unfold ChanState.place; cases o.kind <;> rfl
    have e3 : (x.place o).gaps = x.gaps ++ [o.placed] := by unfold ChanState.place; cases o.kind <;> rfl
    refine ⟨?_, fun o' ho' => by rw [e2] at ho'; cases ho'⟩
    rw [e3, List.pairwise_append]
    refine ⟨hx.1, List.pairwise_singleton _ _, fun g hg g' hg' => ?_⟩
    rw [List.mem_singleton] at hg'
    subst hg'
    exact hx.2 o ho g hg
  work h := by
    have e1 : (x.place o).rangeQ = x.rangeQ := by unfold ChanState.place; cases o.kind <;> rfl
    have e2 : (x.place o).offer = none := by unfold ChanState.place; cases o.kind <;> rfl
    have e3 : (x.place o).gaps = x.gaps ++ [o.placed] := by unfold ChanState.place; cases o.kind <;> rfl
    unfold ChanState.workCount
    rw [e1, e2, e3, ho, List.filter_append, List.length_append]
    simp only [Option.any_some, Option.any_none, List.filter_cons, List.filter_nil, Offer.placed_names]
    by_cases hn : o.names h = true
    · simp [hn]; omega
    · simp [hn]
  skew := by unfold ChanState.place; cases o.kind <;> rfl
  period := .inl (by unfold ChanState.place; cases o.kind <;> rfl)

theorem micros_takePlaceResult (s : State) (c : Chan) (tag : Tag) (placed : Bool) :
    Micros s (s.takePlaceResult c tag placed) := by
  unfold State.takePlaceResult
  split
  · split
    · rename_i o ho
      split
      · split
        · exact micros_modChan (ChanKeeps.place ho)
        · exact micros_declineOffer s c o ho
      · exact micros_bump _ _ _
    · exact micros_bump _ _ _
  · exact micros_bump _ _ _

/-- Gaps that leave the table keep every law. -/
theorem ChanKeeps.of_gaps_filter {L : Nat} {x : ChanState} (p : Gap → Bool) : ChanKeeps L x { x with gaps := x.gaps.filter p } where
  outq := id
  lapsed := .inr le_rfl
  tally _ := .inr le_rfl
  gap hx := by
    obtain ⟨h1, h2, h3, h4⟩ := hx
    refine ⟨?_, ?_, ?_, ?_⟩
    · exact ((List.filter_sublist (p := p)).filter _).length_le.trans h1
    · exact ((List.filter_sublist (p := p)).filter _).length_le.trans h2
    · rintro ⟨g, hg, hc⟩ g' hg'
      exact h3 ⟨g, List.mem_of_mem_filter hg, hc⟩ g' (List.mem_of_mem_filter hg')
    · intro o ho
      obtain ⟨a, b⟩ := h4 o ho
      refine ⟨fun hk => by simp [a hk], fun hk => ?_⟩
      obtain ⟨b1, b2⟩ := b hk
      exact ⟨fun g hg => b1 g (List.mem_of_mem_filter hg), (List.length_filter_le _ _).trans b2⟩
  span hx := ⟨hx.1.sublist List.filter_sublist, fun o ho g hg => hx.2 o ho g (List.mem_of_mem_filter hg)⟩
  work h := by
    unfold ChanState.workCount
    exact Nat.add_le_add_left ((List.filter_sublist (p := p)).filter _).length_le _
  skew := rfl
  period := .inl rfl

theorem micros_closeGap (s : State) (c : Chan) (g : Gap) : Micros s (s.closeGap c g) := by
  unfold State.closeGap
  dsimp only
  have k1 : Micros s (s.modChan c fun x => { x with gaps := x.gaps.filter fun g' => !(g'.tag == g.tag) }) :=
    micros_modChan (ChanKeeps.of_gaps_filter _)
  split
  · exact k1.trans (micros_gapCloseEvent _ _ _ _)
  · exact k1
  · exact k1.trans (micros_quiet _ _)

theorem ChanKeeps.of_lapsed {L : Nat} {x : ChanState} {l : List Tag} (h : l.length ≤ 4 ∨ l.length ≤ x.lapsed.length) :
    ChanKeeps L x { x with lapsed := l } where
  outq := id
  lapsed := h
  tally _ := .inr le_rfl
  gap := id
  span := id
  work _ := le_rfl
  skew := rfl
  period := .inl rfl

theorem micros_takeGapClosed (s : State) (c : Chan) (tag : Tag) : Micros s (s.takeGapClosed c tag) := by
  unfold State.takeGapClosed
  split
  · split
    · exact micros_closeGap _ _ _
    · split
      · exact micros_modChan (ChanKeeps.of_lapsed (.inr (List.length_filter_le _ _)))
      · exact micros_bump _ _ _
  · exact micros_bump _ _ _

theorem pushLapsed_length (tag : Tag) (l : List Tag) :
    (pushLapsed tag l).length ≤ 4 ∨ (pushLapsed tag l).length ≤ l.length := by
  unfold pushLapsed Config.lapsedListSize
  split
  · right; simp; omega
  · left; simp; omega

theorem micros_lapseOne (s : State) (c : Chan) (tag : Tag) : Micros s (s.lapseOne c tag) := by
  unfold State.lapseOne
  split
  · rename_i g _
    refine Relation.ReflTransGen.trans ?_ (micros_bump _ _ _)
    exact (micros_closeGap s c g).trans (micros_modChan (ChanKeeps.of_lapsed (pushLapsed_length _ _)))
  · exact .refl

theorem micros_lapseCheck (s : State) (c : Chan) (n : Cyc) : Micros s (s.lapseCheck c n) :=
  micros_foldl _ _ (fun s t => micros_lapseOne s c t) _

end Sys2Proof.Machine
end

