-- ==== Sys2Proof/Laws/Units.lean ====
section
/-! SUPPORT. The admission unit, the census unit, the drift unit and the internal events as chains of small
changes. -/

namespace Sys2Proof.Machine

/-! ## The admission unit -/

theorem micros_refreshWaiting (s : State) (m : Mark) (c : Chan) (coarse : Int) :
    Micros s (s.refreshWaiting m c coarse) := by
  have e : (s.waiting.map fun i => if i.mark = m then
      { i with chan := c, coarse := coarse, age := 0, answers := min (i.answers + 1) Config.count8 } else i).map
        (·.mark) = s.waiting.map (·.mark) := by
    rw [List.map_map]
    refine List.map_congr_left fun i _ => ?_
    simp only [Function.comp_apply]
    split <;> rfl
  exact .single (.waiting _ (by rw [e]))

theorem micros_other {s t : State} (tree : t.tree = s.tree) (chans : t.chans = s.chans)
    (registry : t.registry = s.registry) (retention : t.retention = s.retention) (table : t.table = s.table)
    (waiting : t.waiting = s.waiting) (notices : t.notices = s.notices) : Micros s t :=
  .single (.other tree chans registry retention table waiting notices)

theorem micros_appendWaiting (s : State) (m : Mark) (c : Chan) (coarse : Int) (free : s.findMark m = none)
    (fresh : s.waitingItem m = none) : Micros s (s.appendWaiting m c coarse) := by
  unfold State.appendWaiting
  split
  · rename_i h
    exact Relation.ReflTransGen.trans (.single (.append ⟨m, c, coarse, 0, 1⟩ h free fresh)) (micros_raise _ _)
  · split
    · exact .refl
    · exact Relation.ReflTransGen.trans
        (micros_other (t := { s with pendingFullLatch := true }) rfl rfl rfl rfl rfl rfl rfl) (micros_raise _ _)

/-- The pending list changed to one whose marks stood there, with any latch. -/
theorem micros_waiting (s : State) (l : List PendingItem) (b : Bool)
    (h : (l.map (·.mark)).Sublist (s.waiting.map (·.mark))) :
    Micros s { s with waiting := l, pendingFullLatch := b } :=
  Relation.ReflTransGen.trans (.single (.waiting l h)) (micros_other rfl rfl rfl rfl rfl rfl rfl)

theorem micros_removeWaiting (s : State) (m : Mark) : Micros s (s.removeWaiting m) :=
  micros_waiting s _ _ (List.filter_sublist.map _)

theorem micros_ageWaiting (s : State) : Micros s s.ageWaiting := by
  unfold State.ageWaiting
  dsimp only
  refine Relation.ReflTransGen.trans ?_ (micros_foldl _ _ (fun s i => micros_raise s _) _)
  refine micros_waiting s _ _ ?_
  have : s.waiting.map (·.mark) = (s.waiting.map PendingItem.aged).map (·.mark) := by
    rw [List.map_map]; rfl
  rw [this]
  exact List.filter_sublist.map _

theorem tableSeen_marks (m : Mark) (l : List TableEntry) : (tableSeen m l).map (·.mark) = l.map (·.mark) := by
  unfold tableSeen
  rw [List.map_map]
  refine List.map_congr_left fun e _ => ?_
  simp only [Function.comp_apply]
  split <;> rfl

theorem tableReload_marks (m : Mark) (p : TablePolicy) (l : List TableEntry) :
    (tableReload m p l).map (·.mark) = l.map (·.mark) := by
  unfold tableReload
  rw [List.map_map]
  refine List.map_congr_left fun e _ => ?_
  simp only [Function.comp_apply]
  split <;> rfl

theorem micros_barredAnswer (s : State) (c : Chan) (m : Mark) : Micros s (s.barredAnswer c m) := by
  unfold State.barredAnswer
  have k1 := micros_bump s c .barredAnswer
  dsimp only
  split
  · split
    · exact k1
    · refine (k1.tail (.table (tableSeen m s.table) (.inr ?_) fun h => ?_)).trans (micros_raise _ _)
      · simp [tableSeen]
      · rw [tableSeen_marks]; exact h
  · exact k1

theorem micros_registrationFailed (s : State) (c : Chan) (m : Mark) : Micros s (s.registrationFailed c m) := by
  unfold State.registrationFailed
  have k1 := micros_bump s c .registryFull
  dsimp only
  split
  · exact k1
  · exact (k1.trans (micros_other (t := { s.bump c .registryFull with fullLatch := true }) rfl rfl rfl rfl rfl rfl
      rfl)).trans (micros_raise _ _)

theorem micros_register (s : State) (c : Chan) (m : Mark) (coarse : Int)
    (k : s.findMark m = none ∨ (s.waitingItem m).isSome = true) : Micros s (s.register c m coarse) := by
  unfold State.register
  have kn := micros_newEntry s m c coarse k
  split
  · rename_i s1 h e; rw [e] at kn; exact kn
  · rename_i s1 e
    rw [e] at kn
    exact (kn.trans (micros_registrationFailed _ _ _)).trans (micros_refreshWaiting _ _ _ _)

theorem micros_admission (s : State) (c : Chan) (m : Mark) (coarse : Int) (free : s.findMark m = none) :
    Micros s (s.admission c m coarse) := by
  unfold State.admission
  split
  · exact micros_register _ _ _ _ (.inl free)
  · exact (micros_removeWaiting s m).trans (micros_barredAnswer _ _ _)
  · exact micros_refreshWaiting _ _ _ _
  · exact micros_register _ _ _ _ (.inl free)
  · exact micros_barredAnswer _ _ _
  · rename_i hw _
    split
    · exact micros_register _ _ _ _ (.inl free)
    · exact micros_appendWaiting _ _ _ _ free hw
    · exact micros_bump _ _ _

/-! ## The census unit -/

theorem micros_censusDefect (s : State) (c : Chan) (k : TallyKind) (m : Mark) : Micros s (s.censusDefect c k m) := by
  unfold State.censusDefect
  dsimp only
  split
  · exact (micros_bump _ _ _).trans (micros_raise _ _)
  · exact micros_bump _ _ _

theorem micros_addAnswer (s : State) (c : Chan) (tag : Tag) (m : Mark) : Micros s (s.addAnswer c tag m) := by
  refine micros_modChan (ChanKeeps.of_gaps_map ?_ ?_ ?_)
  · intro g; split
    · split
      · rename_i e; simp [Gap.isCensus, e]
      · rfl
    · rfl
  · intro g h; split
    · split
      · rename_i e; simp [Gap.names, e]
      · rfl
    · rfl
  · intro g; split
    · split <;> exact ⟨rfl, rfl, rfl⟩
    · exact ⟨rfl, rfl, rfl⟩

theorem micros_readAll (s : State) : Micros s s.readAll := micros_foldl _ _ (fun s h => micros_readEntry s h) _

theorem micros_censusRestart (s : State) (c : Chan) (h : Handle) (t : Terminal) (retry : Nat) (coarse : Int)
    (ht : s.term h = some t) (hr : t.phase.retry = some retry) :
    Micros s (s.censusRestart c h t retry coarse) := by
  unfold State.censusRestart
  dsimp only
  split
  · exact micros_reEnrol _ _ _ _ _ _ _
  · have k1 := micros_voidAll s h
    have k2 : Micros s (if decide (t.home ≠ c) = true then
        (s.voidAll h).modChan t.home fun x => { x with outq := removeAll h x.outq } else s.voidAll h) := by
      split
      · exact k1.trans (micros_modChan (ChanKeeps.of_outq fun k => k.filter _))
      · exact k1
    have e2 : (if decide (t.home ≠ c) = true then
        (s.voidAll h).modChan t.home fun x => { x with outq := removeAll h x.outq } else s.voidAll h).term h =
          some t := by split <;> simp [ht]
    revert k2 e2
    generalize (if decide (t.home ≠ c) = true then
        (s.voidAll h).modChan t.home fun x => { x with outq := removeAll h x.outq } else s.voidAll h) = s2
    intro k2 e2
    refine (k2.tail (.term h _ t e2 (TermKeeps.of_unfixed rfl rfl (Phase.fix_of_retry hr)))).trans
      (micros_failAttempt _ _ _ fun u hu => ?_)
    rw [State.term_modTerm_same, e2] at hu
    cases hu
    exact Phase.isLost_of_retry hr

theorem micros_matched (s : State) (c : Chan) (h : Handle) (t : Terminal) (coarse : Int) (ht : s.term h = some t) :
    Micros s (s.matched c h t coarse) := by
  unfold State.matched
  split
  · exact micros_reEnrol _ _ _ _ _ _ _
  · rename_i e; exact micros_censusRestart _ _ _ _ _ _ ht (by rw [e]; rfl)
  · rename_i e; exact micros_censusRestart _ _ _ _ _ _ ht (by rw [e]; rfl)
  · exact .refl
  · split
    · exact (micros_bump _ _ _).trans (micros_raise _ _)
    · exact micros_reEnrol _ _ _ _ _ _ _

theorem micros_takeCensusReply (s : State) (c : Chan) (g : Gap) (answers : List Mark) (a : Arrival) :
    Micros s (s.takeCensusReply c g answers a) := by
  unfold State.takeCensusReply
  dsimp only
  split
  · exact micros_censusDefect _ _ _ _
  · have k := (micros_addAnswer s c g.tag (identityOf a.mark)).trans (micros_readAll _)
    split
    · rename_i e
      exact k.trans (micros_matched _ _ _ _ _ (State.findMark_eq_some e).1)
    · rename_i e
      exact k.trans (micros_admission _ _ _ _ e)

/-! ## The drift unit -/

/-- A change inside ACTIVE that keeps the round trip and the fill delay. -/
theorem TermKeeps.active {s : State} {t t' : Terminal} {fix : Fix} {d d' : Drift} {n n' : Nat} (mark : t'.mark = t.mark)
    (home : t'.home = t.home) (before : t.phase = .active fix d n) (after : t'.phase = .active fix d' n')
    (streak : ∀ st, d'.streak = some st → st.count < s.tree.V ∨ d.streak = some st) : TermKeeps s t t' := by
  refine TermKeeps.of_fix mark home (by rw [before, after]; rfl) (by rw [before, after]; rfl) ?_
  intro f e k st hp hs
  rw [after] at hp
  cases hp
  rcases streak st hs with h | h
  · exact .inl h
  · exact .inr ⟨fix, d, n, before, h⟩

/-- A change from ACTIVE, HUSHED or RETUNING to RANGING. -/
theorem TermKeeps.toRanging {s : State} {t t' : Terminal} {n : Nat} {l : List Int} {f d : Option Int}
    (mark : t'.mark = t.mark) (lost : t.phase.isLost = false) (after : t'.phase = .ranging n l f d) :
    TermKeeps s t t' := TermKeeps.of_unfixed mark (by rw [lost, after]; rfl) (by rw [after]; rfl)

theorem micros_driftRerange (s : State) (h : Handle) (estimate : Int)
    (k : ∀ t, s.term h = some t → t.phase.isLost = false) : Micros s (s.driftRerange h estimate) := by
  unfold State.driftRerange
  split
  · exact .refl
  · rename_i t ht
    dsimp only
    refine Relation.ReflTransGen.trans ?_ (micros_raise _ _)
    refine Relation.ReflTransGen.trans ?_ (micros_bump _ _ _)
    refine Relation.ReflTransGen.trans ?_ (micros_rangeRequest _ _)
    refine Relation.ReflTransGen.trans ?_ (micros_queueFor _ _ _)
    exact (micros_rosterLeave s t.home h).tail (.term h _ t (by simpa using ht)
      (TermKeeps.toRanging rfl (k t ht) rfl))

theorem micros_driftTrim (s : State) (h : Handle) (t : Terminal) (fix : Fix) (d : Drift) (missed : Nat) (sum : Int)
    {u : Terminal} (ht : s.term h = some u) (e : u.phase = .active fix d missed) (home : u.home = t.home) :
    Micros s (s.driftTrim h t fix d missed sum) := by
  unfold State.driftTrim
  dsimp only
  split
  · rename_i ok
    refine Relation.ReflTransGen.trans ?_ (micros_queueFor _ _ _)
    refine Relation.ReflTransGen.trans ?_ (micros_bump _ _ _)
    refine .single (.term h _ u ht ⟨rfl, by rw [e]; rfl, ?_, ?_⟩)
    · intro x' hx
      cases hx
      exact ⟨rfl, .inr ⟨by rw [home]; exact ok, .inr ⟨fix, by rw [e]; rfl, by ring⟩⟩⟩
    · intro f d' n st hp hs
      cases hp; cases hs
  · refine micros_driftRerange _ _ _ fun v hv => ?_
    rw [ht] at hv; cases hv
    rw [e]; rfl

theorem micros_driftOffset (s : State) (h : Handle) (t : Terminal) (fix : Fix) (d : Drift) (missed : Nat) (e : Int)
    {u : Terminal} (ht : s.term h = some u) (hp : u.phase = .active fix d missed) (home : u.home = t.home) :
    Micros s (s.driftOffset h t fix d missed e) := by
  unfold State.driftOffset
  split
  · exact .refl
  · split
    · exact .single (.term h _ u ht (TermKeeps.active rfl rfl hp rfl fun st hs => .inr hs))
    · split
      · refine micros_driftRerange _ _ _ fun v hv => ?_
        rw [ht] at hv; cases hv
        rw [hp]; rfl
      · split
        · exact .single (.term h _ u ht (TermKeeps.active rfl rfl hp rfl fun st hs => by cases hs))
        · split
          · exact micros_driftTrim _ _ _ _ _ _ _ ht hp home
          · rename_i st _ hv
            exact .single (.term h _ u ht (TermKeeps.active rfl rfl hp rfl fun st' hs => by
              cases hs; exact .inl (by omega)))

theorem micros_takeDataBurst (s : State) (c : Chan) (a : Arrival) : Micros s (s.takeDataBurst c a) := by
  unfold State.takeDataBurst
  dsimp only
  split
  · have k1 := micros_readEntry s a.handle.toNat
    split
    · exact k1.trans (micros_bump _ _ _)
    · rename_i t ht
      split
      · rename_i fix d missed hp
        have k2 := k1.trans (micros_setHeard _ a.handle.toNat)
        split
        · refine k2.trans ?_
          have ht' : ((s.readEntry a.handle.toNat).setHeard a.handle.toNat).term a.handle.toNat
              = some { t with heard := true } := by
            unfold State.setHeard; rw [State.term_modTerm_same, ht]; rfl
          exact micros_driftOffset _ _ t fix d missed _ ht' hp rfl
        · exact k2
      · exact k1.trans (micros_bump _ _ _)
  · exact micros_bump _ _ _

theorem micros_takeArrival (s : State) (c : Chan) (a : Arrival) : Micros s (s.takeArrival c a) := by
  unfold State.takeArrival
  split
  · split
    · exact micros_takeDataBurst _ _ _
    · split
      · split
        · exact micros_takeCensusReply _ _ _ _ _
        · exact micros_bump _ _ _
      · exact micros_bump _ _ _
    · split
      · split
        · exact micros_takeRangeReply _ _ _ _ _ _
        · exact micros_bump _ _ _
      · exact micros_bump _ _ _
  · exact micros_bump _ _ _

/-! ## Internal events -/

theorem micros_enrolDone (s : State) (h : Handle) (retry : Nat) (final : Option Int) (t : Terminal)
    (ht : s.term h = some t) (k : t.phase.isLost = false) : Micros s (s.enrolDone h retry final) := by
  unfold State.enrolDone
  refine Relation.ReflTransGen.trans ?_ (micros_rangeRequest _ _)
  exact .single (.term h _ t ht (TermKeeps.toRanging rfl k rfl))

theorem micros_moveComplete (s : State) (h : Handle) (fix : Fix) (target : Chan) (t : Terminal)
    (ht : s.term h = some t) (k : t.phase.isLost = false) : Micros s (s.moveComplete h fix target) := by
  unfold State.moveComplete
  refine Relation.ReflTransGen.trans ?_ (micros_rangeRequest _ _)
  refine Relation.ReflTransGen.trans ?_ (micros_modChan (ChanKeeps.of_outq fun k => k.filter _))
  exact .single (.term h _ t ht (TermKeeps.toRanging rfl k rfl))

theorem micros_takeFinalHandOut (s : State) (c : Chan) (k : MsgKind) (h : Handle) :
    Micros s (s.takeFinalHandOut c k h) := by
  unfold State.takeFinalHandOut
  have k1 := micros_readEntry s h
  dsimp only
  split
  · exact k1
  · rename_i t ht
    split
    · refine k1.trans ?_
      generalize s.readEntry h = s1 at ht
      split
      · rename_i e
        exact micros_enrolDone _ _ _ _ t ht (by rw [e]; rfl)
      · exact micros_activate _ _
      · exact micros_activate _ _
      · rename_i e
        split
        · exact .single (.term h _ t ht (TermKeeps.active rfl rfl e rfl fun st hs => .inr hs))
        · exact .refl
      · rename_i e
        exact micros_moveComplete _ _ _ _ t ht (by rw [e]; rfl)
      · rename_i e
        exact .single (.term h _ t ht (TermKeeps.of_unfixed rfl (by rw [e]; rfl) rfl))
      · rename_i e
        exact .single (.term h _ t ht (TermKeeps.of_unfixed rfl (by rw [e]; rfl) rfl))
      · exact .refl
    · exact k1

theorem micros_withdrawRetune (s : State) (h : Handle) (t : Terminal) : Micros s (s.withdrawRetune h t) := by
  unfold State.withdrawRetune
  split
  · exact .single (.fields _ _ fun u => ⟨rfl, rfl, rfl⟩)
  · exact micros_modChan (ChanKeeps.of_outq fun k => k.filter _)

/-- The withdrawn RETUNE leaves the entry's state as it is. -/
theorem State.withdrawRetune_term {s : State} {h : Handle} {t : Terminal} (ht : s.term h = some t) :
    ∃ u, (s.withdrawRetune h t).term h = some u ∧ u.phase = t.phase := by
  unfold State.withdrawRetune
  split
  · exact ⟨{ t with owed := { t.owed with retune := false } }, by simp [ht], rfl⟩
  · exact ⟨t, by simpa using ht, rfl⟩

theorem micros_cancelMove (s : State) (h : Handle) (t : Terminal) (fix : Fix) (target : Chan)
    (ht : s.term h = some t) (e : t.phase = .retuning fix target) : Micros s (s.cancelMove h t fix) := by
  unfold State.cancelMove
  dsimp only
  refine Relation.ReflTransGen.trans ?_ (micros_raise _ _)
  refine Relation.ReflTransGen.trans ?_ (micros_rosterJoin _ _ _)
  obtain ⟨u, hu, eu⟩ := State.withdrawRetune_term ht
  rw [e] at eu
  refine (micros_withdrawRetune s h t).tail (.term h _ u hu (TermKeeps.of_fix rfl rfl ?_ ?_ ?_))
  · rw [eu]; rfl
  · rw [eu]; rfl
  · intro f d n st hp hs; cases hp; cases hs

theorem micros_exitEntry (s : State) (c : Chan) (h : Handle) : Micros s (s.exitEntry c h) := by
  unfold State.exitEntry
  split
  · exact .refl
  · split
    · have k1 := micros_readEntry s h
      dsimp only
      split
      · exact k1
      · rename_i t ht
        refine k1.trans ?_
        generalize s.readEntry h = s1 at ht
        split
        · exact micros_clearSamples ht
        · rename_i e
          exact .single (.term h _ t ht (TermKeeps.active rfl rfl e rfl fun st hs => by cases hs))
        · rename_i e
          split
          · exact micros_cancelMove _ _ _ _ _ ht e
          · exact .refl
        · rename_i e
          exact .single (.term h _ t ht (TermKeeps.of_unfixed rfl (by rw [e]; rfl) rfl))
        · exact .refl
    · exact .refl

theorem micros_takeChannelExit (s : State) (c : Chan) : Micros s (s.takeChannelExit c) :=
  micros_foldl _ _ (fun s h => micros_exitEntry s c h) _

theorem micros_takeEvent (s : State) (e : Event) : Micros s (s.takeEvent e) := by
  cases e with
  | finalHandOut c k h => exact micros_takeFinalHandOut _ _ _ _
  | report why c k h => exact micros_takeReport _ _ _ _ _
  | void c h => exact micros_takeVoid _ _ _
  | rosterJoin c h => exact micros_rosterJoin _ _ _
  | rosterLeave c h => exact micros_rosterLeave _ _ _
  | channelExit c => exact micros_takeChannelExit _ _

theorem micros_deliver (s : State) (e : Event) : Micros s (s.deliver e) :=
  (micros_other (s := s) (t := s.dropEvent e) rfl rfl rfl rfl rfl rfl rfl).trans (micros_takeEvent _ _)

theorem micros_takeAllEvents (s : State) : Micros s s.takeAllEvents :=
  (micros_other (s := s) (t := { s with events := [] }) rfl rfl rfl rfl rfl rfl rfl).trans
    (micros_foldl _ _ (fun s e => micros_takeEvent s e) _)

end Sys2Proof.Machine
end

