-- ==== Sys2Proof/Laws/Links.lean ====
section
/-! SUPPORT. The channel link units, the presence scanner and the resets as chains of small changes. -/

namespace Sys2Proof.Machine

/-! ## Link states -/

theorem micros_setLink (s : State) (c : Chan) (l : LinkState) : Micros s (s.setLink c l) := by
  unfold State.setLink
  exact Relation.ReflTransGen.trans (micros_modChan (ChanKeeps.of_same rfl rfl rfl rfl rfl rfl rfl rfl))
    (micros_raise _ _)

theorem Gap.names_iff (g : Gap) (h : Handle) : g.names h = true ↔ g.rangeHandle = some h := by
  unfold Gap.names Gap.rangeHandle
  cases g.kind <;> simp

theorem count_rangeHandles (l : List Gap) (h : Handle) :
    (l.filterMap Gap.rangeHandle).count h = (l.filter (·.names h)).length := by
  induction l with
  | nil => rfl
  | cons g gs ih =>
    rw [List.filterMap_cons, List.filter_cons]
    cases e : g.rangeHandle with
    | none =>
      have : g.names h = false := by rw [← Bool.not_eq_true, Gap.names_iff, e]; simp
      simp [this, ih]
    | some y =>
      by_cases hy : y = h
      · subst hy
        have : g.names y = true := (Gap.names_iff g y).2 e
        simp [this, ih]
      · have : g.names h = false := by rw [← Bool.not_eq_true, Gap.names_iff, e]; simpa using hy
        simp [this, ih, hy]

/-- Leaving UP keeps every law: the range work returns to the queue (R45). -/
theorem ChanKeeps.leaveUp {L : Nat} (x : ChanState) : ChanKeeps L x x.leaveUp where
  outq _ := ⟨by simp [ChanState.leaveUp], List.Pairwise.nil⟩
  lapsed := .inr (by simp [ChanState.leaveUp])
  tally _ := .inr le_rfl
  gap _ := by simp [ChanState.gapLaw, ChanState.leaveUp]
  span _ := by simp [ChanState.spanLaw, ChanState.leaveUp]
  work h := by
    simp only [ChanState.workCount, ChanState.leaveUp, List.count_append, count_rangeHandles, Option.any_none,
      List.filter_nil, List.length_nil]
    have : (x.offer.bind Offer.rangeHandle).toList.count h = if x.offer.any (·.names h) then 1 else 0 := by
      cases x.offer with
      | none => rfl
      | some o => exact count_toList o h
    rw [this]
    simp only [Bool.false_eq_true, if_false]
    omega
  skew := rfl
  period := .inl rfl

theorem micros_leaveUp (s : State) (c : Chan) (l : LinkState) : Micros s (s.leaveUp c l) := by
  unfold State.leaveUp
  dsimp only
  refine Relation.ReflTransGen.trans ?_ (micros_setLink _ _ _)
  have k1 := (micros_modChan (s := s) (ChanKeeps.leaveUp (s.chan c))).trans (micros_quiet _ c)
  exact k1.trans (micros_other rfl rfl rfl rfl rfl rfl rfl)

theorem micros_goTo (s : State) (c : Chan) (l : LinkState) : Micros s (s.goTo c l) := by
  unfold State.goTo
  split
  · exact micros_leaveUp _ _ _
  · exact micros_setLink _ _ _

/-- A change of the link unit's own fields keeps every law. -/
theorem micros_link (s : State) (c : Chan) (f : ChanState → ChanState)
    (k : ∀ x, ∃ l n b, f x = { x with link := l, silence := n, cycleSeen := b }) : Micros s (s.modChan c f) := by
  obtain ⟨l, n, b, e⟩ := k (s.chan c)
  refine micros_modChan ?_
  rw [e]
  exact ChanKeeps.of_same rfl rfl rfl rfl rfl rfl rfl rfl

theorem micros_takeHello (s : State) (c : Chan) (len : BitVec 24) (cur : Cyc) : Micros s (s.takeHello c len cur) := by
  unfold State.takeHello
  split
  · refine Relation.ReflTransGen.trans ?_ (micros_send _ _ _)
    refine Relation.ReflTransGen.trans ?_ (micros_link _ _ _ fun x => ⟨_, _, _, rfl⟩)
    split
    · exact micros_link _ _ _ fun x => ⟨_, _, _, rfl⟩
    · exact micros_goTo _ _ _
  · refine Relation.ReflTransGen.trans ?_ (micros_send _ _ _)
    split
    · exact .refl
    · exact micros_goTo _ _ _

theorem micros_takeLinkDown (s : State) (c : Chan) : Micros s (s.takeLinkDown c) := by
  unfold State.takeLinkDown
  split
  · exact .refl
  · exact micros_goTo _ _ _

theorem micros_announce (s : State) (c : Chan) (h : Handle) : Micros s (s.announce c h) := by
  unfold State.announce
  split
  · exact .refl
  · split
    · dsimp only
      split
      · exact (micros_readEntry _ _).trans (micros_rosterJoin _ _ _)
      · exact micros_readEntry _ _
    · exact .refl

theorem ChanKeeps.becomeUp {L : Nat} (x : ChanState) : ChanKeeps L x x.becomeUp := by
  unfold ChanState.becomeUp
  dsimp only
  split
  · exact ChanKeeps.of_same rfl rfl rfl rfl rfl rfl rfl rfl
  · exact ChanKeeps.of_same rfl rfl rfl rfl rfl rfl rfl rfl

theorem micros_alignmentComplete (s : State) (c : Chan) (n : Cyc) : Micros s (s.alignmentComplete c n) := by
  unfold State.alignmentComplete
  exact ((micros_setLink _ _ _).trans (micros_modChan (ChanKeeps.becomeUp _))).trans
    (micros_foldl _ _ (fun s h => micros_announce s c h) _)

theorem micros_takeCycleAligning (s : State) (c : Chan) (last : Cyc) (count : Nat) (n : Cyc) :
    Micros s (s.takeCycleAligning c last count n) := by
  unfold State.takeCycleAligning
  dsimp only
  have k1 : ∀ l, Micros s ((s.modChan c fun x => { x with link := l, cycleSeen := true }).send c
      (.cycleReply n [] none)) := fun l =>
    (micros_link _ _ _ fun x => ⟨_, _, _, rfl⟩).trans (micros_send _ _ _)
  generalize (if n = last + 1 then count + 1 else 1) = m
  split
  · exact (k1 _).trans (micros_alignmentComplete _ _ _)
  · exact k1 _

/-! ## Cycle service -/

theorem micros_handOutStep (s : State) (c : Chan) (room : Byte) : Micros s (s.handOutStep c room) := by
  unfold State.handOutStep
  refine Relation.ReflTransGen.trans ?_ (micros_other (s := s.modChan c fun x => { x with
    outq := (handOut (min room.toNat Config.maxRoom) (s.chan c).outq).queue }) rfl rfl rfl rfl rfl rfl rfl)
  exact micros_outq s c _ fun k => handOut_law k

theorem ChanKeeps.bookkeeping {L : Nat} (x : ChanState) : ChanKeeps L x x.bookkeeping := by
  unfold ChanState.bookkeeping ChanState.makeDue
  dsimp only
  split
  · exact ChanKeeps.of_same rfl rfl rfl rfl rfl rfl rfl rfl
  · split
    · exact ChanKeeps.of_same rfl rfl rfl rfl rfl rfl rfl rfl
    · exact ChanKeeps.of_same rfl rfl rfl rfl rfl rfl rfl rfl

theorem ChanKeeps.periodDue {L : Nat} (x : ChanState) : ChanKeeps L x x.periodDue := by
  unfold ChanState.periodDue ChanState.makeDue
  split
  · exact ChanKeeps.of_same rfl rfl rfl rfl rfl rfl rfl rfl
  · exact ChanKeeps.of_same rfl rfl rfl rfl rfl rfl rfl rfl

theorem micros_serveCycle (s : State) (c : Chan) (n : Cyc) (room : Byte) : Micros s (s.serveCycle c n room) := by
  unfold State.serveCycle
  dsimp only
  refine Relation.ReflTransGen.trans ?_ (micros_send _ _ _)
  refine Relation.ReflTransGen.trans ?_ (micros_modChan (ChanKeeps.bookkeeping _))
  refine Relation.ReflTransGen.trans ?_ (micros_offerStep _ _ _)
  refine Relation.ReflTransGen.trans ?_ (micros_lapseCheck _ _ _)
  refine Relation.ReflTransGen.trans ?_ (micros_handOutStep _ _ _)
  exact micros_link _ _ _ fun x => ⟨_, _, _, rfl⟩

theorem micros_slip (s : State) (c : Chan) (n : Cyc) : Micros s (s.slip c n) := by
  unfold State.slip
  refine Relation.ReflTransGen.trans ?_ (micros_send _ _ _)
  exact (micros_leaveUp _ _ _).trans (micros_link _ _ _ fun x => ⟨_, _, _, rfl⟩)

theorem micros_takeCycle (s : State) (c : Chan) (n : Cyc) (room : Byte) : Micros s (s.takeCycle c n room) := by
  unfold State.takeCycle
  split
  · exact micros_takeCycleAligning _ _ _ _ _
  · split
    · exact micros_serveCycle _ _ _ _
    · exact micros_slip _ _ _
  · exact micros_bump _ _ _
  · exact micros_bump _ _ _

theorem micros_countSilence (s : State) (c : Chan) : Micros s (s.countSilence c) := by
  unfold State.countSilence
  dsimp only
  split
  · exact .refl
  · exact .refl
  · split
    · exact micros_link _ _ _ fun x => ⟨_, _, _, rfl⟩
    · have k1 : Micros s (s.modChan c fun y => { y with silence := (s.chan c).silence + 1 }) :=
        micros_link _ _ _ fun x => ⟨_, _, _, rfl⟩
      split
      · exact k1.trans (micros_goTo _ _ _)
      · exact k1

theorem micros_silenceExpiry (s : State) (c : Chan) : Micros s (s.silenceExpiry c) := by
  unfold State.silenceExpiry
  dsimp only
  split
  · exact .refl
  · exact .refl
  · split
    · exact micros_goTo _ _ _
    · exact .refl

/-! ## The presence scanner -/

theorem micros_loseEntry (s : State) (h : Handle) (t : Terminal)
    (k : ∀ t, s.term h = some t → t.phase.isLost = false) : Micros s (s.loseEntry h t) :=
  (micros_enterLost s h k).trans (micros_raise _ _)

theorem micros_presence (s : State) (h : Handle) (t : Terminal) (fix : Fix) (d : Drift) (missed : Nat)
    (ht : s.term h = some t) (e : t.phase = .active fix d missed) : Micros s (s.presence h t fix d missed) := by
  unfold State.presence
  split
  · split
    · exact .single (.term h _ t ht (TermKeeps.active rfl rfl e rfl fun st hs => .inr hs))
    · split
      · exact micros_loseEntry _ _ _ fun u hu => by rw [ht] at hu; cases hu; rw [e]; rfl
      · exact .single (.term h _ t ht (TermKeeps.active rfl rfl e rfl fun st hs => .inr hs))
  · exact .refl

theorem micros_stateStep (s : State) (h : Handle) : Micros s (s.stateStep h) := by
  unfold State.stateStep
  split
  · exact .refl
  · rename_i t ht
    split
    · rename_i e; exact micros_presence _ _ _ _ _ _ ht e
    · rename_i e
      split
      · exact .single (.term h _ t ht (TermKeeps.of_unfixed rfl (by rw [e]; rfl) rfl))
      · exact micros_freeEntry _ _ _
    · split
      · exact micros_freeEntry _ _ _
      · exact .refl
    · exact .refl

theorem micros_offerOwed (s : State) (h : Handle) (k : MsgKind) : Micros s (s.offerOwed h k) := by
  unfold State.offerOwed
  split
  · exact .refl
  · split
    · exact .refl
    · dsimp only
      split
      · exact (micros_offerMsg _ _ _).tail (.fields _ _ fun _ => ⟨rfl, rfl, rfl⟩)
      · exact micros_offerMsg _ _ _

theorem micros_owedStep (s : State) (h : Handle) : Micros s (s.owedStep h) := by
  unfold State.owedStep
  split
  · exact .refl
  · split
    · exact micros_foldl _ _ (fun s k => micros_offerOwed s h k) _
    · exact .refl

theorem micros_heardStep (s : State) (h : Handle) : Micros s (s.heardStep h) :=
  .single (.fields _ _ fun _ => ⟨rfl, rfl, rfl⟩)

theorem micros_scanEntry (s : State) (h : Handle) : Micros s (s.scanEntry h) :=
  (((micros_readEntry s h).trans (micros_stateStep _ h)).trans (micros_owedStep _ h)).trans (micros_heardStep _ h)

theorem micros_scan (s : State) : Micros s s.scan := by
  unfold State.scan
  dsimp only
  refine Relation.ReflTransGen.trans ?_ (micros_foldl _ _ (fun s c => micros_countSilence s c) _)
  refine Relation.ReflTransGen.trans ?_ (micros_ageWaiting _)
  exact (micros_other (s := s) (t := { s with prescaler := 0 }) rfl rfl rfl rfl rfl rfl rfl).trans
    (micros_foldl _ _ (fun s h => micros_scanEntry s h) _)

theorem micros_whenRunning (s : State) (f : State → State) (k : Micros s (f s)) : Micros s (s.whenRunning f) := by
  unfold State.whenRunning
  split
  · exact .refl
  · exact k

theorem micros_tick (s : State) : Micros s s.tick := by
  refine micros_whenRunning s _ ?_
  split
  · exact micros_other rfl rfl rfl rfl rfl rfl rfl
  · exact micros_scan _

theorem micros_idle (s : State) : Micros s s.idle := by
  unfold State.idle
  split
  · rename_i e rest _
    exact (micros_other (s := s) (t := { s with events := rest }) rfl rfl rfl rfl rfl rfl rfl).trans
      (micros_takeEvent _ e)
  · exact micros_tick _

theorem micros_lossPart (s : State) (h : Handle) : Micros s (s.lossPart h) := by
  unfold State.lossPart
  have k1 := micros_readEntry s h
  dsimp only
  split
  · exact k1
  · rename_i t ht
    split
    · rename_i e
      split
      · exact k1.trans (micros_loseEntry _ _ _ fun u hu => by rw [ht] at hu; cases hu; rw [e]; rfl)
      · exact k1
    · exact k1

theorem micros_retentionPart (s : State) (h : Handle) : Micros s (s.retentionPart h) := by
  unfold State.retentionPart
  have k1 := micros_readEntry s h
  dsimp only
  split
  · exact k1
  · split
    · split
      · exact k1.trans (micros_freeEntry _ _ _)
      · exact k1
    · exact k1

theorem micros_pendingPart (s : State) (m : Mark) : Micros s (s.pendingPart m) := by
  unfold State.pendingPart
  split
  · exact .refl
  · split
    · exact (micros_removeWaiting _ _).trans (micros_raise _ _)
    · exact .refl

/-! ## The resets -/

theorem ChanKeeps.restarted {L : Nat} (x : ChanState) : ChanKeeps L x x.restarted where
  outq _ := ⟨by simp [ChanState.restarted, ChanState.reset], List.Pairwise.nil⟩
  lapsed := .inr (by simp [ChanState.restarted, ChanState.reset])
  tally k := .inr (by simp [ChanState.restarted, ChanState.reset, ChanState.tally])
  gap _ := by simp [ChanState.gapLaw, ChanState.restarted, ChanState.reset]
  span _ := by simp [ChanState.spanLaw, ChanState.restarted, ChanState.reset]
  work h := by simp [ChanState.workCount, ChanState.restarted, ChanState.reset]
  skew := rfl
  period := .inl rfl

theorem Terminal.oweReported_keeps (t : Terminal) (evs : List Event) (h : Handle) (ks : List MsgKind) :
    (t.oweReported evs h ks).mark = t.mark ∧ (t.oweReported evs h ks).home = t.home ∧
      (t.oweReported evs h ks).phase = t.phase := by
  unfold Terminal.oweReported
  have key : ∀ (l : List MsgKind) (u : Terminal),
      (l.foldl (fun v k => if reported evs k h then v.makeOwed k else v) u).mark = u.mark ∧
      (l.foldl (fun v k => if reported evs k h then v.makeOwed k else v) u).home = u.home ∧
      (l.foldl (fun v k => if reported evs k h then v.makeOwed k else v) u).phase = u.phase := by
    intro l
    induction l with
    | nil => intro u; exact ⟨rfl, rfl, rfl⟩
    | cons k ks ih =>
      intro u
      rw [List.foldl_cons]
      obtain ⟨h1, h2, h3⟩ := ih (if reported evs k h then u.makeOwed k else u)
      refine ⟨h1.trans ?_, h2.trans ?_, h3.trans ?_⟩ <;> split <;> simp
  exact key ks t

/-- What a keep-tree restart leaves of an entry's fields (R39). -/
theorem TermKeeps.restarted (s : State) (t : Terminal) (evs : List Event) (h : Handle) :
    TermKeeps s t (t.restarted evs h) := by
  unfold Terminal.restarted
  dsimp only
  split
  · rename_i e
    refine TermKeeps.of_unfixed (by simp) ?_ ?_ <;> simp [e, Phase.fix]
  · rename_i n l f d e
    obtain ⟨h1, h2, h3⟩ := Terminal.oweReported_keeps (Terminal.clearSamples { t with heard := false }) evs h [.hush]
    have hp : (Terminal.clearSamples { t with heard := false }).phase = .ranging n [] f d := by
      simp [Terminal.clearSamples, e]
    have hm : (Terminal.clearSamples { t with heard := false }).mark = t.mark := by
      simp [Terminal.clearSamples, e]
    exact TermKeeps.of_unfixed (h1.trans hm) (by rw [h3, hp, e]; rfl) (by rw [h3, hp]; rfl)
  · rename_i fix e
    obtain ⟨h1, h2, h3⟩ := Terminal.oweReported_keeps { t with heard := false } evs h [.setDelay, .resume]
    refine TermKeeps.of_fix h1 h2 (by rw [h3]) (by rw [h3]) fun f d n st hp hs => ?_
    rw [h3, e] at hp; cases hp
  · rename_i e
    exact TermKeeps.active rfl rfl e rfl fun st hs => by cases hs
  · rename_i fix e
    obtain ⟨h1, h2, h3⟩ := Terminal.oweReported_keeps { t with heard := false } evs h [.hush]
    refine TermKeeps.of_fix h1 h2 (by rw [h3]) (by rw [h3]) fun f d n st hp hs => ?_
    rw [h3, e] at hp; cases hp
  · exact TermKeeps.of_fix rfl rfl rfl rfl fun f d n st hp hs => .inr ⟨f, d, n, hp, hs⟩
  · split
    · exact TermKeeps.of_fix rfl rfl rfl rfl fun f d n st hp hs => .inr ⟨f, d, n, hp, hs⟩
    · refine TermKeeps.of_fix (by simp) (by simp) (by simp) (by simp) fun f d n st hp hs => .inr ⟨f, d, n, ?_, hs⟩
      simpa using hp
  · exact TermKeeps.of_fix rfl rfl rfl rfl fun f d n st hp hs => .inr ⟨f, d, n, hp, hs⟩

theorem micros_restartEntry (s : State) (evs : List Event) (h : Handle) : Micros s (s.restartEntry evs h) := by
  unfold State.restartEntry
  have k1 := micros_readEntry s h
  dsimp only
  split
  · exact k1
  · rename_i t ht
    split
    · exact k1.trans (micros_freeEntry _ _ _)
    · rename_i e
      refine (k1.tail (.fields h (fun u => { u with heard := false }) fun _ => ⟨rfl, rfl, rfl⟩)).trans (micros_enterLost _ _ fun u hu => ?_)
      rw [State.term_modTerm_same, ht] at hu
      cases hu
      simp [e, Phase.isLost]
    · exact k1.tail (.term h _ t ht (TermKeeps.restarted _ _ _ _))

/-- No offer stands and no gap is in flight on any channel. -/
def NoGaps (s : State) : Prop := ∀ c, (s.chan c).offer = none ∧ (s.chan c).gaps = []

theorem NoGaps.of_keeps {s t : State} (k : ∀ c, (t.chan c).offer = (s.chan c).offer ∧ (t.chan c).gaps = (s.chan c).gaps)
    (h : NoGaps s) : NoGaps t := fun c => ⟨(k c).1.trans (h c).1, (k c).2.trans (h c).2⟩

theorem NoGaps.readEntry {s : State} (h : Handle) (k : NoGaps s) : NoGaps (s.readEntry h) := by
  intro c
  obtain ⟨f, -, e⟩ := s.readEntry_gaps h c
  exact ⟨State.readEntry_offer_none s h c (k c).1, by rw [e, (k c).2]; rfl⟩

theorem NoGaps.freeEntry {s : State} (h : Handle) (b : Bool) (k : NoGaps s) : NoGaps (s.freeEntry h b) := by
  intro c
  unfold State.freeEntry
  dsimp only
  have e : ((s.voidAll h).modChans fun x => { x with outq := removeAllButDismiss h x.outq }).chan c =
      { ((s.chan c).voidFor h) with outq := removeAllButDismiss h (s.chan c).outq } := by
    rw [State.chan_modChans]; unfold State.voidAll; rw [State.chan_modChans]; rfl
  have key : ∀ y : ChanState, y = { ((s.chan c).voidFor h) with outq := removeAllButDismiss h (s.chan c).outq } →
      y.offer = none ∧ y.gaps = [] := by
    rintro y rfl
    simp [ChanState.voidFor, (k c).1, (k c).2]
  split
  · rw [State.chan_raise]; exact key _ e
  · exact key _ e

theorem NoGaps.rosterLeave {s : State} (c : Chan) (h : Handle) (k : NoGaps s) : NoGaps (s.rosterLeave c h) :=
  NoGaps.of_keeps (fun d => ⟨State.rosterLeave_keeps (·.offer) (fun _ _ _ => rfl) s c d h,
    State.rosterLeave_keeps (·.gaps) (fun _ _ _ => rfl) s c d h⟩) k

theorem NoGaps.queueFor {s : State} (h : Handle) (m : TreeMsg) (k : NoGaps s) : NoGaps (s.queueFor h m) := by
  unfold State.queueFor
  split
  · exact k
  · rename_i t _
    dsimp only
    have k1 : NoGaps (s.modTerm h fun u => { u with owed := u.owed.dropFor m.kind }) := k
    have k2 : NoGaps ((s.modTerm h fun u => { u with owed := u.owed.dropFor m.kind }).offerMsg t.home m).1 :=
      NoGaps.of_keeps (fun d => ⟨State.offerMsg_keeps (·.offer) (fun _ _ => rfl) _ _ d m,
        State.offerMsg_keeps (·.gaps) (fun _ _ => rfl) _ _ d m⟩) k1
    split
    · exact k2
    · exact NoGaps.of_keeps (fun d => by rw [State.takeReport_chan]; exact ⟨rfl, rfl⟩) k2

theorem NoGaps.restartEntry {s : State} (evs : List Event) (h : Handle) (k : NoGaps s) :
    NoGaps (s.restartEntry evs h) := by
  unfold State.restartEntry
  dsimp only
  have k1 := k.readEntry h
  split
  · exact k1
  · split
    · exact k1.freeEntry _ _
    · unfold State.enterLost
      split
      · exact k1
      · refine NoGaps.queueFor _ _ ?_
        have k2 : NoGaps ((s.readEntry h).modTerm h fun u => { u with heard := false }) := k1
        exact NoGaps.rosterLeave _ _ k2
    · exact k1

theorem micros_keepTreeRestart (s : State) (source : Nat) : Micros s (s.keepTreeRestart source) := by
  unfold State.keepTreeRestart
  dsimp only
  generalize s.takeAllEvents.allReports = evs
  have k0 := micros_takeAllEvents s
  generalize s.takeAllEvents = s1 at k0
  have k1 : Micros s (s1.modChans ChanState.restarted) := k0.trans (micros_modChans fun c => ChanKeeps.restarted _)
  have k2 := (k1.trans (micros_waiting _ [] false (by simp))).tail (.notices [] (.inl (by simp)))
  have k3 : Micros s { s1 with
      chans := s1.chans.map ChanState.restarted
      prescaler := 0
      fullLatch := false
      waiting := []
      pendingFullLatch := false
      notices := []
      overflow := false
      port := { txn := .idle, armed := none } } := k2.trans (micros_other rfl rfl rfl rfl rfl rfl rfl)
  have g3 : NoGaps { s1 with
      chans := s1.chans.map ChanState.restarted
      prescaler := 0
      fullLatch := false
      waiting := []
      pendingFullLatch := false
      notices := []
      overflow := false
      port := { txn := .idle, armed := none } } := fun c => by
    unfold State.chan
    dsimp only
    rw [PerChan.get_map]
    exact ⟨rfl, rfl⟩
  revert k3 g3
  generalize ({ s1 with
      chans := s1.chans.map ChanState.restarted
      prescaler := 0
      fullLatch := false
      waiting := []
      pendingFullLatch := false
      notices := []
      overflow := false
      port := { txn := .idle, armed := none } } : State) = s2
  intro k3 g3
  have k4 := k3.trans (micros_raise s2 (Notice.restarted source))
  have g4 : NoGaps (s2.raise (Notice.restarted source)) := fun c => by rw [State.chan_raise]; exact g3 c
  have k5 := k4.trans (micros_foldl (s2.raise (Notice.restarted source)).heldHandles
    (fun st h => st.restartEntry evs h) (fun s h => micros_restartEntry s evs h) _)
  refine k5.tail (.rebuild ?_)
  have key : ∀ (l : List Handle) (st : State), NoGaps st → NoGaps (l.foldl (fun st h => st.restartEntry evs h) st) := by
    intro l
    induction l with
    | nil => intro st k; exact k
    | cons h hs ih => intro st k; exact ih _ (k.restartEntry evs h)
  exact key _ _ g4

theorem micros_takeReset (s : State) (k : RestartKind) (source : Nat) : Micros s (s.takeReset k source) := by
  cases k with
  | keepTree => exact micros_keepTreeRestart _ _
  | full => exact .single .full

end Sys2Proof.Machine
end

