-- ==== Sys2Proof/Laws/Pins.lean ====
section
/-! SUPPORT. Channel link records leave the pins alone: one lemma for each operation they are made of. -/

namespace Sys2Proof.Machine

variable (s : State)

/-- A fold of changes that each leave the pins leaves them. -/
theorem foldl_pins {α : Type} (f : State → α → State) (hf : ∀ s a, (f s a).pins = s.pins) (l : List α) :
    (l.foldl f s).pins = s.pins := by
  induction l generalizing s with
  | nil => rfl
  | cons a l ih => rw [List.foldl_cons, ih, hf]

/-! ## The registry -/

@[simp] theorem State.takeReport_pins (why : ReportCause) (c : Chan) (k : MsgKind) (h : Handle) :
    (s.takeReport why c k h).pins = s.pins := by
  unfold State.takeReport
  repeat' split
  all_goals simp_all
@[simp] theorem State.offerMsg_pins (c : Chan) (m : TreeMsg) : (s.offerMsg c m).1.pins = s.pins := by
  unfold State.offerMsg
  dsimp only
  repeat' split
  all_goals simp_all
@[simp] theorem State.queueFor_pins (h : Handle) (m : TreeMsg) : (s.queueFor h m).pins = s.pins := by
  unfold State.queueFor
  dsimp only
  repeat' split
  all_goals simp_all
@[simp] theorem State.rosterJoin_pins (c : Chan) (h : Handle) : (s.rosterJoin c h).pins = s.pins := by
  unfold State.rosterJoin
  repeat' split
  all_goals simp_all
@[simp] theorem State.rosterLeave_pins (c : Chan) (h : Handle) : (s.rosterLeave c h).pins = s.pins := by
  unfold State.rosterLeave
  repeat' split
  all_goals simp_all
@[simp] theorem State.rangeRequest_pins (h : Handle) : (s.rangeRequest h).pins = s.pins := by
  unfold State.rangeRequest
  repeat' split
  all_goals simp_all
@[simp] theorem State.offerFlaw_pins (k : FlawKind) (h : Handle) : (s.offerFlaw k h).pins = s.pins := by
  unfold State.offerFlaw
  repeat' split
  all_goals simp_all
@[simp] theorem State.dismissDamaged_pins (h : Handle) (c : Chan) : (s.dismissDamaged h c).pins = s.pins := by
  unfold State.dismissDamaged
  simp_all
@[simp] theorem State.leaveRosters_pins (h : Handle) : (s.leaveRosters h).pins = s.pins := by
  exact foldl_pins _ _ (fun _ _ => by simp) _
@[simp] theorem State.storeDamaged_pins (h : Handle) : (s.storeDamaged h).pins = s.pins := rfl
@[simp] theorem State.dismissEverywhere_pins (h : Handle) : (s.dismissEverywhere h).pins = s.pins := by
  exact foldl_pins _ _ (fun _ _ => by simp) _
@[simp] theorem State.damage_pins (h : Handle) : (s.damage h).pins = s.pins := by
  unfold State.damage; simp
@[simp] theorem State.readEntry_pins (h : Handle) : (s.readEntry h).pins = s.pins := by
  unfold State.readEntry
  repeat' split
  all_goals simp_all
@[simp] theorem State.freeEntry_pins (h : Handle) (notice : Bool) : (s.freeEntry h notice).pins = s.pins := by
  unfold State.freeEntry
  repeat' split
  all_goals simp_all
@[simp] theorem State.enterDismissing_pins (h : Handle) : (s.enterDismissing h).pins = s.pins := by
  unfold State.enterDismissing
  repeat' split
  all_goals simp_all
@[simp] theorem State.enterLost_pins (h : Handle) : (s.enterLost h).pins = s.pins := by
  unfold State.enterLost
  repeat' split
  all_goals simp_all
@[simp] theorem State.takeHandle_pins : (s.takeHandle).1.pins = s.pins := by
  unfold State.takeHandle
  repeat' split
  all_goals simp_all
@[simp] theorem State.removeWaiting_pins (m : Mark) : (s.removeWaiting m).pins = s.pins := rfl
@[simp] theorem State.createEntry_pins (h : Handle) (m : Mark) (c : Chan) (coarse : Int) :
    (s.createEntry h m c coarse).pins = s.pins := by
  unfold State.createEntry
  repeat' split
  all_goals simp_all
@[simp] theorem State.newEntry_pins (m : Mark) (c : Chan) (coarse : Int) :
    (s.newEntry m c coarse).1.pins = s.pins := by
  have h : (s.takeHandle).1.pins = s.pins := by simp
  unfold State.newEntry
  split <;> simp_all
@[simp] theorem State.forgetEnrol_pins (h : Handle) : (s.forgetEnrol h).pins = s.pins := rfl
@[simp] theorem State.reEnrol_pins (h : Handle) (c : Chan) (coarse : Int) (retry : Nat) (remove announce : Bool) :
    (s.reEnrol h c coarse retry remove announce).pins = s.pins := by
  unfold State.reEnrol
  repeat' split
  all_goals simp_all

/-! ## Ranging -/

@[simp] theorem State.failAttempt_pins (h : Handle) (o : RangeOutcome) : (s.failAttempt h o).pins = s.pins := by
  unfold State.failAttempt
  repeat' split
  all_goals simp_all
@[simp] theorem State.addRetry_pins (h : Handle) (o : RangeOutcome) : (s.addRetry h o).pins = s.pins := by
  unfold State.addRetry
  repeat' split
  all_goals simp_all
@[simp] theorem State.acceptAttempt_pins (h : Handle) (final : Int) : (s.acceptAttempt h final).pins = s.pins := by
  unfold State.acceptAttempt
  repeat' split
  all_goals simp_all
@[simp] theorem State.completeAttempt_pins (h : Handle) (samples : List Int) :
    (s.completeAttempt h samples).pins = s.pins := by
  unfold State.completeAttempt
  repeat' split
  all_goals simp_all
@[simp] theorem State.appendSample_pins (h : Handle) (x : Int) : (s.appendSample h x).pins = s.pins := by
  unfold State.appendSample
  repeat' split
  all_goals simp_all
@[simp] theorem State.mismatch_pins (c : Chan) (h : Handle) : (s.mismatch c h).pins = s.pins := by
  unfold State.mismatch
  simp_all
@[simp] theorem State.setSeen_pins (c : Chan) (tag : Tag) : (s.setSeen c tag).pins = s.pins := by
  unfold State.setSeen
  simp_all
@[simp] theorem State.setHeard_pins (h : Handle) : (s.setHeard h).pins = s.pins := by
  unfold State.setHeard
  simp_all
@[simp] theorem State.takeRangeReply_pins (c : Chan) (g : Gap) (h : Handle) (seen : Bool) (a : Arrival) :
    (s.takeRangeReply c g h seen a).pins = s.pins := by
  unfold State.takeRangeReply
  dsimp only
  repeat' split
  all_goals simp_all
@[simp] theorem State.gapCloseEvent_pins (c : Chan) (h : Handle) (seen : Bool) :
    (s.gapCloseEvent c h seen).pins = s.pins := by
  unfold State.gapCloseEvent
  dsimp only
  repeat' split
  all_goals simp_all
@[simp] theorem State.activate_pins (h : Handle) : (s.activate h).pins = s.pins := by
  unfold State.activate
  repeat' split
  all_goals simp_all

/-! ## The gap scheduler -/

@[simp] theorem State.makeOffer_pins (c : Chan) (n : Cyc) (k : OfferKind) (span : Nat × Nat) :
    (s.makeOffer c n k span).pins = s.pins := by
  unfold State.makeOffer
  simp_all
@[simp] theorem State.offerCensus_pins (c : Chan) (n : Cyc) : (s.offerCensus c n).pins = s.pins := by
  unfold State.offerCensus
  simp_all
@[simp] theorem State.offerRange_pins (c : Chan) (n : Cyc) (l : List Handle) :
    (s.offerRange c n l).pins = s.pins := by
  induction l generalizing s with
  | nil => rfl
  | cons h l ih => unfold State.offerRange; (try dsimp only); (repeat' split) <;> simp_all
@[simp] theorem State.chooseOffer_pins (c : Chan) (n : Cyc) : (s.chooseOffer c n).pins = s.pins := by
  unfold State.chooseOffer
  dsimp only
  repeat' split
  all_goals simp_all
@[simp] theorem State.quiet_pins (c : Chan) : (s.quiet c).pins = s.pins := by
  unfold State.quiet
  repeat' split
  all_goals simp_all
@[simp] theorem State.declineOffer_pins (c : Chan) (o : Offer) : (s.declineOffer c o).pins = s.pins := by
  unfold State.declineOffer
  dsimp only
  repeat' split
  all_goals simp_all
@[simp] theorem State.expireOffer_pins (c : Chan) (n : Cyc) : (s.expireOffer c n).pins = s.pins := by
  unfold State.expireOffer
  repeat' split
  all_goals simp_all
@[simp] theorem State.offerStep_pins (c : Chan) (n : Cyc) : (s.offerStep c n).1.pins = s.pins := by
  unfold State.offerStep
  dsimp only
  repeat' split
  all_goals simp_all
@[simp] theorem State.takePlaceResult_pins (c : Chan) (tag : Tag) (placed : Bool) :
    (s.takePlaceResult c tag placed).pins = s.pins := by
  unfold State.takePlaceResult
  repeat' split
  all_goals simp_all
@[simp] theorem State.closeGap_pins (c : Chan) (g : Gap) : (s.closeGap c g).pins = s.pins := by
  unfold State.closeGap
  repeat' split
  all_goals simp_all
@[simp] theorem State.takeGapClosed_pins (c : Chan) (tag : Tag) : (s.takeGapClosed c tag).pins = s.pins := by
  unfold State.takeGapClosed
  repeat' split
  all_goals simp_all
@[simp] theorem State.lapseOne_pins (c : Chan) (tag : Tag) : (s.lapseOne c tag).pins = s.pins := by
  unfold State.lapseOne
  repeat' split
  all_goals simp_all
@[simp] theorem State.lapseCheck_pins (c : Chan) (n : Cyc) : (s.lapseCheck c n).pins = s.pins := by
  exact foldl_pins _ _ (fun _ _ => by simp) _

/-! ## Admission, census and drift -/

@[simp] theorem State.refreshWaiting_pins (m : Mark) (c : Chan) (coarse : Int) :
    (s.refreshWaiting m c coarse).pins = s.pins := rfl
@[simp] theorem State.appendWaiting_pins (m : Mark) (c : Chan) (coarse : Int) :
    (s.appendWaiting m c coarse).pins = s.pins := by
  unfold State.appendWaiting
  repeat' split
  all_goals simp_all
@[simp] theorem State.barredAnswer_pins (c : Chan) (m : Mark) : (s.barredAnswer c m).pins = s.pins := by
  unfold State.barredAnswer
  repeat' split
  all_goals simp_all
@[simp] theorem State.registrationFailed_pins (c : Chan) (m : Mark) : (s.registrationFailed c m).pins = s.pins := by
  unfold State.registrationFailed
  dsimp only
  repeat' split
  all_goals simp_all
@[simp] theorem State.register_pins (c : Chan) (m : Mark) (coarse : Int) : (s.register c m coarse).pins = s.pins := by
  have h : (s.newEntry m c coarse).1.pins = s.pins := by simp
  unfold State.register
  split <;> simp_all
@[simp] theorem State.admission_pins (c : Chan) (m : Mark) (coarse : Int) :
    (s.admission c m coarse).pins = s.pins := by
  unfold State.admission; (repeat' split) <;> simp
@[simp] theorem State.censusDefect_pins (c : Chan) (k : TallyKind) (m : Mark) :
    (s.censusDefect c k m).pins = s.pins := by
  unfold State.censusDefect
  repeat' split
  all_goals simp_all
@[simp] theorem State.addAnswer_pins (c : Chan) (tag : Tag) (m : Mark) : (s.addAnswer c tag m).pins = s.pins := by
  unfold State.addAnswer
  simp_all
@[simp] theorem State.readAll_pins : (s.readAll).pins = s.pins := by
  exact foldl_pins _ _ (fun _ _ => by simp) _
@[simp] theorem State.censusRestart_pins (c : Chan) (h : Handle) (t : Terminal) (retry : Nat) (coarse : Int) :
    (s.censusRestart c h t retry coarse).pins = s.pins := by
  unfold State.censusRestart
  dsimp only
  repeat' split
  all_goals simp_all
@[simp] theorem State.markConflict_pins (c : Chan) (h : Handle) (m : Mark) :
    (s.markConflict c h m).pins = s.pins := by
  unfold State.markConflict
  simp_all
@[simp] theorem State.matched_pins (c : Chan) (h : Handle) (t : Terminal) (coarse : Int) :
    (s.matched c h t coarse).pins = s.pins := by
  unfold State.matched
  repeat' split
  all_goals simp_all
@[simp] theorem State.takeCensusReply_pins (c : Chan) (g : Gap) (answers : List Mark) (a : Arrival) :
    (s.takeCensusReply c g answers a).pins = s.pins := by
  unfold State.takeCensusReply
  dsimp only
  repeat' split
  all_goals simp_all
@[simp] theorem State.driftRerange_pins (h : Handle) (estimate : Int) :
    (s.driftRerange h estimate).pins = s.pins := by
  unfold State.driftRerange
  repeat' split
  all_goals simp_all
@[simp] theorem State.driftTrim_pins (h : Handle) (t : Terminal) (fix : Fix) (d : Drift) (missed : Nat) (sum : Int) :
    (s.driftTrim h t fix d missed sum).pins = s.pins := by
  unfold State.driftTrim
  dsimp only
  repeat' split
  all_goals simp_all
@[simp] theorem State.driftOffset_pins (h : Handle) (t : Terminal) (fix : Fix) (d : Drift) (missed : Nat) (e : Int) :
    (s.driftOffset h t fix d missed e).pins = s.pins := by
  unfold State.driftOffset
  repeat' split
  all_goals simp_all
@[simp] theorem State.takeDataBurst_pins (c : Chan) (a : Arrival) : (s.takeDataBurst c a).pins = s.pins := by
  unfold State.takeDataBurst
  dsimp only
  repeat' split
  all_goals simp_all
@[simp] theorem State.takeArrival_pins (c : Chan) (a : Arrival) : (s.takeArrival c a).pins = s.pins := by
  unfold State.takeArrival
  repeat' split
  all_goals simp_all

/-! ## The channel link units -/

@[simp] theorem State.setLink_pins (c : Chan) (l : LinkState) : (s.setLink c l).pins = s.pins := by
  unfold State.setLink
  repeat' split
  all_goals simp_all
@[simp] theorem State.leaveUp_pins (c : Chan) (l : LinkState) : (s.leaveUp c l).pins = s.pins := by
  unfold State.leaveUp
  simp_all
@[simp] theorem State.goTo_pins (c : Chan) (l : LinkState) : (s.goTo c l).pins = s.pins := by
  unfold State.goTo
  repeat' split
  all_goals simp_all
@[simp] theorem State.takeHello_pins (c : Chan) (len : BitVec 24) (cur : Cyc) :
    (s.takeHello c len cur).pins = s.pins := by
  unfold State.takeHello
  repeat' split
  all_goals simp_all
@[simp] theorem State.takeLinkDown_pins (c : Chan) : (s.takeLinkDown c).pins = s.pins := by
  unfold State.takeLinkDown
  repeat' split
  all_goals simp_all
@[simp] theorem State.announce_pins (c : Chan) (h : Handle) : (s.announce c h).pins = s.pins := by
  unfold State.announce
  dsimp only
  repeat' split
  all_goals simp_all
@[simp] theorem State.alignmentComplete_pins (c : Chan) (n : Cyc) : (s.alignmentComplete c n).pins = s.pins := by
  refine (foldl_pins _ _ (fun _ _ => by simp) _).trans (by simp)
@[simp] theorem State.takeCycleAligning_pins (c : Chan) (last : Cyc) (count : Nat) (n : Cyc) :
    (s.takeCycleAligning c last count n).pins = s.pins := by
  unfold State.takeCycleAligning
  dsimp only
  repeat' split
  all_goals simp_all
@[simp] theorem State.handOutStep_pins (c : Chan) (room : Byte) : (s.handOutStep c room).pins = s.pins := by
  unfold State.handOutStep
  simp_all
@[simp] theorem State.serveCycle_pins (c : Chan) (n : Cyc) (room : Byte) : (s.serveCycle c n room).pins = s.pins := by
  unfold State.serveCycle
  simp_all
@[simp] theorem State.slip_pins (c : Chan) (n : Cyc) : (s.slip c n).pins = s.pins := by
  unfold State.slip
  simp_all
@[simp] theorem State.takeCycle_pins (c : Chan) (n : Cyc) (room : Byte) : (s.takeCycle c n room).pins = s.pins := by
  unfold State.takeCycle
  repeat' split
  all_goals simp_all
@[simp] theorem State.takeRecord_pins (c : Chan) (r : RxRecord) : (s.takeRecord c r).pins = s.pins := by
  unfold State.takeRecord
  repeat' split
  all_goals simp_all
@[simp] theorem State.judgeRecord_pins (c : Chan) (kind : Byte) (body : List Byte) :
    (s.judgeRecord c kind body).pins = s.pins := by
  unfold State.judgeRecord
  repeat' split
  all_goals simp_all
@[simp] theorem State.holdBytes_pins (c : Chan) (bs : List Byte) : (s.holdBytes c bs).pins = s.pins := by
  unfold State.holdBytes
  simp_all

end Sys2Proof.Machine
end

