-- ==== Sys2Proof/Laws/Roster.lean ====
section
/-! SUPPORT. The law of the roster (R62) handle by handle, and what each shared operation leaves of it: an operation
on one entry keeps the roster and the activity of every other handle (`RosterKeeps`), and keeps the law of its own. -/

namespace Sys2Proof.Machine

/-- Handle h holds an ACTIVE entry homed on channel c. -/
def State.activeOn (s : State) (h : Handle) (c : Chan) : Prop :=
  ∃ t, s.term h = some t ∧ t.home = c ∧ t.phase.isActive = true

/-- The law of the roster for one handle: it stands at most once on a roster, and does so exactly while the channel is
UP and the entry ACTIVE with home there. -/
def State.rosterAt (s : State) (h : Handle) : Prop :=
  ∀ c, (s.chan c).roster.count h ≤ 1 ∧ (0 < (s.chan c).roster.count h ↔ s.isUp c = true ∧ s.activeOn h c)

theorem rosterLaw_iff {s : State} : RosterLaw s ↔ ∀ h, s.rosterAt h := by
  simp only [RosterLaw, State.rosterAt, List.nodup_iff_count_le_one, List.count_pos_iff, State.activeOn]
  exact ⟨fun k h c => ⟨(k c).1 h, (k c).2 h⟩, fun k c => ⟨fun h => (k h c).1, fun h => (k h c).2⟩⟩

/-- From s to t the links stay UP or not, and for the handles of p so do the rosters and the ACTIVE entries. -/
structure RosterKeeps (p : Handle → Prop) (s t : State) : Prop where
  up : ∀ c, t.isUp c = s.isUp c
  roster : ∀ c h, p h → (t.chan c).roster.count h = (s.chan c).roster.count h
  active : ∀ h c, p h → (t.activeOn h c ↔ s.activeOn h c)

/-- Every handle's part of the law is kept. -/
abbrev RosterKept (s t : State) : Prop := ∀ h, s.rosterAt h → t.rosterAt h

namespace RosterKeeps

theorem refl (p : Handle → Prop) (s : State) : RosterKeeps p s s := ⟨fun _ => rfl, fun _ _ _ => rfl, fun _ _ _ => .rfl⟩

theorem trans {p : Handle → Prop} {s t u : State} (a : RosterKeeps p s t) (b : RosterKeeps p t u) : RosterKeeps p s u :=
  ⟨fun c => (b.up c).trans (a.up c), fun c h k => (b.roster c h k).trans (a.roster c h k),
    fun h c k => (b.active h c k).trans (a.active h c k)⟩

theorem weaken {p q : Handle → Prop} {s t : State} (k : RosterKeeps p s t) (w : ∀ h, q h → p h) : RosterKeeps q s t :=
  ⟨k.up, fun c h m => k.roster c h (w h m), fun h c m => k.active h c (w h m)⟩

theorem rosterAt {p : Handle → Prop} {s t : State} (k : RosterKeeps p s t) {h : Handle} (m : p h) (r : s.rosterAt h) :
    t.rosterAt h := fun c => by
  rw [k.roster c h m, k.up c, k.active h c m]
  exact r c

end RosterKeeps

/-- Nothing the law speaks of changes. -/
abbrev RosterSame (s t : State) : Prop := RosterKeeps (fun _ => True) s t

theorem RosterKeeps.kept {s t : State} (k : RosterSame s t) : RosterKept s t := fun _ => k.rosterAt trivial

theorem RosterKeeps.but {p : Handle → Prop} {s t : State} (k : RosterSame s t) : RosterKeeps p s t :=
  k.weaken fun _ _ => trivial

/-- A change of entry h alone keeps the law when it keeps h's own part. -/
theorem RosterKept.of_but {s t : State} {h : Handle} (k : RosterKeeps (· ≠ h) s t)
    (own : s.rosterAt h → t.rosterAt h) : RosterKept s t := fun x r => by
  by_cases e : x = h
  · subst e; exact own r
  · exact k.rosterAt e r

theorem RosterKept.trans {s t u : State} (a : RosterKept s t) (b : RosterKept t u) : RosterKept s u :=
  fun h r => b h (a h r)

/-- On no roster and not ACTIVE. -/
theorem State.rosterAt_of_absent {s : State} {h : Handle} (roster : ∀ c, (s.chan c).roster.count h = 0)
    (idle : ∀ c, ¬s.activeOn h c) : s.rosterAt h := fun c => by simp [roster c, idle c]

theorem State.not_activeOn {s : State} {h : Handle} {t : Terminal} (ht : s.term h = some t)
    (idle : t.phase.isActive = false) (c : Chan) : ¬s.activeOn h c := by
  rintro ⟨u, hu, -, a⟩
  rw [ht] at hu
  cases hu
  rw [idle] at a
  cases a

theorem State.not_activeOn_of_none {s : State} {h : Handle} (ht : s.term h = none) (c : Chan) : ¬s.activeOn h c := by
  rintro ⟨u, hu, -⟩
  rw [ht] at hu
  cases hu

/-- An entry that is not ACTIVE stands on no roster. -/
theorem State.rosterAt.absent {s : State} {h : Handle} (r : s.rosterAt h) (idle : ∀ c, ¬s.activeOn h c) (c : Chan) :
    (s.chan c).roster.count h = 0 := by
  have := (r c).2
  simp only [idle c, and_false, iff_false] at this
  omega

/-- An entry stands on no roster but that of its home channel. -/
theorem State.rosterAt.absent_elsewhere {s : State} {h : Handle} {t : Terminal} (r : s.rosterAt h)
    (ht : s.term h = some t) {c : Chan} (e : t.home ≠ c) : (s.chan c).roster.count h = 0 := by
  have := (r c).2
  have idle : ¬s.activeOn h c := by
    rintro ⟨u, hu, home, -⟩
    rw [ht] at hu
    cases hu
    exact e home
  simp only [idle, and_false, iff_false] at this
  omega

/-! ## Updates that leave the law's parts alone -/

theorem RosterSame.of_parts {s t : State} (term : ∀ h, t.term h = s.term h)
    (chan : ∀ c, (t.chan c).link = (s.chan c).link ∧ (t.chan c).roster = (s.chan c).roster) : RosterSame s t where
  up c := by simp [State.isUp, ChanState.isUp, (chan c).1]
  roster c _ _ := by rw [(chan c).2]
  active h c _ := by simp [State.activeOn, term h]

theorem RosterSame.modChan (s : State) (c : Chan) {f : ChanState → ChanState}
    (k : ∀ x, (f x).link = x.link ∧ (f x).roster = x.roster) : RosterSame s (s.modChan c f) :=
  .of_parts (fun _ => rfl) fun d => by
    rw [State.chan_modChan]
    split
    · rename_i e; subst e; exact k _
    · exact ⟨rfl, rfl⟩

theorem RosterSame.modChans (s : State) {f : ChanState → ChanState}
    (k : ∀ x, (f x).link = x.link ∧ (f x).roster = x.roster) : RosterSame s (s.modChans f) :=
  .of_parts (fun _ => rfl) fun d => by rw [State.chan_modChans]; exact k _

theorem RosterSame.raise (s : State) (n : Notice) : RosterSame s (s.raise n) :=
  .of_parts (fun _ => by simp) fun c => by simp

theorem RosterSame.bump (s : State) (c : Chan) (k : TallyKind) : RosterSame s (s.bump c k) :=
  .modChan s c fun _ => ⟨rfl, rfl⟩

theorem RosterSame.send (s : State) (c : Chan) (r : TxRecord) : RosterSame s (s.send c r) :=
  .modChan s c fun _ => ⟨rfl, rfl⟩

theorem RosterSame.voidAll (s : State) (h : Handle) : RosterSame s (s.voidAll h) := .modChans s fun _ => ⟨rfl, rfl⟩

theorem RosterSame.retention (s : State) (l : List Handle) : RosterSame s { s with retention := l } :=
  .of_parts (fun _ => rfl) fun _ => ⟨rfl, rfl⟩

theorem RosterSame.forgetEnrol (s : State) (h : Handle) : RosterSame s (s.forgetEnrol h) :=
  .of_parts (fun _ => rfl) fun _ => ⟨rfl, rfl⟩

theorem RosterSame.rangeRequest (s : State) (h : Handle) : RosterSame s (s.rangeRequest h) := by
  unfold State.rangeRequest
  split
  · exact .refl _ _
  · split
    · exact .refl _ _
    · exact .modChan s _ fun _ => ⟨rfl, rfl⟩

theorem RosterSame.offerFlaw (s : State) (k : FlawKind) (h : Handle) : RosterSame s (s.offerFlaw k h) :=
  .of_parts (fun x => State.term_offerFlaw s k h x) fun c => by rw [State.chan_offerFlaw]; exact ⟨rfl, rfl⟩

/-- A change of an entry that keeps home channel and activity. -/
theorem RosterSame.modTerm (s : State) (h : Handle) {f : Terminal → Terminal}
    (k : ∀ t, s.term h = some t → (f t).home = t.home ∧ (f t).phase.isActive = t.phase.isActive) :
    RosterSame s (s.modTerm h f) where
  up c := by simp
  roster c _ _ := by simp
  active x c _ := by
    by_cases e : x = h
    · subst e
      cases ht : s.term x with
      | none => simp [State.activeOn, ht]
      | some t => simp [State.activeOn, ht, (k t ht).1, (k t ht).2]
    · simp [State.activeOn, State.term_modTerm_ne s e]

/-- A change of entry h touches no other handle. -/
theorem RosterKeeps.modTerm (s : State) (h : Handle) (f : Terminal → Terminal) :
    RosterKeeps (· ≠ h) s (s.modTerm h f) where
  up c := by simp
  roster c _ _ := by simp
  active x c e := by simp [State.activeOn, State.term_modTerm_ne s e]

theorem RosterSame.foldl {α : Type} (l : List α) (f : State → α → State) (k : ∀ s a, RosterSame s (f s a)) (s : State) :
    RosterSame s (l.foldl f s) := by
  induction l generalizing s with
  | nil => exact .refl _ _
  | cons a l ih => exact (k s a).trans (ih _)

theorem RosterKept.foldl {α : Type} (l : List α) (f : State → α → State) (k : ∀ s a, RosterKept s (f s a)) (s : State) :
    RosterKept s (l.foldl f s) := by
  induction l generalizing s with
  | nil => exact fun _ => id
  | cons a l ih => exact (k s a).trans (ih _)

/-! ## Messages -/

theorem RosterSame.takeReport (s : State) (why : ReportCause) (c : Chan) (k : MsgKind) (h : Handle) :
    RosterSame s (s.takeReport why c k h) := by
  cases why <;> exact .modTerm s h fun t _ => by split <;> simp

theorem RosterSame.offerMsg (s : State) (c : Chan) (m : TreeMsg) : RosterSame s (s.offerMsg c m).1 := by
  unfold State.offerMsg
  split
  · dsimp only
    have k := RosterSame.modChan s c (f := fun x => { x with outq := (joinRegistry s.tree.r m (s.chan c).outq).queue })
      fun _ => ⟨rfl, rfl⟩
    split
    · exact RosterKeeps.trans k (RosterSame.takeReport (s.modChan c _) .evicted c _ _)
    · exact k
  · exact .refl _ _

theorem RosterSame.queueFor (s : State) (h : Handle) (m : TreeMsg) : RosterSame s (s.queueFor h m) := by
  unfold State.queueFor
  split
  · exact .refl _ _
  · rename_i t _
    dsimp only
    have k := (RosterSame.modTerm s h (f := fun u => { u with owed := u.owed.dropFor m.kind })
      fun _ _ => ⟨rfl, rfl⟩).trans (RosterSame.offerMsg _ t.home m)
    split
    · exact k
    · exact k.trans (RosterSame.takeReport _ _ _ _ _)

/-! ## Roster events -/

theorem RosterKeeps.rosterLeave (s : State) (c : Chan) (h : Handle) : RosterKeeps (· ≠ h) s (s.rosterLeave c h) where
  up d := State.rosterLeave_keeps (·.isUp) (fun _ _ _ => rfl) s c d h
  roster d x e := by
    unfold State.rosterLeave
    split
    · rw [State.send_chan_roster, State.chan_modChan]
      split
      · rename_i e2; subst e2; exact List.count_filter (by simpa using e)
      · rfl
    · rfl
  active x d _ := by simp [State.activeOn]

/-- After a roster-leave the handle is not on that roster, and on another channel's as before. -/
theorem State.count_rosterLeave (s : State) (c d : Chan) (h : Handle) :
    ((s.rosterLeave c h).chan d).roster.count h = if d = c then 0 else (s.chan d).roster.count h := by
  unfold State.rosterLeave
  split
  · rw [State.send_chan_roster, State.chan_modChan]
    split
    · exact List.count_eq_zero.2 (by simp)
    · rfl
  · rename_i k
    split
    · rename_i e; subst e; exact List.count_eq_zero.2 k
    · rfl

theorem RosterKeeps.rosterJoin (s : State) (c : Chan) (h : Handle) : RosterKeeps (· ≠ h) s (s.rosterJoin c h) where
  up d := by
    unfold State.rosterJoin
    split
    · rw [State.isUp_send]
      simp only [State.isUp, State.chan_modChan]
      split
      · rename_i e; subst e; rfl
      · rfl
    · rfl
  roster d x e := by
    unfold State.rosterJoin
    split
    · rw [State.send_chan_roster, State.chan_modChan]
      split
      · rename_i e2; subst e2
        rw [List.count_append, List.count_cons_of_ne (by simpa using Ne.symm e), List.count_nil, Nat.add_zero]
      · rfl
    · rfl
  active x d _ := by simp [State.activeOn]

/-- A roster-join of an ACTIVE entry's handle to its home channel, which was on no other roster, meets the law. -/
theorem State.rosterAt_rosterJoin {s : State} {h : Handle} {t : Terminal} (ht : s.term h = some t)
    (active : t.phase.isActive = true) (wf : Handle.wf h = true) (down : s.isUp t.home = false →
      (s.chan t.home).roster.count h = 0) (once : (s.chan t.home).roster.count h ≤ 1)
    (elsewhere : ∀ c, c ≠ t.home → (s.chan c).roster.count h = 0) : (s.rosterJoin t.home h).rosterAt h := by
  have act : ∀ c, s.activeOn h c ↔ c = t.home := fun c =>
    ⟨fun ⟨u, hu, e, _⟩ => by rw [ht] at hu; cases hu; exact e.symm, fun e => ⟨t, ht, e.symm, active⟩⟩
  intro c
  have a : (s.rosterJoin t.home h).activeOn h c ↔ s.activeOn h c := by simp [State.activeOn]
  rw [(RosterKeeps.rosterJoin s t.home h).up c, a, act c]
  unfold State.rosterJoin
  split
  · rename_i k
    rw [State.send_chan_roster, State.chan_modChan]
    split
    · rename_i e; subst e
      simp [List.count_append, List.count_eq_zero.2 k.2.1, k.1]
    · rename_i e
      simp [elsewhere c e, e]
  · rename_i k
    by_cases e : c = t.home
    · subst e
      cases up : s.isUp t.home with
      | false => simp [down up]
      | true =>
        have : h ∈ (s.chan t.home).roster := by
          by_contra n
          exact k ⟨up, n, wf⟩
        simp [once, this]
    · simp [elsewhere c e, e]

/-! ## The store check -/

theorem State.count_leaveRosters (s : State) (h : Handle) (c : Chan) :
    ((s.leaveRosters h).chan c).roster.count h = 0 := by
  show ((((((s.rosterLeave .c0 h).rosterLeave .c1 h).rosterLeave .c2 h).rosterLeave .c3 h)).chan c).roster.count h = 0
  cases c <;> simp [State.count_rosterLeave]

theorem RosterKeeps.leaveRosters (s : State) (h : Handle) : RosterKeeps (· ≠ h) s (s.leaveRosters h) :=
  (((RosterKeeps.rosterLeave s .c0 h).trans (.rosterLeave _ .c1 h)).trans (.rosterLeave _ .c2 h)).trans
    (.rosterLeave _ .c3 h)

theorem RosterKeeps.storeDamaged (s : State) (h : Handle) : RosterKeeps (· ≠ h) s (s.storeDamaged h) where
  up _ := rfl
  roster _ _ _ := rfl
  active x c e := by simp [State.activeOn, State.term_storeDamaged, e]

theorem RosterSame.dismissEverywhere (s : State) (h : Handle) : RosterSame s (s.dismissEverywhere h) :=
  .foldl _ _ (fun s c => .offerMsg s c _) s

/-- Entry h is DAMAGED and on no roster, every other handle as before. -/
structure RosterLost (h : Handle) (s t : State) : Prop where
  others : RosterKeeps (· ≠ h) s t
  roster : ∀ c, (t.chan c).roster.count h = 0
  term : t.term h = none

theorem RosterLost.kept {h : Handle} {s t : State} (k : RosterLost h s t) : RosterKept s t :=
  .of_but k.others fun _ => State.rosterAt_of_absent k.roster (State.not_activeOn_of_none k.term)

/-- A DAMAGED entry is on no roster (R34, R62). -/
theorem RosterLost.damage (s : State) (h : Handle) : RosterLost h s (s.damage h) := by
  unfold State.damage
  dsimp only
  have k1 := (RosterSame.voidAll s h).trans
    (RosterSame.modChans _ (f := fun x => { x with outq := removeAll h x.outq }) fun _ => ⟨rfl, rfl⟩)
  revert k1
  generalize ((s.voidAll h).modChans fun x => { x with outq := removeAll h x.outq }) = s1
  intro k1
  have k2 := (RosterSame.dismissEverywhere ((s1.leaveRosters h).storeDamaged h) h).trans
    (RosterSame.offerFlaw _ .uncorrectable h)
  refine ⟨((k1.but.trans (.leaveRosters s1 h)).trans (.storeDamaged _ h)).trans k2.but, fun c => ?_, ?_⟩
  · rw [k2.roster c h trivial, State.storeDamaged_chan]
    exact State.count_leaveRosters s1 h c
  · rw [State.term_offerFlaw]
    exact State.dismissEverywhere_term_none _ _ (by simp [State.term_storeDamaged])

/-- A read with the store check changes nothing the law speaks of, or makes the entry DAMAGED (R33, R34). -/
theorem State.readEntry_roster (s : State) (h : Handle) :
    RosterSame s (s.readEntry h) ∨ RosterLost h s (s.readEntry h) := by
  unfold State.readEntry
  split
  · exact .inl (.refl _ _)
  · rename_i e he
    have rep : RosterSame s (s.setEntry h { e with flaw := .sound }) := by
      refine .of_parts (fun x => ?_) fun c => by simp
      have k := State.entry_setEntry s h x { e with flaw := .sound } (show e.handle = h from State.entry_handle he)
      unfold State.term
      rw [k]
      split
      · rename_i hx; subst hx; simp [he]
      · rfl
    split
    · exact .inl (.refl _ _)
    · exact .inl (.refl _ _)
    · dsimp only
      split
      · exact .inl (rep.trans (RosterSame.offerFlaw _ _ _))
      · exact .inl rep
    · exact .inr (.damage s h)

theorem RosterKept.readEntry (s : State) (h : Handle) : RosterKept s (s.readEntry h) :=
  (s.readEntry_roster h).elim (·.kept) (·.kept)

/-! ## Entry transitions -/

/-- Freeing an entry that is not ACTIVE (R22). -/
theorem RosterKept.freeEntry (s : State) (h : Handle) (notice : Bool) (idle : ∀ c, ¬s.activeOn h c) :
    RosterKept s (s.freeEntry h notice) := by
  have chan : ∀ c, ((s.freeEntry h notice).chan c).link = (s.chan c).link ∧
      ((s.freeEntry h notice).chan c).roster = (s.chan c).roster := by
    intro c
    unfold State.freeEntry
    dsimp only
    split
    · rw [State.chan_raise]
      show ((((s.voidAll h).modChans _)).chan c).link = _ ∧ ((((s.voidAll h).modChans _)).chan c).roster = _
      simp [State.voidAll, ChanState.voidFor]
    · show ((((s.voidAll h).modChans _)).chan c).link = _ ∧ ((((s.voidAll h).modChans _)).chan c).roster = _
      simp [State.voidAll, ChanState.voidFor]
  refine .of_but (h := h) ⟨fun c => by simp [State.isUp, ChanState.isUp, (chan c).1], fun c _ _ => by rw [(chan c).2],
    fun x c e => by simp [State.activeOn, State.term_freeEntry, e]⟩ fun r => ?_
  exact State.rosterAt_of_absent (fun c => by rw [(chan c).2]; exact r.absent idle c)
    (State.not_activeOn_of_none (by simp [State.term_freeEntry]))

/-- A change of entry h after which it is on no roster and not ACTIVE. -/
theorem RosterKept.vanish {s t : State} {h : Handle} (k : RosterKeeps (· ≠ h) s t)
    (roster : s.rosterAt h → ∀ c, (t.chan c).roster.count h = 0) (idle : ∀ c, ¬t.activeOn h c) : RosterKept s t :=
  .of_but k fun r => State.rosterAt_of_absent (roster r) idle

/-- Entry h, home on the channel given, leaves that roster: it is then on none. -/
theorem State.rosterAt.left {s : State} {h : Handle} {t : Terminal} (r : s.rosterAt h) (ht : s.term h = some t)
    (c : Chan) : ((s.rosterLeave t.home h).chan c).roster.count h = 0 := by
  rw [State.count_rosterLeave]
  split
  · rfl
  · rename_i e; exact r.absent_elsewhere ht (Ne.symm e)

/-- As `State.rosterAt.left`, the roster-leave taken when the entry is ACTIVE. -/
theorem State.rosterAt.leftIfActive {s : State} {h : Handle} {t : Terminal} (r : s.rosterAt h) (ht : s.term h = some t)
    (c : Chan) : ((if t.phase.isActive then s.rosterLeave t.home h else s).chan c).roster.count h = 0 := by
  split
  · exact r.left ht c
  · rename_i k; exact r.absent (State.not_activeOn ht (by simpa using k)) c

theorem RosterKeeps.leaveIfActive (s : State) (t : Terminal) (h : Handle) :
    RosterKeeps (· ≠ h) s (if t.phase.isActive then s.rosterLeave t.home h else s) := by
  split
  · exact .rosterLeave s _ h
  · exact .refl _ _

theorem RosterKept.enterDismissing (s : State) (h : Handle) : RosterKept s (s.enterDismissing h) := by
  unfold State.enterDismissing
  split
  · exact fun _ => id
  · rename_i t ht
    have v := RosterSame.voidAll (if t.phase.isActive then s.rosterLeave t.home h else s) h
    refine RosterKept.trans (.vanish (((RosterKeeps.leaveIfActive s t h).trans v.but).trans (.modTerm _ h _))
      (fun r c => ?_) ?_) (RosterSame.queueFor _ _ _).kept
    · rw [State.chan_modTerm, v.roster c h trivial]
      exact r.leftIfActive ht c
    · refine State.not_activeOn (t := { t with
        owed := Owed.none, moveFlag := false, phase := .dismissing false (!s.isUp t.home) }) ?_ rfl
      rw [State.term_modTerm_same, State.term_voidAll]
      split <;> simp [ht]

theorem RosterKept.enterLost (s : State) (h : Handle) : RosterKept s (s.enterLost h) := by
  unfold State.enterLost
  split
  · exact fun _ => id
  · rename_i t ht
    have k := (RosterKeeps.rosterLeave s t.home h).trans (.modTerm _ h fun u => { u with
      moveFlag := false, phase := .lost t.phase.final 0 false })
    have l := RosterSame.retention ((s.rosterLeave t.home h).modTerm h fun u => { u with
      moveFlag := false, phase := .lost t.phase.final 0 false }) ((s.rosterLeave t.home h).retention ++ [h])
    refine RosterKept.trans (RosterKept.trans (.vanish k (fun r c => ?_) ?_) l.kept) (RosterSame.queueFor _ _ _).kept
    · rw [State.chan_modTerm]
      exact r.left ht c
    · exact State.not_activeOn (t := { t with moveFlag := false, phase := .lost t.phase.final 0 false })
        (by simp [ht]) rfl

theorem find_insertEntry (e : Entry) (l : List Entry) (x : Handle) (free : ∀ y ∈ l, y.handle ≠ e.handle) :
    (insertEntry e l).find? (fun y => y.handle == x) =
      if x = e.handle then some e else l.find? (fun y => y.handle == x) := by
  induction l with
  | nil =>
    by_cases k : x = e.handle
    · simp [insertEntry, k]
    · simp [insertEntry, k, Ne.symm k]
  | cons y l ih =>
    have ih := ih fun z hz => free z (List.mem_cons_of_mem _ hz)
    have ne := free y List.mem_cons_self
    unfold insertEntry
    split
    · by_cases k : x = e.handle
      · simp [k]
      · simp [k, Ne.symm k]
    · rw [List.find?_cons, List.find?_cons, ih]
      by_cases k : x = e.handle
      · subst k; rw [beq_eq_false_iff_ne.2 ne]
      · simp [k]

/-- A new entry stands under its handle, and every other handle holds what it held (R21). -/
theorem State.term_createEntry (s : State) {h : Handle} (m : Mark) (c : Chan) (coarse : Int)
    (free : s.holds h = false) (x : Handle) :
    (s.createEntry h m c coarse).term x = if x = h then some (newTerminal m c coarse) else s.term x := by
  have reg : (if (s.waitingItem m).isSome then s.removeWaiting m else s).registry = s.registry := by split <;> rfl
  have no : ∀ y ∈ s.registry, y.handle ≠ h := by
    intro y hy e
    rw [Bool.eq_false_iff] at free
    exact free (List.any_eq_true.2 ⟨y, hy, by simp [e]⟩)
  show Option.bind ((insertEntry ⟨h, .sound, some (newTerminal m c coarse)⟩
    (if (s.waitingItem m).isSome then s.removeWaiting m else s).registry).find? _) _ = _
  rw [reg, find_insertEntry _ _ _ no]
  by_cases e : x = h
  · simp [e]
  · simp [e]; rfl

/-- A fresh entry is not ACTIVE (R21). -/
theorem RosterKept.createEntry (s : State) {h : Handle} (m : Mark) (c : Chan) (coarse : Int)
    (free : s.holds h = false) : RosterKept s (s.createEntry h m c coarse) := by
  have chan : ∀ d, (s.createEntry h m c coarse).chan d = s.chan d := by
    intro d; unfold State.createEntry; dsimp only; split <;> rfl
  refine .of_but (h := h) ⟨fun d => by simp [State.isUp, chan], fun d _ _ => by rw [chan],
    fun x d e => by simp [State.activeOn, State.term_createEntry s m c coarse free, e]⟩ fun r => ?_
  have gone : s.term h = none := by
    unfold State.term
    rw [State.entry_eq_none_of_not_holds free]; rfl
  exact State.rosterAt_of_absent (fun d => by rw [chan]; exact r.absent (State.not_activeOn_of_none gone) d)
    (State.not_activeOn (t := newTerminal m c coarse) (by simp [State.term_createEntry s m c coarse free]) rfl)

theorem RosterKept.failAttempt (s : State) (h : Handle) (o : RangeOutcome) : RosterKept s (s.failAttempt h o) := by
  unfold State.failAttempt
  split
  · exact fun _ => id
  · rename_i t _
    have k := ((RosterSame.voidAll s h).trans (RosterSame.raise _ (Notice.rangeFailed h t.home o.code))).kept
    dsimp only
    split
    · split
      · exact (k.trans (.enterLost _ h)).trans (RosterSame.raise _ _).kept
      · exact k.trans (.enterLost _ h)
    · exact k.trans (.enterDismissing _ h)

theorem RosterKept.reEnrol (s : State) (h : Handle) (c : Chan) (coarse : Int) (retry : Nat) (remove announce : Bool) :
    RosterKept s (s.reEnrol h c coarse retry remove announce) := by
  unfold State.reEnrol
  split
  · exact fun _ => id
  · rename_i t ht
    dsimp only
    have k1 : RosterSame s ((s.forgetEnrol h).voidAll h) :=
      (RosterSame.forgetEnrol s h).trans (RosterSame.voidAll _ h)
    have e1 : ((s.forgetEnrol h).voidAll h).term h = some t := by simp [ht]
    revert k1 e1
    generalize (s.forgetEnrol h).voidAll h = s1
    intro k1 e1
    have k2 := RosterKeeps.leaveIfActive s1 t h
    have z2 : s1.rosterAt h → ∀ c,
        ((if t.phase.isActive then s1.rosterLeave t.home h else s1).chan c).roster.count h = 0 :=
      fun r c => r.leftIfActive e1 c
    have e2 : (if t.phase.isActive then s1.rosterLeave t.home h else s1).term h = some t := by split <;> simp [e1]
    revert k2 z2 e2
    generalize (if t.phase.isActive then s1.rosterLeave t.home h else s1) = s2
    intro k2 z2 e2
    have k3 : RosterSame s2 (if remove then s2.modChan t.home fun x => { x with outq := removeAll h x.outq } else s2) := by
      split
      · exact .modChan s2 _ fun _ => ⟨rfl, rfl⟩
      · exact .refl _ _
    have e3 : (if remove then s2.modChan t.home fun x => { x with outq := removeAll h x.outq } else s2).term h
        = some t := by split <;> exact e2
    revert k3 e3
    generalize (if remove then s2.modChan t.home fun x => { x with outq := removeAll h x.outq } else s2) = s3
    intro k3 e3
    have k4 : RosterKept s1 (s3.modTerm h fun u => u.reEnrolled c coarse retry) := by
      refine .vanish ((k2.trans k3.but).trans (.modTerm s3 h _)) (fun r c => ?_) ?_
      · rw [State.chan_modTerm, k3.roster c h trivial]
        exact z2 r c
      · exact State.not_activeOn (t := t.reEnrolled c coarse retry) (by simp [e3]) rfl
    have l := RosterSame.retention (s3.modTerm h fun u => u.reEnrolled c coarse retry)
      (if t.phase.isLost then s3.retention.filter (fun x => !(x == h)) else s3.retention)
    have k5 := ((k1.kept.trans k4).trans l.kept).trans (RosterSame.queueFor _ h (.enrol h t.mark)).kept
    split
    · exact k5.trans (RosterSame.raise _ _).kept
    · exact k5

/-- The registry takes a handle for a new entry: the one it frees for it is LOST (R21, R23). -/
theorem RosterKept.newEntry (s : State) (m : Mark) (c : Chan) (coarse : Int) (ret : RetentionLaw s) :
    RosterKept s (s.newEntry m c coarse).1 := by
  have take : RosterKept s s.takeHandle.1 := by
    unfold State.takeHandle
    split
    · exact fun _ => id
    · split
      · exact fun _ => id
      · rename_i o l e
        obtain ⟨t, ht, lost⟩ := (ret.2 o).1 (by rw [e]; exact List.mem_cons_self)
        exact .freeEntry s o true (State.not_activeOn ht (by cases k : t.phase <;> simp_all [Phase.isLost, Phase.isActive]))
  unfold State.newEntry
  split
  · rename_i e; rw [e] at take; exact take
  · rename_i s1 h e
    rw [e] at take
    exact ((take.trans (.createEntry s1 m c coarse (State.takeHandle_spec e).1)).trans
      (RosterSame.queueFor _ _ _).kept).trans (RosterSame.raise _ _).kept

/-- An entry that becomes ACTIVE on its home channel, where it was not ACTIVE, joins the roster (R117, R148). -/
theorem RosterKept.join (s : State) {h : Handle} {t : Terminal} (ht : s.term h = some t) (wf : Handle.wf h = true)
    (before : t.phase.isActive = false) {f : Terminal → Terminal} (home : (f t).home = t.home)
    (after : (f t).phase.isActive = true) : RosterKept s ((s.modTerm h f).rosterJoin t.home h) := by
  refine .of_but ((RosterKeeps.modTerm s h f).trans (.rosterJoin _ _ h)) fun r => ?_
  have zero := r.absent (State.not_activeOn ht before)
  have k := State.rosterAt_rosterJoin (s := s.modTerm h f) (h := h) (t := f t) (by simp [ht]) after wf
    (fun _ => by rw [State.chan_modTerm]; exact zero _) (by rw [State.chan_modTerm, zero]; exact Nat.zero_le 1)
    (fun d _ => by rw [State.chan_modTerm]; exact zero d)
  rw [home] at k
  exact k

theorem RosterKept.activate (s : State) (h : Handle) (wf : Handle.wf h = true) : RosterKept s (s.activate h) := by
  unfold State.activate
  split
  · exact fun _ => id
  · rename_i t ht
    split
    · rename_i fix hp
      have k := (RosterKept.join s ht wf (by rw [hp]; rfl) (f := fun u => { u with
        phase := .active fix (freshDrift u.owed) 0, wasActive := true, heard := false, moveFlag := false }) rfl rfl).trans
          (RosterSame.raise _ (Notice.activated h t.home fix.fill)).kept
      dsimp only
      split
      · exact k.trans (RosterSame.raise _ _).kept
      · exact k
    · exact fun _ => id

theorem RosterSame.withdrawRetune (s : State) (h : Handle) (t : Terminal) : RosterSame s (s.withdrawRetune h t) := by
  unfold State.withdrawRetune
  split
  · exact .modTerm s h fun _ _ => ⟨rfl, rfl⟩
  · exact .modChan s _ fun _ => ⟨rfl, rfl⟩

/-- A cancelled move makes the entry ACTIVE again on its home channel (R148). -/
theorem RosterKept.cancelMove (s : State) {h : Handle} {t : Terminal} (ht : s.term h = some t) {fix : Fix}
    {target : Chan} (hp : t.phase = .retuning fix target) (wf : Handle.wf h = true) :
    RosterKept s (s.cancelMove h t fix) := by
  unfold State.cancelMove
  dsimp only
  refine ((RosterSame.withdrawRetune s h t).kept.trans ?_).trans (RosterSame.raise _ _).kept
  have e : ∃ u, (s.withdrawRetune h t).term h = some u ∧ u.home = t.home ∧ u.phase = t.phase := by
    unfold State.withdrawRetune
    split
    · exact ⟨{ t with owed := { t.owed with retune := false } }, by rw [State.term_modTerm_same, ht]; rfl, rfl, rfl⟩
    · exact ⟨t, by simpa using ht, rfl, rfl⟩
  obtain ⟨u, hu, home, phase⟩ := e
  rw [← home]
  exact .join _ hu wf (by rw [phase, hp]; rfl) (f := fun u => { u with
    moveFlag := false, phase := .active fix (freshDrift u.owed) 0 }) rfl rfl

theorem RosterKept.exitEntry (s : State) (c : Chan) (h : Handle) (wf : Handle.wf h = true) :
    RosterKept s (s.exitEntry c h) := by
  unfold State.exitEntry
  split
  · exact fun _ => id
  · split
    · have k := RosterKept.readEntry s h
      revert k
      generalize s.readEntry h = s1
      intro k
      dsimp only
      split
      · exact k
      · rename_i t ht
        have same : ∀ p : Phase, p.isActive = t.phase.isActive →
            RosterKept s (s1.modTerm h fun u => { u with phase := p }) := fun p e =>
          k.trans (RosterSame.modTerm s1 h (f := fun u => { u with phase := p }) fun u hu => by
            rw [ht] at hu; cases hu; exact ⟨rfl, e⟩).kept
        split
        · exact k.trans (RosterSame.modTerm s1 h fun u _ => by
            unfold Terminal.clearSamples; split <;> simp_all [Phase.isActive]).kept
        · rename_i fix d missed hp
          exact k.trans (RosterSame.modTerm s1 h fun u hu => by
            rw [ht] at hu; cases hu; exact ⟨rfl, by rw [hp]; rfl⟩).kept
        · rename_i fix target hp
          split
          · exact k.trans (.cancelMove s1 ht hp wf)
          · exact k
        · rename_i sent due hp
          exact same _ (by rw [hp]; rfl)
        · exact k
    · exact fun _ => id

/-! ## Links -/

/-- A channel that is not UP afterwards and announces nothing, every other channel and every entry as before. -/
theorem RosterKept.clear {s t : State} {c : Chan} (term : ∀ h, t.term h = s.term h) (down : t.isUp c = false)
    (empty : (t.chan c).roster = []) (rest : ∀ d, d ≠ c → (t.chan d).link = (s.chan d).link ∧
      (t.chan d).roster = (s.chan d).roster) : RosterKept s t := fun h r d => by
  have a : t.activeOn h d ↔ s.activeOn h d := by simp [State.activeOn, term h]
  by_cases e : d = c
  · subst e; simp [empty, down]
  · have up : t.isUp d = s.isUp d := by simp [State.isUp, ChanState.isUp, (rest d e).1]
    rw [(rest d e).2, up, a]
    exact r d

@[simp] theorem State.term_quiet (s : State) (c : Chan) (h : Handle) : (s.quiet c).term h = s.term h := by
  unfold State.quiet; split <;> simp

theorem State.chan_quiet (s : State) (c d : Chan) : ((s.quiet c).chan d).link = (s.chan d).link ∧
    ((s.quiet c).chan d).roster = (s.chan d).roster := by
  unfold State.quiet
  split
  · rw [State.chan_raise, State.chan_modChan]
    split
    · rename_i e; subst e; exact ⟨rfl, rfl⟩
    · exact ⟨rfl, rfl⟩
  · exact ⟨rfl, rfl⟩

@[simp] theorem State.term_setLink (s : State) (c : Chan) (l : LinkState) (h : Handle) :
    (s.setLink c l).term h = s.term h := by unfold State.setLink; simp

theorem State.chan_setLink (s : State) (c d : Chan) (l : LinkState) :
    ((s.setLink c l).chan d).link = (if d = c then l else (s.chan d).link) ∧
      ((s.setLink c l).chan d).roster = (s.chan d).roster := by
  unfold State.setLink
  rw [State.chan_raise, State.chan_modChan]
  split
  · rename_i e; subst e; exact ⟨rfl, rfl⟩
  · exact ⟨rfl, rfl⟩

theorem State.isUp_eq_false {s : State} {c : Chan} (k : ∀ n, (s.chan c).link ≠ .up n) : s.isUp c = false := by
  unfold State.isUp ChanState.isUp
  split
  · rename_i n e; exact absurd e (k n)
  · rfl

/-- A channel that leaves UP announces nothing more (R45). -/
theorem RosterKept.leaveUp (s : State) (c : Chan) (l : LinkState) (down : ∀ n, l ≠ .up n) :
    RosterKept s (s.leaveUp c l) := by
  have chan : ∀ d, ((s.leaveUp c l).chan d).link = (if d = c then l else (s.chan d).link) ∧
      ((s.leaveUp c l).chan d).roster = if d = c then [] else (s.chan d).roster := by
    intro d
    have q := State.chan_quiet (s.modChan c ChanState.leaveUp) c d
    obtain ⟨k1, k2⟩ := State.chan_setLink ({ (s.modChan c ChanState.leaveUp).quiet c with
      events := ((s.modChan c ChanState.leaveUp).quiet c).events ++
        Event.channelExit c :: discardReports c (s.chan c).outq } : State) c d l
    refine ⟨k1.trans ?_, k2.trans ?_⟩
    · split
      · rfl
      · rename_i e; exact q.1.trans (by rw [State.chan_modChan_ne _ e])
    · refine q.2.trans ?_
      rw [State.chan_modChan]
      split <;> rfl
  refine .clear (c := c) (fun h => ?_) (State.isUp_eq_false fun n => by rw [(chan c).1, if_pos rfl]; exact down n)
    (by rw [(chan c).2, if_pos rfl]) fun d e => ⟨by rw [(chan d).1, if_neg e], by rw [(chan d).2, if_neg e]⟩
  unfold State.leaveUp
  rw [State.term_setLink]
  show ((s.modChan c ChanState.leaveUp).quiet c).term h = _
  simp

/-- A link that is not UP goes to a state that is not UP: nothing of the law changes. -/
theorem RosterSame.setLink (s : State) (c : Chan) (l : LinkState) (before : s.isUp c = false) (down : ∀ n, l ≠ .up n) :
    RosterSame s (s.setLink c l) where
  up d := by
    by_cases e : d = c
    · subst e
      rw [before]
      exact State.isUp_eq_false fun n => by rw [(State.chan_setLink s d d l).1, if_pos rfl]; exact down n
    · simp [State.isUp, ChanState.isUp, (State.chan_setLink s c d l).1, e]
  roster d _ _ := by rw [(State.chan_setLink s c d l).2]
  active h d _ := by simp [State.activeOn]

theorem RosterKept.goTo (s : State) (c : Chan) (l : LinkState) (down : ∀ n, l ≠ .up n) : RosterKept s (s.goTo c l) := by
  unfold State.goTo
  split
  · exact .leaveUp s c l down
  · rename_i k; exact (RosterSame.setLink s c l (by simpa using k) down).kept

/-! ## The announcement of a link that becomes UP (R42) -/

/-- Handle h's part of the law while channel c announces: kept on the other channels, and on c the handle stands at
most once, and only while it is ACTIVE there. -/
def State.announcing (s : State) (c : Chan) (h : Handle) : Prop :=
  (∀ d, d ≠ c → (s.chan d).roster.count h ≤ 1 ∧ (0 < (s.chan d).roster.count h ↔ s.isUp d = true ∧ s.activeOn h d)) ∧
    (s.chan c).roster.count h ≤ 1 ∧ (0 < (s.chan c).roster.count h → s.activeOn h c) ∧ s.isUp c = true

theorem State.announcing.rosterAt {s : State} {c : Chan} {h : Handle} (k : s.announcing c h)
    (told : s.activeOn h c → 0 < (s.chan c).roster.count h) : s.rosterAt h := fun d => by
  by_cases e : d = c
  · subst e
    exact ⟨k.2.1, ⟨fun p => ⟨k.2.2.2, k.2.2.1 p⟩, fun p => told p.2⟩⟩
  · exact k.1 d e

theorem RosterKeeps.announcing {p : Handle → Prop} {s t : State} (k : RosterKeeps p s t) {c : Chan} {h : Handle}
    (m : p h) (a : s.announcing c h) : t.announcing c h := by
  refine ⟨fun d e => ?_, ?_, ?_, ?_⟩
  · rw [k.roster d h m, k.up d, k.active h d m]; exact a.1 d e
  · rw [k.roster c h m]; exact a.2.1
  · rw [k.roster c h m, k.active h c m]; exact a.2.2.1
  · rw [k.up c]; exact a.2.2.2

theorem State.count_rosterJoin (s : State) {c : Chan} {h : Handle} (up : s.isUp c = true) (wf : Handle.wf h = true) :
    ((s.rosterJoin c h).chan c).roster.count h = max 1 ((s.chan c).roster.count h) := by
  unfold State.rosterJoin
  split
  · rename_i k
    rw [State.send_chan_roster, State.chan_modChan_same]
    simp [List.count_append, List.count_eq_zero.2 k.2.1]
  · rename_i k
    have : h ∈ (s.chan c).roster := by
      by_contra n
      exact k ⟨up, n, wf⟩
    have := List.count_pos_iff.2 this
    omega

theorem State.count_rosterJoin_ne (s : State) {c d : Chan} (e : d ≠ c) (h : Handle) :
    ((s.rosterJoin c h).chan d).roster = (s.chan d).roster := by
  unfold State.rosterJoin
  split
  · rw [State.send_chan_roster, State.chan_modChan_ne _ e]
  · rfl

/-- One entry's turn in the announcement: it is announced when it is ACTIVE there, and the others stay as they are. -/
theorem State.announce_spec {s : State} {c : Chan} (h : Handle) (wf : Handle.wf h = true)
    (all : ∀ x, s.announcing c x) :
    (∀ x, (s.announce c h).announcing c x) ∧ RosterKeeps (· ≠ h) s (s.announce c h) ∧
      ((s.announce c h).activeOn h c → 0 < ((s.announce c h).chan c).roster.count h) := by
  have still : ¬s.activeOn h c → (∀ x, s.announcing c x) ∧ RosterKeeps (· ≠ h) s s ∧
      (s.activeOn h c → 0 < (s.chan c).roster.count h) := fun k => ⟨all, .refl _ _, fun a => absurd a k⟩
  unfold State.announce
  split
  · rename_i ht; exact still (State.not_activeOn_of_none ht c)
  · rename_i t ht
    split
    · dsimp only
      rcases s.readEntry_roster h with k | k
      · have a1 := fun x => k.announcing trivial (all x)
        revert k a1
        generalize s.readEntry h = s1
        intro k a1
        have hs : s1.activeOn h c := (k.active h c trivial).2 ⟨t, ht, by tauto, by tauto⟩
        obtain ⟨u, hu, -⟩ := hs
        rw [if_pos (by rw [hu]; rfl)]
        have j := RosterKeeps.rosterJoin s1 c h
        have count := s1.count_rosterJoin (a1 h).2.2.2 wf
        have act : ∀ d, (s1.rosterJoin c h).activeOn h d ↔ s1.activeOn h d := fun d => by simp [State.activeOn]
        have hs : s1.activeOn h c := (k.active h c trivial).2 ⟨t, ht, by tauto, by tauto⟩
        refine ⟨fun x => ?_, k.but.trans j, fun _ => by rw [count]; omega⟩
        by_cases e : x = h
        · subst e
          refine ⟨fun d e => ?_, by have := (a1 x).2.1; omega, fun _ => (act c).2 hs, by rw [j.up c]; exact (a1 x).2.2.2⟩
          rw [s1.count_rosterJoin_ne e, j.up d, act d]
          exact (a1 x).1 d e
        · exact j.announcing e (a1 x)
      · rw [if_neg (by rw [k.term]; simp)]
        refine ⟨fun x => ?_, k.others, fun a => absurd a (State.not_activeOn_of_none k.term c)⟩
        by_cases e : x = h
        · subst e
          have no := State.not_activeOn_of_none k.term
          exact ⟨fun d _ => by simp [k.roster d, no d], by rw [k.roster c]; omega, fun p => by rw [k.roster c] at p; omega,
            by rw [k.others.up c]; exact (all x).2.2.2⟩
        · exact k.others.announcing e (all x)
    · rename_i n
      refine still ?_
      rintro ⟨u, hu, home, a⟩
      rw [ht] at hu
      cases hu
      exact n ⟨a, home⟩

/-- A link that becomes UP has announced every ACTIVE entry of the handles it went through (R42). -/
theorem State.announce_all {c : Chan} (l : List Handle) (wf : ∀ h ∈ l, Handle.wf h = true) {s : State}
    (all : ∀ x, s.announcing c x) (rest : ∀ x, x ∉ l → s.activeOn x c → 0 < (s.chan c).roster.count x) :
    ∀ x, (l.foldl (fun st h => st.announce c h) s).rosterAt x := by
  induction l generalizing s with
  | nil => exact fun x => (all x).rosterAt (rest x List.not_mem_nil)
  | cons h l ih =>
    obtain ⟨a, k, told⟩ := State.announce_spec h (wf h List.mem_cons_self) all
    refine ih (fun x m => wf x (List.mem_cons_of_mem _ m)) a fun x m => ?_
    by_cases e : x = h
    · subst e; exact told
    · rw [k.active x c e, k.roster c x e]
      exact rest x (by simp [e, m])

end Sys2Proof.Machine
end

