-- ==== Sys2Proof/Laws/Step.lean ====
section
/-! SUPPORT. The management requests, the channel link frames, every command and every step as chains of small
changes or a replacement of the settings: `took_step` says once what a step can do. -/

namespace Sys2Proof.Machine

/-! ## Settings -/

/-- A value put at a setting's place stands there among the values, every other setting as before. -/
theorem TreeSettings.put_values (t : TreeSettings) (i v : Nat) (h : inSettingRange (i, v) = true) :
    (t.put i v).values = t.values.set i v := by
  unfold inSettingRange at h
  dsimp only at h
  split at h
  · rename_i r hr
    have hi : i < 25 := by
      by_contra hc
      rw [List.getElem?_eq_none (by simp [settingRanges]; omega)] at hr
      cases hr
    simp only [Bool.and_eq_true, decide_eq_true_eq] at h
    interval_cases i
    all_goals first
      | rfl
      | skip
    · simp only [settingRanges] at hr
      cases hr
      obtain ⟨-, h2⟩ := h
      dsimp only at h2
      interval_cases v <;> rfl
    · simp only [settingRanges] at hr
      cases hr
      obtain ⟨-, h2⟩ := h
      dsimp only at h2
      interval_cases v <;> rfl
    · simp only [settingRanges] at hr
      cases hr
      obtain ⟨-, h2⟩ := h
      dsimp only at h2
      interval_cases v <;> rfl
  · cases h

theorem TreeSettings.inRange_iff (t : TreeSettings) :
    t.inRange = true ↔ ∀ (i : Nat) (r : Nat × Nat) (v : Nat), settingRanges[i]? = some r → t.values[i]? = some v → r.1 ≤ v ∧ v ≤ r.2 := by
  unfold TreeSettings.inRange
  rw [List.all_eq_true]
  constructor
  · intro h i r v hr hv
    have hm : (v, r) ∈ t.values.zip settingRanges :=
      List.mem_iff_getElem?.2 ⟨i, by rw [List.getElem?_zip_eq_some]; exact ⟨hv, hr⟩⟩
    simpa using h _ hm
  · rintro h ⟨v, r⟩ hm
    obtain ⟨i, hi⟩ := List.mem_iff_getElem?.1 hm
    rw [List.getElem?_zip_eq_some] at hi
    simpa using h i r v hi.2 hi.1

theorem TreeSettings.put_inRange {t : TreeSettings} {i v : Nat} (h : inSettingRange (i, v) = true)
    (k : t.inRange = true) : (t.put i v).inRange = true := by
  rw [TreeSettings.inRange_iff] at k ⊢
  intro j r w hr hw
  rw [TreeSettings.put_values t i v h] at hw
  by_cases hj : i = j
  · subst hj
    rw [List.getElem?_set] at hw
    simp only [if_true] at hw
    split at hw
    · cases hw
      unfold inSettingRange at h
      dsimp only at h
      rw [hr] at h
      simpa using h
    · cases hw
  · rw [List.getElem?_set_ne hj] at hw
    exact k j r w hr hw

theorem TreeSettings.putAll_inRange (l : List (Nat × Nat)) (t : TreeSettings) (h : l.all inSettingRange = true)
    (k : t.inRange = true) : (t.putAll l).inRange = true := by
  induction l generalizing t with
  | nil => exact k
  | cons x xs ih =>
    rw [List.all_cons, Bool.and_eq_true] at h
    exact ih _ h.2 (TreeSettings.put_inRange h.1 k)

theorem took_reqTreeSet (s : State) (sel : BitVec 32) (slots : List (BitVec 24)) :
    Took s (s.reqTreeSet sel slots).1 := by
  unfold State.reqTreeSet
  dsimp only
  split
  · rename_i h
    split
    · exact .refl _
    · rename_i hl
      split
      · rename_i hc
        exact .settings s _ (.refl s) (TreeSettings.putAll_inRange _ _ h.2) hc (by simpa using hl) (.refl _)
      · exact .refl _
  · exact .refl _

theorem micros_onChannel (s : State) (ch : Byte) (f : Chan → State × Reply) (k : ∀ c, Micros s (f c).1) :
    Micros s (s.onChannel ch f).1 := by
  unfold State.onChannel
  split
  · exact k _
  · exact .refl

theorem micros_setMode (s : State) (c : Chan) (m : CensusMode) : Micros s (s.setMode c m) := by
  have off : ∀ f : ChanState → ChanState, (∀ x, ∃ a b d q, f x = { x with mode := a, due := b, dueAge := d, quietPending := q }) →
      Micros s (s.modChan c f) := by
    intro f k
    obtain ⟨a, b, d, q, e⟩ := k (s.chan c)
    refine micros_modChan ?_
    rw [e]
    exact ChanKeeps.of_same rfl rfl rfl rfl rfl rfl rfl rfl
  unfold State.setMode
  split
  · split
    · exact .refl
    · dsimp only
      split
      · exact off _ fun x => ⟨_, _, _, _, rfl⟩
      · exact (off _ fun x => ⟨_, _, _, _, rfl⟩).trans (micros_quiet _ _)
  · exact off _ fun x => ⟨_, _, _, _, rfl⟩

theorem ChanKeeps.of_period {L : Nat} {x : ChanState} {p : Nat} (h : p = x.period ∨ (16 ≤ p ∧ p ≤ 65535)) :
    ChanKeeps L x { x with period := p } where
  outq := id
  lapsed := .inr le_rfl
  tally _ := .inr le_rfl
  gap := id
  span := id
  work _ := le_rfl
  skew := rfl
  period := h

theorem micros_reqChannelSet (s : State) (ch sel mode : Byte) (period skew : BitVec 16) :
    Micros s (s.reqChannelSet ch sel mode period skew).1 := by
  refine micros_onChannel s ch _ fun c => ?_
  dsimp only
  split
  · rename_i m p k hm hp hk
    split
    · exact .refl
    · split
      · exact .refl
      · rename_i hl
        have h1 : p = (s.chan c).period ∨ (16 ≤ p ∧ p ≤ 65535) := by
          unfold selected at hp
          split at hp
          · split at hp
            · cases hp; exact .inr ⟨by assumption, by omega⟩
            · cases hp
          · cases hp; exact .inl rfl
        have h2 : k = (s.chan c).skew ∨ (-2048 ≤ k ∧ k ≤ 2047) := by
          unfold selected at hk
          split at hk
          · split at hk
            · cases hk; exact .inr ‹_›
            · cases hk
          · cases hk; exact .inl rfl
        have k1 : Micros s (s.modChan c fun y => { y with period := p }) := micros_modChan (ChanKeeps.of_period h1)
        have k2 : Micros s (s.modChan c fun y => { y with period := p, skew := k }) := by
          have e : (s.modChan c fun y => { y with period := p, skew := k }) =
              { s.modChan c (fun y => { y with period := p }) with
                chans := (s.modChan c fun y => { y with period := p }).chans.set c
                  { (s.modChan c fun y => { y with period := p }).chan c with skew := k } } := by
            unfold State.modChan State.chan
            cases c <;> rfl
          rw [e]
          rcases h2 with h2 | h2
          · refine k1.tail (.chan c _ (ChanKeeps.of_same rfl rfl rfl rfl rfl rfl ?_ rfl))
            rw [State.chan_modChan_same]; exact h2
          · refine k1.tail (.skew c k h2.1 h2.2 ?_)
            by_cases hs : k = (s.chan c).skew
            · left; rw [State.chan_modChan_same]; exact hs
            · right
              have := not_and.1 hl hs
              simpa [State.anyWorkingOn] using this
        split
        · exact k2.trans (micros_setMode _ _ _)
        · exact k2
  · exact .refl

theorem micros_reqCall (s : State) (ch : Byte) : Micros s (s.reqCall ch).1 := by
  refine micros_onChannel s ch _ fun c => ?_
  split
  · exact micros_modChan (ChanKeeps.of_same rfl rfl rfl rfl rfl rfl rfl rfl)
  · exact .refl

/-! ## Admission requests -/

theorem micros_reqAdmit (s : State) (m : Mark) : Micros s (s.reqAdmit m).1 := by
  unfold State.reqAdmit
  split
  · exact .refl
  · rename_i i hi
    split
    · have k := micros_newEntry s m i.chan i.coarse (.inr (by rw [hi]; rfl))
      split
      · rename_i s1 h e; rw [e] at k; exact k
      · exact .refl
    · exact .refl

theorem tableLoad_spec {m : Mark} {p : TablePolicy} {l l' : List TableEntry} (h : tableLoad m p l = some l') :
    (l'.length ≤ 64 ∨ l'.length ≤ l.length) ∧ ((l.map (·.mark)).Nodup → (l'.map (·.mark)).Nodup) := by
  unfold tableLoad at h
  split at h
  · cases h
    exact ⟨.inr (by simp [tableReload]), fun k => by rw [tableReload_marks]; exact k⟩
  · rename_i hf
    split at h
    · rename_i hl
      cases h
      refine ⟨.inl (by simp [Config.tableSize] at hl ⊢; omega), fun k => ?_⟩
      rw [List.map_append, List.nodup_append]
      refine ⟨k, by simp, ?_⟩
      intro a ha b hb hab
      simp only [List.map_cons, List.map_nil, List.mem_singleton] at hb
      obtain ⟨e, he, rfl⟩ := List.mem_map.1 ha
      have := List.find?_eq_none.1 hf e he
      exact this (by simp [hab, hb])
    · cases h

theorem micros_reqBar (s : State) (m : Mark) : Micros s (s.reqBar m).1 := by
  unfold State.reqBar
  split
  · exact .refl
  · split
    · rename_i l hl
      exact (Relation.ReflTransGen.single (.table l (tableLoad_spec hl).1 (tableLoad_spec hl).2)).trans
        (micros_removeWaiting { s with table := l } m)
    · exact .refl

theorem micros_reqTableLoad (s : State) (m : Mark) (policy : Byte) : Micros s (s.reqTableLoad m policy).1 := by
  unfold State.reqTableLoad
  split
  · exact .refl
  · split
    · exact .refl
    · split
      · rename_i l hl
        exact .single (.table l (tableLoad_spec hl).1 (tableLoad_spec hl).2)
      · exact .refl

theorem micros_reqTableRemove (s : State) (m : Mark) : Micros s (s.reqTableRemove m).1 := by
  unfold State.reqTableRemove
  split
  · exact .single (.table _ (.inr (List.length_filter_le _ _)) fun k => k.sublist (List.filter_sublist.map _))
  · exact .refl

theorem reqTableRead_fst (s : State) (idx : Byte) : (s.reqTableRead idx).1 = s := by
  unfold State.reqTableRead; split
  · rfl
  · split <;> rfl

theorem reqPendingRead_fst (s : State) (idx : Byte) : (s.reqPendingRead idx).1 = s := by
  unfold State.reqPendingRead; split
  · rfl
  · split <;> rfl

/-! ## Requests on an entry -/

theorem micros_onHandle (s : State) (h : BitVec 16) (f : State → State × Reply)
    (k : Micros (s.readEntry h.toNat) (f (s.readEntry h.toNat)).1) : Micros s (s.onHandle h f).1 := by
  unfold State.onHandle
  split
  · exact .refl
  · split
    · exact (micros_readEntry _ _).trans k
    · exact .refl

theorem micros_onEntry (s : State) (h : BitVec 16) (f : State → Terminal → State × Reply)
    (k : ∀ t, (s.readEntry h.toNat).term h.toNat = some t →
      Micros (s.readEntry h.toNat) (f (s.readEntry h.toNat) t).1) : Micros s (s.onEntry h f).1 := by
  refine micros_onHandle s h _ ?_
  split
  · rename_i t ht; exact k t ht
  · exact .refl

theorem micros_reqEntryRead (s : State) (h : BitVec 16) : Micros s (s.reqEntryRead h).1 :=
  micros_onHandle s h _ .refl

theorem micros_reqEntryFind (s : State) (m : Mark) : Micros s (s.reqEntryFind m).1 := by
  unfold State.reqEntryFind
  dsimp only
  split <;> exact micros_readAll _

theorem micros_reqDismiss (s : State) (h : BitVec 16) : Micros s (s.reqDismiss h).1 := by
  refine micros_onEntry s h _ fun t ht => ?_
  split
  · exact .refl
  · exact micros_freeEntry (s.readEntry h.toNat) h.toNat true
  · rename_i hd hl
    refine micros_enterDismissing _ _ fun u hu => ?_
    rw [ht] at hu; cases hu
    cases e : t.phase <;> first | rfl | exact absurd e (hl _ _ _)

theorem micros_hushEntry (s : State) (h : Handle) (t : Terminal) (fix : Fix) (d : Drift) (n : Nat)
    (ht : s.term h = some t) (e : t.phase = .active fix d n) : Micros s (s.hushEntry h t fix) := by
  unfold State.hushEntry
  dsimp only
  refine Relation.ReflTransGen.trans ?_ (micros_queueFor _ _ _)
  refine (micros_rosterLeave s t.home h).tail (.term h _ t (by simpa using ht) (TermKeeps.of_fix rfl rfl ?_ ?_ ?_))
  · rw [e]; rfl
  · rw [e]; rfl
  · intro f d n st hp; cases hp

theorem micros_reqHush (s : State) (h : BitVec 16) : Micros s (s.reqHush h).1 := by
  refine micros_onEntry s h _ fun t ht => ?_
  split
  · rename_i e; exact micros_hushEntry _ _ _ _ _ _ ht e
  · exact .refl
  · exact .refl

theorem micros_resumeEntry (s : State) (h : Handle) (fix : Fix) (t : Terminal)
    (ht : s.term h = some t) (e : t.phase = .hushed fix) : Micros s (s.resumeEntry h fix) := by
  unfold State.resumeEntry
  refine Relation.ReflTransGen.trans ?_ (micros_queueFor _ _ _)
  refine .single (.term h _ t ht (TermKeeps.of_fix rfl rfl ?_ ?_ ?_))
  · rw [e]; rfl
  · rw [e]; rfl
  · intro f d n st hp; cases hp

theorem micros_reqResume (s : State) (h : BitVec 16) : Micros s (s.reqResume h).1 := by
  refine micros_onEntry s h _ fun t ht => ?_
  split
  · rename_i e; exact micros_resumeEntry _ _ _ _ ht e
  · exact .refl

theorem micros_rerangeEntry (s : State) (h : Handle) (t : Terminal) (fix : Fix)
    (ht : s.term h = some t) (k : t.phase.isLost = false) : Micros s (s.rerangeEntry h t fix) := by
  unfold State.rerangeEntry
  dsimp only
  refine Relation.ReflTransGen.trans ?_ (micros_rangeRequest _ _)
  refine Relation.ReflTransGen.trans ?_ (micros_queueFor _ _ _)
  have k1 : Micros s (if t.phase.isActive then s.rosterLeave t.home h else s) := by
    split
    · exact micros_rosterLeave _ _ _
    · exact .refl
  refine k1.tail (.term h _ t ?_ (TermKeeps.toRanging rfl k rfl))
  split <;> simp [ht]

theorem micros_reqRerange (s : State) (h : BitVec 16) : Micros s (s.reqRerange h).1 := by
  refine micros_onEntry s h _ fun t ht => ?_
  split
  · rename_i e; exact micros_rerangeEntry _ _ _ _ ht (by rw [e]; rfl)
  · rename_i e; exact micros_rerangeEntry _ _ _ _ ht (by rw [e]; rfl)
  · exact .refl

theorem micros_moveEntry (s : State) (h : Handle) (t : Terminal) (fix : Fix) (target : Chan) (d : Drift) (n : Nat)
    (ht : s.term h = some t) (e : t.phase = .active fix d n) : Micros s (s.moveEntry h t fix target) := by
  unfold State.moveEntry
  dsimp only
  refine Relation.ReflTransGen.trans ?_ (micros_queueFor _ _ _)
  refine (micros_rosterLeave s t.home h).tail (.term h _ t (by simpa using ht) (TermKeeps.of_fix rfl rfl ?_ ?_ ?_))
  · rw [e]; rfl
  · rw [e]; rfl
  · intro f d n st hp; cases hp

theorem micros_reqMove (s : State) (h : BitVec 16) (target : Byte) : Micros s (s.reqMove h target).1 := by
  refine micros_onEntry s h _ fun t ht => ?_
  split
  · rename_i e
    split
    · exact .refl
    · split
      · exact .refl
      · split
        · exact micros_moveEntry _ _ _ _ _ _ _ ht e
        · exact .refl
  · exact .refl

theorem micros_reqClearDamaged (s : State) (h : BitVec 16) : Micros s (s.reqClearDamaged h).1 := by
  refine micros_onHandle s h _ ?_
  split
  · exact .refl
  · exact micros_freeEntry (s.readEntry h.toNat) h.toNat true

theorem micros_injectOn (s : State) (c : Chan) (m : TreeMsg) : Micros s (s.injectOn c m).1 := by
  unfold State.injectOn
  dsimp only
  split
  · have k1 : Micros s (s.modChan c fun x => { x with
        outq := (joinOrReplace (injectMsg s.tree.r m) (s.chan c).outq).queue }) :=
      micros_outq s c _ fun k => joinOrReplace_law k
    split
    · rename_i v _
      exact k1.trans (micros_takeReport (s.modChan c fun x => { x with
        outq := (joinOrReplace (injectMsg s.tree.r m) (s.chan c).outq).queue }) .evicted c v.msg.kind v.msg.handle)
    · exact k1
  · exact .refl

theorem micros_reqInject (s : State) (ch kind : Byte) (h : BitVec 16) (fields : BitVec 64) :
    Micros s (s.reqInject ch kind h fields).1 := by
  refine micros_onChannel s ch _ fun c => ?_
  split
  · exact .refl
  · split
    · exact micros_injectOn _ _ _
    · exact .refl

/-! ## The port's own reports -/

theorem micros_reqNoticeRead (s : State) : Micros s s.reqNoticeRead.1 := by
  unfold State.reqNoticeRead
  split
  · rename_i n rest e
    have k : rest.length ≤ s.notices.length := by rw [e]; simp
    exact (Relation.ReflTransGen.single (.notices (s := s) rest (.inr k))).trans
      (micros_other (s := { s with notices := rest }) (t := { s with notices := rest, overflow := false })
        rfl rfl rfl rfl rfl rfl rfl)
  · exact micros_other rfl rfl rfl rfl rfl rfl rfl

theorem ChanKeeps.clearTallies {L : Nat} (x : ChanState) : ChanKeeps L x { x with tallies := Vector.replicate 22 0 } where
  outq := id
  lapsed := .inr le_rfl
  tally k := .inl (by
    have e : (Vector.replicate 22 0)[k.idx] = 0 := Vector.getElem_replicate _
    exact le_of_eq_of_le e (by decide))
  gap := id
  span := id
  work _ := le_rfl
  skew := rfl
  period := .inl rfl

theorem micros_reqTallyRead (s : State) (ch clear : Byte) : Micros s (s.reqTallyRead ch clear).1 := by
  refine micros_onChannel s ch _ fun c => ?_
  split
  · exact .refl
  · dsimp only
    split
    · exact micros_modChan (ChanKeeps.clearTallies _)
    · exact .refl

theorem micros_reqStoreRecordRead (s : State) (clear : Byte) : Micros s (s.reqStoreRecordRead clear).1 := by
  unfold State.reqStoreRecordRead
  split
  · exact .refl
  · dsimp only
    split
    · exact micros_other rfl rfl rfl rfl rfl rfl rfl
    · exact .refl

theorem micros_reqRestart (s : State) (code : Byte) : Micros s (s.reqRestart code).1 := by
  unfold State.reqRestart
  split
  · exact .refl
  · exact micros_other rfl rfl rfl rfl rfl rfl rfl

/-! ## Transactions -/

theorem took_answer {s : State} {r : State × Reply} (k : Took s r.1) : Took s (State.answer r) :=
  Took.before (t := r.1) ⟨rfl, rfl, rfl, rfl, rfl, rfl, rfl⟩ k

theorem micros_reqChannelGet (s : State) (ch : Byte) : Micros s (s.reqChannelGet ch).1 :=
  micros_onChannel s ch _ fun _ => .refl

theorem micros_reqTableRead (s : State) (idx : Byte) : Micros s (s.reqTableRead idx).1 := by
  rw [reqTableRead_fst]

theorem micros_reqPendingRead (s : State) (idx : Byte) : Micros s (s.reqPendingRead idx).1 := by
  rw [reqPendingRead_fst]

theorem took_decodeRequest (s : State) (code : Nat) (body : List Byte) : Took s (s.decodeRequest code body).1 := by
  unfold State.decodeRequest
  dsimp only
  split
  · exact took_reqTreeSet _ _ _
  · exact .refl _
  · exact .chain (micros_reqChannelSet _ _ _ _ _ _)
  · exact .chain (micros_reqChannelGet _ _)
  · exact .chain (micros_reqCall _ _)
  · exact .chain (micros_reqAdmit _ _)
  · exact .chain (micros_reqBar _ _)
  · exact .chain (micros_reqTableLoad _ _ _)
  · exact .chain (micros_reqTableRemove _ _)
  · exact .chain (micros_reqTableRead _ _)
  · exact .chain (micros_reqPendingRead _ _)
  · exact .chain (micros_reqEntryRead _ _)
  · exact .chain (micros_reqEntryFind _ _)
  · exact .chain (micros_reqDismiss _ _)
  · exact .chain (micros_reqHush _ _)
  · exact .chain (micros_reqResume _ _)
  · exact .chain (micros_reqRerange _ _)
  · exact .chain (micros_reqMove _ _ _)
  · exact .chain (micros_reqClearDamaged _ _)
  · exact .chain (micros_reqInject _ _ _ _ _)
  · exact .chain (micros_reqNoticeRead _)
  · exact .chain (micros_reqTallyRead _ _ _)
  · exact .chain (micros_reqStoreRecordRead _ _)
  · exact .refl _
  · exact .chain (micros_reqRestart _ _)
  · exact .refl _

/-- A byte that meets a composed reply shifts one out; the rest stays (R151). -/
theorem same_clockBytes {r : Reply} (bs : List Byte) (s : State) {n : Nat} (k : s.port.txn = .answered r n) :
    Same s (s.clockBytes bs) := by
  induction bs generalizing s n with
  | nil => exact .refl s
  | cons b bs ih =>
    have e : s.clockByte b = { s with port := { s.port with txn := .answered r (n + 1) } } := by
      unfold State.clockByte; rw [k]
    have h := ih (s.clockByte b) (n := n + 1) (by rw [e])
    exact Same.trans (by rw [e]; exact ⟨rfl, rfl, rfl, rfl, rfl, rfl, rfl⟩) h

/-- The bytes of one event take at most one request. -/
theorem took_clockBytes (bs : List Byte) (s : State) : Took s (s.clockBytes bs) := by
  induction bs generalizing s with
  | nil => exact .refl s
  | cons b bs ih =>
    show Took s ((s.clockByte b).clockBytes bs)
    unfold State.clockByte
    split
    · exact ih s
    · exact Took.after (by exact ⟨rfl, rfl, rfl, rfl, rfl, rfl, rfl⟩) (ih _)
    · dsimp only
      split
      · exact (took_answer (.refl s)).before (same_clockBytes bs _ rfl)
      · split
        · refine (took_answer (Took.after ?_ (took_decodeRequest
            { s with port := { s.port with txn := .receiving [] } } _ _))).before (same_clockBytes bs _ rfl)
          exact ⟨rfl, rfl, rfl, rfl, rfl, rfl, rfl⟩
        · exact Took.after (by exact ⟨rfl, rfl, rfl, rfl, rfl, rfl, rfl⟩) (ih _)

theorem took_whenRunning (s : State) (f : State → State) (k : Took s (f s)) : Took s (s.whenRunning f) := by
  unfold State.whenRunning
  split
  · exact .refl s
  · exact k

/-! ## Channel link frames -/

theorem micros_takeRecord (s : State) (c : Chan) (r : RxRecord) : Micros s (s.takeRecord c r) := by
  cases r with
  | hello len cur => exact micros_takeHello _ _ _ _
  | cycle n room => exact micros_takeCycle _ _ _ _
  | placeResult tag placed => exact micros_takePlaceResult _ _ _ _
  | gapClosed tag => exact micros_takeGapClosed _ _ _
  | arrival a => exact micros_takeArrival _ _ _
  | linkDown => exact micros_takeLinkDown _ _

theorem micros_judgeRecord (s : State) (c : Chan) (kind : Byte) (body : List Byte) :
    Micros s (s.judgeRecord c kind body) := by
  unfold State.judgeRecord
  split
  · exact micros_takeRecord _ _ _
  · exact micros_bump _ _ _

theorem micros_rx (s : State) (c : Chan) (l : List Byte) : Micros s (s.modChan c fun x => { x with rx := l }) :=
  micros_modChan (ChanKeeps.of_same rfl rfl rfl rfl rfl rfl rfl rfl)

theorem micros_hunt (c : Chan) (n : Nat) (bs : List Byte) (s : State) : Micros s (s.hunt c n bs) := by
  induction n generalizing s bs with
  | zero => exact micros_rx _ _ _
  | succ n ih =>
    cases bs with
    | nil => exact micros_rx _ _ _
    | cons b bs =>
      unfold State.hunt
      split
      · split
        · exact micros_rx _ _ _
        · exact (micros_bump _ _ _).trans (ih _ _)
        · exact ((micros_judgeRecord _ _ _ _).trans (micros_rx _ _ _)).trans (ih _ _)
      · exact ih _ _

theorem micros_receive (s : State) (c : Chan) (bytes : List Byte) : Micros s (s.receive c bytes) :=
  (micros_rx _ _ _).trans (micros_hunt _ _ _ _)

/-- A frame read leaves fewer bytes than stood there. -/
theorem readFrame_rest {after : List Byte} {kind : Byte} {body rest : List Byte}
    (h : readFrame after = .good kind body rest) : rest.length < after.length := by
  unfold readFrame at h
  split at h
  · dsimp only at h
    split at h
    · cases h
    · split at h
      · cases h; simp; omega
      · cases h
  · cases h

/-- More fuel than bytes changes nothing. -/
theorem State.hunt_fuel (s : State) (c : Chan) (n : Nat) (bs : List Byte) (h : bs.length < n) :
    s.hunt c n bs = s.hunt c (bs.length + 1) bs := by
  induction n using Nat.strongRecOn generalizing s bs with
  | ind n ih =>
    match n, bs, h with
    | n + 1, [], _ => rfl
    | n + 1, b :: bs, h =>
      have h : bs.length < n := by simpa using h
      rw [State.hunt, List.length_cons, State.hunt]
      split
      · split
        · rfl
        · exact ih n (by omega) _ bs h
        · next e =>
          have := readFrame_rest e
          rw [ih n (by omega) _ _ (by omega), ih (bs.length + 1) (by omega) _ _ (by omega)]
      · exact ih n (by omega) _ bs h

/-! ## Every command and every step -/

/-- The state a management request leaves is that of its act or that of its bytes (R151). -/
theorem took_request {s t : State} {bytes : List Byte} {act : State → State × Reply} (k : Took s (act s).1)
    (e : s.request bytes act = .next t) : Took s t := by
  unfold State.request at e
  cases e
  split
  · exact took_answer k
  · exact took_whenRunning _ _ (took_clockBytes _ _)

theorem micros_request {s t : State} {bytes : List Byte} {act : State → State × Reply} (k : Micros s (act s).1)
    (e : s.request bytes act = .next t) : Took s t := took_request (.chain k) e

theorem took_next {s t u : State} (k : Took s u)
    (e : (Host.Outcome.next u : Host.Outcome State Fault Refusal) = .next t) : Took s t := by cases e; exact k

theorem micros_next {s t u : State} (k : Micros s u)
    (e : (Host.Outcome.next u : Host.Outcome State Fault Refusal) = .next t) : Took s t := took_next (.chain k) e

theorem micros_execResetRelease {s t : State} {keep : Bool} (e : execResetRelease keep s = .next t) : Micros s t := by
  unfold execResetRelease at e
  split at e
  · cases e
    exact (micros_other (s := s) (t := { s with pins := { s.pins with resetLow := false, keep := keep } })
      rfl rfl rfl rfl rfl rfl rfl).trans (micros_takeReset _ _ _)
  · cases e; exact .refl

theorem micros_execSelectRelease {s t : State} (e : execSelectRelease s = .next t) : Micros s t := by
  unfold execSelectRelease at e
  have k : Micros s { s with pins := { s.pins with select := false }, port := { txn := .idle, armed := none } } :=
    micros_other rfl rfl rfl rfl rfl rfl rfl
  dsimp only at e
  split at e
  · cases e; exact k.trans (micros_whenRunning _ _ (micros_takeReset _ _ _))
  · cases e; exact k

theorem micros_execSelectAssert {s t : State} (e : execSelectAssert s = .next t) : Micros s t := by
  unfold execSelectAssert at e
  cases e
  exact (micros_other (s := s) (t := { s with pins := { s.pins with select := true } })
    rfl rfl rfl rfl rfl rfl rfl).trans (micros_whenRunning _ _ (micros_other rfl rfl rfl rfl rfl rfl rfl))

theorem took_execTreeSet {s t : State} {sel : BitVec 32} {slots : List (BitVec 24)}
    (e : execTreeSet sel slots s = .next t) : Took s t := by
  unfold execTreeSet at e
  split at e
  · exact took_request (act := fun s => s.reqTreeSet sel slots) (took_reqTreeSet _ _ _) e
  · exact took_next (took_whenRunning _ _ (took_clockBytes _ _)) e

/-- What every command does is a chain of small changes or a replacement of the settings. -/
theorem took_exec {i : Instr} {s t : State} (e : exec i s = .next t) : Took s t := by
  have up : ∀ (c : Chan) (f : State → State), Micros s (f s) →
      Micros s (s.whenRunning fun st => if st.isUp c then f st else st) := by
    intro c f k
    refine micros_whenRunning _ _ ?_
    split
    · exact k
    · exact .refl
  cases i with
  | hello c len cur => exact micros_next (micros_whenRunning _ _ (micros_takeHello _ _ _ _)) e
  | cycle c n room => exact micros_next (micros_whenRunning _ _ (micros_takeCycle _ _ _ _)) e
  | placeResult c tag placed => exact micros_next (micros_whenRunning _ _ (micros_takePlaceResult _ _ _ _)) e
  | gapClosed c tag => exact micros_next (micros_whenRunning _ _ (micros_takeGapClosed _ _ _)) e
  | arrival c a => exact micros_next (micros_whenRunning _ _ (micros_takeArrival _ _ _)) e
  | linkDown c => exact micros_next (micros_whenRunning _ _ (micros_takeLinkDown _ _)) e
  | linkDefectCheck c bytes => exact micros_next (micros_whenRunning _ _ (micros_receive _ _ _)) e
  | linkDefectRecord c kind body => exact micros_next (micros_whenRunning _ _ (micros_judgeRecord _ _ _ _)) e
  | scanExpiry => exact micros_next (micros_whenRunning _ _ (micros_scan _)) e
  | gapLapse c n => exact micros_next (up c (·.lapseCheck c n) (micros_lapseCheck _ _ _)) e
  | offerExpiry c n => exact micros_next (up c (·.expireOffer c n) (micros_expireOffer _ _ _)) e
  | censusPeriodDue c =>
    exact micros_next (up c (·.modChan c ChanState.periodDue) (micros_modChan (ChanKeeps.periodDue _))) e
  | silenceTimeout c => exact micros_next (micros_whenRunning _ _ (micros_silenceExpiry _ _)) e
  | lost h => exact micros_next (micros_whenRunning _ _ (micros_lossPart _ _)) e
  | retentionExpiry h => exact micros_next (micros_whenRunning _ _ (micros_retentionPart _ _)) e
  | pendingExpired m => exact micros_next (micros_whenRunning _ _ (micros_pendingPart _ _)) e
  | finalHandOutEvent c k h => exact micros_next (micros_deliver _ _) e
  | outQueueReport why c k h => exact micros_next (micros_deliver _ _) e
  | voidEvent c h => exact micros_next (micros_deliver _ _) e
  | rosterJoinEvent c h => exact micros_next (micros_deliver _ _) e
  | rosterLeaveEvent c h => exact micros_next (micros_deliver _ _) e
  | channelExitEvent c => exact micros_next (micros_deliver _ _) e
  | selectAssert => exact .chain (micros_execSelectAssert e)
  | selectRelease => exact .chain (micros_execSelectRelease e)
  | unknown bytes => exact took_next (took_whenRunning _ _ (took_clockBytes _ _)) e
  | treeSet sel slots => exact took_execTreeSet e
  | treeGet => exact micros_request (act := State.reqTreeGet) .refl e
  | channelSet ch sel mode period skew =>
    exact micros_request (act := fun s => s.reqChannelSet ch sel mode period skew) (micros_reqChannelSet _ _ _ _ _ _) e
  | channelGet ch => exact micros_request (act := fun s => s.reqChannelGet ch) (micros_reqChannelGet _ _) e
  | call ch => exact micros_request (act := fun s => s.reqCall ch) (micros_reqCall _ _) e
  | admitMark m => exact micros_request (act := fun s => s.reqAdmit m) (micros_reqAdmit _ _) e
  | bar m => exact micros_request (act := fun s => s.reqBar m) (micros_reqBar _ _) e
  | tableLoad m policy => exact micros_request (act := fun s => s.reqTableLoad m policy) (micros_reqTableLoad _ _ _) e
  | tableRemove m => exact micros_request (act := fun s => s.reqTableRemove m) (micros_reqTableRemove _ _) e
  | tableRead idx => exact micros_request (act := fun s => s.reqTableRead idx) (micros_reqTableRead _ _) e
  | pendingRead idx => exact micros_request (act := fun s => s.reqPendingRead idx) (micros_reqPendingRead _ _) e
  | entryRead h => exact micros_request (act := fun s => s.reqEntryRead h) (micros_reqEntryRead _ _) e
  | entryFind m => exact micros_request (act := fun s => s.reqEntryFind m) (micros_reqEntryFind _ _) e
  | dismiss h => exact micros_request (act := fun s => s.reqDismiss h) (micros_reqDismiss _ _) e
  | hush h => exact micros_request (act := fun s => s.reqHush h) (micros_reqHush _ _) e
  | resume h => exact micros_request (act := fun s => s.reqResume h) (micros_reqResume _ _) e
  | rerange h => exact micros_request (act := fun s => s.reqRerange h) (micros_reqRerange _ _) e
  | move h target => exact micros_request (act := fun s => s.reqMove h target) (micros_reqMove _ _ _) e
  | clearDamaged h => exact micros_request (act := fun s => s.reqClearDamaged h) (micros_reqClearDamaged _ _) e
  | inject ch kind h fields =>
    exact micros_request (act := fun s => s.reqInject ch kind h fields) (micros_reqInject _ _ _ _ _) e
  | noticeRead => exact micros_request (act := fun s => s.reqNoticeRead) (micros_reqNoticeRead _) e
  | tallyRead ch clear => exact micros_request (act := fun s => s.reqTallyRead ch clear) (micros_reqTallyRead _ _ _) e
  | storeRecordRead clear =>
    exact micros_request (act := fun s => s.reqStoreRecordRead clear) (micros_reqStoreRecordRead _ _) e
  | status => exact micros_request (act := State.reqStatus) .refl e
  | restart code => exact micros_request (act := fun s => s.reqRestart code) (micros_reqRestart _ _) e
  | powerUp => exact micros_next (.single .full) e
  | resetAssert =>
    exact micros_next (micros_other (s := s)
      (t := { s with pins := { s.pins with resetLow := true }, port := { txn := .idle, armed := none } })
      rfl rfl rfl rfl rfl rfl rfl) e
  | resetRelease keep => exact .chain (micros_execResetRelease e)

/-- What a step does is a chain of small changes or a replacement of the settings. -/
theorem took_step {s t : State} (e : step s = .next t) : Took s t := by
  unfold step at e
  split at e
  · rename_i c rest _
    exact Took.after (by exact ⟨rfl, rfl, rfl, rfl, rfl, rfl, rfl⟩) (took_exec e)
  · cases e; exact .chain (micros_idle _)

/-- A property that every small change keeps, and every replacement of the settings a state like the first holds, every
step keeps. -/
theorem kept_by_step {P : State → Prop} {s t : State} (k : ∀ s t, Micro s t → P s → P t)
    (ks : ∀ s1 u, Same s s1 → (s.tree.inRange = true → u.inRange = true) → u.consistent = true →
      s1.settingsLocked s1.tree u = false → P s1 → P (s1.replaceSettings u)) (h : P s) (e : step s = .next t) : P t := by
  rcases took_step e with m | ⟨s1, u, before, range, ok, free, after⟩
  · clear e
    induction m with
    | refl => exact h
    | tail _ m ih => exact k _ _ m ih
  · exact k _ _ after.micro (ks s1 u before range ok free (k _ _ before.micro h))

end Sys2Proof.Machine
end

