-- ==== Sys2Proof/Tests/Slice0.lean ====
section
/-! SUPPORT. Tests: ill-formed commands, the worked examples of spec/ taken one step at a time, and for every
statement with hypotheses a witness that states and operands meet them. Expected figures are the manual's own, named
beside each test. -/

open Sys2Proof Sys2Proof.Machine

namespace Sys2Proof.Tests

set_option Elab.async false

/-! ## Helpers -/

/-- The state a command leads to. -/
def after (i : Instr) (s : State) : State :=
  match exec i s with
  | .next t => t
  | .fault f => nomatch f
  | .refused _ => s

/-- The reply the port has composed. -/
def replyOf (s : State) : Option Reply :=
  match s.port.txn with
  | .answered r _ => some r
  | _ => none

/-- The reply code of a request. -/
def codeOf (i : Instr) (s : State) : Option ReplyCode := (replyOf (after i s)).map (·.code)

/-- A state with channel c's part replaced. -/
def withChan (c : Chan) (x : ChanState) (s : State) : State := s.modChan c fun _ => x

/-- An UP channel whose last cycle number is n. -/
def up (n : Cyc) : ChanState := { ChanState.reset with link := .up n }

/-- A port at the start of a transaction. -/
def ready (s : State) : State :=
  { s with port := { s.port with txn := .receiving [] }, pins := { s.pins with select := true } }

/-- Table 1-5: the long-reach parameter set. -/
def longReach : TreeSettings := { TreeSettings.default with rtMin := 124416, rtMax := 373248, nConf := 3 }

/-- A terminal's fields with the given state. -/
def terminal (m : Mark) (c : Chan) (est : Int) (p : Phase) : Terminal where
  mark := m
  home := c
  estimate := est
  wasActive := false
  moveFlag := false
  heard := false
  owed := Owed.none
  phase := p

/-- An entry whose check code agrees. -/
def entryOf (h : Handle) (t : Terminal) : Entry := ⟨h, .sound, some t⟩

/-- A range gap offered in the reply to cycle n − 2 of Section 1's examples. -/
def gap (tag : Tag) (k : GapKind) (ref : Cyc) (start len : Nat) (last : Cyc) : Gap := ⟨tag, k, ref, start, len, last⟩

/-- An arrival with every field blank. -/
def blankArrival : Arrival := ⟨.census, .clean, 0, 0, 0, 0, 0, 0, 0⟩

/-! ## Ill-formed commands are refused by each check of WellFormed -/

theorem test_wf_treeSet : (Instr.treeSet 1 [0]).wf = false ∧ (Instr.treeSet 1 (List.replicate 25 0)).wf = true := by
  decide
theorem test_wf_body : (Instr.linkDefectRecord .c0 1 (List.replicate 256 0)).wf = false ∧
    (Instr.linkDefectRecord .c0 1 (List.replicate 255 0)).wf = true := by decide +kernel
theorem test_wf_bytes : (Instr.unknown []).wf = false ∧ (Instr.unknown [0]).wf = true := by decide
theorem test_wf_lost : (Instr.lost 0).wf = false ∧ (Instr.lost 512).wf = false ∧ (Instr.lost 511).wf = true := by decide
theorem test_wf_retentionExpiry : (Instr.retentionExpiry 0).wf = false ∧ (Instr.retentionExpiry 512).wf = false := by
  decide
theorem test_wf_finalHandOut : (Instr.finalHandOutEvent .c0 .hush 0).wf = false ∧
    (Instr.finalHandOutEvent .c0 .hush 512).wf = false := by decide
theorem test_wf_report : (Instr.outQueueReport .evicted .c0 .hush 0).wf = false ∧
    (Instr.outQueueReport .evicted .c0 .hush 512).wf = false := by decide
theorem test_wf_void : (Instr.voidEvent .c0 0).wf = false ∧ (Instr.voidEvent .c0 512).wf = false := by decide
theorem test_wf_join : (Instr.rosterJoinEvent .c0 0).wf = false ∧ (Instr.rosterJoinEvent .c0 512).wf = false := by
  decide
theorem test_wf_leave : (Instr.rosterLeaveEvent .c0 0).wf = false ∧ (Instr.rosterLeaveEvent .c0 512).wf = false := by
  decide

/-! ## Section 1: the arithmetic -/

/-- Table 1-1. -/
theorem test_elapsed_across_the_wrap :
    elapsed 77760 65534 0 65534 1200 = some 1200 ∧ elapsed 77760 65534 0 65535 0 = some 77760 ∧
      elapsed 77760 65534 0 2 25127 = some 336167 ∧ elapsed 77760 65534 0 65533 70000 = none ∧
      elapsed 77760 65534 0 1 77760 = none := by decide +kernel

/-- The end cycles of Examples 1-1 and 1-2. -/
theorem test_endCycle : endCycle 77760 65534 146162 257376 = 3 ∧ endCycle 77760 1002 146162 257376 = 1007 := by
  decide +kernel

/-- Example 1-1: the lapse check closes the gap at the first number at or after 11. -/
theorem test_lapse_at_eleven :
    (gap 0 .voidRange 65534 146162 257376 3).lapsedAt 10 = false ∧
      (gap 0 .voidRange 65534 146162 257376 3).lapsedAt 11 = true := by decide +kernel

/-- Example 1-2. -/
theorem test_census_figures : longReach.consistent = true ∧ censusSpan longReach 37 = (146162, 257376) ∧
    inSpan 146162 257376 336167 480 = true ∧ coarseRoundTrip longReach 37 336167 12 = 311285 ∧
    reachOk longReach 37 311285 = true := by decide +kernel

/-- Example 1-3. -/
theorem test_range_figures : rangeSpan longReach 37 311285 = (333031, 448) ∧
    completion longReach 37 [311289, 311288, 311291] = .accepted 311289 ∧
    fillDelay longReach 37 311289 = 108674 := by decide +kernel

/-- Example 1-3: replies start within 333,031..333,159 ticks of the reference. -/
theorem test_range_span_edges : inSpan 333031 448 333030 320 = false ∧ inSpan 333031 448 333031 320 = true ∧
    inSpan 333031 448 333159 320 = true ∧ inSpan 333031 448 333160 320 = false := by decide +kernel

/-- Example 1-4. -/
theorem test_ties_round_upward : roundedMean [311289, 311290] = 311290 ∧ roundedMean [311289, 311292] = 311291 := by
  decide +kernel

/-- Example 1-5, Example 8-2. -/
theorem test_trims : trimOf longReach 15 = 3 ∧ trimOf longReach (-13) = -3 ∧
    trimOf { longReach with Cmax := 2 } 15 = 2 ∧ trimOf longReach 25 = 6 ∧
    reachOk longReach 37 373276 = false ∧ reachOk longReach 37 373275 = true := by decide +kernel

/-! ## Section 3: channel 3 of Example 3-2, channel 2 of Example 3-1 -/

/-- Channel 3 DOWN with entries 3 and 21 ACTIVE there, census mode PERIODIC. -/
def ex32 : State :=
  withChan .c3 { ChanState.reset with mode := .periodic, periodCtr := 5 } { State.reset with
    registry := [entryOf 3 (terminal 3 .c3 1000 (.active ⟨1000, 419000⟩ ⟨none, 0, none⟩ 0)),
      entryOf 21 (terminal 21 .c3 1000 (.active ⟨1000, 419000⟩ ⟨none, 0, none⟩ 0))] }

/-- Table 3-5, first row. -/
theorem test_hello_mismatched : ((after (.hello .c3 77000 480) ex32).chan .c3).link = .mismatched ∧
    ((after (.hello .c3 77000 480) ex32).chan .c3).tx = [.helloAck false 77760] ∧
    (after (.hello .c3 77000 480) ex32).notices = [Notice.channelState .c3 .mismatched] := by decide +kernel

/-- Table 3-5, third row. -/
theorem test_hello_accepted : ((after (.hello .c3 77760 500) ex32).chan .c3).link = .aligning 500 1 ∧
    ((after (.hello .c3 77760 500) ex32).chan .c3).tx = [.helloAck true 77760] ∧
    (after (.hello .c3 77760 500) ex32).notices = [Notice.channelState .c3 (.aligning 0 0)] := by decide +kernel

/-- Table 3-5, CYCLE 506: UP, with the roster announced in handle order. -/
theorem test_cycle_completes_alignment :
    let t := after (.cycle .c3 506 4) (ex32.modChan .c3 fun x => { x with link := .aligning 505 3 })
    (t.chan .c3).link = .up 506 ∧ (t.chan .c3).roster = [3, 21] ∧ (t.chan .c3).due = true ∧
      (t.chan .c3).periodCtr = 0 ∧
      (t.chan .c3).tx = [.cycleReply 506 [] none, .rosterJoin 3, .rosterJoin 21] ∧
      t.notices = [Notice.channelState .c3 (.up 0)] := by decide +kernel

/-- Table 3-6: the slip at CYCLE 510. -/
theorem test_cycle_slips :
    let t := after (.cycle .c3 510 4) (ex32.modChan .c3 fun x => { x with
      link := .up 508, roster := [3, 21], due := true, dueAge := 2, periodCtr := 2
      gaps := [gap 0 (.range 14 false) 509 333031 448 513] })
    (t.chan .c3).link = .aligning 510 1 ∧ (t.chan .c3).rangeQ = [14] ∧ (t.chan .c3).roster = [] ∧
      (t.chan .c3).gaps = [] ∧ (t.chan .c3).due = true ∧ (t.chan .c3).dueAge = 0 ∧ (t.chan .c3).periodCtr = 2 ∧
      (t.chan .c3).tx = [.cycleReply 510 [] none] := by decide +kernel

/-- The start of Example 3-1. -/
def ex31 : State :=
  withChan .c2 { up 999 with
    mode := .demand, tagCtr := 40, skew := 37, due := true, rangeQ := [5, 9, 8] } { State.reset with
    tree := longReach
    registry := [entryOf 5 (terminal 5 .c2 311285 (.ranging 0 [] none none)),
      entryOf 8 (terminal 8 .c2 311300 (.ranging 0 [] none none)),
      entryOf 9 (terminal 9 .c2 233625 (.ranging 0 [] none none))] }

/-- Example 3-1 after the placement of tag 40. -/
def ex31placed : State := ex31.modChan .c2 fun x => { x with
  link := .up 1000, tagCtr := 41, dueAge := 1, rangeQ := [9, 8], gaps := [gap 40 (.range 5 false) 1002 333031 448 1006] }

/-- Example 3-1, CYCLE 1000: handle 5 is offered. -/
theorem test_cycle_offers_the_head :
    let x := (after (.cycle .c2 1000 4) ex31).chan .c2
    x.offer = some ⟨40, .range 5, 1002, 333031, 448, 1006⟩ ∧ x.rangeQ = [9, 8] ∧ x.dueAge = 1 ∧ x.tagCtr = 41 := by
  decide +kernel

/-- Example 3-1, CYCLE 1001: handle 9 is passed over, handle 8 is offered. -/
theorem test_cycle_passes_over_an_overlap :
    let x := (after (.cycle .c2 1001 4) ex31placed).chan .c2
    x.offer = some ⟨41, .range 8, 1003, 333046, 448, 1007⟩ ∧ x.rangeQ = [9] ∧ x.dueAge = 2 := by decide +kernel

/-- Example 3-1: PLACE RESULT (40, placed). -/
theorem test_place_result_placed :
    ((after (.placeResult .c2 40 true) (after (.cycle .c2 1000 4) ex31)).chan .c2).gaps =
      [gap 40 (.range 5 false) 1002 333031 448 1006] := by decide +kernel

/-- Example 3-1: PLACE RESULT (41, declined). -/
theorem test_place_result_declined :
    let x := (after (.placeResult .c2 41 false) (after (.cycle .c2 1001 4) ex31placed)).chan .c2
    x.rangeQ = [8, 9] ∧ x.declineStreak = 1 ∧ x.tally .declines = 1 ∧ x.offer = none := by decide +kernel

/-- Example 3-1, CYCLE 1016: an overdue census holds back the range offer. -/
theorem test_overdue_census_waits :
    ((after (.cycle .c2 1016 4) (ex31.modChan .c2 fun x => { x with
      link := .up 1015, dueAge := 16, rangeQ := [9], tagCtr := 49
      gaps := [gap 47 (.range 5 false) 1016 333031 448 1020] })).chan .c2).offer = none := by decide +kernel

/-- Example 3-1, CYCLE 1022: the census gap is offered. -/
theorem test_overdue_census_is_offered :
    ((after (.cycle .c2 1022 4) (ex31.modChan .c2 fun x => { x with
      link := .up 1021, dueAge := 22, rangeQ := [9], tagCtr := 49 })).chan .c2).offer =
        some ⟨49, .census, 1024, 146162, 257376, 1029⟩ := by decide +kernel

/-- Example 3-1, last sentence: census gap 49 lapses at CYCLE 1037 and not before. -/
theorem test_gap_lapse :
    let s := ex31.modChan .c2 fun x => { x with gaps := [gap 49 (.census []) 1024 146162 257376 1029] }
    ((after (.gapLapse .c2 1036) s).chan .c2).gaps.length = 1 ∧ ((after (.gapLapse .c2 1037) s).chan .c2).gaps = [] ∧
      ((after (.gapLapse .c2 1037) s).chan .c2).lapsed = [49] ∧
      ((after (.gapLapse .c2 1037) s).chan .c2).tally .lapses = 1 := by decide +kernel

/-- R53 and R3: an offer whose reference cycle has come counts as declined, one 32,767 cycles ahead does not, and one
32,768 cycles ahead does, since a number that far ahead is before this one. -/
theorem test_offer_expiry :
    let s := ex31.modChan .c2 fun x => { x with offer := some ⟨40, .range 5, 1002, 333031, 448, 1006⟩ }
    ((after (.offerExpiry .c2 1001) s).chan .c2).offer.isSome = true ∧
      ((after (.offerExpiry .c2 1002) s).chan .c2).offer = none ∧
      ((after (.offerExpiry .c2 1002) s).chan .c2).rangeQ = [5, 5, 9, 8] ∧
      ((after (.offerExpiry .c2 33771) s).chan .c2).offer.isSome = true ∧
      ((after (.offerExpiry .c2 33770) s).chan .c2).offer = none := by decide +kernel

/-- R58: census becomes due when the raised counter reaches the period. -/
theorem test_census_period_due :
    let s := ex31.modChan .c2 fun x => { x with mode := .periodic, due := false, dueAge := 3, periodCtr := 7999 }
    ((after (.censusPeriodDue .c2) s).chan .c2).due = true ∧ ((after (.censusPeriodDue .c2) s).chan .c2).dueAge = 0 := by
  decide +kernel

/-- Example 7-2 with R_max 2: the silent gap fails the attempt of a fresh entry. -/
theorem test_gap_closed_fails_the_attempt :
    let s := { ex31 with
      tree := { longReach with Rmax := 2 }
      registry := [entryOf 14 (terminal 0xA .c2 311285 (.ranging 1 [311289] none none))] }
    let t := after (.gapClosed .c2 52) (s.modChan .c2 fun x => { x with
      rangeQ := [], gaps := [gap 52 (.range 14 false) 1034 333031 448 1038] })
    (t.term 14).map (·.phase) = some (.dismissing false false) ∧ t.notices = [Notice.rangeFailed 14 .c2 1] ∧
      (t.chan .c2).outq = [⟨.dismiss 14, true, 2, true⟩] ∧ (t.chan .c2).rangeQ = [] ∧
      (t.chan .c2).tally .noReply = 1 := by decide +kernel

/-- R44: the second silent scan takes the link DOWN. -/
theorem test_silence_timeout :
    ((after (.silenceTimeout .c2) (ex31.modChan .c2 fun x => { x with silence := 1 })).chan .c2).link = .down ∧
      (after (.silenceTimeout .c2) ex31) = ex31 := by decide +kernel

/-! ## Section 4: channel 1 of Example 4-1 -/

/-- Table 4-3. -/
def ex41 : State :=
  withChan .c1 { up 299 with outq := [⟨.enrol 7 0xA, false, 2, true⟩, ⟨.trimDelay 12 (-3), false, 1, true⟩,
    ⟨.setDelay 20 108674, false, 2, true⟩] } (ready { State.reset with
    registry := [entryOf 7 (terminal 0xA .c1 1000 (.enrolling 0 none)),
      entryOf 20 (terminal 0xB .c1 1000 (.joining ⟨311289, 108674⟩))] })

/-- Table 4-4. -/
def ex41later : State := ex41.modChan .c1 fun x => { x with
  link := .up 300
  outq := [⟨.enrol 7 0xA, false, 1, true⟩, ⟨.dismiss 20, true, 2, true⟩, ⟨.hush 0, true, 2, false⟩] }

/-- Table 4-5, CYCLE 300. -/
theorem test_handout_normal_messages :
    let t := after (.cycle .c1 300 2) ex41
    (t.chan .c1).tx = [.cycleReply 300 [.enrol 7 0xA, .trimDelay 12 (-3)] none] ∧
      t.events = [.finalHandOut .c1 .trimDelay 12] ∧
      (t.chan .c1).outq = [⟨.enrol 7 0xA, false, 1, true⟩, ⟨.setDelay 20 108674, false, 2, true⟩] := by decide +kernel

/-- Table 4-5, CYCLE 301: the room 6 is limited to 4, urgent messages first. -/
theorem test_handout_urgent_first :
    let t := after (.cycle .c1 301 6) ex41later
    (t.chan .c1).tx = [.cycleReply 301 [.dismiss 20, .hush 0, .enrol 7 0xA] none] ∧
      t.events = [.finalHandOut .c1 .enrol 7] ∧
      (t.chan .c1).outq = [⟨.dismiss 20, true, 1, true⟩, ⟨.hush 0, true, 1, false⟩] := by decide +kernel

/-- Example 4-1: the DISMISS request for handle 20 supersedes its SET DELAY. -/
theorem test_dismiss_supersedes :
    let t := after (.dismiss 20) ex41
    codeOf (.dismiss 20) ex41 = some .done ∧ (t.term 20).map (·.phase) = some (.dismissing false false) ∧
      (t.chan .c1).outq = [⟨.enrol 7 0xA, false, 2, true⟩, ⟨.trimDelay 12 (-3), false, 1, true⟩,
        ⟨.dismiss 20, true, 2, true⟩] := by decide +kernel

/-- Example 4-1: INJECT (channel 1, HUSH, handle 0). -/
theorem test_inject_hush_all :
    codeOf (.inject 1 4 0 0) ex41 = some .done ∧
      ((after (.inject 1 4 0 0) ex41).chan .c1).outq.getLast? = some ⟨.hush 0, true, 2, false⟩ := by decide +kernel

/-- Example 4-2: an injected ENROL replaces in place, keeps the report flag and becomes urgent. The fields are mark
0x0B with its check byte 0x0B. -/
theorem test_inject_replaces :
    let s := ex41.modChan .c1 fun x => { x with outq := [⟨.enrol 46 0xB, false, 1, true⟩, ⟨.hush 33, true, 2, true⟩] }
    ((after (.inject 1 1 46 0x0B0B) s).chan .c1).outq = [⟨.enrol 46 0xB, true, 2, true⟩, ⟨.hush 33, true, 2, true⟩] := by
  decide +kernel

/-- Table 4-5: the final hand-out of ENROL makes entry 7 RANGING with its request queued. -/
theorem test_final_handout_enrol :
    let t := after (.finalHandOutEvent .c1 .enrol 7) ex41
    (t.term 7).map (·.phase) = some (.ranging 0 [] none none) ∧ (t.chan .c1).rangeQ = [7] := by decide +kernel

/-- Table 7-5: the final hand-out of SET DELAY activates entry 20. -/
theorem test_final_handout_setDelay :
    let t := after (.finalHandOutEvent .c1 .setDelay 20) ex41
    (t.term 20).map (·.phase) = some (.active ⟨311289, 108674⟩ ⟨none, 2, none⟩ 0) ∧ (t.chan .c1).roster = [20] ∧
      (t.chan .c1).tx = [.rosterJoin 20] ∧ t.notices = [Notice.activated 20 .c1 108674] := by decide +kernel

/-- Example 4-2: the RESUME evicted from a full queue is owed on JOINING entry 20. -/
theorem test_evicted_report :
    ((after (.outQueueReport .evicted .c1 .resume 20) ex41).term 20).map (·.owed) =
      some { Owed.none with resume := true } := by decide +kernel

/-- R31: a discarded ENROL is owed on ENROLLING entry 7, a discarded HUSH is not. -/
theorem test_discarded_report :
    ((after (.outQueueReport .discarded .c1 .enrol 7) ex41).term 7).map (·.owed) =
        some { Owed.none with enrol := true } ∧
      ((after (.outQueueReport .discarded .c1 .hush 7) ex41).term 7).map (·.owed) = some Owed.none := by decide +kernel

/-! ## Section 5: the census gap of Example 5-1 -/

/-- The checked mark of a one-byte identity. -/
def marked (m : Byte) : CheckedMark := 0#48 ++ m ++ m

/-- A clean census reply in gap 9. -/
def reply (cyc : Cyc) (off : BitVec 24) (j m : Byte) : Arrival :=
  { blankArrival with tag := 9, startCycle := cyc, startOffset := off, slot := j, mark := marked m }

/-- The gap of Example 5-1 with its answer list. -/
def censusGap (l : List Mark) : Gap := ⟨9, .census l, 1002, 146162, 257376, 1007⟩

/-- Example 5-1 with marks A to H as 0xA to 0x11: entry 19 LOST with mark E, entry 27 ACTIVE with mark F, and entries
1 to 13 held so that handle 14 is the lowest free one. -/
def ex51 (l : List Mark) : State :=
  withChan .c2 { up 1003 with skew := 37, roster := [27], gaps := [censusGap l] } (withChan .c1 (up 3) { State.reset with
    tree := { longReach with defectNotices := true }
    table := [⟨0xA, .letIn, false⟩]
    retention := [19]
    registry := ((List.range' 1 13).map fun h => ⟨h, .sound, none⟩) ++
      [entryOf 19 { terminal 0xE .c1 250690 (.lost (some 250690) 4 true) with wasActive := true },
        entryOf 27 { terminal 0xF .c2 183700 (.active ⟨183700, 236263⟩ ⟨none, 0, none⟩ 0) with heard := true }] })

/-- Table 5-3: the nine verdicts in order. -/
theorem test_census_verdicts :
    let v := fun l a => censusVerdict longReach 37 (censusGap l) l a
    v [] (reply 1002 10000 2 0xD) = .defect .outOfSpan ∧ v [] (reply 1003 70000 5 0x10) = .sound 124670 ∧
      v [0x10] { reply 1004 12000 0 0xB with status := .delimiterFault } = .defect .deliveryDefect ∧
      v [0x10] (reply 1004 50000 0 0xF) = .sound 183710 ∧ v [0x10, 0xF] (reply 1005 40000 3 0xE) = .sound 250702 ∧
      v [0x10, 0xF, 0xE] (reply 1005 60000 40 0xC) = .defect .holdoffRange ∧
      v [0x10, 0xF, 0xE] (reply 1006 25127 12 0xA) = .sound 311285 ∧
      v [0x10, 0xF, 0xE, 0xA] (reply 1006 30000 31 0xA) = .defect .duplicateInGap ∧
      v [0x10, 0xF, 0xE, 0xA] (reply 1007 14200 0 0x11) = .defect .outOfReach := by decide +kernel

/-- R77: the check byte, the blank marks and the ninth answer. -/
theorem test_census_verdicts_of_the_other_checks :
    let v := fun l a => censusVerdict longReach 37 (censusGap l) l a
    v [] { reply 1003 70000 5 0x10 with mark := 0x1011 } = .defect .checkDefect ∧
      v [] { reply 1003 70000 5 0 with mark := 0 } = .defect .blankMark ∧
      v [] { reply 1003 70000 5 0 with mark := 0xFFFFFFFFFFFFFFFF } = .defect .blankMark ∧
      v [1, 2, 3, 4, 5, 6, 7, 8] (reply 1003 70000 5 0x10) = .defect .answerOverflow := by decide +kernel

/-- Reply 1 of Example 5-1: tally and DEFECT notice. -/
theorem test_arrival_census_defect :
    let t := after (.arrival .c2 (reply 1002 10000 2 0xD)) (ex51 [])
    (t.chan .c2).tally .outOfSpan = 1 ∧ t.notices = [Notice.defect .c2 (some 0xD) .outOfSpan] := by decide +kernel

/-- Reply 2: pending under ASK. -/
theorem test_arrival_census_pending :
    let t := after (.arrival .c2 (reply 1003 70000 5 0x10)) (ex51 [])
    t.waiting = [⟨0x10, .c2, 124670, 0, 1⟩] ∧ t.notices = [Notice.pending 0x10] ∧
      (t.chan .c2).gaps = [censusGap [0x10]] := by decide +kernel

/-- Reply 4: a mark conflict. -/
theorem test_arrival_census_conflict :
    let t := after (.arrival .c2 (reply 1004 50000 0 0xF)) (ex51 [])
    (t.chan .c2).tally .markConflict = 1 ∧ t.notices = [Notice.markConflict 27 .c2 0xF] ∧
      t.registry = (ex51 []).registry := by decide +kernel

/-- Reply 5 and Table 5-5: LOST entry 19 is re-enrolled on channel 2. -/
theorem test_arrival_census_reEnrol :
    let t := after (.arrival .c2 (reply 1005 40000 3 0xE)) (ex51 [])
    t.term 19 = some { terminal 0xE .c2 250702 (.enrolling 0 (some 250690)) with wasActive := true } ∧
      t.retention = [] ∧ (t.chan .c2).outq = [⟨.enrol 19 0xE, false, 2, true⟩] ∧
      t.notices = [Notice.registered 19 .c2 0xE] := by decide +kernel

/-- Reply 7 and Table 5-5: mark A is registered as 14. -/
theorem test_arrival_census_registered :
    let t := after (.arrival .c2 (reply 1006 25127 12 0xA)) (ex51 [])
    t.term 14 = some (terminal 0xA .c2 311285 (.enrolling 0 none)) ∧
      (t.chan .c2).outq = [⟨.enrol 14 0xA, false, 2, true⟩] ∧ t.notices = [Notice.registered 14 .c2 0xA] := by
  decide +kernel

/-- Example 5-2: with heard clear the ACTIVE entry is re-enrolled and leaves the roster. -/
theorem test_arrival_census_restart :
    let t := after (.arrival .c2 (reply 1004 50002 0 0xF)) ((ex51 []).modTerm 27 fun u => { u with heard := false })
    (t.term 27).map (·.phase) = some (.enrolling 0 (some 183700)) ∧ (t.term 27).map (·.estimate) = some 183712 ∧
      (t.chan .c2).roster = [] ∧ (t.chan .c2).tx = [.rosterLeave 27] := by decide +kernel

/-! ## Section 6: Example 6-1 -/

/-- Table 6-2. -/
def ex61 : State :=
  withChan .c0 (up 3) (withChan .c1 (up 3) (ready { State.reset with
    tree := { longReach with aHold := 3 }
    table := [⟨0xA, .letIn, false⟩]
    waiting := [⟨0x10, .c1, 124640, 0, 2⟩, ⟨0x12, .c0, 98000, 1, 1⟩]
    registry := (List.range' 1 14).map fun h => ⟨h, .sound, none⟩ }))

/-- TABLE LOAD (J, BAR) joins at the end. -/
theorem test_tableLoad : codeOf (.tableLoad 0x12 2) ex61 = some .done ∧
    (after (.tableLoad 0x12 2) ex61).table = [⟨0xA, .letIn, false⟩, ⟨0x12, .bar, false⟩] := by decide +kernel

/-- The BAR ruling removes the pending item and raises BARRED_SEEN. -/
theorem test_barred_answer :
    let t := (after (.tableLoad 0x12 2) ex61).admission .c0 0x12 98000
    t.waiting = [⟨0x10, .c1, 124640, 0, 2⟩] ∧ (t.chan .c0).tally .barredAnswer = 1 ∧
      t.notices = [Notice.barredSeen .c0 0x12] ∧ t.table = [⟨0xA, .letIn, false⟩, ⟨0x12, .bar, true⟩] := by
  decide +kernel

/-- Table 6-2: the refresh of G. -/
theorem test_refresh :
    ({ ex61 with waiting := [⟨0x10, .c2, 124670, 1, 1⟩] }.admission .c1 0x10 124640).waiting =
      [⟨0x10, .c1, 124640, 0, 2⟩] := by decide +kernel

/-- G is admitted as handle 15 on channel 1. -/
theorem test_admit :
    let t := after (.admitMark 0x10) ex61
    replyOf t = some ⟨.done, [0, 15]⟩ ∧ t.term 15 = some (terminal 0x10 .c1 124640 (.enrolling 0 none)) ∧
      (t.chan .c1).outq = [⟨.enrol 15 0x10, false, 2, true⟩] ∧ t.waiting = [⟨0x12, .c0, 98000, 1, 1⟩] ∧
      t.notices = [Notice.registered 15 .c1 0x10] := by decide +kernel

/-- With channel 1 DOWN the reply is CHANNEL_DOWN and the item is kept. -/
theorem test_admit_channel_down : codeOf (.admitMark 0x10) (withChan .c1 ChanState.reset ex61) = some .channelDown ∧
    (after (.admitMark 0x10) (withChan .c1 ChanState.reset ex61)).waiting = ex61.waiting := by decide +kernel

/-- R104: BAR of a pending mark. -/
theorem test_bar : codeOf (.bar 0x12) ex61 = some .done ∧ (after (.bar 0x12) ex61).waiting.length = 1 ∧
    (after (.bar 0x12) ex61).table = [⟨0xA, .letIn, false⟩, ⟨0x12, .bar, false⟩] := by decide +kernel

/-- The scan that brings G to age 3 expires it. -/
theorem test_pending_expires :
    let s := { ex61 with waiting := [⟨0x10, .c1, 124640, 2, 2⟩] }
    (after (.pendingExpired 0x10) s).waiting = [] ∧
      (after (.pendingExpired 0x10) s).notices = [Notice.pendingExpired 0x10] ∧
      (after (.pendingExpired 0x10) ex61) = ex61 := by decide +kernel

/-- R96 and R105, with the layouts of Table 12-6. -/
theorem test_tableRead_pendingRead :
    replyOf (after (.tableRead 0) ex61) = some ⟨.done, [1, 0, 0, 0, 0, 0, 0, 0xA, 1, 0]⟩ ∧
      codeOf (.tableRead 1) ex61 = some .empty ∧ codeOf (.tableRead 64) ex61 = some .outOfRange ∧
      replyOf (after (.pendingRead 1) ex61) =
        some ⟨.done, [2, 0, 0, 0, 0, 0, 0, 0x12, 0, 0x01, 0x7E, 0xD0, 1, 1]⟩ := by decide +kernel

/-- R96. -/
theorem test_tableRemove : codeOf (.tableRemove 0xA) ex61 = some .done ∧ (after (.tableRemove 0xA) ex61).table = [] ∧
    codeOf (.tableRemove 0xB) ex61 = some .noEntry := by decide +kernel

/-! ## Sections 7, 8 and 10: entry 14 on channel 2 -/

/-- Channel 2 of Example 7-1 with entry 14 in a state and its gap 54 in flight. -/
def ex71 (p : Phase) : State :=
  withChan .c2 { up 1051 with skew := 37, gaps := [gap 54 (.range 14 false) 1048 333031 448 1052] }
    (withChan .c0 { up 9 with skew := -12 } (ready { State.reset with
      tree := longReach
      registry := [entryOf 14 (terminal 0xA .c2 311285 p)] }))

/-- A range reply of entry 14 in gap 54. -/
def rangeReply (off : BitVec 24) : Arrival :=
  { blankArrival with kind := .range, tag := 54, handle := 14, startCycle := 1052, startOffset := off }

/-- Table 7-4, reply in gap 54: the attempt is accepted. -/
theorem test_arrival_range_accepted :
    let t := after (.arrival .c2 (rangeReply 22061)) (ex71 (.ranging 2 [311289, 311288] none none))
    (t.term 14).map (·.phase) = some (.joining ⟨311289, 108674⟩) ∧
      (t.chan .c2).outq = [⟨.setDelay 14 108674, false, 2, true⟩] ∧
      (t.chan .c2).gaps = [gap 54 .voidRange 1048 333031 448 1052] := by decide +kernel

/-- Table 7-3, the reply in gap 51 (reference 1027, here 1048): a mismatch adds a retry and sets heard. -/
theorem test_arrival_range_mismatch :
    let t := after (.arrival .c2 (rangeReply 22300)) (ex71 (.ranging 0 [311289] none none))
    (t.term 14).map (·.phase) = some (.ranging 1 [311289] none none) ∧ (t.term 14).map (·.heard) = some true ∧
      (t.chan .c2).tally .mismatch = 1 := by decide +kernel

/-- Example 7-2: the wide third sample. -/
theorem test_arrival_range_spread :
    let t := after (.arrival .c2 (rangeReply 22069)) (ex71 (.ranging 2 [311289, 311288] none none))
    (t.term 14).map (·.phase) = some (.ranging 3 [] none none) ∧ (t.chan .c2).tally .spreadFail = 1 := by decide +kernel

/-- Table 7-4, GAP CLOSED (50): the next request is made. -/
theorem test_gap_closed_makes_a_request :
    let t := after (.gapClosed .c2 54) ((ex71 (.ranging 0 [311289] none none)).modChan .c2 fun x => { x with
      gaps := [gap 54 (.range 14 true) 1048 333031 448 1052] })
    (t.chan .c2).gaps = [] ∧ (t.chan .c2).rangeQ = [14] := by decide +kernel

/-- Entry 14 ACTIVE on the roster of channel 2 with a drift record. -/
def ex81 (d : Drift) (final fill : Int) : State :=
  ((ex71 (.active ⟨final, fill⟩ d 0)).modChan .c2 fun x => { x with roster := [14], gaps := [] })

/-- A clean burst of entry 14 with offset e. -/
def burst (e : Int) : Arrival := { blankArrival with kind := .data, handle := 14, offset := BitVec.ofInt 16 e }

/-- The drift record of entry 14 after a burst. -/
def driftAfter (d : Drift) (e : Int) : Option Drift :=
  ((after (.arrival .c2 (burst e)) (ex81 d 311289 108674)).term 14).bind fun t => t.phase.drift

/-- Table 8-3, bursts 1, 3, 4, 5, 6, 7 and 11. -/
theorem test_arrival_data_streaks :
    driftAfter ⟨none, 2, none⟩ 7 = some ⟨none, 1, none⟩ ∧
      driftAfter ⟨none, 0, none⟩ 3 = some ⟨some ⟨true, 1, 3⟩, 0, none⟩ ∧
      driftAfter ⟨some ⟨true, 1, 3⟩, 0, none⟩ 4 = some ⟨some ⟨true, 2, 7⟩, 0, none⟩ ∧
      driftAfter ⟨some ⟨true, 2, 7⟩, 0, none⟩ 1 = some ⟨none, 0, none⟩ ∧
      driftAfter ⟨none, 0, none⟩ (-3) = some ⟨some ⟨false, 1, -3⟩, 0, none⟩ ∧
      driftAfter ⟨some ⟨false, 1, -3⟩, 0, none⟩ 3 = some ⟨some ⟨true, 1, 3⟩, 0, none⟩ ∧
      driftAfter ⟨none, 0, some (-3)⟩ 4 = some ⟨none, 0, some (-3)⟩ := by decide +kernel

/-- Table 8-3, burst 10: the trim. -/
theorem test_arrival_data_trim :
    let t := after (.arrival .c2 (burst 5)) (ex81 ⟨some ⟨true, 3, 10⟩, 0, none⟩ 311289 108674)
    (t.term 14).map (·.phase) = some (.active ⟨311292, 108671⟩ ⟨none, 0, some (-3)⟩ 0) ∧
      (t.chan .c2).outq = [⟨.trimDelay 14 (-3), false, 1, true⟩] ∧ (t.chan .c2).tally .trims = 1 := by decide +kernel

/-- Table 8-4, burst 15: the jump. -/
theorem test_arrival_data_jump :
    let t := after (.arrival .c2 (burst 60)) (ex81 ⟨none, 0, none⟩ 311292 108671)
    t.term 14 = some { terminal 0xA .c2 311352 (.ranging 0 [] (some 311292) (some 108671)) with heard := true } ∧
      (t.chan .c2).tx = [.rosterLeave 14] ∧ (t.chan .c2).outq = [⟨.hush 14, true, 2, true⟩] ∧
      (t.chan .c2).rangeQ = [14] ∧ t.notices = [Notice.driftRerange 14 .c2 311352] := by decide +kernel

/-- Table 8-5: the trim refused at the edge of the reach window. -/
theorem test_arrival_data_trim_refused :
    let t := after (.arrival .c2 (burst 6)) (ex81 ⟨some ⟨true, 3, 19⟩, 0, none⟩ 373270 46693)
    (t.term 14).map (·.estimate) = some 373270 ∧ (t.chan .c2).tally .trims = 0 ∧
      t.notices = [Notice.driftRerange 14 .c2 373270] := by decide +kernel

/-- Example 10-1: MOVE (14, channel 0). -/
theorem test_move :
    let t := after (.move 14 0) (ex81 ⟨none, 0, none⟩ 311292 108671)
    replyOf t = some ⟨.done, []⟩ ∧ (t.term 14).map (·.phase) = some (.retuning ⟨311292, 108671⟩ .c0) ∧
      (t.term 14).map (·.moveFlag) = some true ∧ (t.chan .c2).tx = [.rosterLeave 14] ∧
      (t.chan .c2).outq = [⟨.retune 14 .c0, false, 2, true⟩] := by decide +kernel

/-- Example 10-1: the RETUNE's final hand-out completes the move. -/
theorem test_final_handout_retune :
    let t := after (.finalHandOutEvent .c2 .retune 14) (ex71 (.retuning ⟨311292, 108671⟩ .c0))
    t.term 14 = some (terminal 0xA .c0 311292 (.ranging 0 [] (some 311292) (some 108671))) ∧
      rangeSpan t.tree (t.chan .c0).skew 311292 = (332989, 448) ∧
      fillDelay t.tree (t.chan .c0).skew 311295 = 108717 := by decide +kernel

/-- Table 10-4: the exit of channel 0 cancels the move. -/
theorem test_channel_exit_cancels_the_move :
    let s := (ex71 (.retuning ⟨311292, 108671⟩ .c0)).modChan .c2 fun x => { x with
      outq := [⟨.retune 14 .c0, false, 1, true⟩] }
    let t := after (.channelExitEvent .c0) s
    (t.term 14).map (·.phase) = some (.active ⟨311292, 108671⟩ ⟨none, 2, none⟩ 0) ∧ (t.chan .c2).outq = [] ∧
      (t.chan .c2).roster = [14] ∧ (t.chan .c2).tx = [.rosterJoin 14] ∧
      t.notices = [Notice.moveTargetDown 14 .c2] := by decide +kernel

/-- R28 and R29. -/
theorem test_hush_resume :
    ((after (.hush 14) (ex81 ⟨none, 0, none⟩ 311292 108671)).term 14).map (·.phase) =
        some (.hushed ⟨311292, 108671⟩) ∧
      ((after (.resume 14) (ex71 (.hushed ⟨311292, 108671⟩))).term 14).map (·.phase) =
        some (.joining ⟨311292, 108671⟩) ∧
      ((after (.resume 14) (ex71 (.hushed ⟨311292, 108671⟩))).chan .c2).outq = [⟨.resume 14, false, 2, true⟩] := by
  decide +kernel

/-- R30. -/
theorem test_rerange :
    let t := after (.rerange 14) (ex81 ⟨none, 0, none⟩ 311292 108671)
    (t.term 14).map (·.phase) = some (.ranging 0 [] (some 311292) (some 108671)) ∧ (t.chan .c2).rangeQ = [14] ∧
      (t.chan .c2).outq = [⟨.hush 14, true, 2, true⟩] := by decide +kernel

/-- The example below Table 12-9: state 0x04 and presence bits 0, 1, 2, 3, 4, 5, 10, 12 and 14. -/
theorem test_entryRead :
    let s := (ex81 ⟨none, 2, none⟩ 311289 108674).modTerm 14 fun u => { u with wasActive := true }
    replyOf (after (.entryRead 14) s) = some ⟨.done,
      [0, 14, 4, 0x54, 0x3F, 0, 0, 0, 0, 0, 0, 0xA, 2, 0x04, 0xBF, 0xF5, 0x04, 0xBF, 0xF9, 0x01, 0xA8, 0x82, 0x01, 0] ++
        List.replicate 13 0 ++ [0, 0, 0, 0, 0, 2] ++ List.replicate 23 0⟩ := by decide +kernel

/-- R20 and Table 12-6. -/
theorem test_entryFind : replyOf (after (.entryFind 0xA) (ex71 (.hushed ⟨311292, 108671⟩))) = some ⟨.done, [0, 14, 5]⟩ ∧
    codeOf (.entryFind 0xB) (ex71 (.hushed ⟨311292, 108671⟩)) = some .noEntry := by decide +kernel

/-- R37. -/
theorem test_clearDamaged :
    let s := { ex71 (.hushed ⟨311292, 108671⟩) with registry := [⟨3, .sound, none⟩] }
    codeOf (.clearDamaged 3) s = some .done ∧ (after (.clearDamaged 3) s).registry = [] ∧
      (after (.clearDamaged 3) s).notices = [Notice.freed 3 none] ∧ codeOf (.clearDamaged 4) s = some .noEntry := by
  decide +kernel

/-- R34 and R36: a read that finds an uncorrectable flaw makes the entry DAMAGED. -/
theorem test_damage :
    let s := { ex71 (.hushed ⟨311292, 108671⟩) with
      registry := [⟨14, .uncorrectable, some (terminal 0xA .c2 311285 (.hushed ⟨311292, 108671⟩))⟩] }
    let t := after (.entryRead 14) s
    t.registry = [⟨14, .sound, none⟩] ∧ t.firstError = some ⟨.uncorrectable, 14⟩ ∧
      t.notices = [Notice.storeError 14 .uncorrectable] ∧
      (t.chan .c0).outq = [⟨.dismiss 14, true, 2, true⟩] := by decide +kernel

/-- R48 and R62. -/
theorem test_void_and_roster_events :
    ((after (.voidEvent .c2 14) (ex71 (.ranging 0 [] none none))).chan .c2).gaps =
        [gap 54 .voidRange 1048 333031 448 1052] ∧
      ((after (.rosterJoinEvent .c2 14) (ex71 (.ranging 0 [] none none))).chan .c2).tx = [.rosterJoin 14] ∧
      ((after (.rosterLeaveEvent .c2 14) (ex81 ⟨none, 0, none⟩ 1 1)).chan .c2).tx = [.rosterLeave 14] := by decide +kernel

/-! ## Section 9: Example 9-1 -/

/-- Table 9-2. -/
def ex91 : State :=
  let active := fun (c : Chan) (n : Nat) (hd : Bool) (m : Mark) =>
    { terminal m c 1000 (.active ⟨1000, 419000⟩ ⟨none, 0, none⟩ n) with heard := hd }
  withChan .c0 { up 9 with cycleSeen := true, roster := [5, 8] } (withChan .c1 { up 9 with cycleSeen := true }
    { State.reset with
      pending := [.scanExpiry]
      tree := { TreeSettings.default with retention := 2 }
      retention := [12]
      registry := [entryOf 5 (active .c0 1 false 5), entryOf 8 (active .c0 2 true 8),
        entryOf 10 (active .c3 2 false 10), entryOf 12 (terminal 12 .c1 1000 (.lost (some 1000) 1 true)),
        entryOf 20 (terminal 20 .c1 1000 (.dismissing true false)),
        entryOf 22 (terminal 22 .c3 1000 (.dismissing false false)),
        entryOf 30 { terminal 30 .c1 1000 (.joining ⟨1000, 419000⟩) with
          heard := true, owed := { Owed.none with setDelay := true } }] })

/-- Scan A. -/
theorem test_scan_A :
    let t := after .scanExpiry ex91
    t.heldHandles = [5, 8, 10, 12, 30] ∧ (t.term 5).bind (·.phase.missed) = some 2 ∧
      (t.term 8).bind (·.phase.missed) = some 0 ∧ (t.term 10).bind (·.phase.missed) = some 2 ∧
      (t.term 12).bind (·.phase.age) = some 2 ∧ t.notices = [Notice.freed 20 (some 20), Notice.freed 22 (some 22)] ∧
      (t.chan .c1).outq = [⟨.setDelay 30 419000, false, 2, true⟩] ∧ (t.chan .c0).silence = 0 ∧
      t.term 30 = some (terminal 30 .c1 1000 (.joining ⟨1000, 419000⟩)) := by decide +kernel

/-- R32 and R141: entry 22, whose channel left UP and is UP again before the scan, is freed by it; with no exit it
stays. -/
theorem test_scan_frees_after_an_exit :
    let back := withChan .c3 (up 9) ex91
    ((after (.channelExitEvent .c3) back).term 22).map (·.phase) = some (.dismissing false true) ∧
      (after .scanExpiry (after (.channelExitEvent .c3) back)).entry 22 = none ∧
      ((after .scanExpiry back).term 22).map (·.phase) = some (.dismissing false false) := by decide +kernel

/-- Scan B: entry 5 is lost, entry 12 is freed. -/
theorem test_scan_B :
    let s := (ex91.modTerm 5 fun u => { u with phase := .active ⟨1000, 419000⟩ ⟨none, 0, none⟩ 2 }).modTerm 12 fun u =>
      { u with phase := .lost (some 1000) 2 true }
    let t := after .scanExpiry s
    (t.term 5).map (·.phase) = some (.lost (some 1000) 0 false) ∧ t.retention = [5] ∧ t.entry 12 = none ∧
      (t.chan .c0).outq = [⟨.dismiss 5, true, 2, true⟩] ∧ (t.chan .c0).tx = [.rosterLeave 5] ∧
      t.notices = [Notice.lost 5 .c0 5, Notice.freed 12 (some 12), Notice.freed 20 (some 20), Notice.freed 22 (some 22)] := by
  decide +kernel

/-- R136 and R137 taken by themselves. -/
theorem test_lost_and_retentionExpiry :
    after (.lost 5) ex91 = ex91 ∧ after (.lost 8) ex91 = ex91 ∧ after (.lost 10) ex91 = ex91 ∧
      ((after (.lost 5) { ex91 with tree := { ex91.tree with mLost := 2 } }).term 5).map (·.phase) =
        some (.lost (some 1000) 0 false) ∧
      after (.retentionExpiry 12) ex91 = ex91 ∧
      (after (.retentionExpiry 12) { ex91 with tree := { ex91.tree with retention := 1 } }).entry 12 = none := by
  decide +kernel

/-! ## Sections 11 and 12: the port, the settings and the frames -/

/-- Every channel UP and the port ready. -/
def onUp : State :=
  withChan .c0 (up 9) (withChan .c1 (up 9) (withChan .c2 (up 9) (withChan .c3 (up 9) (ready State.reset))))

/-- A TREE SET of one setting. -/
def setOne (i v : Nat) : Instr :=
  .treeSet (BitVec.ofNat 32 (2 ^ i)) ((List.replicate i 0 ++ [BitVec.ofNat 24 v]) ++ List.replicate (24 - i) 0)

/-- R6 and R7: range, lock, consistency, acceptance. -/
theorem test_treeSet : codeOf (setOne 0 4095) onUp = some .outOfRange ∧ codeOf (setOne 0 80000) onUp = some .notIdle ∧
    codeOf (setOne 13 48) onUp = some .conflict ∧ codeOf (setOne 13 47) onUp = some .done ∧
    (after (setOne 13 47) onUp).tree = { TreeSettings.default with Z := 47 } := by decide +kernel

/-- Table 12-6: 75 bytes, L first. -/
theorem test_treeGet : (replyOf (after .treeGet onUp)).map (fun r => (r.body.length, r.body.take 3)) =
    some (75, [0x01, 0x2F, 0xC0]) := by decide +kernel

/-- R59: a mode set to OFF ends the census at once, or with its gap. -/
theorem test_channelSet :
    let s := onUp.modChan .c1 fun x => { x with mode := .demand, due := true }
    (after (.channelSet 1 1 0 0 0) s).notices = [Notice.censusQuiet .c1] ∧
      codeOf (.channelSet 1 2 0 15 0) s = some .outOfRange ∧ codeOf (.channelSet 1 4 0 0 2048) s = some .outOfRange ∧
      codeOf (.channelSet 4 0 0 0 0) s = some .outOfRange ∧
      replyOf (after (.channelGet 1) (ready (after (.channelSet 1 4 0 0 0xF800) s))) =
        some ⟨.done, [2, 0x1F, 0x40, 0xF8, 0x00]⟩ := by decide +kernel

/-- R60. -/
theorem test_call : codeOf (.call 1) onUp = some .done ∧ ((after (.call 1) onUp).chan .c1).due = true ∧
    codeOf (.call 4) onUp = some .outOfRange ∧ codeOf (.call 0) (ready State.reset) = some .channelDown := by
  decide +kernel

/-- Table 11-7: of two notices that meet 63, the second is dropped; NOTICE READ reports the overflow. -/
theorem test_notice_overflow :
    let s := { onUp with notices := List.replicate 63 (Notice.pending 1) }
    let t := (s.raise (Notice.freed 17 (some 2))).raise (Notice.registered 17 .c2 3)
    t.notices.length = 64 ∧ t.overflow = true ∧ (after .noticeRead t).notices.length = 63 ∧
      (after .noticeRead t).overflow = false ∧
      replyOf (after .noticeRead t) = some ⟨.done, [1, 7, 4, 0, 0, 0, 0, 0, 0, 0, 0, 0, 1, 0, 0, 0]⟩ ∧
      replyOf (after .noticeRead onUp) = some ⟨.empty, [0]⟩ := by decide +kernel

/-- R157 and R36. -/
theorem test_tallyRead_storeRecordRead :
    let s := { onUp.bump .c2 .lapses with firstError := some ⟨.uncorrectable, 300⟩ }
    (replyOf (after (.tallyRead 2 1) s)).map (·.body) = some (List.replicate 43 0 ++ [1]) ∧
      ((after (.tallyRead 2 1) s).chan .c2).tally .lapses = 0 ∧
      replyOf (after (.storeRecordRead 1) s) = some ⟨.done, [1, 2, 1, 44]⟩ ∧
      (after (.storeRecordRead 1) s).firstError = none := by decide +kernel

/-- The STATUS body of Section 12.2: four UP channels, 511 handles free. -/
theorem test_status : replyOf (after .status onUp) = some ⟨.done,
    [2, 0, 0, 0, 0, 2, 0, 0, 0, 0, 2, 0, 0, 0, 0, 2, 0, 0, 0, 0] ++ List.replicate 18 0 ++ [1, 255, 0, 0, 0]⟩ := by
  decide +kernel

/-- R151 and R160: an accepted RESTART waits for the release of select. -/
theorem test_restart :
    codeOf (.restart 3) onUp = some .outOfRange ∧ ((after (.restart 1) onUp).chan .c0).link = .up 9 ∧
      ((after .selectRelease (after (.restart 1) onUp)).chan .c0).link = .down ∧
      (after .selectRelease (after (.restart 1) onUp)).notices = [Notice.restarted 2] ∧
      (after .selectRelease (after (.restart 2) onUp)).notices = [] := by decide +kernel

/-- R159. -/
theorem test_reset_pins :
    (after .resetAssert onUp).port.txn = .idle ∧ after (.call 1) (after .resetAssert onUp) = after .resetAssert onUp ∧
      (after (.resetRelease true) (after .resetAssert onUp)).notices = [Notice.restarted 1] ∧
      (after (.resetRelease false) (after .resetAssert onUp)).notices = [] ∧
      ((after .powerUp onUp).chan .c0).link = .down := by decide +kernel

/-- Table 2-9: DISMISSING is freed, RETUNING is LOST, LOST with its DISMISS not sent owes it. -/
theorem test_keep_tree :
    let s := { ex91 with retention := [], registry := [entryOf 20 (terminal 20 .c1 1000 (.dismissing true false)),
      entryOf 21 (terminal 21 .c1 1000 (.retuning ⟨1000, 419000⟩ .c0))] }
    let t := after (.resetRelease true) (after .resetAssert s)
    t.entry 20 = none ∧ (t.term 21).map (·.phase) = some (.lost (some 1000) 0 false) ∧ t.retention = [21] ∧
      (t.term 21).map (·.owed) = some { Owed.none with dismiss := true } := by decide +kernel

/-- R39: a HUSH reported by the emptied queue of channel 1, which entry 14 has left, is owed; the flaw of entry 15 makes
it DAMAGED, with STORE_ERROR behind RESTARTED; the ENROL that waits was handed out before the restart. -/
theorem test_keep_tree_reports_and_flaws :
    let s := withChan .c1 { up 9 with outq := [⟨.hush 14, true, 1, true⟩] } { ex91 with
      events := [.finalHandOut .c2 .enrol 16]
      retention := []
      registry := [entryOf 14 (terminal 14 .c0 1000 (.ranging 1 [1000] none none)),
        ⟨15, .uncorrectable, some (terminal 15 .c0 1000 (.hushed ⟨1000, 419000⟩))⟩,
        entryOf 16 (terminal 16 .c2 1000 (.enrolling 0 none))] }
    let t := s.keepTreeRestart 1
    HandleLaw s ∧ t.term 14 = some { terminal 14 .c0 1000 (.ranging 1 [] none none) with
        owed := { Owed.none with hush := true } } ∧
      t.entry 15 = some ⟨15, .sound, none⟩ ∧ (t.term 16).map (·.phase) = some (.ranging 0 [] none none) ∧
      t.notices = [Notice.restarted 1, Notice.storeError 15 .uncorrectable] ∧ t.events = [] ∧
      (t.chan .c2).rangeQ = [16] := ⟨⟨by decide +kernel, by decide +kernel⟩, by decide +kernel⟩

/-- R151: a code that names no request is answered as soon as it is in; a request cut short waits. -/
theorem test_unknown : codeOf (.unknown [0x77]) onUp = some .unknown ∧
    (after (.unknown [0x20]) onUp).port.txn = .receiving [0x20] ∧
    after (.unknown [0x20, 1]) onUp = after (.call 1) onUp ∧
    (after .selectAssert (after (.unknown [0x20]) onUp)).port.txn = .receiving [] := by decide +kernel

/-- The check of "123456789" under x^16 + x^12 + x^5 + 1 from 0xFFFF is 0x29B1 (a published check value of this
code). -/
theorem test_record_check : recordCheck [0x31, 0x32, 0x33, 0x34, 0x35, 0x36, 0x37, 0x38, 0x39] = 0x29B1 := by
  decide +kernel

/-- Tables 12-1 and 12-2: a LINK DOWN frame is taken after stray bytes, and with a wrong check it is one
LINK_DEFECT. -/
theorem test_link_frames :
    ((after (.linkDefectCheck .c0 ([1, 2] ++ frame 6 [])) onUp).chan .c0).link = .down ∧
      ((after (.linkDefectCheck .c0 [0x7E, 6, 0, 0, 0]) onUp).chan .c0).tally .linkDefect = 1 ∧
      ((after (.linkDefectCheck .c0 [0x7E, 6, 0]) onUp).chan .c0).rx = [0x7E, 6, 0] := by decide +kernel

/-- R162: a frame of length 3 whose body and check are a LINK DOWN frame fails its check, and the hunt that resumes after
its start byte takes the LINK DOWN; a frame cut after two bytes is taken when its rest comes. -/
theorem test_link_frames_inside_and_cut :
    let t := after (.linkDefectCheck .c0 (0x7E :: 6 :: 3 :: frame 6 [])) onUp
    let u := after (.linkDefectCheck .c0 ((frame 6 []).take 2)) onUp
    (t.chan .c0).link = .down ∧ (t.chan .c0).tally .linkDefect = 1 ∧ (t.chan .c0).rx = [] ∧
      (u.chan .c0).link = .up 9 ∧ (u.chan .c0).rx = [0x7E, 6] ∧
      ((after (.linkDefectCheck .c0 ((frame 6 []).drop 2)) u).chan .c0).link = .down ∧
      ((after (.linkDefectCheck .c0 ((frame 6 []).drop 2)) u).chan .c0).rx = [] := by decide +kernel

/-- R163: an unknown kind, a wrong length, an outcome that Table 12-2 does not give. -/
theorem test_link_records :
    ((after (.linkDefectRecord .c0 7 []) onUp).chan .c0).tally .linkDefect = 1 ∧
      ((after (.linkDefectRecord .c0 6 [0]) onUp).chan .c0).tally .linkDefect = 1 ∧
      ((after (.linkDefectRecord .c0 3 [0, 2]) onUp).chan .c0).tally .linkDefect = 1 ∧
      ((after (.linkDefectRecord .c0 6 []) onUp).chan .c0).link = .down := by decide +kernel

/-- R44. -/
theorem test_linkDown : ((after (.linkDown .c0) onUp).chan .c0).link = .down ∧
    (after (.linkDown .c0) onUp).events = [.channelExit .c0] ∧ after (.linkDown .c0) State.reset = State.reset := by
  decide +kernel

/-! ## A state that meets every law, with an entry in each of the nine states -/

/-- The final round trip 1,000 with its fill delay under H 420,000 and skew 0. -/
def fixed : Fix := ⟨1000, 419000⟩

/-- The drift record of an entry that takes offsets. -/
def steady : Drift := ⟨none, 0, none⟩

/-- The nine entries, handle k in the state of code k. -/
def zooEntries : List Entry :=
  [entryOf 1 (terminal 0x11 .c0 1000 (.enrolling 0 none)), entryOf 2 (terminal 0x12 .c0 1000 (.ranging 0 [] none none)),
   entryOf 3 (terminal 0x13 .c0 1000 (.joining fixed)), entryOf 4 (terminal 0x14 .c0 1000 (.active fixed steady 0)),
   entryOf 5 (terminal 0x15 .c0 1000 (.hushed fixed)), entryOf 6 (terminal 0x16 .c0 1000 (.retuning fixed .c1)),
   entryOf 7 (terminal 0x17 .c0 1000 (.lost (some 1000) 24 true)),
   entryOf 8 (terminal 0x18 .c0 1000 (.dismissing true false)),
   ⟨9, .sound, none⟩]

/-- Channels 0 and 1 UP, 2 DOWN, 3 MISMATCHED, a command waiting. -/
def zoo : State :=
  withChan .c0 { up 9 with roster := [4], rangeQ := [2] } (withChan .c1 (up 9)
    (withChan .c3 { ChanState.reset with link := .mismatched } (ready { State.reset with
      pending := [.scanExpiry]
      registry := zooEntries
      retention := [7]
      waiting := [⟨0x30, .c0, 1000, 0, 1⟩]
      table := [⟨0x31, .bar, false⟩] })))

/-- The fields a state holds for a handle stand in its registry. -/
theorem term_mem {s : State} {h : Handle} {t : Terminal} (k : s.term h = some t) :
    ∃ e ∈ s.registry, e.handle = h ∧ e.term = some t := by
  cases he : s.entry h with
  | none => simp [State.term, he] at k
  | some e => exact ⟨e, State.entry_mem he, State.entry_handle he, by simpa [State.term, he] using k⟩

theorem zoo_handleLaw : HandleLaw zoo := ⟨by decide +kernel, by decide +kernel⟩

theorem zoo_allSound : zoo.allSound := by
  show ∀ e ∈ zoo.registry, e.flaw = .sound
  decide +kernel

theorem zoo_queueLaw : QueueLaw zoo := by
  refine ⟨by decide +kernel, by decide +kernel, by decide +kernel, by decide +kernel, by decide +kernel, fun c => ?_⟩
  cases c <;> exact ⟨⟨by decide +kernel, by decide +kernel⟩, by decide +kernel, fun k => by cases k <;> decide +kernel⟩

theorem zoo_settingsLaw : SettingsLaw zoo := by
  refine ⟨by decide +kernel, by decide +kernel, fun c => ?_⟩
  cases c <;> decide +kernel

theorem zoo_fillLaw : FillLaw zoo := by
  intro h t x ht hx
  obtain ⟨e, he, -, het⟩ := term_mem ht
  have k : ∀ e ∈ zoo.registry, ∀ t ∈ e.term, ∀ x ∈ t.phase.fix,
      x.fill = zoo.tree.H - (x.final + (zoo.chan t.home).skew) ∧ 0 ≤ x.fill ∧ x.fill ≤ zoo.tree.H := by decide +kernel
  exact k e he t het x hx

theorem zoo_retentionLaw : RetentionLaw zoo := by
  refine ⟨by decide +kernel, fun h => ⟨fun k => ?_, fun ⟨t, ht, hl⟩ => ?_⟩⟩
  · have : h = 7 := by simpa using (show h ∈ [7] from k)
    subst this
    exact ⟨_, rfl, rfl⟩
  · obtain ⟨e, he, rfl, het⟩ := term_mem ht
    have k : ∀ e ∈ zoo.registry, ∀ t ∈ e.term, t.phase.isLost = true → e.handle ∈ zoo.retention := by decide +kernel
    exact k e he t het hl

theorem zoo_markLaw : MarkLaw zoo := by
  constructor
  · intro h h' t t' ht ht' hm
    obtain ⟨e, he, rfl, het⟩ := term_mem ht
    obtain ⟨e', he', rfl, het'⟩ := term_mem ht'
    have k : ∀ e ∈ zoo.registry, ∀ e' ∈ zoo.registry, ∀ t ∈ e.term, ∀ t' ∈ e'.term, t.mark = t'.mark →
      e.handle = e'.handle := by decide +kernel
    exact k e he e' he' t het t' het' hm
  · intro h t ht
    obtain ⟨e, he, rfl, het⟩ := term_mem ht
    have k : ∀ e ∈ zoo.registry, ∀ t ∈ e.term, ∀ i ∈ zoo.waiting, i.mark ≠ t.mark := by decide +kernel
    exact k e he t het

theorem zoo_driftLaw : DriftLaw zoo := by
  intro h t fix d missed st ht hp hs
  obtain ⟨e, he, rfl, het⟩ := term_mem ht
  have k : ∀ e ∈ zoo.registry, ∀ t ∈ e.term, ∀ d ∈ t.phase.drift, ∀ st ∈ d.streak, st.count < zoo.tree.V := by
    decide +kernel
  exact k e he t het d (by simp [hp, Phase.drift]) st hs

theorem zoo_gapLaw : GapLaw zoo := by
  intro c
  refine ⟨?_, ?_, ?_, fun o ho => ?_⟩ <;> cases c <;> first | decide +kernel | cases ho

theorem zoo_linkLaw : LinkLaw zoo := by
  intro c
  refine ⟨?_, fun last count k => ?_, ?_, ?_⟩ <;> cases c <;> first | decide +kernel | cases k

theorem zoo_rangeWorkLaw : RangeWorkLaw zoo := by
  intro h
  have : zoo.workCount h = [2].count h := rfl
  rw [this]
  exact List.nodup_iff_count_le_one.mp (by decide) h

theorem zoo_rosterLaw : RosterLaw zoo := by
  intro c
  have d : ∀ c ∈ Chan.all, (zoo.chan c).roster.Nodup ∧
      (∀ h ∈ (zoo.chan c).roster, zoo.isUp c = true ∧ ∃ t ∈ zoo.term h, t.home = c ∧ t.phase.isActive = true) ∧
      (zoo.isUp c = true → ∀ e ∈ zoo.registry, ∀ t ∈ e.term, t.home = c → t.phase.isActive = true →
        e.handle ∈ (zoo.chan c).roster) := by decide +kernel
  obtain ⟨nodup, sub, sup⟩ := d c (by cases c <;> decide)
  refine ⟨nodup, fun h => ⟨fun k => ?_, fun ⟨up, t, ht, home, act⟩ => ?_⟩⟩
  · obtain ⟨up, t, ht, r⟩ := sub h k
    exact ⟨up, t, ht, r⟩
  · obtain ⟨e, he, rfl, het⟩ := term_mem ht
    exact sup up e he t het home act

/-! ## Witnesses: states and operands that meet the hypotheses of each statement -/

/-- RESET asserted. -/
def held : State := { zoo with pins := { zoo.pins with resetLow := true } }

/-- No command and no event waits. -/
def idleZoo : State := { zoo with pending := [] }

theorem witness_StepTakesTheFrontCommand : ∃ i rest, zoo.pending = i :: rest := ⟨_, _, rfl⟩

theorem witness_IdleStepTakesAnEventOrAClockPeriod :
    (∃ e rest, ({ idleZoo with events := [.channelExit .c0] } : State).events = e :: rest) ∧
      (idleZoo.pending = [] ∧ idleZoo.events = [] ∧ idleZoo.running ∧ idleZoo.prescaler + 1 < 2 ^ idleZoo.tree.p) ∧
      (∃ s : State, s.pending = [] ∧ s.events = [] ∧ s.pins.resetLow = true) ∧
      ∃ s : State, s.pending = [] ∧ s.events = [] ∧ s.running ∧ 2 ^ s.tree.p ≤ s.prescaler + 1 :=
  ⟨⟨_, _, rfl⟩, by decide +kernel, ⟨{ held with pending := [] }, by decide +kernel⟩,
    { idleZoo with prescaler := 1048575 }, by decide +kernel⟩

theorem witness_PowerAndResetPinsTakeTheirResets : held.pins.resetLow = true ∧ zoo.running := by decide +kernel

theorem witness_NothingIsTakenWhileResetIsAsserted : held.pins.resetLow = true ∧
    (linkRecord (.linkDown .c0)).isSome = true ∧ (requestBytes .status).isSome = true := by decide +kernel

theorem witness_SelectAndRestartRequests : zoo.running ∧ held.pins.resetLow = true ∧ zoo.port.armed = none ∧
    (after (.restart 2) zoo).running ∧ (after (.restart 2) zoo).port.armed = some .full ∧
    (after (.restart 1) zoo).port.armed = some .keepTree ∧ zoo.portReady = true ∧ (3 : Byte) ≠ 1 ∧ (3 : Byte) ≠ 2 := by
  decide +kernel

theorem witness_KeepTreeRestartClearsTheBlocks : HandleLaw zoo ∧
    zoo = zoo.events.foldl State.takeEvent { zoo with events := [] } := ⟨zoo_handleLaw, rfl⟩

/-- The entries of `zoo`, one in each state; one with each flaw stands in `test_keep_tree_reports_and_flaws` and below.
-/
theorem witness_KeepTreeRestartTransformsEveryEntry : (HandleLaw zoo ∧
    zoo = zoo.events.foldl State.takeEvent { zoo with events := [] }) ∧ zoo.entry 10 = none ∧
    zoo.entry 9 = some ⟨9, .sound, none⟩ ∧ (List.range' 1 8).all (fun h => (zoo.term h).isSome) = true ∧
    (∀ h t, zoo.term h = some t → zoo.sound h t) ∧
    (zoo.setEntry 4 ⟨4, .correctable, zoo.term 4⟩).entry 4 =
      some ⟨4, .correctable, some (terminal 0x14 .c0 1000 (.active fixed steady 0))⟩ ∧
    (zoo.setEntry 4 ⟨4, .uncorrectable, zoo.term 4⟩).entry 4 =
      some ⟨4, .uncorrectable, some (terminal 0x14 .c0 1000 (.active fixed steady 0))⟩ :=
  ⟨⟨zoo_handleLaw, rfl⟩, by decide +kernel, by decide +kernel, by decide +kernel, fun h t ht => by
    obtain ⟨e, he, rfl, het⟩ := term_mem ht
    have k : ∀ e ∈ zoo.registry, ∀ t ∈ e.term, zoo.entry e.handle = some ⟨e.handle, .sound, some t⟩ := by decide +kernel
    exact k e he t het, by decide +kernel, by decide +kernel⟩

theorem witness_StepKeepsTheQueueLaws : ∃ t, step zoo = .next t ∧ QueueLaw zoo := ⟨_, rfl, zoo_queueLaw⟩
theorem witness_StepKeepsTheHandleLaw : ∃ t, step zoo = .next t ∧ HandleLaw zoo ∧ zoo.allSound :=
  ⟨_, rfl, zoo_handleLaw, zoo_allSound⟩
/-- A scan waits in `zoo`, nothing in `idleZoo`: neither has a roster event at a head. -/
theorem witness_StepKeepsTheLinkLaw : (∃ t, step zoo = .next t) ∧ LinkLaw zoo ∧ HandleLaw zoo ∧ RetentionLaw zoo ∧
    RosterLaw zoo ∧ zoo.pending.head? = some .scanExpiry ∧ idleZoo.pending = [] ∧ idleZoo.events.head? = none ∧
    (zoo.chan .c0).roster = [4] :=
  ⟨⟨_, rfl⟩, zoo_linkLaw, zoo_handleLaw, zoo_retentionLaw, zoo_rosterLaw, rfl, rfl, rfl, rfl⟩
theorem witness_StepKeepsTheSettingsAndFillLaws :
    ∃ t, step zoo = .next t ∧ HandleLaw zoo ∧ SettingsLaw zoo ∧ FillLaw zoo :=
  ⟨_, rfl, zoo_handleLaw, zoo_settingsLaw, zoo_fillLaw⟩

/-- Channel 2 of Example 3-1 with gap 40 in flight and the next CYCLE waiting. -/
def spans : State := { ex31placed with pending := [.cycle .c2 1001 4] }

theorem witness_StepKeepsTheGapLaw : (∃ t, step spans = .next t) ∧ (spans.chan .c2).gaps ≠ [] ∧ GapLaw spans ∧
    LinkLaw spans ∧ SpanLaw spans := by
  refine ⟨⟨_, rfl⟩, by decide +kernel, fun c => ⟨?_, ?_, ?_, fun o ho => ?_⟩, fun c => ⟨?_, fun _ _ k => ?_, ?_, ?_⟩,
    fun c => ⟨?_, fun o ho => ?_⟩⟩ <;> cases c <;> first | decide +kernel | cases ho | cases k
theorem witness_StepKeepsTheRangeWorkLaw : ∃ t, step zoo = .next t ∧ HandleLaw zoo ∧ RangeWorkLaw zoo :=
  ⟨_, rfl, zoo_handleLaw, zoo_rangeWorkLaw⟩
theorem witness_StepKeepsTheLawOfMarks : ∃ t, step zoo = .next t ∧ HandleLaw zoo ∧ MarkLaw zoo :=
  ⟨_, rfl, zoo_handleLaw, zoo_markLaw⟩
theorem witness_StepKeepsTheRetentionLaw : ∃ t, step zoo = .next t ∧ HandleLaw zoo ∧ RetentionLaw zoo :=
  ⟨_, rfl, zoo_handleLaw, zoo_retentionLaw⟩
theorem witness_StepKeepsTheLawOfDrift : ∃ t, step zoo = .next t ∧ HandleLaw zoo ∧ DriftLaw zoo :=
  ⟨_, rfl, zoo_handleLaw, zoo_driftLaw⟩

theorem witness_RequestBytesSpellTheRequest :
    ∃ bytes, requestBytes (setOne 0 262143) = some bytes ∧ (setOne 0 262143).wf = true ∧ zoo.portReady = true :=
  ⟨_, rfl, by decide +kernel⟩

theorem witness_LinkFramesSpellTheRecord : ∃ kind body t, linkRecord (.hello .c0 77760 65535) = some (.c0, kind, body) ∧
    zoo.running ∧ (zoo.chan .c0).rx = [] ∧ exec (.hello .c0 77760 65535) zoo = .next t :=
  ⟨_, _, _, rfl, rfl, rfl, rfl⟩

theorem witness_UnknownAndIncompleteRequests : zoo.portReady = true ∧ requestLength (0x77 : Byte).toNat = none ∧
    requestLength (0x20 : Byte).toNat = some 1 ∧ ([] : List Byte).length < 1 := by decide +kernel

/-- The settings a TREE SET of one setting would make. -/
def wouldBe (s : State) (i v : Nat) : TreeSettings := s.tree.putAll [(i, v)]

/-- The slots of `setOne`. -/
def oneSlot (i v : Nat) : List (BitVec 24) :=
  (List.replicate i 0 ++ [BitVec.ofNat 24 v]) ++ List.replicate (24 - i) 0

/-- Each verdict at a boundary: L 4,095 and bit 25, L 4,097 under the lock, Z 48 against E_jump 48, Z 47. -/
theorem witness_TreeSetIsJudgedAndReplaces : zoo.portReady = true ∧ (oneSlot 0 4095).length = 25 ∧
    (carriedSettings 1 (oneSlot 0 4095)).all inSettingRange = false ∧ ¬((0x2000000 : BitVec 32).toNat < 2 ^ 25) ∧
    carriedSettings 1 (oneSlot 0 4097) = [(0, 4097)] ∧
    zoo.settingsLocked zoo.tree (wouldBe zoo 0 4097) = true ∧
    zoo.settingsLocked zoo.tree (wouldBe zoo 13 48) = false ∧ (wouldBe zoo 13 48).consistent = false ∧
    zoo.settingsLocked zoo.tree (wouldBe zoo 13 47) = false ∧ (wouldBe zoo 13 47).consistent = true := by decide +kernel

/-- R8: a change of V clears the streak, and keeps the settle count, trim-pending and the missed scans. -/
theorem test_clearStreak :
    (entryOf 4 (terminal 0x14 .c0 1000 (.active fixed ⟨some ⟨true, 3, 10⟩, 1, some (-3)⟩ 2))).clearStreak =
      entryOf 4 (terminal 0x14 .c0 1000 (.active fixed ⟨none, 1, some (-3)⟩ 2)) := by decide

/-- R6 with no working entry: an ALIGNING or UP link locks L, and neither K nor H. -/
theorem witness_TreeSetMeetsTheLinkLock :
    onUp.settingsLocked onUp.tree { onUp.tree with L := 77761 } = true ∧
    onUp.settingsLocked onUp.tree { onUp.tree with H := 420001, K := 21774 } = false ∧
    zoo.settingsLocked zoo.tree { zoo.tree with H := 420001 } = true ∧
    (withChan .c0 { ChanState.reset with link := .aligning 9 1 } State.reset).settingsLocked TreeSettings.default
      { TreeSettings.default with L := 77761 } = true ∧
    State.reset.settingsLocked TreeSettings.default { TreeSettings.default with L := 77761 } = false := by decide +kernel

theorem witness_ReportsChangeNothing : zoo.portReady = true ∧ Chan.ofNum (3 : Byte).toNat = some .c3 ∧
    3 < (4 : Byte).toNat ∧ HandleLaw zoo := ⟨by decide +kernel, by decide +kernel, by decide +kernel, zoo_handleLaw⟩

theorem witness_TalliesCountAndAreReadAndCleared : TallyKind.lapses ≠ .declines ∧ zoo.portReady = true ∧
    Chan.ofNum (3 : Byte).toNat = some .c3 ∧ 3 < (4 : Byte).toNat ∧ 1 < (2 : Byte).toNat ∧ zoo.firstError = none ∧
    ({ zoo with firstError := some ⟨.correctable, 4⟩ } : State).portReady = true := by decide +kernel

/-- Every verdict of CHANNEL SET: channel 4, selection 8, mode 3, period 15 and skew 2,048 out of range; skew 2,047
locked on channel 0 and free on channel 2; the modes; OFF with and without a census gap. -/
theorem witness_ChannelSetIsJudgedAndTakesEffect : zoo.portReady = true ∧ 3 < (4 : Byte).toNat ∧
    Chan.ofNum (2 : Byte).toNat = some .c2 ∧
    8 ≤ (8 : Byte).toNat ∧ 2 < (3 : Byte).toNat ∧ (15 : BitVec 16).toNat < 16 ∧ ¬((2048 : BitVec 16).toInt ≤ 2047) ∧
    zoo.anyWorkingOn .c0 = true ∧ zoo.anyWorkingOn .c2 = false ∧ (2047 : Int) ≠ (zoo.chan .c0).skew ∧
    (zoo.chan .c2).mode = .off ∧ (ex31.chan .c2).mode ≠ .off ∧
    (ex31.chan .c2).censusInFlight = false ∧ (ex31.chan .c2).offer = none ∧
    ((ex51 []).chan .c2).censusInFlight = true ∧ (ready ex31).portReady = true := by decide +kernel

theorem witness_CallMakesCensusDue : zoo.portReady = true ∧ 3 < (4 : Byte).toNat ∧
    Chan.ofNum (2 : Byte).toNat = some .c2 ∧ zoo.isUp .c2 = false ∧ Chan.ofNum (1 : Byte).toNat = some .c1 ∧
    zoo.isUp .c1 = true := by decide +kernel

theorem witness_NoticeReadTakesTheOldest : zoo.portReady = true ∧ zoo.notices = [] ∧
    ∃ n rest, (zoo.raise (Notice.pending 1)).notices = n :: rest ∧ (zoo.raise (Notice.pending 1)).portReady = true :=
  ⟨by decide +kernel, by decide +kernel, _, _, rfl, by decide +kernel⟩

theorem witness_NoticesJoinTheQueueOrOverflow :
    ({ zoo with notices := List.replicate 63 (Notice.pending 1) } : State).notices.length = 63 ∧
      ({ zoo with notices := List.replicate 64 (Notice.pending 1) } : State).notices.length = 64 := by decide +kernel

/-- 64 loaded marks. -/
def fullTable : List TableEntry := (List.range 64).map fun i => ⟨BitVec.ofNat 56 (0x100 + i), .bar, true⟩

theorem witness_TableLoadKeepsPlaces : zoo.portReady = true ∧ (3 : Byte) ≠ 1 ∧ (3 : Byte) ≠ 2 ∧
    (0x31 : Mark) ∈ zoo.table.map (·.mark) ∧ (0x32 : Mark) ∉ zoo.table.map (·.mark) ∧ zoo.table.length < 64 ∧
    fullTable.length = 64 ∧ (0x32 : Mark) ∉ fullTable.map (·.mark) ∧ (0x32 : Mark) ≠ 0 ∧
    (0x32 : Mark) ≠ BitVec.allOnes 56 ∧ ({ zoo with table := fullTable } : State).portReady = true := by decide +kernel

theorem witness_TableRemoveAndTableRead : zoo.portReady = true ∧ (0x31 : Mark) ∈ zoo.table.map (·.mark) ∧
    (0x32 : Mark) ∉ zoo.table.map (·.mark) ∧ 63 < (64 : Byte).toNat ∧ zoo.table.length ≤ (63 : Byte).toNat ∧
    fullTable[(63 : Byte).toNat]? = some ⟨0x13F, .bar, true⟩ ∧ zoo.table[(0 : Byte).toNat]?.isSome = true := by
  decide +kernel

/-- A registry with no free handle, the oldest LOST entry under handle 511. -/
def crowded (retention : List Handle) : State :=
  { zoo with
    retention := retention
    registry := (List.range' 1 510).map (fun h => ⟨h, .sound, none⟩) ++
      [entryOf 511 (terminal 0x17 .c0 1000 (.lost (some 1000) 24 true))] }

/-- A registry that holds every handle has none free. -/
theorem crowded_lowestFree {s : State} {e : Entry} (he : e.handle = 511)
    (k : s.registry = (List.range' 1 510).map (fun h => ⟨h, .sound, none⟩) ++ [e]) :
    s.lowestFree = none := by
  simp only [State.lowestFree, List.find?_eq_none, State.holds, k, Config.maxHandle, List.mem_range'_1]
  intro (h : Nat) hh
  by_cases x : h = 511
  · subst x; simp [he]
  · have : 1 ≤ h ∧ h < 511 := by omega
    simp [List.any_append, List.any_map, List.mem_range'_1, he, this]

/-- Once handle 511 is freed it is the lowest free one. -/
theorem crowded_lowestFree_after {s : State} {e : Entry} (he : e.handle = 511)
    (k : s.registry = (List.range' 1 510).map (fun h => ⟨h, .sound, none⟩) ++ [e]) :
    (s.freeEntry 511 true).lowestFree = some 511 := by
  have hr : List.range' 1 511 = List.range' 1 510 ++ [511] := List.range'_1_concat
  have hm : ∀ h : Nat, (s.freeEntry 511 true).holds h = decide (1 ≤ h ∧ h ≤ 510) := by
    intro h
    rw [Bool.eq_iff_iff]
    simp only [State.holds, State.freeEntry_registry, k, List.any_eq_true, List.mem_filter, List.mem_append,
      List.mem_map, List.mem_range'_1, decide_eq_true_eq]
    constructor
    · rintro ⟨x, ⟨⟨y, hy, rfl⟩ | h1, h2⟩, h3⟩
      · have : (y : Nat) = h := by simpa using h3
        subst this; exact ⟨hy.1, by have := hy.2; simp at this; exact Nat.le_of_lt_succ this⟩
      · simp_all
    · intro hh
      have : ¬h = 511 := by omega
      exact ⟨⟨h, .sound, none⟩, ⟨.inl ⟨h, ⟨hh.1, Nat.lt_succ_of_le hh.2⟩, rfl⟩, by simpa using this⟩, by simp⟩
  rw [State.lowestFree, Config.maxHandle, hr, List.find?_append]
  have : (List.range' 1 510).find? (fun h => !(s.freeEntry 511 true).holds h) = none := by
    simp only [List.find?_eq_none, List.mem_range'_1]
    intro (h : Nat) hh
    have : 1 ≤ h ∧ h ≤ 510 := by omega
    simp [hm, this]
  rw [this]
  simp [hm 511]

theorem witness_AdmitCreatesTheEntryOfAPendingMark : zoo.portReady = true ∧ zoo.waitingItem 0x31 = none ∧
    zoo.waitingItem 0x30 = some ⟨0x30, .c0, 1000, 0, 1⟩ ∧ zoo.isUp .c0 = true ∧ zoo.lowestFree = some 10 ∧
    (withChan .c0 ChanState.reset zoo).isUp .c0 = false ∧ (withChan .c0 ChanState.reset zoo).portReady = true ∧
    (crowded []).portReady = true ∧ (crowded []).lowestFree = none ∧ (crowded []).retention = [] ∧
    (crowded [511]).lowestFree = none ∧ (crowded [511]).retention = [511] ∧
    ((crowded [511]).freeEntry 511 true).lowestFree = some 511 :=
  ⟨by decide +kernel, by decide +kernel, by decide +kernel, by decide +kernel, by decide +kernel, by decide +kernel,
    by decide +kernel, by decide +kernel, crowded_lowestFree rfl rfl, rfl, crowded_lowestFree rfl rfl, rfl,
    crowded_lowestFree_after rfl rfl⟩

/-- Handle 10 of zoo and handle 511 of a registry of 510 are the lowest free ones; with 511 held there is none. -/
theorem witness_NewEntriesTakeTheLowestFreeHandle : HandleLaw zoo ∧ zoo.lowestFree = some 10 ∧
    (∃ i ∈ zoo.waiting, i.mark = 0x30) ∧ (∀ i ∈ zoo.waiting, i.mark ≠ 0x31) ∧ (crowded []).lowestFree = none ∧
    ((crowded [511]).freeEntry 511 true).lowestFree = some 511 :=
  ⟨zoo_handleLaw, by decide +kernel, by decide +kernel, by decide +kernel, crowded_lowestFree rfl rfl,
    crowded_lowestFree_after rfl rfl⟩

theorem witness_BarMovesAPendingMarkToTheTable : zoo.portReady = true ∧ (0x31 : Mark) ∉ zoo.waiting.map (·.mark) ∧
    (0x30 : Mark) ∈ zoo.waiting.map (·.mark) ∧ (0x30 : Mark) ∉ zoo.table.map (·.mark) ∧ zoo.table.length < 64 ∧
    (0x30 : Mark) ∉ fullTable.map (·.mark) ∧ 64 ≤ fullTable.length ∧
    (0x30 : Mark) ∈ ({ zoo with table := [⟨0x30, .letIn, true⟩] } : State).table.map (·.mark) := by decide +kernel

theorem witness_PendingReadReportsThePlace : zoo.portReady = true ∧ 15 < (16 : Byte).toNat ∧
    zoo.waiting.length ≤ (15 : Byte).toNat ∧ zoo.waiting[(0 : Byte).toNat]? = some ⟨0x30, .c0, 1000, 0, 1⟩ := by
  decide +kernel

theorem witness_EntryRequestsRefuseOtherHandles : zoo.portReady = true ∧ (0 : BitVec 16).toNat = 0 ∧
    511 < (512 : BitVec 16).toNat ∧ zoo.entry (511 : BitVec 16).toNat = none ∧
    zoo.entry (9 : BitVec 16).toNat = some ⟨9, .sound, none⟩ := by decide +kernel

/-- An out-queue of 48 messages for handles from k on, of one class. -/
def full48 (urgent : Bool) (k : Nat) : List QMsg := (List.range' k 48).map fun h => ⟨.resume h, urgent, 1, true⟩

/-- The entry with handle 4 flawed, under a capture setting, with a first-error record and an out-queue of channel 0. -/
def flawed (f : Flaw) (k : StoreCapture) (r : Option FirstError) (q : List QMsg) : State :=
  { zoo.modChan .c0 fun x => { x with outq := q } with
    tree := { zoo.tree with capture := k }
    firstError := r
    registry := zooEntries.map fun e => if e.handle = 4 then { e with flaw := f } else e }

/-- The store check: both flaws, both captures, a record that stands, and channel 0's queue with room, full of urgent
messages, and full with a normal one; channel 2 is not UP. -/
theorem witness_EntryRequestsMeetTheStoreCheck :
    let t := terminal 0x14 .c0 1000 (.active fixed steady 0)
    (flawed .correctable .all none []).portReady = true ∧
    (flawed .correctable .all none []).entry (4 : BitVec 16).toNat = some ⟨4, .correctable, some t⟩ ∧
    (flawed .correctable .uncorrectable none []).tree.capture = .uncorrectable ∧
    (flawed .correctable .all (some ⟨.correctable, 3⟩) []).firstError ≠ none ∧
    (flawed .uncorrectable .all none []).entry (4 : BitVec 16).toNat = some ⟨4, .uncorrectable, some t⟩ ∧
    (flawed .uncorrectable .all none []).isUp .c0 = true ∧ (flawed .uncorrectable .all none []).isUp .c2 = false ∧
    (∀ c ∈ Chan.all, (flawed .uncorrectable .all none []).isUp c = true →
      ((flawed .uncorrectable .all none []).chan c).outq.length < 48) ∧
    (flawed .uncorrectable .all none []).term 3 = some (terminal 0x13 .c0 1000 (.joining fixed)) ∧
    48 ≤ ((full48 true 100).filter fun m => !(m.msg.handle == 4)).length ∧
    48 ≤ ((full48 false 100).filter fun m => !(m.msg.handle == 4)).length ∧
    ((full48 false 100).filter fun m => !(m.msg.handle == 4)) =
      (full48 false 100).take 47 ++ ⟨.resume 147, false, 1, true⟩ :: [] := by decide +kernel

/-- R33 and R36: a read repairs a correctable flaw and captures it. -/
theorem test_repair : let t := after (.entryRead 4) (flawed .correctable .all none [])
    t.registry = zooEntries ∧ t.firstError = some ⟨.correctable, 4⟩ ∧ t.notices = [Notice.storeError 4 .correctable] := by
  decide +kernel

theorem witness_EntriesAreReadAndFound : zoo.portReady = true ∧
    zoo.sound (1 : BitVec 16).toNat (terminal 0x11 .c0 1000 (.enrolling 0 none)) ∧
    zoo.entry (9 : BitVec 16).toNat = some ⟨9, .sound, none⟩ ∧ HandleLaw zoo ∧ MarkLaw zoo ∧ zoo.allSound ∧
    zoo.term 7 = some (terminal 0x17 .c0 1000 (.lost (some 1000) 24 true)) ∧ ∀ h t, zoo.term h = some t → t.mark ≠ 0x30 :=
  ⟨by decide +kernel, by decide +kernel, by decide +kernel, zoo_handleLaw, zoo_markLaw, zoo_allSound, by decide +kernel,
    fun h t ht hm => zoo_markLaw.2 h t ht ⟨0x30, .c0, 1000, 0, 1⟩ (by decide +kernel) hm.symm⟩

/-- The range work of a RANGING entry in each of its places: queued, offered, in flight, none. -/
theorem witness_EntriesReportTheirRangeWork :
    let t := terminal 0x12 .c0 1000 (.ranging 0 [] none none)
    let put := fun f => zoo.modChan .c0 fun x => { f x with rangeQ := [] }
    zoo.sound 2 t ∧ (zoo.chan .c0).rangeQ = [] ++ 2 :: [] ∧
    (put fun x => { x with offer := some ⟨40, .range 2, 11, 333031, 448, 15⟩ }).sound 2 t ∧
    ((put fun x => { x with offer := some ⟨40, .range 2, 11, 333031, 448, 15⟩ }).chan .c0).offer =
      some ⟨40, .range 2, 11, 333031, 448, 15⟩ ∧
    ((put fun x => { x with gaps := [gap 40 (.range 2 true) 11 333031 448 15] }).chan .c0).gaps =
      [] ++ gap 40 (.range 2 true) 11 333031 448 15 :: [] ∧
    ((put id).chan .c0).hasWork 2 = false ∧ 2 ∉ ((put id).chan .c0).rangeQ := by decide +kernel

theorem witness_DismissAndClearDamaged : zoo.portReady = true ∧ (1 : BitVec 16).toNat = 1 ∧
    zoo.sound 7 (terminal 0x17 .c0 1000 (.lost (some 1000) 24 true)) ∧
    zoo.sound 8 (terminal 0x18 .c0 1000 (.dismissing true false)) ∧
    zoo.sound 1 (terminal 0x11 .c0 1000 (.enrolling 0 none)) ∧ zoo.entry 9 = some ⟨9, .sound, none⟩ := by decide +kernel

theorem witness_HushResumeRerangeAndMove : zoo.portReady = true ∧ HandleLaw zoo ∧
    zoo.sound 4 (terminal 0x14 .c0 1000 (.active fixed steady 0)) ∧ zoo.sound 5 (terminal 0x15 .c0 1000 (.hushed fixed)) ∧
    zoo.sound 3 (terminal 0x13 .c0 1000 (.joining fixed)) ∧ Chan.ofNum (4 : Byte).toNat = none ∧
    Chan.ofNum (0 : Byte).toNat = some .c0 ∧ Chan.ofNum (2 : Byte).toNat = some .c2 ∧ zoo.isUp .c2 = false ∧
    Chan.ofNum (1 : Byte).toNat = some .c1 ∧ Chan.c1 ≠ .c0 ∧ zoo.isUp .c1 = true :=
  ⟨by decide +kernel, zoo_handleLaw, by decide +kernel⟩

/-- R64 and R74, case 1, at their bounds: handle 0, 511 and 512 by kind, a mark that passes and fails its check, fill
delay 1,048,575 and 1,048,576, changes of -255 and -256, 255 and 256, channels 3 and 4, kinds 0 and 8. -/
theorem test_inject_bounds :
    injectedMsg 1 1 0x0B0B = some (.enrol 1 0x0B) ∧ injectedMsg 1 1 0x0B0C = none ∧ injectedMsg 1 0 0x0B0B = none ∧
    injectedMsg 2 511 0x0FFFFF0000000000 = some (.setDelay 511 1048575) ∧ injectedMsg 2 511 0x1000000000000000 = none ∧
    injectedMsg 3 1 0xFF01000000000000 = some (.trimDelay 1 (-255)) ∧ injectedMsg 3 1 0xFF00000000000000 = none ∧
    injectedMsg 3 1 0x00FF000000000000 = some (.trimDelay 1 255) ∧ injectedMsg 3 1 0x0100000000000000 = none ∧
    injectedMsg 5 0 0 = some (.resume 0) ∧ injectedMsg 5 512 0 = none ∧ injectedMsg 7 0 0 = some (.dismiss 0) ∧
    injectedMsg 6 1 0x0300000000000000 = some (.retune 1 .c3) ∧ injectedMsg 6 1 0x0400000000000000 = none ∧
    injectedMsg 6 0 0 = none ∧ injectedMsg 0 1 0 = none ∧ injectedMsg 8 1 0 = none := by decide +kernel

theorem witness_InjectJoinsOrReplaces : zoo.portReady = true ∧ 3 < (4 : Byte).toNat ∧ injectedMsg 8 1 0 = none ∧
    injectedMsg 4 0 0 = some (.hush 0) ∧ injectedMsg 7 512 0 = none ∧ zoo.isUp .c2 = false ∧ zoo.isUp .c1 = true ∧
    (zoo.chan .c1).outq = [] ∧ (full48 true 100).length = 48 ∧ (∀ x ∈ full48 true 100, x.urgent = true) ∧
    full48 false 100 = (full48 false 100).take 47 ++ [⟨.resume 147, false, 1, true⟩] ∧
    (∀ x ∈ full48 true 100, ¬(x.msg.kind = .hush ∧ x.msg.handle = 0)) ∧
    ((⟨.hush 0, true, 1, false⟩ : QMsg).msg.kind = (TreeMsg.hush 0).kind) := by decide +kernel

theorem witness_QueueForSendsOrOwes : zoo.term 1 = some (terminal 0x11 .c0 1000 (.enrolling 0 none)) ∧
    (TreeMsg.enrol 1 0x11).handle = 1 ∧ zoo.isUp .c0 = true ∧ (withChan .c0 ChanState.reset zoo).isUp .c0 = false ∧
    (withChan .c0 ChanState.reset zoo).term 8 = some (terminal 0x18 .c0 1000 (.dismissing true false)) ∧
    isUrgentKind (TreeMsg.enrol 1 0x11).kind = false ∧ 48 ≤ (full48 false 100).length ∧
    ((full48 false 100).filter fun x => !(x.msg.handle == 1 && supersedes .enrol x.msg.kind)) = full48 false 100 ∧
    (∀ x ∈ full48 false 100, ¬(x.msg.kind = .enrol ∧ x.msg.handle = 1)) ∧ (∀ x ∈ full48 true 100, x.urgent = true) ∧
    ∃ x ∈ [(⟨.enrol 1 0x11, true, 1, false⟩ : QMsg)], x.msg.kind = .enrol ∧ x.msg.handle = 1 := by decide +kernel

/-- A full queue whose one normal message is v. -/
def fullBut (v : TreeMsg) : List QMsg := ⟨v, false, 1, true⟩ :: (full48 true 100).take 47

/-- Entry 4 with a trim pending. -/
def trimming : State := zoo.modTerm 4 fun u => { u with phase := .active fixed ⟨none, 0, some (-3)⟩ 0 }

/-- The eviction clauses: the victim's entry free, wanting the kind, and ACTIVE with and without a trim pending. -/
theorem witness_QueueForEvicts : zoo.term 8 = some (terminal 0x18 .c0 1000 (.dismissing true false)) ∧
    isUrgentKind (TreeMsg.dismiss 8).kind = true ∧
    (∀ v ∈ [TreeMsg.resume 147, .setDelay 3 419000, .trimDelay 4 (-3)], 48 ≤ ((fullBut v).filter fun x =>
        !(x.msg.handle == 8 && supersedes .dismiss x.msg.kind)).length ∧
      ((fullBut v).filter fun x => !(x.msg.handle == 8 && supersedes .dismiss x.msg.kind)) =
        [] ++ ⟨v, false, 1, true⟩ :: (full48 true 100).take 47) ∧
    (∀ x ∈ (full48 true 100).take 47, x.urgent = true) ∧ zoo.term 147 = none ∧
    zoo.term 3 = some (terminal 0x13 .c0 1000 (.joining fixed)) ∧
    trimming.term 4 = some (terminal 0x14 .c0 1000 (.active fixed ⟨none, 0, some (-3)⟩ 0)) ∧
    zoo.term 4 = some (terminal 0x14 .c0 1000 (.active fixed steady 0)) ∧
    (((zoo.modChan .c0 fun x => { x with outq := fullBut (.setDelay 3 419000) }).queueFor 8 (.dismiss 8)).term 3).map
      (·.owed) = some { Owed.none with setDelay := true } := by decide +kernel

/-- R34 and R69: the DISMISS of a DAMAGED entry evicts the only normal message of a full queue, RESUME for entry 5, whose
entry then owes it. -/
theorem witness_DamageEvicts :
    let s := flawed .uncorrectable .all none (fullBut (.resume 5))
    s.isUp .c0 = true ∧ 48 ≤ ((s.chan .c0).outq.filter fun m => !(m.msg.handle == 4)).length ∧
    ((((s.chan .c0).outq.filter fun m => !(m.msg.handle == 4)).filter fun m => !m.urgent).getLast?.map (·.msg)) =
      some (.resume 5) ∧
    ((s.readEntry 4).term 5).map (·.owed.resume) = some true := by decide +kernel

theorem witness_QueueForMeetsTheHandleLaw : HandleLaw zoo ∧ HandleLaw (withChan .c0 ChanState.reset zoo) ∧
    HandleLaw trimming := ⟨zoo_handleLaw, zoo_handleLaw, ⟨by decide +kernel, by decide +kernel⟩⟩

theorem test_entering_dismissing_is_due : ((zoo.enterDismissing 4).term 4).map (·.phase) =
      some (.dismissing false false) ∧
    (((withChan .c0 ChanState.reset zoo).enterDismissing 4).term 4).map (·.phase) = some (.dismissing false true) := by
  decide +kernel

theorem witness_EnteringDismissing : zoo.term 4 = some (terminal 0x14 .c0 1000 (.active fixed steady 0)) ∧
    zoo.isUp .c0 = true ∧ (terminal 0x14 .c0 1000 (.active fixed steady 0)).phase.isActive = true ∧
    zoo.term 3 = some (terminal 0x13 .c0 1000 (.joining fixed)) ∧ (withChan .c0 ChanState.reset zoo).isUp .c0 = false ∧
    ((zoo.enterDismissing 4).term 4).map (·.owed) = some Owed.none := by decide +kernel

theorem witness_EnteringLost : zoo.term 4 = some (terminal 0x14 .c0 1000 (.active fixed steady 0)) ∧
    zoo.isUp .c0 = true ∧ zoo.term 3 = some (terminal 0x13 .c0 1000 (.joining fixed)) ∧
    (withChan .c0 ChanState.reset zoo).isUp .c0 = false ∧
    ((zoo.enterLost 4).term 4).map (·.owed) = some Owed.none := by decide +kernel

theorem witness_DefectiveRecordsAreDiscarded : zoo.running ∧ 6 < (7 : Byte).toNat ∧ (0 : Byte).toNat = 0 ∧
    ([0] : List Byte).length ≠ 0 ∧ 1 < (2 : Byte).toNat ∧ 3 < (4 : Byte).toNat ∧ 2 < (3 : Byte).toNat ∧
    (zoo.chan .c0).rx = [] ∧ (∀ b ∈ ([1, 2] : List Byte), b ≠ 0x7E) ∧ ([] : List Byte).length = (0 : Byte).toNat ∧
    bytesNat [0, 0] ≠ (recordCheck (6 :: 0 :: [])).toNat ∧ (∀ b ∈ (6 :: 0 :: [] ++ [0, 0] : List Byte), b ≠ 0x7E) ∧
    ([6] : List Byte).length < 2 ∧ ([0] : List Byte).length < (0 : Byte).toNat + 2 ∧
    ([0x7E, 6, 0] : List Byte).length = (3 : Byte).toNat ∧
    bytesNat ((frame 6 []).drop 3) ≠ (recordCheck [6, 3, 0x7E, 6, 0]).toNat ∧
    bytesNat ((frame 6 []).drop 3) = (recordCheck [6, 0]).toNat ∧
    ((zoo.modChan .c0 fun x => { x with rx := [0x7E, 6] }).chan .c0).rx = [0x7E, 6] := by decide +kernel

/-- Channel 2 ALIGNING with three consecutive cycles counted. -/
def aligning : State := zoo.modChan .c2 fun x => { x with link := .aligning 9 3, silence := 1 }

theorem witness_HelloIsJudgedAgainstTheCycleLength : zoo.running ∧ (77760 : BitVec 24).toNat = zoo.tree.L ∧
    (77761 : BitVec 24).toNat ≠ zoo.tree.L ∧ (zoo.chan .c0).link = .up 9 ∧ (zoo.chan .c2).link = .down ∧
    (zoo.chan .c3).link = .mismatched ∧ (aligning.chan .c2).link = .aligning 9 3 ∧ aligning.running ∧ SettingsLaw zoo ∧
    (4095 : BitVec 24).toNat < 4096 ∧ 262143 < (262144 : BitVec 24).toNat :=
  ⟨by decide +kernel, by decide +kernel, by decide +kernel, by decide +kernel, by decide +kernel, by decide +kernel,
    by decide +kernel, by decide +kernel, zoo_settingsLaw, by decide, by decide⟩

theorem witness_LeavingUpForDown : zoo.running ∧ (zoo.chan .c0).link = .up 9 ∧ (zoo.chan .c2).link = .down ∧
    (zoo.chan .c3).link = .mismatched ∧ (aligning.chan .c2).link = .aligning 9 3 ∧ aligning.running ∧
    (aligning.chan .c2).cycleSeen = false ∧ 1 ≤ (aligning.chan .c2).silence ∧ (zoo.chan .c0).cycleSeen = false ∧
    (zoo.chan .c0).silence = 0 ∧ 1 ≤ ((zoo.modChan .c0 fun x => { x with silence := 1 }).chan .c0).silence := by
  decide +kernel

theorem witness_CyclesOutsideAService : zoo.running ∧ (zoo.chan .c2).link = .down ∧ (zoo.chan .c3).link = .mismatched ∧
    (zoo.chan .c0).link = .up 9 ∧ (11 : Cyc) ≠ 9 + 1 ∧ (aligning.chan .c2).link = .aligning 9 3 ∧
    (if (10 : Cyc) = 9 + 1 then 3 + 1 else 1) = 4 ∧ (if (11 : Cyc) = 9 + 1 then 3 + 1 else 1) = 1 ∧ HandleLaw aligning ∧
    aligning.allSound :=
  ⟨by decide +kernel, by decide +kernel, by decide +kernel, by decide +kernel, by decide, by decide +kernel, by decide,
    by decide, zoo_handleLaw, zoo_allSound⟩

/-- R33 and R34: an alignment that reads the ACTIVE entry 4 announces it repaired, or makes it DAMAGED instead. -/
theorem witness_CyclesAnnounceWhatTheReadLeft :
    let s := fun f => withChan .c0 { ChanState.reset with link := .aligning 9 3 } (flawed f .all none [])
    (∀ f, ((s f).chan .c0).link = .aligning 9 3) ∧ HandleLaw (s .uncorrectable) ∧
    ((after (.cycle .c0 10 0) (s .correctable)).chan .c0).roster = [4] ∧
    (after (.cycle .c0 10 0) (s .correctable)).entry 4 =
      some ⟨4, .sound, some (terminal 0x14 .c0 1000 (.active fixed steady 0))⟩ ∧
    ((after (.cycle .c0 10 0) (s .uncorrectable)).chan .c0).roster = [] ∧
    (after (.cycle .c0 10 0) (s .uncorrectable)).entry 4 = some ⟨4, .sound, none⟩ :=
  ⟨fun _ => rfl, ⟨by decide +kernel, by decide +kernel⟩, by decide +kernel⟩

theorem witness_HandOutTakesUrgentMessagesFirst : OutQueueLaw (ex41later.chan .c1).outq :=
  ⟨by decide +kernel, by decide +kernel⟩

/-- Channel 2 of Example 3-1 with other parts of its gap scheduler. -/
def ex31with (f : ChanState → ChanState) : State := ex31.modChan .c2 f

/-- The service of CYCLE 1000 with no gap lapsed: an offer outstanding, an overdue census that waits, nothing to offer,
a census offered at due age 16 and at due age 15 with no request, a range offer; and no tag busy. -/
theorem witness_CycleServiceOffersAtMostOneGap : ex31.running ∧ (ex31.chan .c2).link = .up 999 ∧
    (1000 : Cyc) = 999 + 1 ∧ (ex31.chan .c2).gaps = [] ∧ (ex31.chan .c2).offer = none ∧
    (ex31.chan .c2).rangeQ = [5, 9, 8] ∧ (ex31.chan .c2).dueAge < 16 ∧
    ex31.sound 5 (terminal 5 .c2 311285 (.ranging 0 [] none none)) ∧ (ex31.chan .c2).nextTag = 40 ∧
    (ex31.chan .c2).tagBusy (ex31.chan .c2).tagCtr = false ∧
    (∀ g ∈ (ex31placed.chan .c2).gaps, 32768 ≤ ((1001 : Cyc) - (g.endCycle + 8)).toNat ∧ g.isCensus = false ∧
      g.names 8 = false ∧ overlaps 77760 1003 333046 448 g = false) ∧
    ((ex31with fun x => { x with dueAge := 16 }).chan .c2).due = true ∧
    16 ≤ ((ex31with fun x => { x with dueAge := 16 }).chan .c2).dueAge ∧
    ((ex31with fun x => { x with dueAge := 15, rangeQ := [] }).chan .c2).rangeQ = [] ∧
    ((ex31with fun x => { x with due := false, rangeQ := [] }).chan .c2).due = false ∧
    ((1001 : Cyc) - (1000 : Cyc)).toNat < 32768 ∧
    ((ex31with fun x => { x with mode := .periodic, periodCtr := 7999 }).chan .c2).period ≤ min (7999 + 1) 65535 := by
  decide +kernel

/-- The other services: a lapse and an expiry in one CYCLE, a head passed over for the next request that fits, a census
gap and four range gaps in flight, and an overdue census that waits for a gap. -/
theorem witness_CycleServiceLapsesAndHoldsBack :
    let late := ex31with fun x => { x with
      gaps := [gap 36 (.range 5 false) 980 333031 448 984], offer := some ⟨40, .range 9, 1000, 333031, 448, 1004⟩ }
    let four := (List.range 4).map fun k => gap (BitVec.ofNat 8 k) .voidRange 1002 333031 448 1006
    ¬(∀ g ∈ (late.chan .c2).gaps, 32768 ≤ ((1000 : Cyc) - (g.endCycle + 8)).toNat) ∧
    ((after (.offerExpiry .c2 1000) (after (.gapLapse .c2 1000) late)).chan .c2).gaps = [] ∧
    ((after (.offerExpiry .c2 1000) (after (.gapLapse .c2 1000) late)).chan .c2).offer = none ∧
    (ex31placed.chan .c2).link = .up 1000 ∧ (ex31placed.chan .c2).rangeQ = [9] ++ 8 :: [] ∧
    ex31placed.sound 9 (terminal 9 .c2 233625 (.ranging 0 [] none none)) ∧
    (∃ g ∈ (ex31placed.chan .c2).gaps, g.names 9 = true ∨ overlaps 77760 1003 (rangeSpan longReach 37 233625).1
      (rangeSpan longReach 37 233625).2 g = true) ∧
    ex31placed.sound 8 (terminal 8 .c2 311300 (.ranging 0 [] none none)) ∧
    (∃ g ∈ ((ex31with fun x => { x with due := false, gaps := [censusGap []] }).chan .c2).gaps, g.isCensus = true) ∧
    4 ≤ (((ex31with fun x => { x with gaps := four }).chan .c2).gaps.filter fun g => !g.isCensus).length ∧
    ((ex31with fun x => { x with dueAge := 16, gaps := [censusGap []] }).chan .c2).gaps ≠ [] := by decide +kernel

/-- Example 3-1 with the entry of the queue's head, handle 5, flawed. -/
def ex31flawed (f : Flaw) : State :=
  { ex31 with registry := ex31.registry.map fun e => if e.handle = 5 then { e with flaw := f } else e }

/-- R52 (b) and R33 to R35: the head with a correctable flaw is repaired and offered; one with an uncorrectable flaw is
DAMAGED and leaves the queue, and the next handle, 9, is offered. CENSUS_PERIOD_DUE finds channel 2 of zoo not UP. -/
theorem witness_CycleServiceMeetsTheStoreCheck :
    let t := after (.cycle .c2 1000 4) (ex31flawed .correctable)
    let u := after (.cycle .c2 1000 4) (ex31flawed .uncorrectable)
    ((ex31flawed .correctable).readEntry 5).term 5 = some (terminal 5 .c2 311285 (.ranging 0 [] none none)) ∧
    (t.chan .c2).offer = some ⟨40, .range 5, 1002, 333031, 448, 1006⟩ ∧ t.firstError = some ⟨.correctable, 5⟩ ∧
    ((ex31flawed .uncorrectable).readEntry 5).term 5 = none ∧ u.entry 5 = some ⟨5, .sound, none⟩ ∧
    (u.chan .c2).offer = some ⟨40, .range 9, 1002, 255371, 448, 1005⟩ ∧ (u.chan .c2).rangeQ = [8] ∧
    u.firstError = some ⟨.uncorrectable, 5⟩ ∧ zoo.running ∧ zoo.isUp .c2 = false ∧ zoo.term 10 = none := by decide +kernel

/-- R50 and R51: spans that share their last tick overlap, adjacent ones and one of length 0 do not; a tag in flight
and one that lapsed are passed over. -/
theorem witness_CycleServiceJudgesSpansAndTags :
    let g := gap 7 .voidRange 1000 100 50 1000
    overlaps 77760 1000 149 5 g = true ∧ overlaps 77760 1000 150 5 g = false ∧ overlaps 77760 1000 95 5 g = false ∧
    overlaps 77760 1000 120 0 g = false ∧ overlaps 77760 1000 99 1 { g with len := 0 } = false ∧
    overlaps 77760 1001 0 10 { g with len := 77661 } = true ∧ overlaps 77760 1001 0 10 { g with len := 77660 } = false ∧
    ((ex31with fun x => { x with gaps := [gap 40 .voidRange 1000 100 50 1000], lapsed := [41] }).chan .c2).nextTag = 42 ∧
    ((ex31with fun x => { x with gaps := [gap 40 .voidRange 1000 100 50 1000], lapsed := [41] }).chan .c2).tagCtr = 40 ∧
    censusSpan { longReach with K := 0, rtMin := 0 } (-100) = (0, 373248 + 32 * 256 - 0 + 480 + 64 - 100 - 256) := by
  decide +kernel

/-- A channel with an outstanding offer of a kind. -/
def offering (k : OfferKind) : State := ex31with fun x => { x with offer := some ⟨40, k, 1002, 333031, 448, 1006⟩ }

theorem witness_OffersArePlacedDeclinedOrExpire : zoo.running ∧ zoo.isUp .c2 = false ∧ zoo.isUp .c0 = true ∧
    (zoo.chan .c0).offer = none ∧ (offering .census).running ∧ (offering .census).isUp .c2 = true ∧
    ((offering .census).chan .c2).offer = some ⟨40, .census, 1002, 333031, 448, 1006⟩ ∧
    ((offering (.range 5)).chan .c2).offer = some ⟨40, .range 5, 1002, 333031, 448, 1006⟩ ∧
    ((offering .voidRange).chan .c2).offer = some ⟨40, .voidRange, 1002, 333031, 448, 1006⟩ ∧
    (1002 : Cyc) ≠ 33771 ∧ ((1002 : Cyc) - 33771).toNat < 32768 ∧ 32768 ≤ ((1002 : Cyc) - 33770).toNat := by
  decide +kernel

theorem witness_GapsCloseAndLapse : (ex71 (.ranging 2 [] none none)).running ∧ HandleLaw (ex71 (.ranging 2 [] none none)) ∧
    (ex71 (.ranging 2 [] none none)).isUp .c2 = true ∧ (ex71 (.ranging 2 [] none none)).isUp .c1 = false ∧
    ((ex71 (.ranging 2 [] none none)).chan .c2).gaps = [] ++ gap 54 (.range 14 false) 1048 333031 448 1052 :: [] ∧
    (ex71 (.ranging 2 [] none none)).sound 14 (terminal 0xA .c2 311285 (.ranging 2 [] none none)) ∧
    2 + 1 < (ex71 (.ranging 2 [] none none)).tree.Rmax ∧ (ex71 (.ranging 2 [] none none)).tree.Rmax ≤ 3 + 1 ∧
    (ex71 (.ranging 2 [] none none)).term 15 = none ∧ (54 : Tag) ≠ 55 ∧
    ((1060 : Cyc) - ((1052 : Cyc) + 8)).toNat < 32768 ∧ 32768 ≤ ((1059 : Cyc) - ((1052 : Cyc) + 8)).toNat ∧
    (54 : Tag) ∈ ((zoo.modChan .c0 fun x => { x with lapsed := [54] }).chan .c0).lapsed ∧
    ((ex51 []).chan .c2).gaps = [] ++ censusGap [] :: [] ∧ ((ex51 []).chan .c2).quietPending = false :=
  ⟨by decide +kernel, ⟨by decide +kernel, by decide +kernel⟩, by decide +kernel⟩

/-- Two gaps that lapse in one service: the first in the order of placement joins the lapsed tags first. A close whose
read finds a correctable and an uncorrectable flaw. -/
theorem witness_GapsLapseInOrderAndReadFlaws :
    let s := ex31with fun x => { x with
      gaps := [gap 7 .voidRange 980 333031 448 984, gap 3 .voidRange 981 400000 448 985], lapsed := [] }
    let f := fun f => { ex71 (.ranging 2 [] none none) with
      registry := [⟨14, f, some (terminal 0xA .c2 311285 (.ranging 2 [] none none))⟩] }
    ((993 : Cyc) - ((984 : Cyc) + 8)).toNat < 32768 ∧ ((after (.gapLapse .c2 993) s).chan .c2).lapsed = [7, 3] ∧
    ((after (.gapLapse .c2 992) s).chan .c2).lapsed = [7] ∧
    (f .correctable).entry 14 = some ⟨14, .correctable, some (terminal 0xA .c2 311285 (.ranging 2 [] none none))⟩ ∧
    ((after (.gapClosed .c2 54) (f .correctable)).term 14).map (·.phase) = some (.ranging 3 [] none none) ∧
    (f .uncorrectable).entry 14 = some ⟨14, .uncorrectable, some (terminal 0xA .c2 311285 (.ranging 2 [] none none))⟩ ∧
    (after (.gapClosed .c2 54) (f .uncorrectable)).entry 14 = some ⟨14, .sound, none⟩ ∧
    ((after (.gapClosed .c2 54) (f .uncorrectable)).chan .c2).tally .noReply = 0 := by decide +kernel

/-- R47: handle 2 stands in a queue, handle 14 in a gap and handle 5 in an offer; handle 4 stands in none, handle 10 is
free. -/
theorem witness_RangeRequestsJoinTheQueue :
    zoo.term 10 = none ∧ zoo.rangeRequest 10 = zoo ∧ 2 ∈ (zoo.chan .c0).rangeQ ∧ zoo.rangeRequest 2 = zoo ∧
    (ex71 (.ranging 2 [] none none)).rangeRequest 14 = ex71 (.ranging 2 [] none none) ∧
    (offering (.range 5)).rangeRequest 5 = offering (.range 5) ∧
    zoo.term 4 = some (terminal 0x14 .c0 1000 (.active fixed steady 0)) ∧ zoo.hasWork 4 = false ∧
    ((zoo.rangeRequest 4).chan .c0).rangeQ = [2, 4] := by decide +kernel

/-- The marks of the entries of Example 5-1 are distinct, and no mark of one is pending. -/
theorem ex51_markLaw : MarkLaw (ex51 []) := by
  constructor
  · intro h h' t t' ht ht' hm
    obtain ⟨e, he, rfl, het⟩ := term_mem ht
    obtain ⟨e', he', rfl, het'⟩ := term_mem ht'
    have k : ∀ e ∈ (ex51 []).registry, ∀ e' ∈ (ex51 []).registry, ∀ t ∈ e.term, ∀ t' ∈ e'.term, t.mark = t'.mark →
      e.handle = e'.handle := by decide +kernel
    exact k e he e' he' t het t' het' hm
  · intro h t ht i hi
    exact absurd hi (by decide +kernel +revert)

/-- The nine replies of Example 5-1 meet each verdict (`test_census_verdicts`); here the state they are taken in. -/
theorem witness_CensusRepliesAreJudgedAndMatched : (ex51 []).running ∧ (ex51 []).isUp .c2 = true ∧
    (reply 1005 40000 3 0xE).kind = .census ∧ ((ex51 []).chan .c2).gapOf 9 = some (censusGap []) ∧
    (censusGap []).kind = .census [] ∧
    censusVerdict (ex51 []).tree ((ex51 []).chan .c2).skew (censusGap []) [] (reply 1005 40000 3 0xE) = .sound 250702 ∧
    censusVerdict (ex51 []).tree ((ex51 []).chan .c2).skew (censusGap []) [] (reply 1002 10000 2 0xD) =
      .defect .outOfSpan ∧
    (∀ e ∈ (ex51 []).registry, e.flaw = .sound) ∧
    (ex51 []).sound 19 { terminal 0xE .c1 250690 (.lost (some 250690) 4 true) with wasActive := true } ∧
    (ex51 []).sound 27
      { terminal 0xF .c2 183700 (.active ⟨183700, 236263⟩ ⟨none, 0, none⟩ 0) with heard := true } ∧
    (∀ i ∈ (ex51 []).waiting, i.mark ≠ 0x10) ∧ (∀ e ∈ (ex51 []).table, e.mark ≠ 0x10) ∧ (ex51 []).tree.policy = .ask ∧
    (ex51 []).waiting.length < 16 ∧ (ex51 []).lowestFree = some 14 ∧ (ex51 []).tree.defectNotices = true := by
  decide +kernel

theorem witness_CensusRepliesMeetTheLaws : HandleLaw (ex51 []) ∧ MarkLaw (ex51 []) ∧
    (∀ h t, (ex51 []).term h = some t → t.mark ≠ 0x10) :=
  ⟨⟨by decide +kernel, by decide +kernel⟩, ex51_markLaw, fun h t ht => by
    obtain ⟨e, he, rfl, het⟩ := term_mem ht
    have k : ∀ e ∈ (ex51 []).registry, ∀ t ∈ e.term, t.mark ≠ 0x10 := by decide +kernel
    exact k e he t het⟩

/-- Example 5-1 with its entries, table and pending list changed. -/
def ex51with (f : State → State) : State := f (ex51 [])

/-- The clauses on the retry that reaches R_max and on an unknown mark: LET IN, BAR seen and not seen, a pending item,
the full pending list and registry with their latches, and an eviction. -/
theorem witness_CensusRepliesMeetAdmission :
    let low := { (ex51 []).tree with Rmax := 1 }
    (ex51with fun s => { s with
      tree := low, registry := [entryOf 3 (terminal 0x10 .c1 1000 (.enrolling 0 none))] }).sound 3
        (terminal 0x10 .c1 1000 (.enrolling 0 none)) ∧ low.Rmax ≤ 0 + 1 ∧
    tableFind 0xA (ex51 []).table = some ⟨0xA, .letIn, false⟩ ∧
    (∀ b, tableFind 0x10 (ex51with fun s => { s with table := [⟨0x10, .bar, b⟩] }).table = some ⟨0x10, .bar, b⟩) ∧
    ((ex51with fun s => { s with waiting := [⟨0x10, .c1, 5, 1, 1⟩] }).waitingItem 0x10).isSome = true ∧
    tableFind 0x10 (ex51 []).table = none ∧
    16 ≤ (ex51with fun s => { s with waiting := (List.range 16).map fun k =>
      ⟨BitVec.ofNat 56 (0x100 + k), .c1, 5, 1, 1⟩ }).waiting.length ∧
    (ex51 []).pendingFullLatch = false ∧ (ex51with fun s => { s with pendingFullLatch := true }).pendingFullLatch = true ∧
    (ex51with fun s => { s with registry := (crowded []).registry, retention := [] }).lowestFree = none ∧
    (∀ h t, (ex51with fun s => { s with registry := (crowded []).registry }).term h = some t → t.mark ≠ 0x10) ∧
    ((ex51with fun s => { s with registry := (crowded []).registry, retention := [511] }).freeEntry 511 true).lowestFree =
      some 511 ∧ (ex51 []).fullLatch = false := by
  refine ⟨by decide +kernel, by decide +kernel, by decide +kernel, fun b => by cases b <;> decide +kernel,
    by decide +kernel, by decide +kernel, by decide +kernel, by decide +kernel, by decide +kernel,
    crowded_lowestFree rfl rfl, fun h t ht => ?_, crowded_lowestFree_after rfl rfl, by decide +kernel⟩
  obtain ⟨e, he, rfl, het⟩ := term_mem ht
  have k : ∀ e ∈ (crowded []).registry, ∀ t ∈ e.term, t.mark ≠ 0x10 := by decide +kernel
  exact k e he t het

/-- R33 to R35: the reply of mark E, whose entry 19 is LOST, meets the entry repaired, or DAMAGED, whose mark is then
unknown. -/
theorem witness_CensusRepliesMeetTheStoreCheck :
    let s := fun f => ex51with fun s => { s with registry := s.registry.map fun e =>
      if e.handle = 19 then { e with flaw := f } else e }
    let t := fun f => after (.arrival .c2 (reply 1005 40000 3 0xE)) (s f)
    ((s .correctable).entry 19).map (·.flaw) = some .correctable ∧ HandleLaw (s .uncorrectable) ∧
    ((t .correctable).entry 19).map (·.flaw) = some .sound ∧
    ((t .correctable).term 19).map (·.phase) = some (.enrolling 0 (some 250690)) ∧
    (t .uncorrectable).entry 19 = some ⟨19, .sound, none⟩ ∧ 19 ∉ (t .uncorrectable).retention ∧
    ((t .uncorrectable).waitingItem 0xE).isSome = true :=
  ⟨by decide +kernel, ⟨by decide +kernel, by decide +kernel⟩, by decide +kernel⟩

/-- R101: the sixteen waiting marks leave no room for mark G. -/
theorem test_arrival_census_full :
    let p := ex51with fun s => { s with waiting := (List.range 16).map fun k =>
      ⟨BitVec.ofNat 56 (0x100 + k), .c1, 5, 1, 1⟩ }
    (after (.arrival .c2 (reply 1003 70000 5 0x10)) p).notices = [Notice.pendingFull .c2 0x10] := by decide +kernel

/-- R81, step 3: the removal takes the messages for handle 4 from the old home, and leaves them where none is asked. -/
theorem test_re_enrol_removes : let s := zoo.modChan .c0 fun x => { x with outq := [⟨.hush 4, true, 1, true⟩] }
    Chan.c0 ≠ .c1 ∧ ((s.reEnrol 4 .c1 1000 0 true true).chan .c0).outq = [] ∧
    ((s.reEnrol 4 .c1 1000 0 false true).chan .c0).outq = [⟨.hush 4, true, 1, true⟩] ∧
    ((s.reEnrol 4 .c0 1000 0 true true).chan .c0).outq = [⟨.enrol 4 0x14, false, 2, true⟩] := by decide +kernel

theorem witness_ReEnrollingAnEntry : zoo.term 4 = some (terminal 0x14 .c0 1000 (.active fixed steady 0)) ∧
    zoo.term 7 = some (terminal 0x17 .c0 1000 (.lost (some 1000) 24 true)) ∧ zoo.isUp .c1 = true ∧
    zoo.isUp .c2 = false ∧ zoo.notices.length < 64 ∧ ((zoo.reEnrol 4 .c1 1000 0 true true).term 4).map (·.owed) =
      some Owed.none ∧
    ((zoo.reEnrol 4 .c2 1000 0 true true).term 4).map (·.owed) = some { Owed.none with enrol := true } := by decide +kernel

/-- Channel 2 of Example 7-1 before the reply in gap 54, with two samples. -/
def ex71two : State := ex71 (.ranging 2 [311289, 311288] none none)

/-- An accepted sample, one that completes, one that spreads, a mismatch by span, one by handle, a second reply. -/
theorem witness_RangeRepliesAreMeasured : [1] ≠ ([] : List Int) ∧ ex71two.running ∧ HandleLaw ex71two ∧
    ex71two.isUp .c2 = true ∧ (rangeReply 22061).kind = .range ∧
    (ex71two.chan .c2).gapOf 54 = some (gap 54 (.range 14 false) 1048 333031 448 1052) ∧
    ex71two.sound 14 (terminal 0xA .c2 311285 (.ranging 2 [311289, 311288] none none)) ∧
    ex71two.term 14 = some (terminal 0xA .c2 311285 (.ranging 2 [311289, 311288] none none)) ∧
    (rangeReply 22061).status = .clean ∧ (rangeReply 22061).handle.toNat = 14 ∧
    ({ rangeReply 22061 with handle := 15 }).handle.toNat ≠ 14 ∧ 2 + 1 < ex71two.tree.Rmax ∧
    ex71two.tree.Rmax ≤ 3 + 1 ∧
    rangeSample ex71two.tree (ex71two.chan .c2).skew 311285 1048 333031 448 (rangeReply 22300) = none ∧
    rangeSample ex71two.tree (ex71two.chan .c2).skew 311285 1048 333031 448 (rangeReply 22069) = some 311299 ∧
    (ex71two.tree.P : Int) < spread [311289, 311288, 311299] ∧
    rangeSample ex71two.tree (ex71two.chan .c2).skew 311285 1048 333031 448 (rangeReply 22061) = some 311291 ∧
    ex71two.tree.nConf ≤ [311289, 311288, (311291 : Int)].length ∧
    spread [311289, 311288, 311291] ≤ ex71two.tree.P ∧ [311289, (311291 : Int)].length < ex71two.tree.nConf ∧
    reachOk ex71two.tree (ex71two.chan .c2).skew (roundedMean [311289, 311288, 311291]) = true :=
  ⟨by decide, by decide +kernel, ⟨by decide +kernel, by decide +kernel⟩, by decide +kernel⟩

/-- R33, R35 and R110: the reply that completes the attempt, its entry with each flaw. -/
theorem witness_RangeRepliesMeetTheStoreCheck :
    let t := terminal 0xA .c2 311285 (.ranging 2 [311289, 311288] none none)
    let s := fun f => { ex71two with registry := [⟨14, f, some t⟩] }
    let u := fun f => after (.arrival .c2 (rangeReply 22061)) (s f)
    (s .correctable).entry 14 = some ⟨14, .correctable, some t⟩ ∧
    ((u .correctable).entry 14).map (·.flaw) = some .sound ∧
    ((u .correctable).term 14).map (·.phase) = some (.joining ⟨311289, 108674⟩) ∧
    (u .correctable).firstError = some ⟨.correctable, 14⟩ ∧
    (s .uncorrectable).entry 14 = some ⟨14, .uncorrectable, some t⟩ ∧
    (u .uncorrectable).entry 14 = some ⟨14, .sound, none⟩ ∧
    ((u .uncorrectable).chan .c2).tally .strayArrival = 1 := by decide +kernel

/-- A completion out of reach: the samples' mean 373,276 lies above the window of Example 8-2, 373,275 within it. -/
theorem witness_RangeRepliesFailTheReach :
    let t := terminal 0xA .c2 373270 (.ranging 2 [373276, 373276] none none)
    let s := ((ex71 t.phase).modTerm 14 fun u => { u with estimate := 373270 }).modChan .c2 fun x => { x with
      gaps := [gap 54 (.range 14 false) 1048 395016 448 1053] }
    let a := fun off => { rangeReply off with startCycle := 1053 }
    s.sound 14 t ∧ (s.chan .c2).gapOf 54 = some (gap 54 (.range 14 false) 1048 395016 448 1053) ∧
    rangeSample s.tree (s.chan .c2).skew 373270 1048 395016 448 (a 6286) = some 373276 ∧
    s.tree.nConf ≤ [373276, 373276, (373276 : Int)].length ∧ spread [373276, 373276, 373276] ≤ s.tree.P ∧
    roundedMean [373276, 373276, 373276] = 373276 ∧ reachOk s.tree (s.chan .c2).skew 373276 = false ∧
    reachOk s.tree (s.chan .c2).skew 373275 = true ∧
    ((after (.arrival .c2 (a 6286)) s).chan .c2).tally .outOfReach = 1 ∧
    ((after (.arrival .c2 (a 6286)) s).term 14).map (·.phase) = some (.ranging 3 [] none none) := by decide +kernel

/-- A settled ACTIVE entry with three offsets of +10 in all. -/
def ex81three : State := ex81 ⟨some ⟨true, 3, 10⟩, 0, none⟩ 311289 108674

/-- R61 and R35: replies whose tag names a void gap, a gap of the other kind, and the gap of a free handle. -/
theorem witness_StrayReplies :
    let s := fun k => (ex71 (.ranging 2 [] none none)).modChan .c2 fun x => { x with
      gaps := [gap 54 k 1048 333031 448 1052] }
    let census : Arrival := { blankArrival with kind := .census, tag := 54 }
    (∀ k, ((s k).chan .c2).gapOf 54 = some (gap 54 k 1048 333031 448 1052)) ∧ (s .voidRange).isUp .c2 = true ∧
    (s .voidRange).term 15 = none ∧
    (∀ k ∈ [GapKind.voidRange, .census [], .range 15 false],
      ((after (.arrival .c2 (rangeReply 22061)) (s k)).chan .c2).tally .strayArrival = 1) ∧
    (∀ k ∈ [GapKind.voidRange, .range 14 false],
      ((after (.arrival .c2 census) (s k)).chan .c2).tally .strayArrival = 1) := by
  refine ⟨fun k => rfl, by decide +kernel⟩

theorem witness_DataBurstsAreTracked : ex81three.running ∧ HandleLaw ex81three ∧ (burst 5).handle.toNat = 14 ∧
    (burst 5).offset.toInt = 5 ∧ (burst (-3)).offset.toInt = -3 ∧ ex81three.isUp .c1 = false ∧
    ex81three.isUp .c2 = true ∧ (burst 5).kind = .data ∧ 14 ∈ (ex81three.chan .c2).roster ∧
    15 ∉ (ex81three.chan .c2).roster ∧ (rangeReply 0).kind ≠ .data ∧ (ex81three.chan .c2).gapOf 54 = none ∧
    ex81three.sound 14 (terminal 0xA .c2 311285 (.active ⟨311289, 108674⟩ ⟨some ⟨true, 3, 10⟩, 0, none⟩ 0)) ∧
    ex81three.tree.Ejump < (49 : Int).natAbs ∧ (48 : Int).natAbs ≤ ex81three.tree.Ejump ∧
    (2 : Int).natAbs ≤ ex81three.tree.Z ∧ ex81three.tree.Z < (3 : Int).natAbs ∧ ex81three.tree.V ≤ 3 + 1 ∧
    2 + 1 < ex81three.tree.V ∧ reachOk ex81three.tree (ex81three.chan .c2).skew (311289 + 3) = true ∧
    reachOk ex81three.tree (ex81three.chan .c2).skew (373270 + 6) = false :=
  ⟨by decide +kernel, ⟨by decide +kernel, by decide +kernel⟩, by decide +kernel⟩

/-- R33, R35 and R124: a burst of an ACTIVE entry with each flaw, and of a handle on the roster that is free. -/
theorem witness_DataBurstsMeetTheStoreCheck :
    let s := fun f => { ex81three with registry := ex81three.registry.map fun e => { e with flaw := f } }
    let u := fun f => after (.arrival .c2 (burst 5)) (s f)
    let free := { ex81three with registry := [] }
    ((s .correctable).entry 14).map (·.flaw) = some .correctable ∧
    ((u .correctable).term 14).map (·.phase) = some (.active ⟨311292, 108671⟩ ⟨none, 0, some (-3)⟩ 0) ∧
    ((u .correctable).entry 14).map (·.flaw) = some .sound ∧
    ((s .uncorrectable).entry 14).map (·.flaw) = some .uncorrectable ∧
    (u .uncorrectable).entry 14 = some ⟨14, .sound, none⟩ ∧ ((u .uncorrectable).chan .c2).roster = [] ∧
    ((u .uncorrectable).chan .c2).tally .strayArrival = 1 ∧
    free.term 14 = none ∧ ((after (.arrival .c2 (burst 5)) free).chan .c2).tally .strayArrival = 1 := by decide +kernel

/-- R123: a trim that settles while a further TRIM DELAY is owed leaves trim-pending set with the owed change. -/
theorem test_trim_settles_while_owed :
    let s := zoo.modTerm 4 fun u => { u with
      owed := { u.owed with trim := some 5 }, phase := .active fixed ⟨none, 0, some (-3)⟩ 0 }
    ((after (.finalHandOutEvent .c0 .trimDelay 4) s).term 4).bind (·.phase.drift) = some ⟨none, 2, some 5⟩ ∧
    ((after (.finalHandOutEvent .c0 .trimDelay 4) trimming).term 4).bind (·.phase.drift) = some ⟨none, 2, none⟩ := by
  decide +kernel

/-- R25 and R35: an event for a free handle, a DAMAGED entry, and entries with each flaw. -/
theorem witness_FinalHandOutsOfOtherHandles : zoo.term 10 = none ∧ zoo.term 9 = none ∧
    after (.finalHandOutEvent .c0 .dismiss 10) zoo = zoo ∧ after (.finalHandOutEvent .c0 .dismiss 9) zoo = zoo ∧
    let f := fun f => zoo.setEntry 3 ⟨3, f, zoo.term 3⟩
    (f .correctable).entry 3 = some ⟨3, .correctable, some (terminal 0x13 .c0 1000 (.joining fixed))⟩ ∧
    ((after (.finalHandOutEvent .c0 .setDelay 3) (f .correctable)).term 3).map (·.phase.isActive) = some true ∧
    (f .uncorrectable).entry 3 = some ⟨3, .uncorrectable, some (terminal 0x13 .c0 1000 (.joining fixed))⟩ ∧
    (after (.finalHandOutEvent .c0 .setDelay 3) (f .uncorrectable)).entry 3 = some ⟨3, .sound, none⟩ := by decide +kernel

theorem witness_FinalHandOutsActAsTheTableSays : HandleLaw zoo ∧
    zoo.sound 1 (terminal 0x11 .c0 1000 (.enrolling 0 none)) ∧ zoo.sound 3 (terminal 0x13 .c0 1000 (.joining fixed)) ∧
    zoo.sound 4 (terminal 0x14 .c0 1000 (.active fixed steady 0)) ∧
    zoo.sound 6 (terminal 0x16 .c0 1000 (.retuning fixed .c1)) ∧
    zoo.sound 7 (terminal 0x17 .c0 1000 (.lost (some 1000) 24 true)) ∧
    zoo.sound 8 (terminal 0x18 .c0 1000 (.dismissing true false)) ∧ Chan.c0 ≠ .c1 ∧
    ((zoo.modTerm 4 fun u => { u with phase := .active fixed ⟨none, 0, some (-3)⟩ 0 }).sound 4
      (terminal 0x14 .c0 1000 (.active fixed ⟨none, 0, some (-3)⟩ 0))) :=
  ⟨zoo_handleLaw, by decide +kernel⟩

theorem witness_ReportsVoidsAndRosterEvents : zoo.isUp .c0 = true ∧ 511 ∉ (zoo.chan .c0).roster ∧
    zoo.isUp .c2 = false ∧ 4 ∈ (zoo.chan .c0).roster ∧ HandleLaw zoo ∧ zoo.term 9 = none ∧
    zoo.term 2 = some (terminal 0x12 .c0 1000 (.ranging 0 [] none none)) ∧
    (zoo.modTerm 4 fun u => { u with phase := .active fixed ⟨none, 0, some (-3)⟩ 0 }).term 4 =
      some (terminal 0x14 .c0 1000 (.active fixed ⟨none, 0, some (-3)⟩ 0)) ∧
    (zoo.modTerm 7 fun u => { u with phase := .lost none 0 false }).term 7 =
      some (terminal 0x17 .c0 1000 (.lost none 0 false)) ∧ (Phase.dismissing true false).isDismissing = true :=
  ⟨by decide +kernel, by decide +kernel, by decide +kernel, by decide +kernel, zoo_handleLaw, by decide +kernel⟩

/-- The reports that are dropped: of a DISMISSING entry off a channel that is not UP, of a TRIM DELAY with no trim
pending, and a discarded one of a kind the entry does not want. -/
theorem witness_ReportsThatAreDropped : (withChan .c0 ChanState.reset zoo).isUp .c0 = false ∧
    (withChan .c0 ChanState.reset zoo).term 8 = some (terminal 0x18 .c0 1000 (.dismissing true false)) ∧
    zoo.term 4 = some (terminal 0x14 .c0 1000 (.active fixed steady 0)) ∧
    after (.outQueueReport .notTaken .c0 .dismiss 8) (withChan .c0 ChanState.reset zoo) =
      withChan .c0 ChanState.reset zoo ∧
    after (.outQueueReport .evicted .c0 .trimDelay 4) zoo = zoo ∧
    after (.outQueueReport .discarded .c0 .hush 4) zoo = zoo := by decide +kernel

theorem witness_ChannelExitReachesItsEntries : HandleLaw zoo ∧ zoo.allSound ∧ zoo.term 9 = none ∧
    zoo.sound 6 (terminal 0x16 .c0 1000 (.retuning fixed .c1)) :=
  ⟨zoo_handleLaw, zoo_allSound, by decide +kernel⟩

/-- Channel 1's exit cancels the move of entry 6: with RETUNE owed the queued one stays, else it leaves (R148). -/
theorem test_channel_exit_retune : zoo.notices.length ≤ 64 ∧
    let q := [⟨.retune 6 .c1, true, 1, false⟩]
    let s := zoo.modChan .c0 fun x => { x with outq := q }
    let o := s.modTerm 6 fun u => { u with owed := { Owed.none with retune := true } }
    ((after (.channelExitEvent .c1) s).chan .c0).outq = [] ∧ ((after (.channelExitEvent .c1) o).chan .c0).outq = q ∧
      ((after (.channelExitEvent .c1) o).term 6).map (·.owed) = some Owed.none ∧
      ((after (.channelExitEvent .c1) s).chan .c0).roster = [4, 6] := by decide +kernel

/-- R33 to R35: the exit of channel 0 reads entry 4, repairs it or makes it DAMAGED; that of channel 1 leaves it as it
is. -/
theorem witness_ChannelExitMeetsTheStoreCheck :
    let t := fun f => after (.channelExitEvent .c0) (flawed f .all none [])
    HandleLaw (flawed .uncorrectable .all none []) ∧
    (t .correctable).entry 4 = some ⟨4, .sound, some (terminal 0x14 .c0 1000 (.active fixed ⟨none, 2, none⟩ 0))⟩ ∧
    (t .uncorrectable).entry 4 = some ⟨4, .sound, none⟩ ∧
    ((after (.channelExitEvent .c1) (flawed .correctable .all none [])).entry 4).map (·.flaw) = some .correctable :=
  ⟨⟨by decide +kernel, by decide +kernel⟩, by decide +kernel⟩

/-- R24, R69 and R123: the exit of channel 0 sets the trim-pending of entry 1 with its owed trim change 5; then entry 2
becomes DAMAGED, its DISMISS evicts the SET DELAY of entry 1 on channel 1, and the report takes the owed trim away. -/
theorem witness_ChannelExitMeetsAnEviction :
    let one := { terminal 0x11 .c0 1000 (.active fixed ⟨none, 0, some 5⟩ 0) with
      owed := { Owed.none with trim := some 5 } }
    let s := { withChan .c0 ChanState.reset (zoo.modChan .c1 fun x => { x with outq := fullBut (.setDelay 1 0) }) with
      registry := [entryOf 1 one, ⟨2, .uncorrectable, some (terminal 0x12 .c0 1000 (.active fixed steady 0))⟩] }
    HandleLaw s ∧ s.isUp .c1 = true ∧
    (after (.channelExitEvent .c0) s).term 1 = some { one with
      owed := { Owed.none with setDelay := true }, phase := .active fixed ⟨none, 2, some 5⟩ 0 } ∧
    (after (.channelExitEvent .c0) s).entry 2 = some ⟨2, .sound, none⟩ :=
  ⟨⟨by decide +kernel, by decide +kernel⟩, by decide +kernel⟩

/-- The walk's clauses: entry 4 unheard below and at M_lost, entry 7 at and below the retention, entry 8 with its
DISMISS sent, and one whose DISMISS is not. -/
theorem witness_ScanExpiryWalksTheRegistry : zoo.running ∧ HandleLaw zoo ∧ zoo.allSound ∧ zoo.term 9 = none ∧
    zoo.sound 4 (terminal 0x14 .c0 1000 (.active fixed steady 0)) ∧ zoo.isUp .c0 = true ∧ zoo.isUp .c2 = false ∧
    0 + 1 < zoo.tree.mLost ∧ zoo.tree.mLost ≤ 2 + 1 ∧
    zoo.sound 7 (terminal 0x17 .c0 1000 (.lost (some 1000) 24 true)) ∧ zoo.tree.retention ≤ 24 ∧ 23 < zoo.tree.retention ∧
    zoo.sound 8 (terminal 0x18 .c0 1000 (.dismissing true false)) ∧
    (∀ due, (zoo.modTerm 8 fun u => { u with phase := .dismissing false due }).sound 8
      (terminal 0x18 .c0 1000 (.dismissing false due))) ∧
    (zoo.chan .c0).cycleSeen = false ∧ (zoo.chan .c0).silence = 0 :=
  ⟨rfl, zoo_handleLaw, zoo_allSound, by decide +kernel⟩

/-- R33 to R36: the walk repairs entry 4 or makes it DAMAGED, with STORE_ERROR before the FREED of the entries behind
it when the record takes the flaw, and not when it holds one or the capture leaves it out. -/
theorem witness_ScanExpiryMeetsTheStoreCheck :
    let t := fun f k r => after .scanExpiry (flawed f k r [])
    let freed := [Notice.freed 7 (some 0x17), Notice.freed 8 (some 0x18)]
    HandleLaw (flawed .uncorrectable .all none []) ∧ (flawed .uncorrectable .all none []).running ∧
    (t .correctable .all none).entry 4 = some ⟨4, .sound, some (terminal 0x14 .c0 1000 (.active fixed steady 1))⟩ ∧
    (t .correctable .all none).notices = Notice.storeError 4 .correctable :: freed ∧
    (t .correctable .uncorrectable none).notices = freed ∧
    (t .uncorrectable .uncorrectable none).entry 4 = some ⟨4, .sound, none⟩ ∧
    (t .uncorrectable .uncorrectable none).notices = Notice.storeError 4 .uncorrectable :: freed ∧
    (t .uncorrectable .uncorrectable none).firstError = some ⟨.uncorrectable, 4⟩ ∧
    (t .uncorrectable .all (some ⟨.correctable, 3⟩)).notices = freed :=
  ⟨⟨by decide +kernel, by decide +kernel⟩, by decide +kernel⟩

/-- The owed step: an entry whose channel is not UP, a queue with room, a like message that is replaced, a full queue of
urgent messages, and one with a normal message that an urgent kind evicts. -/
theorem witness_ScanExpiryOffersWhatIsOwed :
    let s := zoo.modTerm 8 fun u => { u with owed := { Owed.none with dismiss := true } }
    s.term 8 = some { terminal 0x18 .c0 1000 (.dismissing true false) with owed := { Owed.none with dismiss := true } } ∧
    s.isUp .c0 = true ∧ (withChan .c0 ChanState.reset s).isUp .c0 = false ∧ zoo.notices.length ≤ 64 ∧
    isUrgentKind .dismiss = true ∧ isUrgentKind .setDelay = false ∧ (s.chan .c0).outq.length < 48 ∧
    48 ≤ ((full48 true 100).filter fun x => !(x.msg.handle == 8 && supersedes .dismiss x.msg.kind)).length ∧
    ((fullBut (.resume 147)).filter fun x => !(x.msg.handle == 8 && supersedes .dismiss x.msg.kind)) =
      [] ++ ⟨.resume 147, false, 1, true⟩ :: (full48 true 100).take 47 ∧
    (s.owedStep 8).term 8 = some (terminal 0x18 .c0 1000 (.dismissing true false)) ∧
    ((s.owedStep 8).chan .c0).outq = [⟨.dismiss 8, true, 2, true⟩] := by decide +kernel

theorem witness_LossRetentionAndPendingExpire : zoo.running ∧
    zoo.sound 4 (terminal 0x14 .c0 1000 (.active fixed steady 0)) ∧ zoo.isUp .c0 = true ∧ 0 + 1 < zoo.tree.mLost ∧
    ex91.running ∧ ex91.sound 5 (terminal 5 .c0 1000 (.active ⟨1000, 419000⟩ ⟨none, 0, none⟩ 1)) ∧
    ({ ex91.tree with mLost := 2 } : TreeSettings).mLost ≤ 1 + 1 ∧
    zoo.sound 7 (terminal 0x17 .c0 1000 (.lost (some 1000) 24 true)) ∧ zoo.tree.retention ≤ 24 ∧ 1 < ex91.tree.retention ∧
    zoo.term 9 = none ∧ (∀ i ∈ zoo.waiting, i.mark ≠ 0x31) ∧ zoo.waitingItem 0x30 = some ⟨0x30, .c0, 1000, 0, 1⟩ ∧
    0 + 1 < zoo.tree.aHold ∧ ({ zoo.tree with aHold := 1 } : TreeSettings).aHold ≤ 0 + 1 := by decide +kernel

end Sys2Proof.Tests
end

section
/-! The laws of the settings, the fill delays, the gaps and the spans: they hold after a full reset, every small change
of `Micro` keeps them, and so does a replacement of the settings that the locks of R6 allow. -/

namespace Sys2Proof.Machine

/-! ## The state after a full reset (R38, R63, R65, R107) -/

theorem State.chan_reset (c : Chan) : State.reset.chan c = ChanState.reset := by cases c <;> rfl

theorem State.term_reset (h : Handle) : State.reset.term h = none := rfl

theorem TreeSettings.default_lawful :
    TreeSettings.default.inRange = true ∧ TreeSettings.default.consistent = true := by decide

theorem ChanState.tally_reset_le (k : TallyKind) : ChanState.reset.tally k ≤ 65535 := by
  simp [ChanState.tally, ChanState.reset]

theorem ChanState.gapLaw_of_empty {x : ChanState} (gaps : x.gaps = []) (offer : x.offer = none) : x.gapLaw := by
  simp [ChanState.gapLaw, gaps, offer]

theorem ChanState.spanLaw_of_empty {x : ChanState} (L : Nat) (gaps : x.gaps = []) (offer : x.offer = none) :
    x.spanLaw L := by
  simp [ChanState.spanLaw, gaps, offer]

theorem ChanState.linkLaw_reset : ChanState.reset.linkLaw :=
  ⟨fun _ => ⟨rfl, rfl, rfl, rfl, rfl⟩, nofun, fun _ => rfl, Nat.zero_le _⟩

theorem queueLaw_reset : QueueLaw State.reset := by
  refine ⟨Nat.zero_le _, Nat.zero_le _, List.nodup_nil, Nat.zero_le _, List.nodup_nil, fun c => ?_⟩
  rw [State.chan_reset]
  exact ⟨OutQueueLaw.nil, Nat.zero_le _, ChanState.tally_reset_le⟩

theorem settingsLaw_reset : SettingsLaw State.reset := by
  refine ⟨TreeSettings.default_lawful.1, TreeSettings.default_lawful.2, fun c => ?_⟩
  rw [State.chan_reset]
  decide

theorem fillLaw_reset : FillLaw State.reset := by intro h t x e; rw [State.term_reset] at e; cases e

theorem retentionLaw_reset : RetentionLaw State.reset :=
  ⟨List.nodup_nil, fun h => by simp [State.term_reset]; exact List.not_mem_nil⟩

theorem markLaw_reset : MarkLaw State.reset := by
  constructor
  · intro h h' t t' e; rw [State.term_reset] at e; cases e
  · intro h t e; rw [State.term_reset] at e; cases e

theorem driftLaw_reset : DriftLaw State.reset := by
  intro h t fix d missed st e; rw [State.term_reset] at e; cases e

theorem gapLaw_reset : GapLaw State.reset := fun c => by
  rw [State.chan_reset]; exact ChanState.gapLaw_of_empty rfl rfl

theorem spanLaw_reset : SpanLaw State.reset := fun c => by
  rw [State.chan_reset]; exact ChanState.spanLaw_of_empty _ rfl rfl

theorem linkLaw_reset : LinkLaw State.reset := fun c => by rw [State.chan_reset]; exact ChanState.linkLaw_reset

theorem rosterLaw_reset : RosterLaw State.reset := fun c => by
  simp only [State.isUp, State.chan_reset]
  exact ⟨List.nodup_nil, fun h => ⟨fun k => absurd k List.not_mem_nil, fun k => absurd k.1 (by decide)⟩⟩

theorem rangeWorkLaw_reset : RangeWorkLaw State.reset := fun _ => Nat.zero_le 1

/-- Settles O4, one law after the other: the registry and every list are empty, every channel is DOWN, and the
defaults are in range and consistent. -/
theorem resetMeetsEveryLaw : Obligations.ResetMeetsEveryLaw :=
  ⟨queueLaw_reset, settingsLaw_reset, ⟨List.Pairwise.nil, fun _ k => absurd k List.not_mem_nil⟩, fillLaw_reset,
    retentionLaw_reset, markLaw_reset, driftLaw_reset, gapLaw_reset, spanLaw_reset, rosterLaw_reset,
    rangeWorkLaw_reset, linkLaw_reset, fun _ k => absurd k List.not_mem_nil⟩

/-! ## What each small change keeps of the settings and of the fill delays (R4, R5, R7, R15, R59) -/

/-- Rebuilding the range request queues changes a channel in its queue alone. -/
theorem State.chan_rebuildQueues (s : State) (c : Chan) :
    ∃ q, s.rebuildQueues.chan c = { s.chan c with rangeQ := q } := by cases c <;> exact ⟨_, rfl⟩

theorem State.chan_createEntry (s : State) (h : Handle) (m : Mark) (c : Chan) (coarse : Int) (d : Chan) :
    (s.createEntry h m c coarse).chan d = s.chan d := by unfold State.createEntry; dsimp only; split <;> rfl

theorem State.tree_createEntry (s : State) (h : Handle) (m : Mark) (c : Chan) (coarse : Int) :
    (s.createEntry h m c coarse).tree = s.tree := by unfold State.createEntry; dsimp only; split <;> rfl

/-- A channel's part replaced in the record of all four. -/
theorem State.chan_setChan (s : State) (c d : Chan) (x : ChanState) :
    ({ s with chans := s.chans.set c x } : State).chan d = if d = c then x else s.chan d :=
  State.chan_modChan s c d fun _ => x

theorem State.chan_fullReset (s : State) (c : Chan) :
    s.fullReset.chan c = { ChanState.reset with tx := (s.chan c).tx } := by cases c <;> rfl

theorem settingsLaw_fullReset (s : State) : SettingsLaw s.fullReset := by
  refine ⟨TreeSettings.default_lawful.1, TreeSettings.default_lawful.2, fun c => ?_⟩
  rw [State.chan_fullReset]
  exact (by decide : (-2048 : Int) ≤ 0 ∧ (0 : Int) ≤ 2047 ∧ 16 ≤ 8000 ∧ 8000 ≤ 65535)

/-- The state's record of channels alone decides the settings of the channels and their gaps. -/
theorem State.chan_congr {s t : State} (chans : t.chans = s.chans) (c : Chan) : t.chan c = s.chan c := by
  unfold State.chan; rw [chans]

/-- A small change leaves the tree settings, or it is a full reset. -/
theorem Micro.tree_eq {s t : State} (m : Micro s t) : t.tree = s.tree ∨ t = s.fullReset := by
  cases m with
  | full => exact .inr rfl
  | other tree => exact .inl tree
  | create h m c coarse => exact .inl (State.tree_createEntry s h m c coarse)
  | _ => exact .inl rfl

/-- The channels after a small change that leaves the tree settings: each keeps its settings and spans, or is one whose
skew is set under the lock of R5. -/
theorem Micro.chan_cases {s t : State} (m : Micro s t) (c : Chan) :
    t = s.fullReset ∨
      (∃ v, -2048 ≤ v ∧ v ≤ 2047 ∧ (v = (s.chan c).skew ∨ s.anyWorkingOn c = false) ∧ t.registry = s.registry ∧
        t.chan c = { s.chan c with skew := v }) ∨
      (∃ q, t.chan c = { s.chan c with rangeQ := q }) ∨ ChanKeeps s.tree.L (s.chan c) (t.chan c) := by
  have same (e : t.chan c = s.chan c) : ∃ q, t.chan c = { s.chan c with rangeQ := q } := ⟨_, e⟩
  cases m with
  | full => exact .inl rfl
  | other _ chans => exact .inr (.inr (.inl (same (State.chan_congr chans c))))
  | chan d x keeps =>
    rw [State.chan_setChan] at same ⊢
    by_cases e : c = d
    · subst e; rw [if_pos rfl]; exact .inr (.inr (.inr keeps))
    · rw [if_neg e] at same ⊢; exact .inr (.inr (.inl (same rfl)))
  | skew d v lo hi free =>
    rw [State.chan_setChan] at same ⊢
    by_cases e : c = d
    · subst e; rw [if_pos rfl]; exact .inr (.inl ⟨v, lo, hi, free, rfl, rfl⟩)
    · rw [if_neg e] at same ⊢; exact .inr (.inr (.inl (same rfl)))
  | request d h =>
    rw [State.chan_modChan] at same ⊢
    by_cases e : c = d
    · subst e; rw [if_pos rfl]; exact .inr (.inr (.inl ⟨_, rfl⟩))
    · rw [if_neg e] at same ⊢; exact .inr (.inr (.inl (same rfl)))
  | rebuild => exact .inr (.inr (.inl (State.chan_rebuildQueues s c)))
  | create h m d coarse => exact .inr (.inr (.inl (same (State.chan_createEntry s h m d coarse c))))
  | _ => exact .inr (.inr (.inl (same rfl)))

theorem Micro.keeps_settingsLaw {s t : State} (m : Micro s t) (law : SettingsLaw s) : SettingsLaw t := by
  obtain ⟨range, consistent, chans⟩ := law
  rcases m.tree_eq with tree | rfl
  · refine ⟨by rw [tree]; exact range, by rw [tree]; exact consistent, fun c => ?_⟩
    obtain ⟨skewLo, skewHi, periodLo, periodHi⟩ := chans c
    rcases m.chan_cases c with rfl | ⟨v, lo, hi, -, -, e⟩ | ⟨q, e⟩ | keeps
    · exact (settingsLaw_fullReset s).2.2 c
    · rw [e]; exact ⟨lo, hi, periodLo, periodHi⟩
    · rw [e]; exact ⟨skewLo, skewHi, periodLo, periodHi⟩
    · rw [keeps.skew]
      rcases keeps.period with e | ⟨lo, hi⟩
      · rw [e]; exact ⟨skewLo, skewHi, periodLo, periodHi⟩
      · exact ⟨skewLo, skewHi, lo, hi⟩
  · exact settingsLaw_fullReset s

theorem Phase.isWorking_of_fix {p : Phase} {x : Fix} (e : p.fix = some x) : p.isWorking = true := by
  cases p <;> first | rfl | cases e

theorem State.anyWorking_of_term {s : State} {h : Handle} {t : Terminal} (e : s.term h = some t)
    (w : t.phase.isWorking = true) : s.anyWorking = true := by
  obtain ⟨y, hy, ht⟩ := State.entry_of_term e
  exact List.any_eq_true.2 ⟨y, State.entry_mem hy, by simpa [ht] using w⟩

theorem State.anyWorkingOn_of_term {s : State} {h : Handle} {t : Terminal} (e : s.term h = some t)
    (w : t.phase.isWorking = true) : s.anyWorkingOn t.home = true := by
  obtain ⟨y, hy, ht⟩ := State.entry_of_term e
  exact List.any_eq_true.2 ⟨y, State.entry_mem hy, by simpa [ht] using w⟩

/-- Where the fields u of an entry come from, so far as a final round trip and fill delay x that they hold tell: they were
held by v before, or set under the reach test, the fill delay by R15 or moved against the round trip by a trim (R129). -/
def State.FixFrom (s : State) (h : Handle) (u : Terminal) (x : Fix) : Prop :=
  ∃ v, s.term h = some v ∧ u.home = v.home ∧ (v.phase.fix = some x ∨
    (reachOk s.tree (s.chan v.home).skew x.final = true ∧
      (x.fill = fillDelay s.tree (s.chan v.home).skew x.final ∨
        ∃ y, v.phase.fix = some y ∧ x.fill + x.final = y.fill + y.final)))

theorem State.FixFrom.of_held {s : State} {h : Handle} {u : Terminal} {x : Fix} (e : s.term h = some u)
    (f : u.phase.fix = some x) : s.FixFrom h u x := ⟨u, e, rfl, .inl f⟩

/-- The fields of an entry changed by f hold a fix that f may have set only as the laws ask. -/
theorem State.FixFrom.of_modTerm {s : State} {h k : Handle} {f : Terminal → Terminal} {u : Terminal} {x : Fix}
    (e : (s.modTerm k f).term h = some u) (fx : u.phase.fix = some x)
    (set : ∀ v, s.term k = some v → (f v).phase.fix = some x → s.FixFrom k (f v) x) : s.FixFrom h u x := by
  by_cases hk : h = k
  · subst hk
    rw [State.term_modTerm_same, Option.map_eq_some_iff] at e
    obtain ⟨v, hv, rfl⟩ := e
    exact set v hv fx
  · rw [State.term_modTerm_ne s hk] at e
    exact .of_held e fx

theorem Micro.fixFrom {s t : State} (m : Micro s t) {h : Handle} {u : Terminal} {x : Fix} (e : t.term h = some u)
    (fx : u.phase.fix = some x) : s.FixFrom h u x := by
  cases m with
  | full => cases e
  | other _ _ registry => exact .of_held ((State.term_congr registry h).symm.trans e) fx
  | term k f v hv keeps =>
    refine .of_modTerm e fx fun w hw fw => ?_
    obtain rfl : v = w := Option.some.inj (hv.symm.trans hw)
    exact ⟨v, hv, keeps.fix x fw⟩
  | fields k f keeps =>
    refine .of_modTerm e fx fun v hv fv => ?_
    obtain ⟨-, home, phase⟩ := keeps v
    exact ⟨v, hv, home, .inl (by rw [← phase]; exact fv)⟩
  | repair k y hy =>
    have handle : y.handle = k := State.entry_handle hy
    refine .of_held ?_ fx
    rw [← e]
    unfold State.term
    rw [State.entry_setEntry s k h { y with flaw := .sound } handle]
    by_cases hk : h = k
    · subst hk; rw [if_pos rfl, hy]; rfl
    · rw [if_neg hk]
  | damage k =>
    rw [State.term_storeDamaged] at e
    split at e
    · cases e
    · exact .of_held e fx
  | free k =>
    have e' : (s.freeEntry k false).term h = some u := (State.term_congr (State.freeEntry_registry s k false) h).trans e
    rw [State.term_freeEntry] at e'
    split at e'
    · cases e'
    · exact .of_held e' fx
  | create k m c coarse held =>
    rw [State.term_createEntry s m c coarse held] at e
    split at e
    · cases e; cases fx
    · exact .of_held e fx
  | reEnrol k v hv c coarse n => exact .of_modTerm (k := k) e fx fun w _ fw => by cases fw
  | lose k v hv present age sent => exact .of_modTerm (k := k) e fx fun w _ fw => by cases fw
  | _ => exact .of_held e fx

/-- A skew changes only in a full reset, or on a channel that no working entry calls home (R5). -/
theorem Micro.skew_cases {s t : State} (m : Micro s t) (c : Chan) :
    t = s.fullReset ∨ (t.chan c).skew = (s.chan c).skew ∨ (s.anyWorkingOn c = false ∧ t.registry = s.registry) := by
  rcases m.chan_cases c with e | ⟨v, -, -, free | free, reg, e⟩ | ⟨q, e⟩ | keeps
  · exact .inl e
  · exact .inr (.inl (by rw [e]; exact free))
  · exact .inr (.inr ⟨free, reg⟩)
  · exact .inr (.inl (by rw [e]))
  · exact .inr (.inl keeps.skew)

theorem reachOk_iff (t : TreeSettings) (S x : Int) : reachOk t S x = true ↔
    0 ≤ x ∧ x ≤ 1048575 ∧ 0 ≤ x + S ∧ (t.rtMin : Int) - t.Tc ≤ x + S ∧ x + S ≤ t.rtMax + t.Tc := by
  simp only [reachOk, Bool.and_eq_true, decide_eq_true_eq, and_assoc]
  rfl

/-- A round trip within reach has a fill delay in 0..H: Table 1-4 keeps rt_max + T_c below H. -/
theorem fillDelay_bounds {t : TreeSettings} {S x : Int} (ok : t.consistent = true) (reach : reachOk t S x = true) :
    0 ≤ fillDelay t S x ∧ fillDelay t S x ≤ t.H := by
  obtain ⟨-, -, lo, -, hi⟩ := (reachOk_iff t S x).1 reach
  have h : t.rtMax + t.Tc + 2047 ≤ t.H := by
    simp only [TreeSettings.consistent, Bool.and_eq_true, decide_eq_true_eq] at ok
    exact ok.1.1.2
  unfold fillDelay
  omega

theorem State.FixFrom.fill {s : State} {h : Handle} {u : Terminal} {x : Fix} (origin : s.FixFrom h u x)
    (settings : SettingsLaw s) (law : FillLaw s) :
    x.fill = s.tree.H - (x.final + (s.chan u.home).skew) ∧ 0 ≤ x.fill ∧ x.fill ≤ s.tree.H := by
  obtain ⟨v, hv, home, held | ⟨reach, set⟩⟩ := origin
  · rw [home]; exact law h v x hv held
  · have fill : x.fill = fillDelay s.tree (s.chan v.home).skew x.final := by
      rcases set with set | ⟨y, hy, moved⟩
      · exact set
      · have := (law h v y hv hy).1
        unfold fillDelay
        omega
    obtain ⟨lo, hi⟩ := fillDelay_bounds settings.2.1 reach
    rw [home, fill]
    exact ⟨rfl, lo, hi⟩

theorem Micro.keeps_fillLaw {s t : State} (m : Micro s t) (settings : SettingsLaw s) (law : FillLaw s) :
    FillLaw t := by
  intro h u x hu hx
  rcases m.tree_eq with tree | rfl
  · have fill := (m.fixFrom hu hx).fill settings law
    rcases m.skew_cases u.home with rfl | skew | ⟨free, reg⟩
    · cases hu
    · rw [tree, skew]; exact fill
    · have working := State.anyWorkingOn_of_term ((State.term_congr reg h).symm.trans hu) (Phase.isWorking_of_fix hx)
      rw [free] at working; cases working
  · cases hu

/-! ## What a replacement of the settings keeps (R6, R7, R8) -/

@[simp] theorem Terminal.clearStreak_home (t : Terminal) : t.clearStreak.home = t.home := by
  unfold Terminal.clearStreak; split <;> rfl

theorem Terminal.clearStreak_fix (t : Terminal) : t.clearStreak.phase.fix = t.phase.fix := by
  unfold Terminal.clearStreak
  split
  · rename_i e; rw [e]; rfl
  · rfl

/-- A replacement of the settings leaves each entry's home channel, final round trip and fill delay. -/
theorem State.term_replaceSettings {s : State} {v : TreeSettings} {h : Handle} {u : Terminal}
    (e : (s.replaceSettings v).term h = some u) :
    ∃ w, s.term h = some w ∧ u.home = w.home ∧ u.phase.fix = w.phase.fix := by
  by_cases hV : v.V = s.tree.V
  · refine ⟨u, ?_, rfl, rfl⟩
    rw [← e]
    exact State.term_congr (by simp [State.replaceSettings, hV]) h
  · have entry : (s.replaceSettings v).entry h = (s.entry h).map Entry.clearStreak := by
      unfold State.entry State.replaceSettings
      simp only [hV, if_false]
      exact find_map_handle (f := Entry.clearStreak) (fun _ => rfl) h
    unfold State.term at e
    rw [entry, Option.bind_eq_some_iff] at e
    obtain ⟨y', hy', hu⟩ := e
    obtain ⟨y, hy, rfl⟩ := Option.map_eq_some_iff.1 hy'
    obtain ⟨w, hw, rfl⟩ := Option.map_eq_some_iff.1 (show y.term.map Terminal.clearStreak = some u from hu)
    exact ⟨w, by simp [State.term, hy, hw], Terminal.clearStreak_home w, Terminal.clearStreak_fix w⟩

/-- While an entry is working, no replacement of the settings that the locks allow changes H (R6). -/
theorem State.H_eq_of_settingsLocked {s : State} {t u : TreeSettings} (free : s.settingsLocked t u = false)
    (w : s.anyWorking = true) : u.H = t.H := by
  by_contra h
  simp [State.settingsLocked, w, h] at free

theorem State.replaceSettings_keeps_fillLaw {s : State} {v : TreeSettings} (free : s.settingsLocked s.tree v = false)
    (law : FillLaw s) : FillLaw (s.replaceSettings v) := by
  intro h u x hu hx
  obtain ⟨w, hw, home, fix⟩ := State.term_replaceSettings hu
  rw [fix] at hx
  have H : v.H = s.tree.H := State.H_eq_of_settingsLocked free (State.anyWorking_of_term hw (Phase.isWorking_of_fix hx))
  have fill := law h w x hw hx
  rw [← home, ← H] at fill
  exact fill

theorem State.replaceSettings_keeps_settingsLaw {s : State} {v : TreeSettings} (range : v.inRange = true)
    (ok : v.consistent = true) (law : SettingsLaw s) : SettingsLaw (s.replaceSettings v) :=
  ⟨range, ok, law.2.2⟩

/-- Settles O13: every small change keeps the two laws together, since the reach test of a new fill delay rests on the
consistency of the settings, and the locks of R5 and R6 hold H and the skews while a fill delay stands. -/
theorem stepKeepsTheSettingsAndFillLaws : Obligations.StepKeepsTheSettingsAndFillLaws := by
  intro s t e _ settings fill
  refine kept_by_step (P := fun s => SettingsLaw s ∧ FillLaw s) (fun s t m law => ?_)
    (fun s1 u same range ok free law => ?_) ⟨settings, fill⟩ e
  · exact ⟨m.keeps_settingsLaw law.1, m.keeps_fillLaw law.1 law.2⟩
  · exact ⟨State.replaceSettings_keeps_settingsLaw (range settings.1) ok law.1,
      State.replaceSettings_keeps_fillLaw free law.2⟩

/-! ## Gaps and spans (R49, R50, R52) -/

theorem Micro.keeps_gapLaw {s t : State} (m : Micro s t) (law : GapLaw s) : GapLaw t := by
  intro c
  rcases m.chan_cases c with rfl | ⟨v, -, -, -, -, e⟩ | ⟨q, e⟩ | keeps
  · rw [State.chan_fullReset]; exact ChanState.gapLaw_of_empty rfl rfl
  · rw [e]; exact law c
  · rw [e]; exact law c
  · exact keeps.gap (law c)

theorem Micro.keeps_spanLaw {s t : State} (m : Micro s t) (law : SpanLaw s) : SpanLaw t := by
  intro c
  rcases m.tree_eq with tree | rfl
  · rw [tree]
    rcases m.chan_cases c with rfl | ⟨v, -, -, -, -, e⟩ | ⟨q, e⟩ | keeps
    · rw [State.chan_fullReset]; exact ChanState.spanLaw_of_empty _ rfl rfl
    · rw [e]; exact law c
    · rw [e]; exact law c
    · exact keeps.span (law c)
  · rw [State.chan_fullReset]; exact ChanState.spanLaw_of_empty _ rfl rfl

/-- A replacement of the settings that the locks allow changes L only while no channel is UP, and a channel that is not
UP holds no span (R6, R45). -/
theorem State.replaceSettings_keeps_spanLaw {s : State} {v : TreeSettings} (free : s.settingsLocked s.tree v = false)
    (links : LinkLaw s) (law : SpanLaw s) : SpanLaw (s.replaceSettings v) := by
  intro c
  by_cases hL : v.L = s.tree.L
  · show (s.chan c).spanLaw v.L
    rw [hL]; exact law c
  · have down : s.isUp c = false := by
      simp only [State.settingsLocked, hL, ne_eq, not_false_eq_true, decide_true, Bool.true_and, Bool.or_eq_false_iff,
        List.any_eq_false] at free
      have unlocked := free.2.2 c (Chan.mem_all c)
      unfold State.isUp ChanState.isUp
      cases l : (s.chan c).link <;> simp_all [LinkState.locksL]
    obtain ⟨-, -, offer, gaps, -⟩ := (links c).1 down
    exact ChanState.spanLaw_of_empty _ gaps offer

/-- Settles O14, change by change; the law of links says that no span stands where the lock of R6 lets L change. -/
theorem stepKeepsTheGapLaw : Obligations.StepKeepsTheGapLaw := by
  intro s t e
  refine ⟨fun law => ?_, fun links law => ?_⟩
  · exact kept_by_step (P := GapLaw) (fun _ _ m => m.keeps_gapLaw) (fun _ _ _ _ _ _ law => law) law e
  · refine kept_by_step (P := SpanLaw) (fun _ _ m => m.keeps_spanLaw) (fun s1 v same _ _ free law => ?_) law e
    refine State.replaceSettings_keeps_spanLaw free (fun c => ?_) law
    rw [State.chan_congr same.chans c]; exact links c

end Sys2Proof.Machine
end

section
/-! The settings requests TREE SET and CHANNEL SET: how each is judged, and what an accepted one does. -/

namespace Sys2Proof.Machine

/-! ## Requests on a port at the start of a transaction (R151) -/

theorem State.request_ready {s : State} (ready : s.portReady = true) (bytes : List Byte)
    (act : State → State × Reply) : s.request bytes act = .next (State.answer (act s)) := by
  simp [State.request, ready]

/-- The codes 1 to 6 are those of the working states (R6, Table 2-2). -/
theorem Phase.isWorking_iff (p : Phase) : p.isWorking = true ↔ stateCode (some p) ≤ 6 := by
  cases p <;> simp [Phase.isWorking, stateCode]

theorem State.anyWorking_iff (s : State) : s.anyWorking = true ↔
    ∃ e ∈ s.registry, ∃ t, e.term = some t ∧ stateCode (some t.phase) ≤ 6 := by
  simp only [State.anyWorking, List.any_eq_true, Option.any_eq_true, Phase.isWorking_iff]

theorem State.anyWorkingOn_iff (s : State) (c : Chan) : s.anyWorkingOn c = true ↔
    ∃ e ∈ s.registry, ∃ t, e.term = some t ∧ t.home = c ∧ stateCode (some t.phase) ≤ 6 := by
  simp only [State.anyWorkingOn, List.any_eq_true, Option.any_eq_true, Bool.and_eq_true, decide_eq_true_eq,
    Phase.isWorking_iff, and_comm]

/-! ## CHANNEL SET (R5, R59, R154) -/

theorem ChanState.censusInFlight_iff (x : ChanState) :
    x.censusInFlight = true ↔ ∃ g ∈ x.gaps, ∃ answers, g.kind = .census answers := by
  unfold ChanState.censusInFlight
  rw [List.any_eq_true]
  refine exists_congr fun g => and_congr_right fun _ => ?_
  cases g.kind <;> simp

/-- A selected value out of range is refused. -/
theorem selected_eq_none {α : Type} {b : Bool} {x : α} {v : Option α} (hb : b = true) (hv : v = none) :
    selected b x v = none := by simp [selected, hb, hv]

/-- A value that is in range where it is selected. -/
theorem selected_ite {α : Type} {b : Bool} {x y : α} {P : Prop} [Decidable P] (h : b = true → P) :
    selected b x (if P then some y else none) = some (if b then y else x) := by
  cases b
  · rfl
  · simp [selected, h rfl]

theorem CensusMode.ofCode_eq_none {n : Nat} (h : 2 < n) : CensusMode.ofCode n = none := by
  obtain ⟨k, rfl⟩ := Nat.exists_eq_add_of_lt h
  rw [show 2 + k + 1 = k + 3 by omega]
  rfl

theorem CensusMode.ofCode_isSome {n : Nat} (h : n ≤ 2) : ∃ m, CensusMode.ofCode n = some m := by
  interval_cases n <;> exact ⟨_, rfl⟩

section
variable {s : State} {ch sel mode : Byte} {period skew : BitVec 16} {c : Chan}

/-- CHANNEL SET with a value out of range (R154). -/
theorem State.reqChannelSet_unselected (hc : Chan.ofNum ch.toNat = some c)
    (h : selected (sel.getLsbD 0) (s.chan c).mode (CensusMode.ofCode mode.toNat) = none ∨
      selected (sel.getLsbD 1) (s.chan c).period (if 16 ≤ period.toNat then some period.toNat else none) = none ∨
      selected (sel.getLsbD 2) (s.chan c).skew
        (if -2048 ≤ skew.toInt ∧ skew.toInt ≤ 2047 then some skew.toInt else none) = none) :
    s.reqChannelSet ch sel mode period skew = (s, Reply.bare .outOfRange) := by
  simp only [State.reqChannelSet, State.onChannel, hc]
  split
  · rename_i hm hp hk
    rw [hm, hp, hk] at h
    simp at h
  · rfl

/-- CHANNEL SET with every value in range: the selection bits, the skew lock, the effect (R154). -/
theorem State.reqChannelSet_selected {m : CensusMode} {p : Nat} {k : Int} (hc : Chan.ofNum ch.toNat = some c)
    (hm : selected (sel.getLsbD 0) (s.chan c).mode (CensusMode.ofCode mode.toNat) = some m)
    (hp : selected (sel.getLsbD 1) (s.chan c).period (if 16 ≤ period.toNat then some period.toNat else none) = some p)
    (hk : selected (sel.getLsbD 2) (s.chan c).skew
      (if -2048 ≤ skew.toInt ∧ skew.toInt ≤ 2047 then some skew.toInt else none) = some k) :
    s.reqChannelSet ch sel mode period skew =
      if 8 ≤ sel.toNat then (s, Reply.bare .outOfRange)
      else if k ≠ (s.chan c).skew ∧ s.anyWorkingOn c = true then (s, Reply.bare .notIdle)
      else
        (if sel.getLsbD 0 then (s.modChan c fun y => { y with period := p, skew := k }).setMode c m
          else s.modChan c fun y => { y with period := p, skew := k }, Reply.bare .done) := by
  simp only [State.reqChannelSet, State.onChannel, hc, hm, hp, hk]

/-- A CHANNEL SET with a value or a selection bit out of range is refused (R154, R164). -/
theorem State.reqChannelSet_outOfRange (hc : Chan.ofNum ch.toNat = some c)
    (h : 8 ≤ sel.toNat ∨ (sel.getLsbD 0 = true ∧ 2 < mode.toNat) ∨ (sel.getLsbD 1 = true ∧ period.toNat < 16) ∨
      (sel.getLsbD 2 = true ∧ ¬(-2048 ≤ skew.toInt ∧ skew.toInt ≤ 2047))) :
    s.reqChannelSet ch sel mode period skew = (s, Reply.bare .outOfRange) := by
  by_cases hm : selected (sel.getLsbD 0) (s.chan c).mode (CensusMode.ofCode mode.toNat) = none
  · exact State.reqChannelSet_unselected hc (.inl hm)
  by_cases hp : selected (sel.getLsbD 1) (s.chan c).period
      (if 16 ≤ period.toNat then some period.toNat else none) = none
  · exact State.reqChannelSet_unselected hc (.inr (.inl hp))
  by_cases hk : selected (sel.getLsbD 2) (s.chan c).skew
      (if -2048 ≤ skew.toInt ∧ skew.toInt ≤ 2047 then some skew.toInt else none) = none
  · exact State.reqChannelSet_unselected hc (.inr (.inr hk))
  obtain ⟨m, hm'⟩ := Option.ne_none_iff_exists'.1 hm
  obtain ⟨p, hp'⟩ := Option.ne_none_iff_exists'.1 hp
  obtain ⟨k, hk'⟩ := Option.ne_none_iff_exists'.1 hk
  rw [State.reqChannelSet_selected hc hm' hp' hk']
  rcases h with h | ⟨b, h⟩ | ⟨b, h⟩ | ⟨b, h⟩
  · rw [if_pos h]
  · exact absurd (selected_eq_none b (CensusMode.ofCode_eq_none h)) hm
  · exact absurd (selected_eq_none b (if_neg (by omega))) hp
  · exact absurd (selected_eq_none b (if_neg h)) hk

/-- A CHANNEL SET in range meets the skew lock or takes effect on period and skew, and on the mode it carries. -/
theorem State.reqChannelSet_inRange {m : CensusMode} (hc : Chan.ofNum ch.toNat = some c) (sel8 : sel.toNat < 8)
    (hm : sel.getLsbD 0 = true → CensusMode.ofCode mode.toNat = some m)
    (hp : sel.getLsbD 1 = true → 16 ≤ period.toNat)
    (hk : sel.getLsbD 2 = true → -2048 ≤ skew.toInt ∧ skew.toInt ≤ 2047) {p : Nat} {k : Int}
    (ep : p = if sel.getLsbD 1 then period.toNat else (s.chan c).period)
    (ek : k = if sel.getLsbD 2 then skew.toInt else (s.chan c).skew) :
    s.reqChannelSet ch sel mode period skew =
      if k ≠ (s.chan c).skew ∧ s.anyWorkingOn c = true then (s, Reply.bare .notIdle)
      else
        (if sel.getLsbD 0 then (s.modChan c fun y => { y with period := p, skew := k }).setMode c m
          else s.modChan c fun y => { y with period := p, skew := k }, Reply.bare .done) := by
  subst ep ek
  cases b : sel.getLsbD 0
  · rw [State.reqChannelSet_selected (m := (s.chan c).mode) hc (by rw [b]; rfl) (selected_ite hp) (selected_ite hk),
      if_neg (by omega), b]
    rfl
  · rw [State.reqChannelSet_selected (m := m) hc (by rw [b]; exact hm b) (selected_ite hp) (selected_ite hk),
      if_neg (by omega), b]
end

/-- A mode other than OFF withdraws a pending CENSUS_QUIET (R59). -/
theorem State.setMode_on (s : State) (c : Chan) {m : CensusMode} (on : m ≠ .off) :
    s.setMode c m = s.modChan c fun x => { x with mode := m, quietPending := false } := by
  cases m
  · exact absurd rfl on
  · rfl
  · rfl

/-- OFF on a channel whose mode is OFF changes nothing (R59). -/
theorem State.setMode_off_again {s : State} {c : Chan} (h : (s.chan c).mode = .off) : s.setMode c .off = s := by
  simp [State.setMode, h]

/-- OFF while a census gap or offer stands: CENSUS_QUIET waits for it (R59). -/
theorem State.setMode_off_standing {s : State} {c : Chan} (h : (s.chan c).mode ≠ .off)
    (standing : (s.chan c).censusInFlight = true ∨ ∃ o, (s.chan c).offer = some o ∧ o.kind = .census) :
    s.setMode c .off = s.modChan c fun x => { x with mode := .off, due := false, dueAge := 0, quietPending := true } := by
  have k : ((s.chan c).censusInFlight || (s.chan c).offer.any fun o => o.kind == .census) = true := by
    simpa [Option.any_eq_true] using standing
  simp [State.setMode, h, k]

theorem State.quiet_of_pending {s : State} {c : Chan} (h : (s.chan c).quietPending = true) :
    s.quiet c = (s.modChan c fun x => { x with quietPending := false }).raise (Notice.censusQuiet c) := by
  simp [State.quiet, h]

/-- OFF with no census gap and no census offer: CENSUS_QUIET at once (R59). -/
theorem State.setMode_off_quiet {s : State} {c : Chan} (h : (s.chan c).mode ≠ .off)
    (gap : (s.chan c).censusInFlight = false) (offer : ∀ o, (s.chan c).offer = some o → o.kind ≠ .census) :
    s.setMode c .off =
      (s.modChan c fun x => { x with mode := .off, due := false, dueAge := 0, quietPending := false }).raise
        (Notice.censusQuiet c) := by
  have k : ((s.chan c).censusInFlight || (s.chan c).offer.any fun o => o.kind == .census) = false := by
    rw [gap, Bool.false_or, Option.any_eq_false]
    exact fun o ho => by simpa using offer o ho
  simp only [State.setMode, h, k, if_false]
  rw [if_neg (by decide), State.quiet_of_pending (by simp), State.modChan_modChan]

/-- Settles O25: judged by range and then by the lock, and each mode's effect by its own equation. -/
theorem channelSetIsJudgedAndTakesEffect : Obligations.ChannelSetIsJudgedAndTakesEffect := by
  intro s ch sel mode period skew ready
  have exec_eq : exec (.channelSet ch sel mode period skew) s =
      .next (State.answer (s.reqChannelSet ch sel mode period skew)) :=
    State.request_ready ready _ fun s => s.reqChannelSet ch sel mode period skew
  rw [exec_eq]
  refine ⟨fun high => ?_, s.anyWorkingOn_iff, ChanState.censusInFlight_iff, fun c p k hc ep ek => ⟨fun h => ?_,
    fun sel8 hm hp hk => ?_⟩⟩
  · have noChannel : Chan.ofNum ch.toNat = none := by
      obtain ⟨n, e⟩ := Nat.exists_eq_add_of_lt high
      rw [e, show 3 + n + 1 = n + 4 by omega]
      rfl
    simp only [State.reqChannelSet, State.onChannel, noChannel]
    rfl
  · rw [State.reqChannelSet_outOfRange hc h]; rfl
  · have judged {m : CensusMode} (hm : sel.getLsbD 0 = true → CensusMode.ofCode mode.toNat = some m) :=
      State.reqChannelSet_inRange (s := s) hc sel8 hm hp hk ep ek
    refine ⟨fun changed working => ?_, fun free => ?_⟩
    · have : ∃ m, sel.getLsbD 0 = true → CensusMode.ofCode mode.toNat = some m := by
        cases b : sel.getLsbD 0
        · exact ⟨.off, nofun⟩
        · obtain ⟨m, e⟩ := CensusMode.ofCode_isSome (hm b)
          exact ⟨m, fun _ => e⟩
      obtain ⟨m, hm'⟩ := this
      rw [judged hm', if_pos ⟨changed, working⟩]; rfl
    · have unlocked : ¬(k ≠ (s.chan c).skew ∧ s.anyWorkingOn c = true) := by
        rintro ⟨changed, working⟩
        rcases free with free | free
        · exact changed free
        · rw [free] at working; cases working
      have setsMode {m : CensusMode} (b : sel.getLsbD 0 = true) (e : CensusMode.ofCode mode.toNat = some m) :
          State.answer (s.reqChannelSet ch sel mode period skew) =
            ((s.modChan c fun y => { y with period := p, skew := k }).setMode c m).replied .done [] := by
        rw [judged fun _ => e, if_neg unlocked, b]; rfl
      have same {β : Type} (f : ChanState → β) (kept : ∀ x, f { x with period := p, skew := k } = f x) :
          f ((s.modChan c fun y => { y with period := p, skew := k }).chan c) = f (s.chan c) := by
        rw [State.chan_modChan_same, kept]
      refine ⟨?_, fun b e => ?_, fun b e => ?_, fun b e on => ⟨fun standing => ?_, fun gap offer => ?_⟩⟩
      · rintro (b | ⟨e, off⟩)
        · rw [judged (m := .off) (by rw [b]; nofun), if_neg unlocked, b]; rfl
        · cases b : sel.getLsbD 0
          · rw [judged (m := .off) (by rw [b]; nofun), if_neg unlocked, b]; rfl
          · rw [setsMode b (m := .off) (by rw [e]; rfl), State.setMode_off_again]
            rw [same ChanState.mode fun _ => rfl]; exact off
      · rw [setsMode b (m := .periodic) (by rw [e]; rfl), State.setMode_on _ _ (by decide), State.modChan_modChan]
      · rw [setsMode b (m := .demand) (by rw [e]; rfl), State.setMode_on _ _ (by decide), State.modChan_modChan]
      · rw [setsMode b (m := .off) (by rw [e]; rfl), State.setMode_off_standing, State.modChan_modChan]
        · rw [same ChanState.mode fun _ => rfl]; exact on
        · rw [same ChanState.censusInFlight fun _ => rfl, same ChanState.offer fun _ => rfl]; exact standing
      · rw [setsMode b (m := .off) (by rw [e]; rfl), State.setMode_off_quiet, State.modChan_modChan]
        · rw [same ChanState.mode fun _ => rfl]; exact on
        · rw [same ChanState.censusInFlight fun _ => rfl]; exact gap
        · rw [same ChanState.offer fun _ => rfl]; exact offer

/-! ## TREE SET (R6, R7, R8, R153) -/

theorem inSettingRange_iff (i v : Nat) :
    inSettingRange (i, v) = true ↔ ∃ r, settingRanges[i]? = some r ∧ r.1 ≤ v ∧ v ≤ r.2 := by
  unfold inSettingRange
  dsimp only
  cases settingRanges[i]? <;> simp

theorem LinkState.locksL_iff (l : LinkState) :
    l.locksL = true ↔ (∃ last count, l = .aligning last count) ∨ ∃ last, l = .up last := by
  cases l <;> simp [LinkState.locksL]

/-- The locks of R6: a working entry holds H, K and L, and an ALIGNING or UP link holds L. -/
theorem State.settingsLocked_iff (s : State) (t u : TreeSettings) : s.settingsLocked t u = true ↔
    (u.H ≠ t.H ∨ u.K ≠ t.K ∨ u.L ≠ t.L) ∧ s.anyWorking = true ∨
    u.L ≠ t.L ∧ ∃ c, (s.chan c).link.locksL = true := by
  have links : (Chan.all.any fun c => (s.chan c).link.locksL) = true ↔ ∃ c, (s.chan c).link.locksL = true := by
    simp [List.any_eq_true, Chan.mem_all]
  simp only [State.settingsLocked, Bool.or_eq_true, Bool.and_eq_true, decide_eq_true_eq, links]
  tauto

theorem TreeSettings.consistent_iff (t : TreeSettings) : t.consistent = true ↔ t.rtMin ≤ t.rtMax ∧
    t.rtMax + t.Tc + 2047 ≤ t.H ∧ t.rtMax - t.rtMin + t.Jmax * t.Uh + t.Bd + 2 * t.Tc ≤ 4 * t.L ∧ t.Z < t.Ejump := by
  simp only [TreeSettings.consistent, Bool.and_eq_true, decide_eq_true_eq, and_assoc]

/-- The settings that TREE SET carries are those its selection bits name, each with the value of its slot (R164). -/
theorem mem_carriedSettings (sel : BitVec 32) (slots : List (BitVec 24)) (i v : Nat) :
    (i, v) ∈ carriedSettings sel slots ↔ i < 25 ∧ sel.getLsbD i = true ∧ v = (slots.getD i 0).toNat := by
  simp only [carriedSettings, List.mem_map, List.mem_filter, List.mem_range, Prod.mk.injEq]
  constructor
  · rintro ⟨j, ⟨hj, sj⟩, rfl, rfl⟩; exact ⟨hj, sj, rfl⟩
  · rintro ⟨hi, si, rfl⟩; exact ⟨i, ⟨hi, si⟩, rfl, rfl⟩

theorem TreeSettings.values_length (t : TreeSettings) : t.values.length = 25 := rfl

/-- The values after some settings are put in order: each stands at its place. -/
theorem TreeSettings.putAll_values (l : List (Nat × Nat)) (t : TreeSettings) (h : l.all inSettingRange = true) :
    (t.putAll l).values = l.foldl (fun vs iv => vs.set iv.1 iv.2) t.values := by
  induction l generalizing t with
  | nil => rfl
  | cons x xs ih =>
    rw [List.all_cons, Bool.and_eq_true] at h
    rw [List.foldl_cons, ← TreeSettings.put_values t x.1 x.2 h.1]
    exact ih (t.put x.1 x.2) h.2

/-- Places set one after the other, each to the value that f gives it. -/
theorem getElem?_foldl_set {α : Type} (f : Nat → α) (is : List Nat) (vs : List α) (i : Nat) :
    ((is.map fun j => (j, f j)).foldl (fun vs iv => vs.set iv.1 iv.2) vs)[i]? =
      if i ∈ is ∧ i < vs.length then some (f i) else vs[i]? := by
  induction is generalizing vs with
  | nil => simp
  | cons j is ih =>
    rw [List.map_cons, List.foldl_cons, ih, List.length_set]
    by_cases hi : i ∈ is ∧ i < vs.length
    · rw [if_pos hi, if_pos ⟨List.mem_cons_of_mem _ hi.1, hi.2⟩]
    · rw [if_neg hi]
      by_cases hj : j = i
      · subst hj
        by_cases len : j < vs.length
        · simp [len]
        · simp [len]
      · rw [List.getElem?_set_ne hj]
        simp only [List.mem_cons, Ne.symm hj, false_or, hi, if_false]

/-- The settings that result from TREE SET: a carried one has the value of its slot, every other its old value (R7). -/
theorem TreeSettings.putAll_carriedSettings {sel : BitVec 32} {slots : List (BitVec 24)} (t : TreeSettings)
    (range : (carriedSettings sel slots).all inSettingRange = true) (len : slots.length = 25) {i : Nat} (hi : i < 25) :
    (t.putAll (carriedSettings sel slots)).values[i]? =
      if sel.getLsbD i then (slots[i]?).map BitVec.toNat else t.values[i]? := by
  rw [TreeSettings.putAll_values _ _ range]
  unfold carriedSettings
  rw [getElem?_foldl_set (fun i => (slots.getD i 0).toNat), TreeSettings.values_length]
  simp only [List.mem_filter, List.mem_range, hi, true_and, and_true]
  split
  · rw [List.getElem?_eq_getElem (by omega)]
    simp [List.getD_eq_getElem?_getD, List.getElem?_eq_getElem (show i < slots.length by omega)]
  · rfl

theorem Entry.clearStreak_eq (e : Entry) : e.clearStreak = { e with term := e.term.map fun t =>
    { t with phase := match t.phase with
      | .active fix d n => .active fix { d with streak := none } n
      | p => p } } := by
  unfold Entry.clearStreak Terminal.clearStreak
  congr 2
  funext t
  obtain ⟨_, _, _, _, _, _, _, phase⟩ := t
  cases phase <;> rfl

section
variable {s : State} {sel : BitVec 32} {slots : List (BitVec 24)}

theorem State.reqTreeSet_outOfRange
    (h : ¬(sel.toNat < 2 ^ 25 ∧ (carriedSettings sel slots).all inSettingRange = true)) :
    s.reqTreeSet sel slots = (s, Reply.bare .outOfRange) := by
  unfold State.reqTreeSet; rw [if_neg h]

/-- TREE SET in range: the locks, then the consistency of what would result (R7). -/
theorem State.reqTreeSet_inRange (sel25 : sel.toNat < 2 ^ 25)
    (range : (carriedSettings sel slots).all inSettingRange = true) :
    s.reqTreeSet sel slots =
      if s.settingsLocked s.tree (s.tree.putAll (carriedSettings sel slots)) then (s, Reply.bare .notIdle)
      else if (s.tree.putAll (carriedSettings sel slots)).consistent then
        (s.replaceSettings (s.tree.putAll (carriedSettings sel slots)), Reply.bare .done)
      else (s, Reply.bare .conflict) := by
  unfold State.reqTreeSet; rw [if_pos ⟨sel25, range⟩]
end

theorem exec_treeSet_ready {s : State} {sel : BitVec 32} {slots : List (BitVec 24)} (ready : s.portReady = true)
    (len : slots.length = 25) : exec (.treeSet sel slots) s = .next (State.answer (s.reqTreeSet sel slots)) :=
  (if_pos len).trans (State.request_ready ready _ fun s => s.reqTreeSet sel slots)

/-- Settles O22: the tables and the judgement by their own lemmas; the settings that result are those put place by
place. -/
theorem treeSetIsJudgedAndReplaces : Obligations.TreeSetIsJudgedAndReplaces := by
  refine ⟨fun _ => rfl, inSettingRange_iff, fun s t u => ?_, TreeSettings.consistent_iff, mem_carriedSettings,
    Entry.clearStreak_eq, fun s sel slots ready len => ?_⟩
  · rw [State.settingsLocked_iff, State.anyWorking_iff]
    simp only [LinkState.locksL_iff]
  · rw [exec_treeSet_ready ready len]
    refine ⟨fun h => ?_, fun sel25 range => ?_⟩
    · rw [State.reqTreeSet_outOfRange h]; rfl
    · rw [State.reqTreeSet_inRange sel25 range]
      refine ⟨fun locked => ?_, fun free conflict => ?_, fun free ok => ⟨_, ?_, fun i hi =>
        TreeSettings.putAll_carriedSettings s.tree range len hi⟩⟩
      · rw [if_pos locked]; rfl
      · rw [free, conflict]; rfl
      · rw [free, ok]; rfl

end Sys2Proof.Machine
end

section
/-! Arrivals (R61): how one is routed, what a read leaves of an entry whose flaw can be repaired, and how the ranging unit
and the drift unit judge a range reply and a data burst. -/

namespace Sys2Proof.Machine

/-! ## The read of an entry that is sound or can be repaired (R33) -/

theorem State.tree_offerFlaw (s : State) (k : FlawKind) (h : Handle) : (s.offerFlaw k h).tree = s.tree := by
  unfold State.offerFlaw; split
  · rfl
  · rw [State.raise_tree]

theorem State.chans_offerFlaw (s : State) (k : FlawKind) (h : Handle) : (s.offerFlaw k h).chans = s.chans := by
  unfold State.offerFlaw; split
  · rfl
  · rw [State.raise_chans]

/-- What a read of entry h that damages nothing leaves: state r differs from s in the repaired check code, the first-error
record and the notices alone. -/
structure State.ReadKept (s r : State) (h : Handle) (t : Terminal) : Prop where
  term : r.term h = some t
  tree : r.tree = s.tree
  chans : r.chans = s.chans
  handles : r.registry.map (·.handle) = s.registry.map (·.handle)

theorem State.readEntry_kept {s : State} {h : Handle} {flaw : Flaw} {t : Terminal}
    (he : s.entry h = some ⟨h, flaw, some t⟩) (ok : flaw ≠ .uncorrectable) : s.ReadKept (s.readEntry h) h t := by
  cases flaw with
  | uncorrectable => exact absurd rfl ok
  | sound => rw [State.readEntry_sound he]; exact ⟨State.term_of_sound he, rfl, rfl, rfl⟩
  | correctable =>
    have term : (s.setEntry h ⟨h, .sound, some t⟩).term h = some t := by
      unfold State.term
      rw [State.entry_setEntry s h h ⟨h, .sound, some t⟩ rfl, if_pos rfl, he]
      rfl
    have handles : (s.setEntry h ⟨h, .sound, some t⟩).registry.map (·.handle) = s.registry.map (·.handle) := by
      simp only [State.setEntry, List.map_map]
      refine List.map_congr_left fun e _ => ?_
      simp only [Function.comp]
      split
      · rename_i eh; exact eh.symm
      · rfl
    simp only [State.readEntry, he]
    split
    · exact ⟨by rw [State.term_offerFlaw]; exact term, by rw [State.tree_offerFlaw]; rfl,
        by rw [State.chans_offerFlaw]; rfl, by rw [State.offerFlaw_registry]; exact handles⟩
    · exact ⟨term, rfl, rfl, handles⟩

theorem State.ReadKept.chan {s r : State} {h : Handle} {t : Terminal} (k : s.ReadKept r h t) (c : Chan) :
    r.chan c = s.chan c := by unfold State.chan; rw [k.chans]

/-- The read of an entry whose flaw cannot be repaired leaves no fields (R34). -/
theorem State.term_readEntry_uncorrectable {s : State} {h : Handle} {t : Terminal}
    (he : s.entry h = some ⟨h, .uncorrectable, some t⟩) : (s.readEntry h).term h = none := by
  have e : s.readEntry h = s.damage h := by simp only [State.readEntry, he]
  rw [e]; exact State.term_damage_none s h (.inl rfl)

/-- Handles in order, which the changes of entries keep (R18). -/
abbrev State.inOrder (s : State) : Prop := (s.registry.map (·.handle)).Pairwise (· < ·)

theorem State.inOrder_modTerm {s : State} (k : s.inOrder) (h : Handle) (f : Terminal → Terminal) :
    (s.modTerm h f).inOrder := by
  have e : (s.modTerm h f).registry.map (·.handle) = s.registry.map (·.handle) := by
    simp [State.modTerm, Function.comp_def]
  unfold State.inOrder
  rw [e]; exact k

theorem State.ReadKept.inOrder {s r : State} {h : Handle} {t : Terminal} (k : s.ReadKept r h t)
    (law : HandleLaw s) : r.inOrder := by
  unfold State.inOrder
  rw [k.handles]; exact law.1

/-! ## Routing (R61) -/

theorem exec_arrival_running {s : State} (run : s.running) (c : Chan) (a : Arrival) :
    exec (.arrival c a) s = .next (s.takeArrival c a) :=
  congrArg Host.Outcome.next (State.whenRunning_running run fun s => s.takeArrival c a)

section
variable {s : State} {c : Chan} {a : Arrival} {g : Gap}

theorem State.takeArrival_not_up (up : s.isUp c = false) : s.takeArrival c a = s.bump c .strayArrival := by
  simp [State.takeArrival, up]

theorem State.takeArrival_data (up : s.isUp c = true) (kind : a.kind = .data) :
    s.takeArrival c a = s.takeDataBurst c a := by simp [State.takeArrival, up, kind]

/-- A reply whose tag names no gap is stray. -/
theorem State.takeArrival_no_gap (up : s.isUp c = true) (kind : a.kind ≠ .data)
    (gap : (s.chan c).gapOf a.tag = none) : s.takeArrival c a = s.bump c .strayArrival := by
  cases k : a.kind with
  | data => exact absurd k kind
  | census => simp [State.takeArrival, up, k, gap]
  | range => simp [State.takeArrival, up, k, gap]

theorem State.takeArrival_census_stray (up : s.isUp c = true) (kind : a.kind = .census)
    (gap : (s.chan c).gapOf a.tag = some g) (other : ∀ answers, g.kind ≠ .census answers) :
    s.takeArrival c a = s.bump c .strayArrival := by
  cases k : g.kind with
  | census answers => exact absurd k (other answers)
  | range h seen => simp [State.takeArrival, up, kind, gap, k]
  | voidRange => simp [State.takeArrival, up, kind, gap, k]

theorem State.takeArrival_range_stray (up : s.isUp c = true) (kind : a.kind = .range)
    (gap : (s.chan c).gapOf a.tag = some g) (other : ∀ h seen, g.kind ≠ .range h seen) :
    s.takeArrival c a = s.bump c .strayArrival := by
  cases k : g.kind with
  | range h seen => exact absurd k (other h seen)
  | census answers => simp [State.takeArrival, up, kind, gap, k]
  | voidRange => simp [State.takeArrival, up, kind, gap, k]

theorem State.takeArrival_range {h : Handle} {seen : Bool} (up : s.isUp c = true) (kind : a.kind = .range)
    (gap : (s.chan c).gapOf a.tag = some g) (range : g.kind = .range h seen) :
    s.takeArrival c a = s.takeRangeReply c g h seen a := by simp [State.takeArrival, up, kind, gap, range]
end

theorem ChanState.gapOf_tag {x : ChanState} {tag : Tag} {g : Gap} (k : x.gapOf tag = some g) : g.tag = tag := by
  have := List.find?_some k
  simpa using this

/-! ## The arithmetic of ranging (R1, R10, R13, R14) -/

/-- The mean is the nearest whole tick, a tie going up (R14). -/
theorem roundedMean_bounds {l : List Int} (ne : l ≠ []) : 2 * l.length * roundedMean l ≤ 2 * l.sum + l.length ∧
    2 * l.sum + l.length < 2 * l.length * (roundedMean l + 1) := by
  have pos : (0 : Int) < 2 * l.length := by
    have := List.length_pos_iff.2 ne
    omega
  exact ⟨Int.mul_ediv_self_le pos.ne', Int.lt_mul_ediv_self_add pos |>.trans_eq (by unfold roundedMean; ring)⟩

/-- The spread is the difference of two samples that bound all of them (R14). -/
theorem spread_bounds {l : List Int} (ne : l ≠ []) :
    ∃ a ∈ l, ∃ b ∈ l, spread l = a - b ∧ ∀ x ∈ l, b ≤ x ∧ x ≤ a := by
  obtain ⟨x, xs, rfl⟩ := List.exists_cons_of_ne_nil ne
  obtain ⟨maxMem, max⟩ := List.max?_eq_some_iff.1 (List.max?_cons' (x := x) (xs := xs))
  obtain ⟨minMem, min⟩ := List.min?_eq_some_iff.1 (List.min?_cons' (x := x) (xs := xs))
  exact ⟨_, maxMem, _, minMem, rfl, fun y hy => ⟨min y hy, max y hy⟩⟩

theorem elapsed_eq_some {L : Nat} {g a : Cyc} {s o E : Nat} : elapsed L g s a o = some E ↔
    (a - g).toNat < 32768 ∧ o < L ∧ s ≤ (a - g).toNat * L + o ∧ E = (a - g).toNat * L + o - s := by
  unfold elapsed
  dsimp only
  split
  · rename_i h; simp only [reduceCtorEq, false_iff]; omega
  · rename_i h; simp only [Option.some.injEq]; omega

/-- A sample lies inside the span, is a round trip of 0 or more and within T_c of the estimate (R13). -/
theorem rangeSample_eq_some {t : TreeSettings} {S estimate x : Int} {ref : Cyc} {start len E : Nat} {a : Arrival}
    (hE : E = (a.startCycle - ref).toNat * t.L + a.startOffset.toNat) :
    rangeSample t S estimate ref start len a = some x ↔
      (a.startCycle - ref).toNat < 32768 ∧ a.startOffset.toNat < t.L ∧ start ≤ E ∧ E + t.Br ≤ start + len ∧
        x = (E : Int) - t.K - S ∧ 0 ≤ x ∧ x - estimate ≤ t.Tc ∧ estimate - x ≤ t.Tc := by
  unfold rangeSample
  cases e : elapsed t.L ref 0 a.startCycle a.startOffset.toNat with
  | none =>
    simp only [reduceCtorEq, false_iff]
    rintro ⟨near, inside, -⟩
    have := elapsed_eq_some.2 ⟨near, inside, Nat.zero_le _, rfl⟩
    rw [e] at this; cases this
  | some E' =>
    obtain ⟨near, inside, -, hE'⟩ := elapsed_eq_some.1 e
    obtain rfl : E = E' := by omega
    simp only [inSpan, Option.ite_none_right_eq_some, Bool.and_eq_true, decide_eq_true_eq, Option.some.injEq, near,
      inside, true_and]
    constructor
    · rintro ⟨⟨⟨⟨⟨h1, h2⟩, h3⟩, h4⟩, h5⟩, rfl⟩; exact ⟨h1, h2, rfl, h3, h4, h5⟩
    · rintro ⟨h1, h2, rfl, h3, h4, h5⟩; exact ⟨⟨⟨⟨⟨h1, h2⟩, h3⟩, h4⟩, h5⟩, rfl⟩

/-! ## An attempt's retries, samples and end (R109, R110, R114 to R116) -/

/-- The tally and the outcome of a completion that is no acceptance (R114). -/
def Completion.failure : Completion → Option (TallyKind × RangeOutcome)
  | .spreadFail => some (.spreadFail, .spreadFail)
  | .reachFail => some (.outOfReach, .outOfReach)
  | .accepted _ => none

theorem State.failAttempt_eq {s : State} {h : Handle} {t : Terminal} (o : RangeOutcome) (ht : s.term h = some t) :
    s.failAttempt h o = (if t.wasActive then
      (if t.moveFlag then
        ((((s.voidAll h).raise (Notice.rangeFailed h t.home o.code)).enterLost h).raise
          (Notice.moveRangingFailed h t.home))
      else ((s.voidAll h).raise (Notice.rangeFailed h t.home o.code)).enterLost h)
    else ((s.voidAll h).raise (Notice.rangeFailed h t.home o.code)).enterDismissing h) := by
  simp only [State.failAttempt, ht]

theorem State.term_setHeard {s : State} {h : Handle} {t : Terminal} (ht : s.term h = some t) :
    (s.setHeard h).term h = some { t with heard := true } := by
  unfold State.setHeard; rw [State.term_modTerm_same, ht]; rfl

section
variable {s : State} {h : Handle} {t : Terminal} {k : Nat} {smp : List Int} {f d : Option Int}

/-- A retry short of R_max is counted (R109). -/
theorem State.addRetry_counted (o : RangeOutcome) (order : s.inOrder) (ht : s.term h = some t)
    (phase : t.phase = .ranging k smp f d) (short : k + 1 < s.tree.Rmax) :
    s.addRetry h o = s.modTerm h fun u => { u with phase := .ranging (k + 1) smp f d } := by
  simp only [State.addRetry, ht, phase, Phase.retry]
  rw [if_neg (by omega)]
  refine State.modTerm_congr order fun u hu => ?_
  obtain rfl : t = u := Option.some.inj (ht.symm.trans hu)
  rw [phase]; rfl

/-- The retry that reaches R_max fails the attempt (R109). -/
theorem State.addRetry_failed (o : RangeOutcome) (ht : s.term h = some t) (phase : t.phase = .ranging k smp f d)
    (reached : s.tree.Rmax ≤ k + 1) : s.addRetry h o = s.failAttempt h o := by
  simp only [State.addRetry, ht, phase, Phase.retry]
  rw [if_pos reached]

/-- Below n_conf a sample is kept and nothing else happens (R110). -/
theorem State.appendSample_kept (x : Int) (ht : s.term h = some t) (phase : t.phase = .ranging k smp f d)
    (few : (smp ++ [x]).length < s.tree.nConf) :
    s.appendSample h x = s.modTerm h fun u => { u with phase := .ranging k (smp ++ [x]) f d } := by
  simp only [State.appendSample, ht, phase]
  rw [if_neg (by omega)]

/-- With n_conf samples or more the attempt completes (R114). -/
theorem State.appendSample_complete (x : Int) (ht : s.term h = some t) (phase : t.phase = .ranging k smp f d)
    (enough : s.tree.nConf ≤ (smp ++ [x]).length) :
    s.appendSample h x =
      (s.modTerm h fun u => { u with phase := .ranging k (smp ++ [x]) f d }).completeAttempt h (smp ++ [x]) := by
  simp only [State.appendSample, ht, phase]
  rw [if_pos enough]

theorem completion_eq_spreadFail {tree : TreeSettings} {S : Int} {l : List Int} (two : 1 < l.length)
    (wide : (tree.P : Int) < spread l) : completion tree S l = .spreadFail := if_pos ⟨two, wide⟩

theorem completion_eq_accepted {tree : TreeSettings} {S : Int} {l : List Int}
    (narrow : l.length = 1 ∨ spread l ≤ tree.P) (reach : reachOk tree S (roundedMean l) = true) :
    completion tree S l = .accepted (roundedMean l) :=
  (if_neg (by rintro ⟨two, wide⟩; omega)).trans (if_pos reach)

theorem completion_eq_reachFail {tree : TreeSettings} {S : Int} {l : List Int}
    (narrow : l.length = 1 ∨ spread l ≤ tree.P) (far : reachOk tree S (roundedMean l) = false) :
    completion tree S l = .reachFail :=
  (if_neg (by rintro ⟨two, wide⟩; omega)).trans (if_neg (by rw [far]; decide))

/-- An attempt that ends without acceptance counts its tally, clears the samples and counts a retry (R114). -/
theorem State.completeAttempt_failed {samples : List Int} {tally : TallyKind} {o : RangeOutcome}
    (ends : (completion s.tree (s.chan t.home).skew samples).failure = some (tally, o))
    (ht : s.term h = some t) :
    s.completeAttempt h samples = ((s.bump t.home tally).modTerm h Terminal.clearSamples).addRetry h o := by
  simp only [State.completeAttempt, ht]
  cases e : completion s.tree (s.chan t.home).skew samples with
  | spreadFail => rw [e] at ends; cases ends; rfl
  | reachFail => rw [e] at ends; cases ends; rfl
  | accepted final => rw [e] at ends; cases ends

theorem State.completeAttempt_accepted {samples : List Int} {final : Int}
    (ends : completion s.tree (s.chan t.home).skew samples = .accepted final) (ht : s.term h = some t) :
    s.completeAttempt h samples =
      ((s.voidAll h).modTerm h fun u => { u with
        phase := .joining ⟨final, fillDelay s.tree (s.chan t.home).skew final⟩ }).queueFor h
          (.setDelay h (fillDelay s.tree (s.chan t.home).skew final)) := by
  simp only [State.completeAttempt, State.acceptAttempt, ht, ends]
end

/-- A retry short of R_max counted after another change of the entry is one change with it. -/
theorem State.addRetry_modTerm_counted {s : State} {h : Handle} {t : Terminal} {k : Nat} {smp : List Int}
    {f d : Option Int} {g : Terminal → Terminal} (o : RangeOutcome) (order : s.inOrder) (ht : s.term h = some t)
    (phase : (g t).phase = .ranging k smp f d) (short : k + 1 < s.tree.Rmax) :
    (s.modTerm h g).addRetry h o = s.modTerm h fun u => { g u with phase := .ranging (k + 1) smp f d } := by
  rw [State.addRetry_counted o (State.inOrder_modTerm order h g) (by rw [State.term_modTerm_same, ht]; rfl) phase short,
    State.modTerm_modTerm]

theorem State.addRetry_modTerm_failed {s : State} {h : Handle} {t : Terminal} {k : Nat} {smp : List Int}
    {f d : Option Int} {g : Terminal → Terminal} (o : RangeOutcome) (ht : s.term h = some t)
    (phase : (g t).phase = .ranging k smp f d) (reached : s.tree.Rmax ≤ k + 1) :
    (s.modTerm h g).addRetry h o = (s.modTerm h g).failAttempt h o :=
  State.addRetry_failed o (by rw [State.term_modTerm_same, ht]; rfl) phase reached

/-- The changes that an attempt without acceptance makes to its entry before the retry, as one. -/
theorem State.clearSamples_after_sample (s : State) (h : Handle) (c : Chan) (tally : TallyKind) (k : Nat) (l : List Int)
    (f d : Option Int) :
    (((s.setHeard h).modTerm h fun u => { u with phase := .ranging k l f d }).bump c tally).modTerm h
        Terminal.clearSamples =
      (s.bump c tally).modTerm h fun u => { u with heard := true, phase := .ranging k [] f d } := by
  unfold State.setHeard
  rw [State.modTerm_modTerm, ← State.modTerm_bump, State.modTerm_modTerm]
  rfl

section
variable {s : State} {h : Handle} {t : Terminal} {k : Nat} {smp : List Int} {f d : Option Int} {x : Int}

/-- A clean reply's sample that leaves the attempt going. -/
theorem State.heardSample_kept (ht : s.term h = some t) (phase : t.phase = .ranging k smp f d)
    (few : (smp ++ [x]).length < s.tree.nConf) :
    (s.setHeard h).appendSample h x =
      s.modTerm h fun u => { u with heard := true, phase := .ranging k (smp ++ [x]) f d } := by
  rw [State.appendSample_kept x (State.term_setHeard ht) phase few]
  unfold State.setHeard
  rw [State.modTerm_modTerm]

/-- A clean reply's sample that ends the attempt without acceptance: the tally, the samples cleared, the retry. -/
theorem State.heardSample_failed {tally : TallyKind} {o : RangeOutcome} (ht : s.term h = some t)
    (phase : t.phase = .ranging k smp f d) (enough : s.tree.nConf ≤ (smp ++ [x]).length)
    (ends : (completion s.tree (s.chan t.home).skew (smp ++ [x])).failure = some (tally, o)) :
    (s.setHeard h).appendSample h x = ((s.bump t.home tally).modTerm h fun u =>
      { u with heard := true, phase := .ranging k [] f d }).addRetry h o := by
  have heard := State.term_setHeard ht
  rw [State.appendSample_complete x heard phase enough,
    State.completeAttempt_failed
      (s := (s.setHeard h).modTerm h fun u => { u with phase := .ranging k (smp ++ [x]) f d })
      (t := { t with heard := true, phase := .ranging k (smp ++ [x]) f d })
      ends (by rw [State.term_modTerm_same, heard]; rfl)]
  exact congrArg (State.addRetry · h o) (State.clearSamples_after_sample s h t.home tally k (smp ++ [x]) f d)

/-- A clean reply's sample with which the attempt is accepted (R115). -/
theorem State.heardSample_accepted {final : Int} (ht : s.term h = some t)
    (phase : t.phase = .ranging k smp f d) (enough : s.tree.nConf ≤ (smp ++ [x]).length)
    (ends : completion s.tree (s.chan t.home).skew (smp ++ [x]) = .accepted final) :
    (s.setHeard h).appendSample h x = ((s.voidAll h).modTerm h fun u => { u with
      heard := true
      phase := .joining ⟨final, fillDelay s.tree (s.chan t.home).skew final⟩ }).queueFor h
        (.setDelay h (fillDelay s.tree (s.chan t.home).skew final)) := by
  have heard := State.term_setHeard ht
  rw [State.appendSample_complete x heard phase enough,
    State.completeAttempt_accepted
      (s := (s.setHeard h).modTerm h fun u => { u with phase := .ranging k (smp ++ [x]) f d })
      (t := { t with heard := true, phase := .ranging k (smp ++ [x]) f d })
      ends (by rw [State.term_modTerm_same, heard]; rfl)]
  unfold State.setHeard
  rw [State.modTerm_modTerm, ← State.modTerm_voidAll, State.modTerm_modTerm]
  rfl

/-- An attempt that ends without acceptance: its retry is counted, or fails it (R109, R114). -/
theorem State.heardSample_retry {tally : TallyKind} {o : RangeOutcome} (order : s.inOrder) (ht : s.term h = some t)
    (phase : t.phase = .ranging k smp f d) (enough : s.tree.nConf ≤ (smp ++ [x]).length)
    (ends : (completion s.tree (s.chan t.home).skew (smp ++ [x])).failure = some (tally, o)) :
    (k + 1 < s.tree.Rmax → (s.setHeard h).appendSample h x = (s.bump t.home tally).modTerm h fun u =>
      { u with heard := true, phase := .ranging (k + 1) [] f d }) ∧
    (s.tree.Rmax ≤ k + 1 → (s.setHeard h).appendSample h x = ((s.bump t.home tally).modTerm h fun u =>
      { u with heard := true, phase := .ranging k [] f d }).failAttempt h o) := by
  rw [State.heardSample_failed ht phase enough ends]
  exact ⟨State.addRetry_modTerm_counted (s := s.bump t.home tally) o order ht rfl,
    State.addRetry_modTerm_failed (s := s.bump t.home tally) o ht rfl⟩
end

/-! ## A range reply in its gap (R110, R111) -/

/-- The gap with the tag has been replied in (R110). -/
theorem State.setSeen_term (s : State) (c : Chan) (tag : Tag) (h : Handle) : (s.setSeen c tag).term h = s.term h := rfl

theorem State.setSeen_skew (s : State) (c d : Chan) (tag : Tag) :
    ((s.setSeen c tag).chan d).skew = (s.chan d).skew := by
  unfold State.setSeen
  rw [State.chan_modChan]
  split
  · rename_i e; rw [e]
  · rfl

section
variable {s r : State} {c : Chan} {a : Arrival} {g : Gap} {h : Handle} {t : Terminal}

/-- The first reply in the gap of an entry whose read leaves it whole: the gap is marked, then the reply is judged. -/
theorem State.takeRangeReply_unclean (read : s.readEntry h = r) (ht : r.term h = some t)
    (bad : a.status ≠ .clean ∨ a.handle.toNat ≠ h) :
    s.takeRangeReply c g h false a = ((r.setSeen c g.tag).bump c .mismatch).addRetry h .mismatch := by
  simp only [State.takeRangeReply, read, ht, State.mismatch]
  rw [if_neg (by decide), if_pos bad]

theorem State.takeRangeReply_mismatch (read : s.readEntry h = r) (ht : r.term h = some t) (clean : a.status = .clean)
    (named : a.handle.toNat = h)
    (noSample : rangeSample s.tree (s.chan c).skew t.estimate g.refCycle g.start g.len a = none) :
    s.takeRangeReply c g h false a =
      (((r.setSeen c g.tag).bump c .mismatch).setHeard h).addRetry h .mismatch := by
  simp only [State.takeRangeReply, read, ht, noSample]
  rw [if_neg (by decide), if_neg (by rintro (k | k) <;> contradiction)]
  rfl

theorem State.takeRangeReply_sample {x : Int} (read : s.readEntry h = r) (ht : r.term h = some t)
    (clean : a.status = .clean) (named : a.handle.toNat = h)
    (sample : rangeSample s.tree (s.chan c).skew t.estimate g.refCycle g.start g.len a = some x) :
    s.takeRangeReply c g h false a = ((r.setSeen c g.tag).setHeard h).appendSample h x := by
  simp only [State.takeRangeReply, read, ht, sample]
  rw [if_neg (by decide), if_neg (by rintro (k | k) <;> contradiction)]

/-- A further reply in the gap is stray (R111). -/
theorem State.takeRangeReply_again (read : s.readEntry h = r) (ht : r.term h = some t) :
    s.takeRangeReply c g h true a = r.bump c .strayArrival := by
  simp only [State.takeRangeReply, read, ht, if_true]

/-- A reply in the gap of an entry that the read leaves without fields is stray (R35). -/
theorem State.takeRangeReply_absent {seen : Bool} (read : s.readEntry h = r) (ht : r.term h = none) :
    s.takeRangeReply c g h seen a = r.bump c .strayArrival := by
  simp only [State.takeRangeReply, read, ht]
end

/-- Settles O54: the reply is routed to its gap, the entry is read, and each branch of R110 and R114 has its equation. -/
theorem rangeRepliesAreMeasured : Obligations.RangeRepliesAreMeasured := by
  refine ⟨fun _ => roundedMean_bounds, fun _ => spread_bounds, fun o => by cases o <;> rfl,
    fun s h t o ht => State.failAttempt_eq o ht, fun s c a g h t seen run up kind gap range he => ?_,
    fun s c a g h t k smp f d E flaw s0 s1 run law up kind gap he repairable phase es0 hE es1 => ?_⟩
  · rw [exec_arrival_running run, State.takeArrival_range up kind gap range,
      State.takeRangeReply_absent rfl (State.term_readEntry_uncorrectable he)]
  · have kept := State.readEntry_kept he repairable
    rw [← es0] at kept
    have exec_eq {seen : Bool} (range : g.kind = .range h seen) :
        exec (.arrival c a) s = .next (s.takeRangeReply c g h seen a) := by
      rw [exec_arrival_running run, State.takeArrival_range up kind gap range]
    have seen_eq : s0.setSeen c g.tag = s1 := by
      rw [es1, ChanState.gapOf_tag gap]; rfl
    have order : s1.inOrder := by rw [← seen_eq]; exact kept.inOrder law
    have term : s1.term h = some t := by rw [← seen_eq, State.setSeen_term]; exact kept.term
    have tree : s1.tree = s.tree := by rw [← seen_eq]; exact kept.tree
    have skew : (s1.chan t.home).skew = (s.chan t.home).skew := by
      rw [← seen_eq, State.setSeen_skew, kept.chan]
    refine ⟨?_, fun range => ?_, fun range => ⟨fun bad => ?_, fun clean named =>
      ⟨fun x => rangeSample_eq_some hE, fun noSample => ?_, fun x sample => ?_⟩⟩⟩
    · rintro rfl; rw [es0, State.readEntry_sound he]
    · rw [exec_eq range, State.takeRangeReply_again es0.symm kept.term]
    · rw [exec_eq range, State.takeRangeReply_unclean es0.symm kept.term bad, seen_eq, ← tree]
      exact ⟨fun short => congrArg Host.Outcome.next
          (State.addRetry_counted (s := s1.bump c .mismatch) _ order term phase short),
        fun reached => congrArg Host.Outcome.next
          (State.addRetry_failed (s := s1.bump c .mismatch) _ term phase reached)⟩
    · rw [exec_eq range, State.takeRangeReply_mismatch es0.symm kept.term clean named noSample, seen_eq, ← tree]
      exact ⟨fun short => congrArg Host.Outcome.next
          (State.addRetry_modTerm_counted (s := s1.bump c .mismatch) _ order term phase short),
        fun reached => congrArg Host.Outcome.next
          (State.addRetry_modTerm_failed (s := s1.bump c .mismatch) _ term phase reached)⟩
    · rw [exec_eq range, State.takeRangeReply_sample es0.symm kept.term clean named sample, seen_eq]
      have tree_skew : completion s1.tree (s1.chan t.home).skew = completion s.tree (s.chan t.home).skew := by
        rw [tree, skew]
      have retry {tally : TallyKind} {o : RangeOutcome} :=
        State.heardSample_retry (tally := tally) (o := o) (x := x) order term phase
      rw [tree_skew, tree] at retry
      refine ⟨fun few => ?_, fun enough two wide => ?_, fun fin fill enough narrow efin efill =>
        ⟨reachOk_iff _ _ _, fun reach => ?_, fun far => ?_⟩⟩
      · rw [State.heardSample_kept term phase (by rw [tree]; exact few)]
      · obtain ⟨counted, failed⟩ := retry enough (by rw [completion_eq_spreadFail two wide]; rfl)
        exact ⟨fun short => congrArg _ (counted short), fun reached => congrArg _ (failed reached)⟩
      · rw [State.heardSample_accepted term phase (by rw [tree]; exact enough)
          (by rw [tree_skew]; exact completion_eq_accepted narrow (by rw [← efin]; exact reach)), tree, skew, ← efin,
          efill]
        rfl
      · obtain ⟨counted, failed⟩ := retry enough
          (by rw [completion_eq_reachFail narrow (by rw [← efin]; exact far)]; rfl)
        exact ⟨fun short => congrArg _ (counted short), fun reached => congrArg _ (failed reached)⟩

end Sys2Proof.Machine
end

section
/-! Data bursts: the drift unit's judgement of an offset, case by case (Section 8). -/

namespace Sys2Proof.Machine

/-! ## Drift (R125 to R130) -/

theorem State.rosterLeave_modTerm (s : State) (c : Chan) (h k : Handle) (f : Terminal → Terminal) :
    (s.modTerm k f).rosterLeave c h = (s.rosterLeave c h).modTerm k f := by
  unfold State.rosterLeave
  rw [State.chan_modTerm]
  split <;> rfl

/-- A change of entry h that follows `setHeard` is one change with it. -/
theorem State.setHeard_modTerm (s : State) (h : Handle) (f : Terminal → Terminal) :
    (s.setHeard h).modTerm h f = s.modTerm h fun u => f { u with heard := true } := State.modTerm_modTerm s h _ f

theorem State.inOrder_rosterLeave {s : State} (order : s.inOrder) (c : Chan) (h : Handle) :
    (s.rosterLeave c h).inOrder := by
  unfold State.inOrder
  rw [State.rosterLeave_registry]; exact order

/-- A clean offset that grows the streak or starts one of the other sign (R128). -/
theorem streakAfter_of_large {Z : Nat} {e : Int} (st : Option Streak) (large : Z < e.natAbs) :
    streakAfter Z st e = some (match st with
      | some z => if z.positive = decide (0 < e) then ⟨z.positive, z.count + 1, z.sum + e⟩
        else ⟨decide (0 < e), 1, e⟩
      | none => ⟨decide (0 < e), 1, e⟩) := by
  unfold streakAfter
  rw [if_neg (by omega)]
  cases st with
  | none => rfl
  | some z => dsimp only; split <;> rfl

theorem streakAfter_of_small {Z : Nat} {e : Int} (st : Option Streak) (small : e.natAbs ≤ Z) :
    streakAfter Z st e = none := if_pos small

section
variable {s : State} {h : Handle} {t : Terminal} {fix : Fix} {d : Drift} {missed : Nat} {e : Int}

/-- While a trim is pending or owed no offset counts (R125). -/
theorem State.driftOffset_trim_waits (waits : d.trimPending ≠ none ∨ t.owed.trim ≠ none) :
    s.driftOffset h t fix d missed e = s := by
  unfold State.driftOffset
  rw [if_pos]
  simpa [Option.isSome_iff_ne_none] using waits

theorem no_trim (pending : d.trimPending = none) (owed : t.owed.trim = none) :
    ¬(d.trimPending.isSome || t.owed.trim.isSome) = true := by simp [pending, owed]

/-- The settle count falls (R125). -/
theorem State.driftOffset_settles (pending : d.trimPending = none) (owed : t.owed.trim = none) (settle : 0 < d.settle) :
    s.driftOffset h t fix d missed e =
      s.modTerm h fun u => { u with phase := .active fix { d with settle := d.settle - 1 } missed } := by
  unfold State.driftOffset
  rw [if_neg (no_trim pending owed), if_pos settle]

/-- A jump above E_jump sends the entry back to ranging (R126). -/
theorem State.driftOffset_jump (pending : d.trimPending = none) (owed : t.owed.trim = none) (settle : d.settle = 0)
    (jump : s.tree.Ejump < e.natAbs) :
    s.driftOffset h t fix d missed e = s.driftRerange h (clampEstimate (fix.final + e)) := by
  unfold State.driftOffset
  rw [if_neg (no_trim pending owed), if_neg (by omega), if_pos jump]

/-- An offset within Z ends the streak (R127). -/
theorem State.driftOffset_small (pending : d.trimPending = none) (owed : t.owed.trim = none) (settle : d.settle = 0)
    (noJump : e.natAbs ≤ s.tree.Ejump) (small : e.natAbs ≤ s.tree.Z) :
    s.driftOffset h t fix d missed e =
      s.modTerm h fun u => { u with phase := .active fix { d with streak := none } missed } := by
  unfold State.driftOffset
  rw [if_neg (no_trim pending owed), if_neg (by omega), if_neg (by omega), streakAfter_of_small d.streak small]

/-- A streak below V is held (R128). -/
theorem State.driftOffset_streak {st : Streak} (pending : d.trimPending = none) (owed : t.owed.trim = none)
    (settle : d.settle = 0) (noJump : e.natAbs ≤ s.tree.Ejump) (streak : streakAfter s.tree.Z d.streak e = some st)
    (short : st.count < s.tree.V) :
    s.driftOffset h t fix d missed e =
      s.modTerm h fun u => { u with phase := .active fix { d with streak := some st } missed } := by
  unfold State.driftOffset
  rw [if_neg (no_trim pending owed), if_neg (by omega), if_neg (by omega), streak]
  exact if_neg (by omega)

/-- A streak V long asks for a trim (R129). -/
theorem State.driftOffset_trim {st : Streak} (pending : d.trimPending = none) (owed : t.owed.trim = none)
    (settle : d.settle = 0) (noJump : e.natAbs ≤ s.tree.Ejump) (streak : streakAfter s.tree.Z d.streak e = some st)
    (long : s.tree.V ≤ st.count) :
    s.driftOffset h t fix d missed e = s.driftTrim h t fix d missed st.sum := by
  unfold State.driftOffset
  rw [if_neg (no_trim pending owed), if_neg (by omega), if_neg (by omega), streak]
  exact if_pos long

/-- The re-ranging of an ACTIVE entry that was heard in the same event (R126). -/
theorem State.driftRerange_heard (order : s.inOrder) (ht : s.term h = some t) (phase : t.phase = .active fix d missed)
    (est : Int) : (s.setHeard h).driftRerange h est =
      (((((s.rosterLeave t.home h).modTerm h fun u => { u with
        heard := true
        estimate := est
        phase := .ranging 0 [] (some fix.final) (some fix.fill) }).queueFor h (.hush h)).rangeRequest h).bump
          t.home .reranges).raise (Notice.driftRerange h t.home est) := by
  have entry : ((s.setHeard h).rosterLeave t.home h).modTerm h (fun u => u.reRanged est) =
      (s.rosterLeave t.home h).modTerm h fun u => { u with
        heard := true
        estimate := est
        phase := .ranging 0 [] (some fix.final) (some fix.fill) } := by
    unfold State.setHeard
    rw [State.rosterLeave_modTerm, State.modTerm_modTerm]
    refine State.modTerm_congr (State.inOrder_rosterLeave order t.home h) fun u hu => ?_
    rw [State.term_rosterLeave] at hu
    obtain rfl : t = u := Option.some.inj (ht.symm.trans hu)
    simp only [Terminal.reRanged, phase, Phase.final, Phase.fill]
  simp only [State.driftRerange, State.term_setHeard ht]
  rw [entry]

/-- A trim within reach moves round trip and fill delay against each other (R16, R129). -/
theorem State.driftTrim_made {sum : Int}
    (reach : reachOk s.tree (s.chan t.home).skew (fix.final + trimOf s.tree sum) = true) :
    (s.setHeard h).driftTrim h t fix d missed sum =
      ((s.modTerm h fun u => { u with
        heard := true
        phase := .active ⟨fix.final + trimOf s.tree sum, fix.fill - trimOf s.tree sum⟩
          { d with streak := none, trimPending := some (-trimOf s.tree sum) } missed }).bump t.home .trims).queueFor h
            (.trimDelay h (-trimOf s.tree sum)) := by
  refine (if_pos reach).trans ?_
  rw [State.setHeard_modTerm]
  rfl

/-- A trim out of reach is refused, and the entry is ranged again (R130). -/
theorem State.driftTrim_refused {sum : Int}
    (far : reachOk s.tree (s.chan t.home).skew (fix.final + trimOf s.tree sum) = false) :
    (s.setHeard h).driftTrim h t fix d missed sum = (s.setHeard h).driftRerange h fix.final := by
  have no : ¬reachOk s.tree (s.chan t.home).skew (fix.final + trimOf s.tree sum) = true := by rw [far]; decide
  exact if_neg no
end

/-! ## A data burst (R124) -/

section
variable {s r : State} {c : Chan} {a : Arrival} {h : Handle} {t : Terminal}

theorem State.takeDataBurst_unlisted (eh : h = a.handle.toNat) (out : h ∉ (s.chan c).roster) :
    s.takeDataBurst c a = s.bump c .strayArrival := by
  subst eh; exact if_neg out

/-- The burst of an entry that the read leaves without fields is stray (R35). -/
theorem State.takeDataBurst_absent (eh : h = a.handle.toNat) (listed : h ∈ (s.chan c).roster)
    (read : s.readEntry h = r) (ht : r.term h = none) : s.takeDataBurst c a = r.bump c .strayArrival := by
  subst eh
  simp only [State.takeDataBurst, listed, if_true, read, ht]

/-- The burst of an entry that is not ACTIVE is stray (R124). -/
theorem State.takeDataBurst_not_active (eh : h = a.handle.toNat) (listed : h ∈ (s.chan c).roster)
    (read : s.readEntry h = r) (ht : r.term h = some t) (idle : t.phase.isActive = false) :
    s.takeDataBurst c a = r.bump c .strayArrival := by
  subst eh
  simp only [State.takeDataBurst, listed, if_true, read, ht]
  split
  · rename_i e; rw [e] at idle; cases idle
  · rfl

theorem State.takeDataBurst_active {fix : Fix} {d : Drift} {missed : Nat} (eh : h = a.handle.toNat)
    (listed : h ∈ (s.chan c).roster) (read : s.readEntry h = r) (ht : r.term h = some t)
    (phase : t.phase = .active fix d missed) :
    s.takeDataBurst c a =
      if a.status = .clean then (r.setHeard h).driftOffset h t fix d missed a.offset.toInt else r.setHeard h := by
  subst eh
  simp only [State.takeDataBurst, listed, if_true, read, ht, phase]
end

/-- Settles O55: the burst is routed, the entry is read, and each branch of R125 to R130 has its equation. -/
theorem dataBurstsAreTracked : Obligations.DataBurstsAreTracked := by
  intro s c a h e run law eh ee
  rw [exec_arrival_running run]
  refine ⟨fun down => ?_, fun up kind gap => ?_, fun g up gap => ⟨fun kind other => ?_, fun kind free => ?_⟩,
    fun up kind out => ?_, fun up kind free => ?_, fun t flaw s0 up kind listed he es0 => ⟨?_, fun idle => ?_,
      fun fix d missed repairable phase => ?_⟩⟩
  · rw [State.takeArrival_not_up down]
  · rw [State.takeArrival_no_gap up kind gap]
  · rw [State.takeArrival_census_stray up kind gap other]
  · by_cases range : ∃ k seen, g.kind = .range k seen
    · obtain ⟨k, seen, range⟩ := range
      rw [State.takeArrival_range up kind gap range,
        State.takeRangeReply_absent (State.readEntry_term_none (free k seen range)) (free k seen range)]
    · rw [State.takeArrival_range_stray up kind gap fun k seen r => range ⟨k, seen, r⟩]
  · rw [State.takeArrival_data up kind, State.takeDataBurst_unlisted eh out]
  · rw [State.takeArrival_data up kind]
    by_cases listed : h ∈ (s.chan c).roster
    · rw [State.takeDataBurst_absent eh listed (State.readEntry_term_none free) free]
    · rw [State.takeDataBurst_unlisted eh listed]
  · rintro rfl; rw [es0, State.readEntry_sound he]
  · rw [State.takeArrival_data up kind]
    by_cases bad : flaw = .uncorrectable
    · subst bad
      rw [State.takeDataBurst_absent eh listed es0.symm (by rw [es0]; exact State.term_readEntry_uncorrectable he)]
    · have kept := State.readEntry_kept he bad
      rw [← es0] at kept
      rw [State.takeDataBurst_not_active eh listed es0.symm kept.term (idle.resolve_left bad)]
  · have kept := State.readEntry_kept he repairable
    rw [← es0] at kept
    have order := kept.inOrder law
    have skew : (s0.chan t.home).skew = (s.chan t.home).skew := by rw [kept.chan]
    rw [State.takeArrival_data up kind, State.takeDataBurst_active eh listed es0.symm kept.term phase, ← ee, ← kept.tree,
      ← skew]
    refine ⟨fun waits => ?_, fun clean pending owed => ?_⟩
    · by_cases clean : a.status = .clean
      · rw [if_pos clean, State.driftOffset_trim_waits (waits.resolve_left (not_not.2 clean))]; rfl
      · rw [if_neg clean]; rfl
    · rw [if_pos clean]
      refine ⟨fun settle => ?_, fun settle => ⟨fun est eest jump => ?_, fun noJump small => ?_,
        fun st noJump large est => ⟨fun short => ?_, fun ch long ech => ⟨fun reach => ?_, fun far => ?_⟩⟩⟩⟩
      · rw [State.driftOffset_settles (s := s0.setHeard h) pending owed settle, State.setHeard_modTerm]
      · rw [State.driftOffset_jump (s := s0.setHeard h) pending owed settle jump,
          State.driftRerange_heard order kept.term phase, eest]
        rfl
      · rw [State.driftOffset_small (s := s0.setHeard h) pending owed settle noJump small, State.setHeard_modTerm]
      · rw [State.driftOffset_streak (s := s0.setHeard h) pending owed settle noJump (st := st)
          (by rw [est]; exact streakAfter_of_large d.streak large) short, State.setHeard_modTerm]
      · rw [State.driftOffset_trim (s := s0.setHeard h) pending owed settle noJump (st := st)
          (by rw [est]; exact streakAfter_of_large d.streak large) long, ech]
        rw [ech] at reach
        exact congrArg Host.Outcome.next (State.driftTrim_made reach)
      · rw [State.driftOffset_trim (s := s0.setHeard h) pending owed settle noJump (st := st)
          (by rw [est]; exact streakAfter_of_large d.streak large) long]
        rw [ech] at far
        rw [State.driftTrim_refused far, State.driftRerange_heard order kept.term phase]

end Sys2Proof.Machine
end

section
/-! What a read of an entry and a lapse of a gap leave: the settings, the link states, and of a channel all that the choice
of an offer looks at. -/

namespace Sys2Proof.Machine

/-! ## What a read leaves of the settings -/

theorem State.tree_takeReport (s : State) (why : ReportCause) (c : Chan) (k : MsgKind) (h : Handle) :
    (s.takeReport why c k h).tree = s.tree := by unfold State.takeReport; split <;> rfl

theorem State.tree_offerMsg (s : State) (c : Chan) (m : TreeMsg) : (s.offerMsg c m).1.tree = s.tree := by
  unfold State.offerMsg
  split
  · dsimp only
    split
    · rw [State.tree_takeReport]; rfl
    · rfl
  · rfl

theorem State.tree_damage (s : State) (h : Handle) : (s.damage h).tree = s.tree := by
  have dismiss (u : State) : (u.dismissEverywhere h).tree = u.tree :=
    foldl_keeps Chan.all (fun st c => st.dismissDamaged h c) (·.tree) (fun s c => State.tree_offerMsg s c _) u
  have leave (u : State) : (u.leaveRosters h).tree = u.tree :=
    foldl_keeps Chan.all (fun (st : State) c => st.rosterLeave c h) (·.tree) (fun s c => State.rosterLeave_tree s c h) u
  have store (u : State) : (u.storeDamaged h).tree = u.tree := rfl
  unfold State.damage
  rw [State.tree_offerFlaw, dismiss, store, leave]
  rfl

theorem State.tree_readEntry (s : State) (h : Handle) : (s.readEntry h).tree = s.tree := by
  unfold State.readEntry
  split
  · rfl
  · split
    · rfl
    · rfl
    · dsimp only
      split
      · rw [State.tree_offerFlaw]; rfl
      · rfl
    · exact State.tree_damage s h

/-! ## What a read leaves of a channel -/

/-- A projection of a channel that out-queue, roster, records sent and void events leave alone, a read leaves alone. -/
theorem State.readEntry_keeps {β : Type} (p : ChanState → β) (kq : ∀ x q, p { x with outq := q } = p x)
    (kr : ∀ x r t, p { x with roster := r, tx := t } = p x) (kv : ∀ x h, p (ChanState.voidFor x h) = p x) (s : State)
    (h : Handle) (c : Chan) : p ((s.readEntry h).chan c) = p (s.chan c) := by
  rcases s.readEntry_cases h with ⟨e, -⟩ | e
  · rw [State.chan_congr e]
  · rw [e, State.damage_keeps p kq kr, kv]

theorem Gap.voidFor_tag (g : Gap) (h : Handle) : (g.voidFor h).tag = g.tag := by
  unfold Gap.voidFor
  split
  · split <;> rfl
  · rfl

/-- Channel part y agrees with z in what the choice of an offer and the census counters look at, but for the handles that
a void event has taken out. -/
structure ChanState.ReadFrom (z y : ChanState) : Prop where
  up : y.isUp = z.isUp
  periodCtr : y.periodCtr = z.periodCtr
  due : y.due = z.due
  dueAge : y.dueAge = z.dueAge
  mode : y.mode = z.mode
  period : y.period = z.period
  skew : y.skew = z.skew
  tagCtr : y.tagCtr = z.tagCtr
  lapsed : y.lapsed = z.lapsed
  tags : y.gaps.map (·.tag) = z.gaps.map (·.tag)
  offer : z.offer = none → y.offer = none

theorem ChanState.ReadFrom.refl (z : ChanState) : z.ReadFrom z := ⟨rfl, rfl, rfl, rfl, rfl, rfl, rfl, rfl, rfl, rfl, id⟩

theorem ChanState.ReadFrom.trans {x y z : ChanState} (a : x.ReadFrom y) (b : y.ReadFrom z) : x.ReadFrom z where
  up := b.up.trans a.up
  periodCtr := b.periodCtr.trans a.periodCtr
  due := b.due.trans a.due
  dueAge := b.dueAge.trans a.dueAge
  mode := b.mode.trans a.mode
  period := b.period.trans a.period
  skew := b.skew.trans a.skew
  tagCtr := b.tagCtr.trans a.tagCtr
  lapsed := b.lapsed.trans a.lapsed
  tags := b.tags.trans a.tags
  offer h := b.offer (a.offer h)

theorem State.readFrom_readEntry (s : State) (h : Handle) (c : Chan) :
    (s.chan c).ReadFrom ((s.readEntry h).chan c) where
  up := State.readEntry_keeps ChanState.isUp (fun _ _ => rfl) (fun _ _ _ => rfl) (fun _ _ => rfl) s h c
  periodCtr := State.readEntry_keeps (·.periodCtr) (fun _ _ => rfl) (fun _ _ _ => rfl) (fun _ _ => rfl) s h c
  due := State.readEntry_keeps (·.due) (fun _ _ => rfl) (fun _ _ _ => rfl) (fun _ _ => rfl) s h c
  dueAge := State.readEntry_keeps (·.dueAge) (fun _ _ => rfl) (fun _ _ _ => rfl) (fun _ _ => rfl) s h c
  mode := State.readEntry_keeps (·.mode) (fun _ _ => rfl) (fun _ _ _ => rfl) (fun _ _ => rfl) s h c
  period := State.readEntry_keeps (·.period) (fun _ _ => rfl) (fun _ _ _ => rfl) (fun _ _ => rfl) s h c
  skew := State.readEntry_keeps (·.skew) (fun _ _ => rfl) (fun _ _ _ => rfl) (fun _ _ => rfl) s h c
  tagCtr := State.readEntry_keeps (·.tagCtr) (fun _ _ => rfl) (fun _ _ _ => rfl) (fun _ _ => rfl) s h c
  lapsed := State.readEntry_keeps (·.lapsed) (fun _ _ => rfl) (fun _ _ _ => rfl) (fun _ _ => rfl) s h c
  tags := State.readEntry_keeps (fun x => x.gaps.map (·.tag)) (fun _ _ => rfl) (fun _ _ _ => rfl)
    (fun x h => by simp [ChanState.voidFor, Function.comp_def, Gap.voidFor_tag]) s h c
  offer := State.readEntry_offer_none s h c

/-- The entries of some handles are read one after the other. -/
def State.readList (s : State) (l : List Handle) : State := l.foldl State.readEntry s

theorem State.readList_append (s : State) (a b : List Handle) :
    s.readList (a ++ b) = (s.readList a).readList b := List.foldl_append ..

theorem State.tree_readList (s : State) (l : List Handle) : (s.readList l).tree = s.tree :=
  foldl_keeps l State.readEntry (·.tree) State.tree_readEntry s

theorem State.readFrom_readList (s : State) (l : List Handle) (c : Chan) :
    (s.chan c).ReadFrom ((s.readList l).chan c) := by
  induction l generalizing s with
  | nil => exact .refl _
  | cons h l ih => exact (State.readFrom_readEntry s h c).trans (ih (s.readEntry h))

theorem ChanState.ReadFrom.gaps_eq_nil {z y : ChanState} (k : z.ReadFrom y) : y.gaps = [] ↔ z.gaps = [] := by
  rw [← List.map_eq_nil_iff (f := (·.tag)), k.tags, List.map_eq_nil_iff]

/-! ## Tags (R51) -/

theorem ChanState.tagBusy_eq (x : ChanState) (t : Tag) :
    x.tagBusy t = decide (t ∈ x.gaps.map (·.tag) ++ x.lapsed) := by
  rw [Bool.eq_iff_iff]
  simp [ChanState.tagBusy, List.any_eq_true]

theorem ChanState.tagBusy_iff (x : ChanState) (t : Tag) :
    x.tagBusy t = true ↔ (∃ g ∈ x.gaps, g.tag = t) ∨ t ∈ x.lapsed := by
  rw [ChanState.tagBusy_eq]
  simp

theorem ChanState.ReadFrom.nextTag {z y : ChanState} (k : z.ReadFrom y) : y.nextTag = z.nextTag := by
  have busy (t : Tag) : y.tagBusy t = z.tagBusy t := by
    rw [ChanState.tagBusy_eq, ChanState.tagBusy_eq, k.tags, k.lapsed]
  have from_eq (n : Nat) (t : Tag) : y.freeTagFrom n t = z.freeTagFrom n t := by
    induction n generalizing t with
    | zero => rfl
    | succ n ih => unfold ChanState.freeTagFrom; rw [busy, ih]
  unfold ChanState.nextTag
  rw [k.tagCtr, from_eq]

/-- The search for a tag passes over busy tags and stops at the first that is not, if its fuel lasts. -/
theorem ChanState.freeTagFrom_spec (x : ChanState) (fuel : Nat) (t : Tag) :
    ∃ k, k ≤ fuel ∧ x.freeTagFrom fuel t = t + BitVec.ofNat 8 k ∧
      (∀ j, j < k → x.tagBusy (t + BitVec.ofNat 8 j) = true) ∧
      (k < fuel → x.tagBusy (t + BitVec.ofNat 8 k) = false) := by
  induction fuel generalizing t with
  | zero => exact ⟨0, le_rfl, by simp [ChanState.freeTagFrom], nofun, nofun⟩
  | succ n ih =>
    unfold ChanState.freeTagFrom
    by_cases busy : x.tagBusy t = true
    · obtain ⟨k, hk, e, before, at_k⟩ := ih (t + 1)
      have shift (j : Nat) : t + 1 + BitVec.ofNat 8 j = t + BitVec.ofNat 8 (j + 1) := by
        rw [BitVec.add_assoc]
        congr 1
        rw [show (1 : BitVec 8) = BitVec.ofNat 8 1 from rfl, ← BitVec.ofNat_add, Nat.add_comm]
      refine ⟨k + 1, by omega, by rw [if_pos busy, e, shift], fun j hj => ?_, fun hk => ?_⟩
      · cases j with
        | zero => simpa using busy
        | succ j => rw [← shift]; exact before j (by omega)
      · rw [← shift]; exact at_k (by omega)
    · exact ⟨0, by omega, by rw [if_neg busy]; simp, nofun, fun _ => by simpa using busy⟩

/-- Tags that follow one another are different, short of 256 of them. -/
theorem nodup_tags (t : Tag) : ((List.range 10).map fun j => t + BitVec.ofNat 8 j).Nodup := by
  refine (List.nodup_map_iff_inj_on List.nodup_range).2 fun i hi j hj e => ?_
  rw [List.mem_range] at hi hj
  have e2 := congrArg BitVec.toNat ((BitVec.add_right_inj t).1 e)
  simp only [BitVec.toNat_ofNat] at e2
  omega

/-- At most nine tags are busy, so the search ends at a free one (R51). -/
theorem ChanState.nextTag_spec {x : ChanState} (gaps : x.gaps.length ≤ 5) (lapsed : x.lapsed.length ≤ 4) :
    x.tagBusy x.nextTag = false ∧
      ∃ k, x.nextTag = x.tagCtr + BitVec.ofNat 8 k ∧ ∀ j, j < k → x.tagBusy (x.tagCtr + BitVec.ofNat 8 j) = true := by
  obtain ⟨k, -, e, before, at_k⟩ := x.freeTagFrom_spec 255 x.tagCtr
  have few : k < 10 := by
    by_contra many
    have sub : ((List.range 10).map fun j => x.tagCtr + BitVec.ofNat 8 j) ⊆ x.gaps.map (·.tag) ++ x.lapsed := by
      intro t ht
      obtain ⟨j, hj, rfl⟩ := List.mem_map.1 ht
      have busy := before j (by rw [List.mem_range] at hj; omega)
      rw [ChanState.tagBusy_eq] at busy
      exact of_decide_eq_true busy
    have len := ((nodup_tags x.tagCtr).subperm sub).length_le
    simp only [List.length_map, List.length_range, List.length_append] at len
    omega
  exact ⟨by unfold ChanState.nextTag; rw [e]; exact at_k (by omega), k, e, before⟩

theorem ChanState.nextTag_of_free {x : ChanState} (free : x.tagBusy x.tagCtr = false) : x.nextTag = x.tagCtr := by
  unfold ChanState.nextTag ChanState.freeTagFrom
  rw [free]; rfl

/-! ## A lapse of gaps leaves the links UP or not (R57) -/

theorem State.isUp_modChan (s : State) (c d : Chan) {f : ChanState → ChanState} (k : ∀ x, (f x).isUp = x.isUp) :
    (s.modChan c f).isUp d = s.isUp d := by
  unfold State.isUp
  rw [State.chan_modChan]
  split
  · rename_i e; rw [k, e]
  · rfl

section
variable (s : State) (d : Chan)

theorem State.isUp_takeReport (why : ReportCause) (c : Chan) (k : MsgKind) (h : Handle) :
    (s.takeReport why c k h).isUp d = s.isUp d := congrArg ChanState.isUp (State.takeReport_chan s why c d k h)

theorem State.isUp_offerMsg (c : Chan) (m : TreeMsg) : (s.offerMsg c m).1.isUp d = s.isUp d :=
  State.offerMsg_keeps ChanState.isUp (fun _ _ => rfl) s c d m

theorem State.isUp_rosterLeave (c : Chan) (h : Handle) : (s.rosterLeave c h).isUp d = s.isUp d :=
  State.rosterLeave_keeps ChanState.isUp (fun _ _ _ => rfl) s c d h

theorem State.isUp_voidAll (h : Handle) : (s.voidAll h).isUp d = s.isUp d := by
  unfold State.isUp State.voidAll; rw [State.chan_modChans]; rfl

theorem State.isUp_readEntry (h : Handle) : (s.readEntry h).isUp d = s.isUp d := (State.readFrom_readEntry s h d).up

theorem State.isUp_queueFor (h : Handle) (m : TreeMsg) : (s.queueFor h m).isUp d = s.isUp d := by
  unfold State.queueFor
  split
  · rfl
  · dsimp only
    split
    · rw [State.isUp_offerMsg]; rfl
    · rw [State.isUp_takeReport, State.isUp_offerMsg]; rfl

theorem State.isUp_enterLost (h : Handle) : (s.enterLost h).isUp d = s.isUp d := by
  unfold State.enterLost
  split
  · rfl
  · rw [State.isUp_queueFor]; exact State.isUp_rosterLeave s d _ h

theorem State.isUp_enterDismissing (h : Handle) : (s.enterDismissing h).isUp d = s.isUp d := by
  unfold State.enterDismissing
  split
  · rfl
  · rw [State.isUp_queueFor, State.isUp_modTerm, State.isUp_voidAll]
    split
    · exact State.isUp_rosterLeave s d _ h
    · rfl

theorem State.isUp_failAttempt (h : Handle) (o : RangeOutcome) : (s.failAttempt h o).isUp d = s.isUp d := by
  unfold State.failAttempt
  split
  · rfl
  · dsimp only
    split
    · split
      · rw [State.isUp_raise, State.isUp_enterLost, State.isUp_raise, State.isUp_voidAll]
      · rw [State.isUp_enterLost, State.isUp_raise, State.isUp_voidAll]
    · rw [State.isUp_enterDismissing, State.isUp_raise, State.isUp_voidAll]

theorem State.isUp_addRetry (h : Handle) (o : RangeOutcome) : (s.addRetry h o).isUp d = s.isUp d := by
  unfold State.addRetry
  split
  · rfl
  · split
    · rfl
    · split
      · exact State.isUp_failAttempt s d h o
      · rfl

theorem State.isUp_rangeRequest (h : Handle) : (s.rangeRequest h).isUp d = s.isUp d := by
  unfold State.rangeRequest
  split
  · rfl
  · split
    · rfl
    · exact State.isUp_modChan s _ d fun _ => rfl

theorem State.isUp_gapCloseEvent (c : Chan) (h : Handle) (seen : Bool) :
    (s.gapCloseEvent c h seen).isUp d = s.isUp d := by
  unfold State.gapCloseEvent
  dsimp only
  split
  · exact State.isUp_readEntry s d h
  · split
    · split
      · rw [State.isUp_rangeRequest, State.isUp_readEntry]
      · split
        · rw [State.isUp_addRetry, State.isUp_bump, State.isUp_readEntry]
        · rw [State.isUp_rangeRequest, State.isUp_addRetry, State.isUp_bump, State.isUp_readEntry]
    · exact State.isUp_readEntry s d h

theorem State.isUp_quiet (c : Chan) : (s.quiet c).isUp d = s.isUp d := by
  unfold State.quiet
  split
  · rw [State.isUp_raise]; exact State.isUp_modChan s c d fun _ => rfl
  · rfl

theorem State.isUp_closeGap (c : Chan) (g : Gap) : (s.closeGap c g).isUp d = s.isUp d := by
  have k : (s.modChan c fun x => { x with gaps := x.gaps.filter fun g' => !(g'.tag == g.tag) }).isUp d = s.isUp d :=
    State.isUp_modChan s c d fun _ => rfl
  unfold State.closeGap
  dsimp only
  split
  · rw [State.isUp_gapCloseEvent, k]
  · exact k
  · rw [State.isUp_quiet, k]

theorem State.isUp_lapseOne (c : Chan) (tag : Tag) : (s.lapseOne c tag).isUp d = s.isUp d := by
  unfold State.lapseOne
  split
  · rw [State.isUp_bump]
    exact (State.isUp_modChan (f := fun x => { x with lapsed := pushLapsed tag x.lapsed }) _ c d fun _ => rfl).trans
      (State.isUp_closeGap s d c _)
  · rfl

theorem State.isUp_lapseCheck (c : Chan) (n : Cyc) : (s.lapseCheck c n).isUp d = s.isUp d :=
  foldl_keeps _ (fun (st : State) tag => st.lapseOne c tag) (·.isUp d) (fun s tag => State.isUp_lapseOne s d c tag) s
end

end Sys2Proof.Machine
end

section
/-! The service of a consecutive CYCLE (R46): the parts of a service taken by themselves, the choice of an offer and what
the reply carries. -/

namespace Sys2Proof.Machine

/-! ## Spans (R9, R12, R50) -/

/-- Two spans of one timeline share a tick exactly when neither is empty and each starts before the other ends. -/
theorem spans_share_tick (a n b m : Int) : (0 < n ∧ 0 < m ∧ a < b + m ∧ b < a + n) ↔
    ∃ tick, a ≤ tick ∧ tick < a + n ∧ b ≤ tick ∧ tick < b + m := by
  constructor
  · rintro ⟨hn, hm, h1, h2⟩
    exact ⟨max a b, le_max_left _ _, by omega, le_max_right _ _, by omega⟩
  · rintro ⟨tick, h1, h2, h3, h4⟩
    omega

theorem overlaps_iff {L : Nat} {m : Cyc} {start len : Nat} {g : Gap} {lo : Int}
    (hlo : lo = g.start - (m - g.refCycle).toNat * L) : overlaps L m start len g = true ↔
      ∃ tick : Int, (start : Int) ≤ tick ∧ tick < start + len ∧ lo ≤ tick ∧ tick < lo + g.len := by
  rw [← spans_share_tick start len lo g.len]
  subst hlo
  simp only [overlaps, Bool.and_eq_true, decide_eq_true_eq, and_assoc, Nat.cast_pos]

/-! ## The census counters (R58) -/

/-- Census becomes due at this service: PERIODIC mode and the raised counter at the period. -/
def ChanState.comesDue (x : ChanState) : Bool :=
  x.mode == .periodic && decide (x.period ≤ min (x.periodCtr + 1) 65535)

theorem ChanState.comesDue_iff (x : ChanState) :
    x.comesDue = true ↔ x.mode = .periodic ∧ x.period ≤ satSucc x.periodCtr := by
  simp only [ChanState.comesDue, Bool.and_eq_true, beq_iff_eq, decide_eq_true_eq]
  rfl

theorem ChanState.periodDue_of_comesDue {x : ChanState} (k : x.comesDue = true) : x.periodDue = { x with
    periodCtr := min (x.periodCtr + 1) 65535, due := true, dueAge := if x.due then x.dueAge else 0 } :=
  if_pos (x.comesDue_iff.1 k)

theorem ChanState.periodDue_of_not {x : ChanState} (k : x.comesDue = false) : x.periodDue = x :=
  if_neg fun h => by rw [x.comesDue_iff.2 h] at k; cases k

/-- Step 4 of a service as one update. -/
theorem ChanState.bookkeeping_eq (x : ChanState) : x.bookkeeping = { x with
    periodCtr := min (x.periodCtr + 1) 65535
    due := x.due || x.comesDue
    dueAge := if x.due then min (x.dueAge + 1) 65535 else if x.comesDue then 0 else x.dueAge } := by
  have comes := x.comesDue_iff
  cases due : x.due
  · by_cases k : x.mode = .periodic ∧ x.period ≤ satSucc x.periodCtr
    · have k' := comes.2 k
      simp only [ChanState.bookkeeping, ChanState.makeDue, due, k, k', Bool.false_or, if_true, and_self]
      rfl
    · have k' : x.comesDue = false := by rw [← Bool.not_eq_true, comes]; exact k
      simp only [ChanState.bookkeeping, due, k, k', Bool.false_or, if_false, Bool.false_eq_true]
      rw [← due]
      rfl
  · simp only [ChanState.bookkeeping, due, Bool.true_or, if_true]
    rw [← due]
    rfl

theorem ChanState.ReadFrom.comesDue {z y : ChanState} (k : z.ReadFrom y) : y.comesDue = z.comesDue := by
  unfold ChanState.comesDue
  rw [k.mode, k.period, k.periodCtr]

/-! ## The parts of a service taken by themselves (log entry 3) -/

theorem exec_censusPeriodDue {s : State} {c : Chan} (run : s.running) (up : s.isUp c = true) :
    exec (.censusPeriodDue c) s = .next (s.modChan c ChanState.periodDue) :=
  congrArg Host.Outcome.next ((State.whenRunning_running run _).trans (if_pos up))

theorem exec_censusPeriodDue_not_up {s : State} {c : Chan} (run : s.running) (down : s.isUp c = false) :
    exec (.censusPeriodDue c) s = .next s :=
  congrArg Host.Outcome.next ((State.whenRunning_running run _).trans (if_neg (by rw [down]; decide)))

theorem exec_gapLapse {s : State} {c : Chan} (n : Cyc) (run : s.running) (up : s.isUp c = true) :
    exec (.gapLapse c n) s = .next (s.lapseCheck c n) :=
  congrArg Host.Outcome.next ((State.whenRunning_running run _).trans (if_pos up))

theorem exec_offerExpiry {s : State} {c : Chan} (n : Cyc) (run : s.running) (up : s.isUp c = true) :
    exec (.offerExpiry c n) s = .next (s.expireOffer c n) :=
  congrArg Host.Outcome.next ((State.whenRunning_running run _).trans (if_pos up))

theorem Gap.lapsedAt_eq_false {g : Gap} {n : Cyc} (k : 32768 ≤ (n - (g.endCycle + 8)).toNat) :
    g.lapsedAt n = false := decide_eq_false (Nat.not_lt.2 k)

/-- With no gap lapsed the lapse check does nothing (R57). -/
theorem State.lapseCheck_of_none {s : State} {c : Chan} {n : Cyc}
    (k : ∀ g ∈ (s.chan c).gaps, 32768 ≤ (n - (g.endCycle + 8)).toNat) : s.lapseCheck c n = s := by
  have noneLapsed : (s.chan c).gaps.filter (·.lapsedAt n) = [] :=
    List.filter_eq_nil_iff.2 fun g hg => by rw [Gap.lapsedAt_eq_false (k g hg)]; decide
  unfold State.lapseCheck
  rw [noneLapsed]
  rfl

/-- An offer whose reference cycle lies ahead stands (R53). -/
theorem State.expireOffer_of_ahead {s : State} {c : Chan} {n : Cyc}
    (k : ∀ o, (s.chan c).offer = some o → o.refCycle ≠ n ∧ (o.refCycle - n).toNat < 32768) : s.expireOffer c n = s := by
  unfold State.expireOffer
  cases e : (s.chan c).offer with
  | none => rfl
  | some o =>
    obtain ⟨ne, ahead⟩ := k o e
    have stands : o.expired n = false := by
      rw [Offer.expired, beq_false_of_ne ne, atOrAfter, decide_eq_true ahead]; rfl
    simp only [stands]
    rfl

/-! ## The choice of an offer (R52) -/

/-- What the search of R52 (b) meets at handle k in state u does not stop it. -/
def State.passesOver (u : State) (c : Chan) (n : Cyc) (k : Handle) : Prop :=
  ∀ t, (u.readEntry k).term k = some t → (u.readEntry k).rangeFits c n k t = false

theorem State.rangeFits_eq_false_iff (s : State) (c : Chan) (n : Cyc) (h : Handle) (t : Terminal) :
    s.rangeFits c n h t = false ↔ ∃ g ∈ (s.chan c).gaps, g.names h = true ∨
      overlaps s.tree.L (n + 2) (rangeSpan s.tree (s.chan c).skew t.estimate).1
        (rangeSpan s.tree (s.chan c).skew t.estimate).2 g = true := by
  simp only [State.rangeFits, List.all_eq_false, Bool.not_eq_true, Bool.and_eq_false_iff, Bool.not_eq_false']
  exact exists_congr fun g => and_congr_right fun _ => Or.comm

theorem State.passesOver_iff (u : State) (c : Chan) (n : Cyc) (k : Handle) :
    u.passesOver c n k ↔ (u.readEntry k).term k = none ∨ ∃ t, (u.readEntry k).term k = some t ∧
      ∃ g ∈ ((u.readEntry k).chan c).gaps, g.names k = true ∨
        overlaps u.tree.L (n + 2) (rangeSpan u.tree (u.chan c).skew t.estimate).1
          (rangeSpan u.tree (u.chan c).skew t.estimate).2 g = true := by
  have skew := (State.readFrom_readEntry u k c).skew
  unfold State.passesOver
  simp only [State.rangeFits_eq_false_iff, skew, State.tree_readEntry]
  cases (u.readEntry k).term k with
  | none => simp
  | some t => simp

/-- Every handle of the list is passed over, each read after those before it. -/
def State.skips (s : State) (c : Chan) (n : Cyc) (l : List Handle) : Prop :=
  ∀ a k b, l = a ++ k :: b → (s.readList a).passesOver c n k

/-- The search reads the handles it passes over and goes on behind them. -/
theorem State.offerRange_append {s : State} {c : Chan} {n : Cyc} {before : List Handle} (after : List Handle)
    (skipped : s.skips c n before) :
    s.offerRange c n (before ++ after) = (s.readList before).offerRange c n after := by
  induction before generalizing s with
  | nil => rfl
  | cons h hs ih =>
    have here : s.passesOver c n h := skipped [] h hs rfl
    have rest : (s.readEntry h).skips c n hs := fun a k b e => skipped (h :: a) k b (by rw [e]; rfl)
    rw [List.cons_append, State.offerRange]
    have goOn := ih rest
    split
    · exact goOn
    · rename_i t ht
      rw [here t ht]
      exact goOn

theorem State.offerRange_of_skips {s : State} {c : Chan} {n : Cyc} {l : List Handle} (skipped : s.skips c n l) :
    s.offerRange c n l = s.readList l := by
  have := State.offerRange_append [] skipped
  rwa [List.append_nil] at this

/-- The first handle whose span fits is offered (R52 (b)). -/
theorem State.offerRange_fits {s : State} {c : Chan} {n : Cyc} {h : Handle} {t : Terminal} (after : List Handle)
    (ht : (s.readEntry h).term h = some t) (fits : (s.readEntry h).rangeFits c n h t = true) :
    s.offerRange c n (h :: after) = (s.readEntry h).makeOffer c n (.range h)
      (rangeSpan (s.readEntry h).tree ((s.readEntry h).chan c).skew t.estimate) := by
  rw [State.offerRange]
  simp only [ht, fits, if_true]

section
variable {s : State} {c : Chan} {n : Cyc}

theorem State.not_overdue (young : (s.chan c).due = false ∨ (s.chan c).dueAge < 16) :
    ¬((s.chan c).due = true ∧ Config.overdueAge ≤ (s.chan c).dueAge) := by
  rintro ⟨due, old⟩
  rcases young with k | k
  · rw [k] at due; cases due
  · exact absurd old (Nat.not_le.2 k)

/-- An overdue census holds everything back while a gap is in flight (R52 (a)). -/
theorem State.chooseOffer_overdue_waits (due : (s.chan c).due = true) (old : 16 ≤ (s.chan c).dueAge)
    (gaps : (s.chan c).gaps ≠ []) : s.chooseOffer c n = s := by
  unfold State.chooseOffer
  dsimp only
  rw [if_pos ⟨due, old⟩, if_neg (by simpa using gaps)]

theorem State.chooseOffer_overdue (due : (s.chan c).due = true) (old : 16 ≤ (s.chan c).dueAge)
    (gaps : (s.chan c).gaps = []) : s.chooseOffer c n = s.offerCensus c n := by
  unfold State.chooseOffer
  dsimp only
  rw [if_pos ⟨due, old⟩, if_pos (by simp [gaps])]

/-- A census gap or four range gaps in flight hold every offer back (R49, R52). -/
theorem State.chooseOffer_full (young : (s.chan c).due = false ∨ (s.chan c).dueAge < 16)
    (full : (∃ g ∈ (s.chan c).gaps, g.isCensus = true) ∨ 4 ≤ ((s.chan c).gaps.filter fun g => !g.isCensus).length) :
    s.chooseOffer c n = s := by
  have gaps : (s.chan c).gaps ≠ [] := by
    rintro e
    rw [e] at full
    simp at full
  have closed : ¬((s.chan c).censusInFlight = false ∧ (s.chan c).rangeGaps < Config.maxRangeGaps) := by
    rintro ⟨no, few⟩
    rcases full with ⟨g, hg, census⟩ | many
    · rw [ChanState.not_censusInFlight no g hg] at census; cases census
    · rw [ChanState.rangeGaps_eq] at few
      exact absurd many (Nat.not_le.2 few)
  unfold State.chooseOffer
  dsimp only
  rw [if_neg (State.not_overdue young), if_neg closed, if_neg (by simp [gaps])]

/-- With room for a range gap the queue is searched, and a due census follows a vain search (R52; log entry 18). -/
theorem State.chooseOffer_open (young : (s.chan c).due = false ∨ (s.chan c).dueAge < 16)
    (ranges : ∀ g ∈ (s.chan c).gaps, g.isCensus = false) (few : (s.chan c).gaps.length ≤ 3) :
    s.chooseOffer c n =
      if ((s.offerRange c n (s.chan c).rangeQ).chan c).offer.isNone = true ∧
          ((s.offerRange c n (s.chan c).rangeQ).chan c).due = true ∧
          ((s.offerRange c n (s.chan c).rangeQ).chan c).gaps.isEmpty = true then
        (s.offerRange c n (s.chan c).rangeQ).offerCensus c n
      else s.offerRange c n (s.chan c).rangeQ := by
  have room : (s.chan c).censusInFlight = false ∧ (s.chan c).rangeGaps < Config.maxRangeGaps := by
    constructor
    · rw [← Bool.not_eq_true, ChanState.censusInFlight_iff]
      rintro ⟨g, hg, answers, kind⟩
      have := ranges g hg
      simp [Gap.isCensus, kind] at this
    · rw [ChanState.rangeGaps_eq]
      exact Nat.lt_succ_of_le ((List.length_filter_le _ _).trans few)
  unfold State.chooseOffer
  dsimp only
  rw [if_neg (State.not_overdue young), if_pos room]

/-- A vain search without a census to offer leaves what the reads leave. -/
theorem State.chooseOffer_nothing (young : (s.chan c).due = false ∨ (s.chan c).dueAge < 16)
    (ranges : ∀ g ∈ (s.chan c).gaps, g.isCensus = false) (few : (s.chan c).gaps.length ≤ 3)
    (quiet : (s.chan c).due = false ∨ (s.chan c).gaps ≠ []) (skipped : s.skips c n (s.chan c).rangeQ) :
    s.chooseOffer c n = s.readList (s.chan c).rangeQ := by
  have kept := State.readFrom_readList s (s.chan c).rangeQ c
  rw [State.chooseOffer_open young ranges few, State.offerRange_of_skips skipped, if_neg]
  rintro ⟨-, due, gaps⟩
  rw [kept.due] at due
  rw [List.isEmpty_iff, kept.gaps_eq_nil] at gaps
  rcases quiet with k | k
  · rw [k] at due; cases due
  · exact k gaps

theorem State.chooseOffer_census (young : (s.chan c).dueAge < 16) (due : (s.chan c).due = true)
    (gaps : (s.chan c).gaps = []) (offer : (s.chan c).offer = none) (skipped : s.skips c n (s.chan c).rangeQ) :
    s.chooseOffer c n = (s.readList (s.chan c).rangeQ).offerCensus c n := by
  have kept := State.readFrom_readList s (s.chan c).rangeQ c
  rw [State.chooseOffer_open (.inr young) (by simp [gaps]) (by simp [gaps]), State.offerRange_of_skips skipped, if_pos]
  exact ⟨by rw [kept.offer offer]; rfl, by rw [kept.due]; exact due, List.isEmpty_iff.2 (kept.gaps_eq_nil.2 gaps)⟩

theorem State.chooseOffer_range {before after : List Handle} {h : Handle} {t : Terminal}
    (young : (s.chan c).due = false ∨ (s.chan c).dueAge < 16)
    (ranges : ∀ g ∈ (s.chan c).gaps, g.isCensus = false) (few : (s.chan c).gaps.length ≤ 3)
    (queue : (s.chan c).rangeQ = before ++ h :: after) (skipped : s.skips c n before)
    (ht : (s.readList (before ++ [h])).term h = some t)
    (fits : (s.readList (before ++ [h])).rangeFits c n h t = true) :
    s.chooseOffer c n = (s.readList (before ++ [h])).makeOffer c n (.range h)
      (rangeSpan (s.readList (before ++ [h])).tree ((s.readList (before ++ [h])).chan c).skew t.estimate) := by
  have read : s.readList (before ++ [h]) = (s.readList before).readEntry h := State.readList_append s before [h]
  rw [read] at ht fits ⊢
  rw [State.chooseOffer_open young ranges few, queue, State.offerRange_append _ skipped,
    State.offerRange_fits after ht fits, if_neg]
  rintro ⟨noOffer, -⟩
  simp [State.makeOffer] at noOffer
end

/-! ## The service as a whole (R46) -/

theorem exec_cycle_consecutive {s : State} {c : Chan} {n last : Cyc} (room : Byte) (run : s.running)
    (link : (s.chan c).link = .up last) (next : n = last + 1) :
    exec (.cycle c n room) s = .next (s.serveCycle c n room) := by
  refine congrArg Host.Outcome.next ((State.whenRunning_running run _).trans ?_)
  simp only [State.takeCycle, link]
  rw [if_pos next]

/-- The state behind the hand-out of a service: step 1 of R46. -/
def State.handedOut (s : State) (c : Chan) (n : Cyc) (room : Byte) : State :=
  (s.modChan c fun x => { x with link := .up n, cycleSeen := true }).handOutStep c room

/-- Choice, counters and reply: steps 3 and 4 of R46 behind the expiry. -/
theorem State.serveCycle_eq {s e : State} {c : Chan} {n : Cyc} {room : Byte}
    (he : ((s.handedOut c n room).lapseCheck c n).expireOffer c n = e) : s.serveCycle c n room =
      match (e.chan c).offer with
      | some _ => (e.modChan c ChanState.bookkeeping).send c (.cycleReply n (s.carried c room) none)
      | none => ((e.chooseOffer c n).modChan c ChanState.bookkeeping).send c
          (.cycleReply n (s.carried c room) ((e.chooseOffer c n).chan c).offer) := by
  subst he
  unfold State.serveCycle State.offerStep State.handedOut
  dsimp only
  split <;> simp only [*]

theorem State.handedOut_eq (s : State) (c : Chan) (n : Cyc) (room : Byte) : s.handedOut c n room = { s with
    events := s.events ++ ((handOut (min room.toNat 4) (s.chan c).outq).finals.filter (·.report)).map
      (fun q => Event.finalHandOut c q.msg.kind q.msg.handle)
    chans := s.chans.set c { s.chan c with
      link := .up n
      cycleSeen := true
      outq := (handOut (min room.toNat 4) (s.chan c).outq).queue } } := by
  simp only [State.handedOut, State.handOutStep, State.chan_modChan_same, State.modChan_modChan]
  rfl

/-- State w once the service has set queue, offer and tag counter of channel c, raised the census counters of z and sent
its reply. -/
def State.servedWith (w : State) (c : Chan) (z : ChanState) (q : List Handle) (o : Option Offer) (tag : Tag)
    (reply : TxRecord) : State :=
  { w with
    chans := w.chans.set c { w.chan c with
      periodCtr := min (z.periodCtr + 1) 65535
      due := z.due || z.comesDue
      dueAge := if z.due then min (z.dueAge + 1) 65535 else if z.comesDue then 0 else z.dueAge
      rangeQ := q
      offer := o
      tagCtr := tag
      tx := (w.chan c).tx ++ [reply] } }

/-- Counters and reply behind a choice, the counters being those of the channel before the choice read entries. -/
theorem State.servedWith_eq {w : State} {c : Chan} {z : ChanState} (kept : z.ReadFrom (w.chan c)) (q : List Handle)
    (o : Option Offer) (tag : Tag) (reply : TxRecord) :
    ((w.modChan c fun y => { y with rangeQ := q, offer := o, tagCtr := tag }).modChan c ChanState.bookkeeping).send c
      reply = w.servedWith c z q o tag reply := by
  have comes : ({ w.chan c with rangeQ := q, offer := o, tagCtr := tag } : ChanState).comesDue = z.comesDue :=
    kept.comesDue
  rw [State.send_eq, State.modChan_modChan, State.modChan_modChan, modChan_eq]
  unfold State.servedWith
  rw [ChanState.bookkeeping_eq, comes, ← kept.periodCtr, ← kept.due, ← kept.dueAge]

section
variable {s e w : State} {c : Chan} {n : Cyc} {room : Byte}

/-- While an offer is outstanding none is chosen (R46). -/
theorem State.serveCycle_standing {o : Offer} (he : ((s.handedOut c n room).lapseCheck c n).expireOffer c n = e)
    (standing : (e.chan c).offer = some o) : s.serveCycle c n room = e.servedWith c (e.chan c) (e.chan c).rangeQ
      (some o) (e.chan c).tagCtr (.cycleReply n (s.carried c room) none) := by
  rw [State.serveCycle_eq he, standing]
  have same : (e.modChan c fun y => { y with
      rangeQ := (e.chan c).rangeQ, offer := some o, tagCtr := (e.chan c).tagCtr }) = e :=
    State.modChan_id e c _ (by rw [← standing])
  rw [← State.servedWith_eq (.refl _), same]

/-- A choice that offers nothing leaves state w, in which entries have been read. -/
theorem State.serveCycle_no_offer (he : ((s.handedOut c n room).lapseCheck c n).expireOffer c n = e)
    (noOffer : (e.chan c).offer = none) (choice : e.chooseOffer c n = w) (kept : (e.chan c).ReadFrom (w.chan c)) :
    s.serveCycle c n room = w.servedWith c (e.chan c) (w.chan c).rangeQ none (e.chan c).tagCtr
      (.cycleReply n (s.carried c room) none) := by
  rw [State.serveCycle_eq he, noOffer, choice, kept.offer noOffer]
  have same : (w.modChan c fun y => { y with
      rangeQ := (w.chan c).rangeQ, offer := none, tagCtr := (e.chan c).tagCtr }) = w :=
    State.modChan_id w c _ (by rw [← kept.offer noOffer, ← kept.tagCtr])
  rw [← State.servedWith_eq kept, same]

/-- A choice that offers a gap of kind k, out of state w, in which entries have been read. -/
theorem State.serveCycle_offers {o : Offer} {k : OfferKind} {span : Nat × Nat}
    (he : ((s.handedOut c n room).lapseCheck c n).expireOffer c n = e) (noOffer : (e.chan c).offer = none)
    (choice : e.chooseOffer c n = w.makeOffer c n k span) (kept : (e.chan c).ReadFrom (w.chan c))
    (tree : w.tree = e.tree)
    (ho : o = ⟨(e.chan c).nextTag, k, n + 2, span.1, span.2, endCycle e.tree.L (n + 2) span.1 span.2⟩) :
    s.serveCycle c n room = w.servedWith c (e.chan c) (requestsLeft k (w.chan c).rangeQ) (some o)
      ((e.chan c).nextTag + 1) (.cycleReply n (s.carried c room) (some o)) := by
  have made : w.makeOffer c n k span = w.modChan c fun y => { y with
      rangeQ := requestsLeft k (w.chan c).rangeQ, offer := some o, tagCtr := (e.chan c).nextTag + 1 } := by
    refine State.modChan_congr w c ?_
    rw [kept.nextTag, tree, ho]
  rw [State.serveCycle_eq he, noOffer, choice, made, ← State.servedWith_eq kept, State.chan_modChan_same]
end

theorem State.rangeFits_of {s : State} {c : Chan} {n : Cyc} {h : Handle} {t : Terminal}
    (fits : ∀ g ∈ (s.chan c).gaps, g.names h = false ∧
      overlaps s.tree.L (n + 2) (rangeSpan s.tree (s.chan c).skew t.estimate).1
        (rangeSpan s.tree (s.chan c).skew t.estimate).2 g = false) : s.rangeFits c n h t = true := by
  rw [← Bool.not_eq_false, State.rangeFits_eq_false_iff]
  rintro ⟨g, hg, named | overlap⟩
  · rw [(fits g hg).1] at named; cases named
  · rw [(fits g hg).2] at overlap; cases overlap

/-- What R52 (b) passes over, said of the reads of a service that has come to state e. -/
theorem State.skips_iff {e : State} {c : Chan} {n : Cyc} {passed : State → Handle → Prop} {skipped : List Handle → Prop}
    (hpassed : ∀ u k, passed u k ↔ (u.readEntry k).term k = none ∨ ∃ t, (u.readEntry k).term k = some t ∧
      ∃ g ∈ ((u.readEntry k).chan c).gaps, g.names k = true ∨ overlaps e.tree.L (n + 2)
        (rangeSpan e.tree (e.chan c).skew t.estimate).1 (rangeSpan e.tree (e.chan c).skew t.estimate).2 g = true)
    (hskipped : ∀ l, skipped l ↔ ∀ a k b, l = a ++ k :: b → passed (e.readList a) k) (l : List Handle) :
    skipped l ↔ e.skips c n l := by
  have same (a : List Handle) (k : Handle) : passed (e.readList a) k ↔ (e.readList a).passesOver c n k := by
    rw [hpassed, State.passesOver_iff, State.tree_readList, (State.readFrom_readList e a c).skew]
  simp only [hskipped, same, State.skips]

/-- Settles O49: the service is its parts in order, and the choice of an offer has one equation for each case of R52. -/
theorem cycleServiceOffersAtMostOneGap : Obligations.CycleServiceOffersAtMostOneGap := by
  refine ⟨fun _ _ _ _ => rfl, ?_, ?_, fun _ _ _ _ _ _ => overlaps_iff, ?_,
    fun s c => exec_censusPeriodDue_not_up, ChanState.tagBusy_iff, ?_⟩
  · rintro t S lo hi rfl rfl; rfl
  · rintro t S estimate lo hi rfl rfl; rfl
  · rintro u k (absent | ⟨t, sound⟩)
    · exact State.readEntry_term_none absent
    · exact State.readEntry_sound sound
  · rintro s c n last room x run rfl link
    have up : s.isUp c = true := by simp [State.isUp, ChanState.isUp, link]
    refine ⟨?_, ?_, fun gaps lapsed => ⟨(ChanState.nextTag_spec gaps lapsed).1, (ChanState.nextTag_spec gaps lapsed).2,
      ChanState.nextTag_of_free⟩⟩
    · rintro now hnow
      obtain rfl : now = (s.chan c).comesDue := hnow
      rw [exec_censusPeriodDue run up]
      refine ⟨fun k => ?_, fun k => ?_⟩
      · exact congrArg Host.Outcome.next (State.modChan_congr s c (ChanState.periodDue_of_comesDue k))
      · rw [State.modChan_id s c _ (ChanState.periodDue_of_not k)]
    · rintro m next hm
      obtain rfl : m = s.handedOut c n room := hm.trans (State.handedOut_eq s c n room).symm
      have chan : (s.handedOut c n room).chan c = { s.chan c with
          link := .up n
          cycleSeen := true
          outq := (handOut (min room.toNat 4) (s.chan c).outq).queue } := by
        rw [State.handedOut_eq]; exact PerChan.get_set_same _ _ _
      have run_m : (s.handedOut c n room).running := run
      have up_m : (s.handedOut c n room).isUp c = true := by unfold State.isUp; rw [chan]; rfl
      have run_l : ((s.handedOut c n room).lapseCheck c n).running := by
        unfold State.running; rw [State.lapseCheck_pins]; exact run
      have up_l : ((s.handedOut c n room).lapseCheck c n).isUp c = true := by rw [State.isUp_lapseCheck]; exact up_m
      refine ⟨_, _, exec_gapLapse n run_m up_m, exec_offerExpiry n run_l up_l, fun noneLapsed => ?_, ?_⟩
      · have l_eq : (s.handedOut c n room).lapseCheck c n = s.handedOut c n room :=
          State.lapseCheck_of_none (by rw [chan]; exact noneLapsed)
        refine ⟨l_eq, fun ahead => ?_⟩
        rw [l_eq]
        exact State.expireOffer_of_ahead (by rw [chan]; exact ahead)
      · generalize he : ((s.handedOut c n room).lapseCheck c n).expireOffer c n = e
        rintro z now walk passed skipped served rfl hnow hwalk hpassed hskipped hserved
        obtain rfl : now = (e.chan c).comesDue := hnow
        obtain rfl : walk = e.readList := funext hwalk
        have served_eq (w q o tag sent) : served w q o tag sent =
            w.servedWith c (e.chan c) q o tag (.cycleReply n (s.carried c room) sent) := hserved w q o tag sent
        have skips := State.skips_iff (n := n) hpassed hskipped
        have kept (l : List Handle) := State.readFrom_readList e l c
        have tree (l : List Handle) := State.tree_readList e l
        simp only [served_eq, skips]
        rw [exec_cycle_consecutive room run link next]
        refine ⟨fun o standing => congrArg _ (State.serveCycle_standing he standing), fun noOffer =>
          ⟨fun due old gaps => ?_, fun young full => ?_, fun quiet young ranges few skipped => ?_,
            fun o tag htag ho due gaps => ⟨fun old => ?_, fun young skipped => ?_⟩,
            fun before h after t o tag queue skipped ht htag ho young ranges few fits => ?_⟩⟩
        · exact congrArg _ (State.serveCycle_no_offer he noOffer (State.chooseOffer_overdue_waits due old gaps) (.refl _))
        · exact congrArg _ (State.serveCycle_no_offer he noOffer (State.chooseOffer_full young full) (.refl _))
        · exact congrArg _ (State.serveCycle_no_offer he noOffer
            (State.chooseOffer_nothing young ranges few quiet skipped) (kept _))
        · subst htag
          exact congrArg _ (State.serveCycle_offers he noOffer (State.chooseOffer_overdue due old gaps) (.refl _) rfl ho)
        · subst htag
          refine congrArg _ (State.serveCycle_offers he noOffer (State.chooseOffer_census young due gaps noOffer skipped)
            (kept _) (tree _) ?_)
          rw [tree, (kept _).skew]
          exact ho
        · subst htag
          have span : rangeSpan (e.readList (before ++ [h])).tree ((e.readList (before ++ [h])).chan c).skew t.estimate =
              rangeSpan e.tree (e.chan c).skew t.estimate := by rw [tree, (kept _).skew]
          have fits' : (e.readList (before ++ [h])).rangeFits c n h t = true := by
            refine State.rangeFits_of ?_
            rw [span, tree]
            subst ho
            exact fits
          refine congrArg _ (State.serveCycle_offers he noOffer
            (State.chooseOffer_range young ranges few queue skipped ht fits') (kept _) (tree _) ?_)
          rw [span]
          exact ho

end Sys2Proof.Machine
end

section
/-! The laws of the handles, of the marks and of the retention list (R18, R20, R23): every small change of `Micro` keeps
them, and so does a replacement of the settings. -/

namespace Sys2Proof.Machine

/-! ## Handles (R18) -/

theorem mem_insertEntry {e x : Entry} {l : List Entry} : x ∈ insertEntry e l ↔ x = e ∨ x ∈ l := by
  induction l with
  | nil => simp [insertEntry]
  | cons y ys ih =>
    unfold insertEntry
    split
    · simp
    · simp only [List.mem_cons, ih]; tauto

/-- A new entry keeps the entries in handle order. -/
theorem insertEntry_pairwise {e : Entry} {l : List Entry} (order : (l.map (·.handle)).Pairwise (· < ·))
    (free : ∀ y ∈ l, y.handle ≠ e.handle) : ((insertEntry e l).map (·.handle)).Pairwise (· < ·) := by
  induction l with
  | nil => simp [insertEntry]
  | cons y ys ih =>
    rw [List.map_cons, List.pairwise_cons] at order
    obtain ⟨first, rest⟩ := order
    have ne : y.handle ≠ e.handle := free y List.mem_cons_self
    unfold insertEntry
    split
    · rename_i lt
      rw [List.map_cons, List.map_cons, List.pairwise_cons, List.pairwise_cons]
      refine ⟨fun h mem => ?_, first, rest⟩
      rcases List.mem_cons.1 mem with rfl | mem
      · exact lt
      · exact lt.trans (first h mem)
    · rename_i notLt
      rw [List.map_cons, List.pairwise_cons]
      refine ⟨fun h mem => ?_, ih rest fun z mem => free z (List.mem_cons_of_mem _ mem)⟩
      obtain ⟨z, hz, rfl⟩ := List.mem_map.1 mem
      rcases mem_insertEntry.1 hz with rfl | hz
      · have le : y.handle ≤ z.handle := Nat.le_of_not_lt notLt
        exact lt_of_le_of_ne le ne
      · exact first z.handle (List.mem_map_of_mem hz)

theorem handleLaw_iff {s : State} : HandleLaw s ↔ s.inOrder ∧ ∀ h ∈ s.heldHandles, 1 ≤ h ∧ h ≤ 511 := by
  refine and_congr_right fun _ => ⟨fun law h mem => ?_, fun law e mem => law e.handle (List.mem_map_of_mem mem)⟩
  obtain ⟨e, he, rfl⟩ := List.mem_map.1 mem
  exact law e he

theorem HandleLaw.of_sublist {s t : State} (law : HandleLaw s) (k : t.heldHandles.Sublist s.heldHandles) :
    HandleLaw t := by
  obtain ⟨order, range⟩ := handleLaw_iff.1 law
  exact handleLaw_iff.2 ⟨List.Pairwise.sublist k order, fun h mem => range h (k.subset mem)⟩

theorem State.not_holds_iff {s : State} {h : Handle} : s.holds h = false ↔ ∀ e ∈ s.registry, e.handle ≠ h := by
  simp [State.holds]

@[simp] theorem State.createEntry_registry (s : State) (h : Handle) (m : Mark) (c : Chan) (coarse : Int) :
    (s.createEntry h m c coarse).registry = insertEntry ⟨h, .sound, some (newTerminal m c coarse)⟩ s.registry := by
  unfold State.createEntry; dsimp only; split <;> rfl

theorem HandleLaw.createEntry {s : State} (law : HandleLaw s) {h : Handle} (free : s.holds h = false) (lo : 1 ≤ h)
    (hi : h ≤ 511) (m : Mark) (c : Chan) (coarse : Int) : HandleLaw (s.createEntry h m c coarse) := by
  obtain ⟨order, range⟩ := law
  unfold HandleLaw
  rw [State.createEntry_registry]
  refine ⟨insertEntry_pairwise order (State.not_holds_iff.1 free), fun e mem => ?_⟩
  rcases mem_insertEntry.1 mem with rfl | mem
  · exact ⟨lo, hi⟩
  · exact range e mem

/-- An update that keeps the handle of each entry keeps the handles held. -/
theorem State.heldHandles_of_map {s t : State} {f : Entry → Entry} (reg : t.registry = s.registry.map f)
    (k : ∀ e, (f e).handle = e.handle) : t.heldHandles = s.heldHandles := by
  unfold State.heldHandles
  rw [reg, List.map_map]
  exact List.map_congr_left fun e _ => k e

@[simp] theorem State.heldHandles_modTerm (s : State) (h : Handle) (f : Terminal → Terminal) :
    (s.modTerm h f).heldHandles = s.heldHandles :=
  State.heldHandles_of_map rfl fun e => Entry.modTerm_handle e h f

@[simp] theorem State.heldHandles_storeDamaged (s : State) (h : Handle) :
    (s.storeDamaged h).heldHandles = s.heldHandles :=
  State.heldHandles_of_map rfl fun e => by split <;> simp_all

theorem State.heldHandles_setEntry (s : State) {h : Handle} {e : Entry} (he : e.handle = h) :
    (s.setEntry h e).heldHandles = s.heldHandles :=
  State.heldHandles_of_map rfl fun x => by split <;> simp_all

@[simp] theorem State.heldHandles_replaceSettings (s : State) (u : TreeSettings) :
    (s.replaceSettings u).heldHandles = s.heldHandles := by
  unfold State.replaceSettings State.heldHandles
  dsimp only
  split
  · rfl
  · rw [List.map_map]; rfl

/-- A small change creates an entry, or no handle joins those held. -/
theorem Micro.heldHandles_cases {s t : State} (m : Micro s t) : t.heldHandles.Sublist s.heldHandles ∨
    ∃ h m c coarse, s.holds h = false ∧ 1 ≤ h ∧ h ≤ 511 ∧ t = s.createEntry h m c coarse := by
  have same (e : t.heldHandles = s.heldHandles) : t.heldHandles.Sublist s.heldHandles := by rw [e]
  cases m with
  | other _ _ registry => exact .inl (same (congrArg (List.map Entry.handle) registry))
  | term h f => exact .inl (same (State.heldHandles_modTerm s h f))
  | fields h f => exact .inl (same (State.heldHandles_modTerm s h f))
  | repair h e he => exact .inl (same (State.heldHandles_setEntry s (e := { e with flaw := .sound }) (State.entry_handle (e := e) he)))
  | damage h => exact .inl (same (State.heldHandles_storeDamaged s h))
  | free h => exact .inl (List.Sublist.map _ List.filter_sublist)
  | create h m c coarse free lo hi => exact .inr ⟨h, m, c, coarse, free, lo, hi, rfl⟩
  | reEnrol h t ht c coarse n => exact .inl (same (State.heldHandles_modTerm s h _))
  | lose h t ht present age sent => exact .inl (same (State.heldHandles_modTerm s h _))
  | full => exact .inl (List.nil_sublist _)
  | _ => exact .inl (same rfl)

theorem Micro.keeps_handleLaw {s t : State} (m : Micro s t) (law : HandleLaw s) : HandleLaw t := by
  rcases m.heldHandles_cases with k | ⟨h, mark, c, coarse, free, lo, hi, rfl⟩
  · exact law.of_sublist k
  · exact law.createEntry free lo hi mark c coarse

theorem Micros.keeps_handleLaw {s t : State} (m : Micros s t) (law : HandleLaw s) : HandleLaw t := by
  induction m with
  | refl => exact law
  | tail _ m ih => exact m.keeps_handleLaw ih

/-! ## Flaws (log entry 7) -/

theorem State.allSound_of_map {s t : State} {f : Entry → Entry} (reg : t.registry = s.registry.map f)
    (k : ∀ e, (f e).flaw = e.flaw ∨ (f e).flaw = .sound) (law : s.allSound) : t.allSound := by
  intro e mem
  rw [reg] at mem
  obtain ⟨x, hx, rfl⟩ := List.mem_map.1 mem
  rcases k x with e | e
  · rw [e]; exact law x hx
  · exact e

theorem Entry.modTerm_flaw (e : Entry) (h : Handle) (f : Terminal → Terminal) : (e.modTerm h f).flaw = e.flaw := by
  unfold Entry.modTerm; split <;> rfl

theorem State.allSound_modTerm {s : State} (law : s.allSound) (h : Handle) (f : Terminal → Terminal) :
    (s.modTerm h f).allSound := State.allSound_of_map rfl (fun e => .inl (Entry.modTerm_flaw e h f)) law

theorem Micro.keeps_allSound {s t : State} (m : Micro s t) (law : s.allSound) : t.allSound := by
  cases m with
  | other _ _ registry => intro e mem; rw [registry] at mem; exact law e mem
  | term h f => exact State.allSound_modTerm law h f
  | fields h f => exact State.allSound_modTerm law h f
  | repair h e => exact State.allSound_of_map rfl (fun x => by split <;> simp) law
  | damage h => exact State.allSound_of_map rfl (fun x => by split <;> simp) law
  | free h => exact fun e mem => law e (List.mem_of_mem_filter mem)
  | create h m c coarse =>
    intro e mem
    rw [State.createEntry_registry] at mem
    rcases mem_insertEntry.1 mem with rfl | mem
    · rfl
    · exact law e mem
  | reEnrol h t ht c coarse n => exact State.allSound_modTerm law h _
  | lose h t ht present age sent => exact State.allSound_modTerm law h _
  | full => exact fun e mem => absurd mem List.not_mem_nil
  | _ => exact law

theorem State.replaceSettings_keeps_allSound {s : State} (u : TreeSettings) (law : s.allSound) :
    (s.replaceSettings u).allSound := by
  by_cases e : u.V = s.tree.V
  · intro x mem; exact law x (by simpa [State.replaceSettings, e] using mem)
  · exact State.allSound_of_map (f := Entry.clearStreak) (if_neg e) (fun _ => .inl rfl) law

/-- Settles O11: a small change creates an entry under a free handle or adds no handle, and none sets a flaw. -/
theorem stepKeepsTheHandleLaw : Obligations.StepKeepsTheHandleLaw := by
  intro s t e law
  refine ⟨?_, fun sound => ?_⟩
  · exact kept_by_step (P := HandleLaw) (fun _ _ m => m.keeps_handleLaw)
      (fun s1 u _ _ _ _ law => law.of_sublist (by rw [State.heldHandles_replaceSettings])) law e
  · exact kept_by_step (P := fun s => s.allSound) (fun _ _ m => m.keeps_allSound)
      (fun _ u _ _ _ _ law => State.replaceSettings_keeps_allSound u law) sound e

/-! ## Marks (R20) -/

/-- A repair leaves the fields of every entry (R33). -/
theorem State.term_repair {s : State} {k : Handle} {e : Entry} (he : s.entry k = some e) (h : Handle) :
    (s.setEntry k { e with flaw := .sound }).term h = s.term h := by
  unfold State.term
  rw [State.entry_setEntry s k h { e with flaw := .sound } (State.entry_handle (e := e) he)]
  by_cases hk : h = k
  · subst hk; rw [if_pos rfl, he]; rfl
  · rw [if_neg hk]

@[simp] theorem Terminal.clearStreak_mark (t : Terminal) : t.clearStreak.mark = t.mark := by
  unfold Terminal.clearStreak; split <;> rfl
@[simp] theorem Terminal.clearStreak_isLost (t : Terminal) : t.clearStreak.phase.isLost = t.phase.isLost := by
  unfold Terminal.clearStreak
  split
  · rename_i e; rw [e]; rfl
  · rfl

/-- A replacement of the settings clears the streak of an entry or leaves it (R8). -/
theorem State.term_replaceSettings_eq (s : State) (u : TreeSettings) (h : Handle) :
    (s.replaceSettings u).term h = s.term h ∨ (s.replaceSettings u).term h = (s.term h).map Terminal.clearStreak := by
  by_cases e : u.V = s.tree.V
  · exact .inl (State.term_congr (if_pos e) h)
  · refine .inr ?_
    have reg : (s.replaceSettings u).registry = s.registry.map Entry.clearStreak := if_neg e
    unfold State.term State.entry
    rw [reg, find_map_handle (f := Entry.clearStreak) fun _ => rfl]
    cases s.registry.find? fun e => e.handle == h <;> rfl

theorem State.mark_replaceSettings {s : State} {u : TreeSettings} {h : Handle} {v : Terminal}
    (hv : (s.replaceSettings u).term h = some v) : ∃ w, s.term h = some w ∧ w.mark = v.mark := by
  rcases State.term_replaceSettings_eq s u h with e | e
  · exact ⟨v, e.symm.trans hv, rfl⟩
  · obtain ⟨w, hw, rfl⟩ := Option.map_eq_some_iff.1 (e.symm.trans hv)
    exact ⟨w, hw, (Terminal.clearStreak_mark w).symm⟩

@[simp] theorem State.createEntry_retention (s : State) (h : Handle) (m : Mark) (c : Chan) (coarse : Int) :
    (s.createEntry h m c coarse).retention = s.retention := by
  unfold State.createEntry; dsimp only; split <;> rfl

/-- A small change creates an entry for a mark that may be registered, or each entry keeps its mark. -/
theorem Micro.mark_cases {s t : State} (m : Micro s t) :
    (∃ h mark c coarse, s.holds h = false ∧ (s.findMark mark = none ∨ (s.waitingItem mark).isSome = true) ∧
      t = s.createEntry h mark c coarse) ∨
      ∀ h u, t.term h = some u → ∃ v, s.term h = some v ∧ v.mark = u.mark := by
  have modified {k : Handle} {f : Terminal → Terminal} (mark : ∀ v, s.term k = some v → (f v).mark = v.mark) (h u)
      (e : (s.modTerm k f).term h = some u) : ∃ v, s.term h = some v ∧ v.mark = u.mark := by
    by_cases hk : h = k
    · subst hk
      rw [State.term_modTerm_same] at e
      obtain ⟨v, hv, rfl⟩ := Option.map_eq_some_iff.1 e
      exact ⟨v, hv, (mark v hv).symm⟩
    · rw [State.term_modTerm_ne s hk] at e; exact ⟨u, e, rfl⟩
  cases m with
  | other _ _ registry => exact .inr fun h u e => ⟨u, (State.term_congr registry h).symm.trans e, rfl⟩
  | term k f v hv keeps =>
    refine .inr (modified fun w hw => ?_)
    obtain rfl : v = w := Option.some.inj (hv.symm.trans hw)
    exact keeps.mark
  | fields k f keeps => exact .inr (modified fun v _ => (keeps v).1)
  | repair k y hy =>
    exact .inr fun h u e => ⟨u, (State.term_repair hy h).symm.trans e, rfl⟩
  | damage k =>
    refine .inr fun h u e => ?_
    rw [State.term_storeDamaged] at e
    split at e
    · cases e
    · exact ⟨u, e, rfl⟩
  | free k =>
    refine .inr fun h u e => ?_
    have e' : (s.freeEntry k false).term h = some u := (State.term_congr (State.freeEntry_registry s k false) h).trans e
    rw [State.term_freeEntry] at e'
    split at e'
    · cases e'
    · exact ⟨u, e', rfl⟩
  | create k mark c coarse held _ _ known => exact .inl ⟨k, mark, c, coarse, held, known, rfl⟩
  | reEnrol k v hv c coarse n =>
    exact .inr fun h u e => modified (k := k) (f := fun u => u.reEnrolled c coarse n) (fun _ _ => rfl) h u e
  | lose k v hv present age sent =>
    exact .inr fun h u e => modified (k := k)
      (f := fun u => { u with moveFlag := false, phase := .lost v.phase.final age sent }) (fun _ _ => rfl) h u e
  | full => exact .inr fun h u e => by cases e
  | _ => exact .inr fun h u e => ⟨u, e, rfl⟩

theorem State.mem_waiting_of_createEntry {s : State} {h : Handle} {m : Mark} {c : Chan} {coarse : Int} {i : PendingItem}
    (mem : i ∈ (s.createEntry h m c coarse).waiting) : i ∈ s.waiting := by
  unfold State.createEntry at mem
  dsimp only at mem
  split at mem
  · exact List.mem_of_mem_filter mem
  · exact mem

/-- The marks that wait after a small change waited before it, or one joins them that no entry holds. -/
theorem Micro.waiting_cases {s t : State} (m : Micro s t) {i : PendingItem} (mem : i ∈ t.waiting) :
    (∃ j ∈ s.waiting, j.mark = i.mark) ∨ s.findMark i.mark = none := by
  cases m with
  | other _ _ _ _ _ waiting => rw [waiting] at mem; exact .inl ⟨i, mem, rfl⟩
  | waiting l sub =>
    obtain ⟨j, hj, e⟩ := List.mem_map.1 (sub.subset (List.mem_map_of_mem mem))
    exact .inl ⟨j, hj, e⟩
  | append j room free fresh =>
    rcases List.mem_append.1 mem with mem | mem
    · exact .inl ⟨i, mem, rfl⟩
    · obtain rfl := List.mem_singleton.1 mem
      exact .inr free
  | create h m c coarse =>
    exact .inl ⟨i, State.mem_waiting_of_createEntry mem, rfl⟩
  | full => cases mem
  | _ => exact .inl ⟨i, mem, rfl⟩

/-- The mark of a new entry is not pending. -/
theorem State.waiting_createEntry_ne {s : State} {h : Handle} {m : Mark} {c : Chan} {coarse : Int} {i : PendingItem}
    (mem : i ∈ (s.createEntry h m c coarse).waiting) : i.mark ≠ m := by
  unfold State.createEntry at mem
  dsimp only at mem
  split at mem
  · have := (List.mem_filter.1 mem).2
    simpa using this
  · rename_i none
    intro e
    refine none (List.find?_isSome.2 ⟨i, mem, ?_⟩)
    simpa using e

/-- A mark that may be registered is held by no entry. -/
theorem MarkLaw.unheld {s : State} (law : MarkLaw s) {m : Mark}
    (known : s.findMark m = none ∨ (s.waitingItem m).isSome = true) : ∀ h t, s.term h = some t → t.mark ≠ m := by
  rcases known with free | waits
  · exact State.findMark_eq_none.1 free
  · obtain ⟨i, mem, e⟩ := List.find?_isSome.1 waits
    intro h t ht em
    exact law.2 h t ht i mem ((eq_of_beq e).trans em.symm)

theorem MarkLaw.createEntry {s : State} (law : MarkLaw s) {h : Handle} {m : Mark} (free : s.holds h = false)
    (known : s.findMark m = none ∨ (s.waitingItem m).isSome = true) (c : Chan) (coarse : Int) :
    MarkLaw (s.createEntry h m c coarse) := by
  have unheld := law.unheld known
  refine ⟨fun k k' u u' hu hu' same => ?_, fun k u hu i mem => ?_⟩
  · rw [State.term_createEntry s m c coarse free] at hu hu'
    split at hu <;> split at hu'
    · rename_i e e'; rw [e, e']
    · cases hu; exact absurd same.symm (unheld k' u' hu')
    · cases hu'; exact absurd same (unheld k u hu)
    · exact law.1 k k' u u' hu hu' same
  · have ne := State.waiting_createEntry_ne mem
    rw [State.term_createEntry s m c coarse free] at hu
    split at hu
    · cases hu; exact ne
    · exact law.2 k u hu i (State.mem_waiting_of_createEntry mem)

theorem Micro.keeps_markLaw {s t : State} (m : Micro s t) (law : MarkLaw s) : MarkLaw t := by
  rcases m.mark_cases with ⟨h, mark, c, coarse, free, known, rfl⟩ | keeps
  · exact law.createEntry free known c coarse
  · refine ⟨fun h h' u u' hu hu' same => ?_, fun h u hu i mem => ?_⟩
    · obtain ⟨v, hv, e⟩ := keeps h u hu
      obtain ⟨v', hv', e'⟩ := keeps h' u' hu'
      exact law.1 h h' v v' hv hv' (by rw [e, e', same])
    · obtain ⟨v, hv, e⟩ := keeps h u hu
      rw [← e]
      rcases m.waiting_cases mem with ⟨j, hj, ej⟩ | free
      · rw [← ej]; exact law.2 h v hv j hj
      · exact (State.findMark_eq_none.1 free h v hv).symm

/-- The streaks cleared with a change of V (R8) leave every mark. -/
theorem State.replaceSettings_keeps_markLaw {s : State} (u : TreeSettings) (law : MarkLaw s) :
    MarkLaw (s.replaceSettings u) := by
  refine ⟨fun h h' v v' hv hv' same => ?_, fun h v hv i mem => ?_⟩
  · obtain ⟨w, hw, e⟩ := State.mark_replaceSettings hv
    obtain ⟨w', hw', e'⟩ := State.mark_replaceSettings hv'
    exact law.1 h h' w w' hw hw' (by rw [e, e', same])
  · obtain ⟨w, hw, e⟩ := State.mark_replaceSettings hv
    rw [← e]; exact law.2 h w hw i mem

theorem Micros.keeps_markLaw {s t : State} (m : Micros s t) (law : MarkLaw s) : MarkLaw t := by
  induction m with
  | refl => exact law
  | tail _ m ih => exact m.keeps_markLaw ih

/-- Settles O16: a new entry's mark is held by no other and leaves the pending list, and every other change keeps the
mark of each entry. -/
theorem stepKeepsTheLawOfMarks : Obligations.StepKeepsTheLawOfMarks := by
  intro s t e _ law
  exact kept_by_step (P := MarkLaw) (fun _ _ m => m.keeps_markLaw)
    (fun _ u _ _ _ _ law => State.replaceSettings_keeps_markLaw u law) law e

/-! ## The retention list (R23) -/

/-- Handle h holds a LOST entry. -/
def State.isLostAt (s : State) (h : Handle) : Prop := ∃ t, s.term h = some t ∧ t.phase.isLost = true

theorem State.isLostAt_congr {s t : State} {h : Handle} (e : t.term h = s.term h) : t.isLostAt h ↔ s.isLostAt h := by
  unfold State.isLostAt; rw [e]

theorem State.not_isLostAt {s : State} {h : Handle} {t : Terminal} (ht : s.term h = some t)
    (k : t.phase.isLost = false) : ¬s.isLostAt h := by
  rintro ⟨u, hu, lost⟩
  obtain rfl : t = u := Option.some.inj (ht.symm.trans hu)
  rw [k] at lost; cases lost

theorem State.not_isLostAt_of_none {s : State} {h : Handle} (ht : s.term h = none) : ¬s.isLostAt h := by
  rintro ⟨u, hu, -⟩; rw [ht] at hu; cases hu

/-- A change of entry k's fields that leaves it LOST or not leaves the LOST handles. -/
theorem State.isLostAt_modTerm {s : State} {k : Handle} {f : Terminal → Terminal}
    (same : ∀ t, s.term k = some t → (f t).phase.isLost = t.phase.isLost) (h : Handle) :
    (s.modTerm k f).isLostAt h ↔ s.isLostAt h := by
  by_cases e : h = k
  · subst e
    unfold State.isLostAt
    rw [State.term_modTerm_same]
    cases ht : s.term h with
    | none => simp
    | some t => simp [same t ht]
  · exact State.isLostAt_congr (State.term_modTerm_ne s e f)

theorem RetentionLaw.of_same {s t : State} (law : RetentionLaw s) (list : t.retention = s.retention)
    (lost : ∀ h, t.isLostAt h ↔ s.isLostAt h) : RetentionLaw t := by
  obtain ⟨nodup, mem⟩ := law
  exact ⟨by rw [list]; exact nodup, fun h => by rw [list]; exact (mem h).trans (lost h).symm⟩

/-- Handle k leaves the list as its entry stops being LOST. -/
theorem RetentionLaw.leave {s t : State} (law : RetentionLaw s) (k : Handle)
    (list : t.retention = s.retention.filter fun x => !(x == k)) (gone : ¬t.isLostAt k)
    (rest : ∀ h, h ≠ k → (t.isLostAt h ↔ s.isLostAt h)) : RetentionLaw t := by
  obtain ⟨nodup, mem⟩ := law
  refine ⟨by rw [list]; exact nodup.filter _, fun h => ?_⟩
  change _ ↔ t.isLostAt h
  rw [list, List.mem_filter, mem h]
  by_cases e : h = k
  · subst e; simp [gone]
  · simp only [rest h e, beq_eq_false_iff_ne.2 e, Bool.not_false, and_true]; rfl

/-- Handle k joins the end of the list as its entry becomes LOST. -/
theorem RetentionLaw.join {s t : State} (law : RetentionLaw s) (k : Handle) (list : t.retention = s.retention ++ [k])
    (before : ¬s.isLostAt k) (after : t.isLostAt k) (rest : ∀ h, h ≠ k → (t.isLostAt h ↔ s.isLostAt h)) :
    RetentionLaw t := by
  obtain ⟨nodup, mem⟩ := law
  refine ⟨?_, fun h => ?_⟩
  · rw [list]
    refine List.nodup_append.2 ⟨nodup, List.nodup_singleton k, fun a ha b hb e => ?_⟩
    obtain rfl := List.mem_singleton.1 hb
    subst e
    exact before ((mem a).1 ha)
  · change _ ↔ t.isLostAt h
    rw [list, List.mem_append, List.mem_singleton, mem h]
    by_cases e : h = k
    · subst e; simp [after]
    · simp only [rest h e, e, or_false]; rfl

theorem Micro.keeps_retentionLaw {s t : State} (m : Micro s t) (law : RetentionLaw s) : RetentionLaw t := by
  cases m with
  | other _ _ registry retention =>
    exact law.of_same retention fun h => State.isLostAt_congr (State.term_congr registry h)
  | term k f v hv keeps =>
    refine law.of_same rfl (State.isLostAt_modTerm fun w hw => ?_)
    obtain rfl : v = w := Option.some.inj (hv.symm.trans hw)
    exact keeps.lost
  | fields k f keeps =>
    refine law.of_same rfl (State.isLostAt_modTerm fun v _ => ?_)
    rw [(keeps v).2.2]
  | repair k y hy => exact law.of_same rfl fun h => State.isLostAt_congr (State.term_repair hy h)
  | damage k =>
    refine law.leave k rfl (State.not_isLostAt_of_none ?_) fun h e => State.isLostAt_congr ?_
    · rw [State.term_storeDamaged, if_pos rfl]
    · rw [State.term_storeDamaged, if_neg e]
  | free k =>
    have term (h : Handle) := State.term_freeEntry s k h false
    refine law.leave k rfl (State.not_isLostAt_of_none ?_) fun h e => State.isLostAt_congr ?_
    · exact (State.term_congr (State.freeEntry_registry s k false) k).symm.trans ((term k).trans (if_pos rfl))
    · exact (State.term_congr (State.freeEntry_registry s k false) h).symm.trans ((term h).trans (if_neg e))
  | create k mark c coarse held =>
    refine law.of_same (State.createEntry_retention s k mark c coarse) fun h => ?_
    by_cases e : h = k
    · subst e
      have after : ¬(s.createEntry h mark c coarse).isLostAt h :=
        State.not_isLostAt ((State.term_createEntry s mark c coarse held h).trans (if_pos rfl)) rfl
      have before : ¬s.isLostAt h := State.not_isLostAt_of_none (by
        unfold State.term; rw [State.entry_eq_none_of_not_holds held]; rfl)
      simp only [after, before]
    · exact State.isLostAt_congr ((State.term_createEntry s mark c coarse held h).trans (if_neg e))
  | reEnrol k v hv c coarse n =>
    have other (h : Handle) (e : h ≠ k) := State.term_modTerm_ne s e fun u => u.reEnrolled c coarse n
    have own : (s.modTerm k fun u => u.reEnrolled c coarse n).term k = some (v.reEnrolled c coarse n) := by
      rw [State.term_modTerm_same, hv]; rfl
    cases lost : v.phase.isLost with
    | true =>
      exact law.leave k rfl (State.not_isLostAt own rfl) fun h e => State.isLostAt_congr (other h e)
    | false =>
      refine law.of_same rfl (State.isLostAt_modTerm fun w hw => ?_)
      obtain rfl : v = w := Option.some.inj (hv.symm.trans hw)
      exact lost.symm
  | lose k v hv present age sent =>
    refine law.join k rfl (State.not_isLostAt hv present)
      ⟨{ v with moveFlag := false, phase := .lost v.phase.final age sent }, ?_, rfl⟩ fun h e => State.isLostAt_congr ?_
    · exact (State.term_modTerm_same s k _).trans (by rw [hv]; rfl)
    · exact State.term_modTerm_ne s e _
  | full => exact retentionLaw_reset
  | _ => exact law

theorem Micros.keeps_retentionLaw {s t : State} (m : Micros s t) (law : RetentionLaw s) : RetentionLaw t := by
  induction m with
  | refl => exact law
  | tail _ m ih => exact m.keeps_retentionLaw ih

theorem State.replaceSettings_keeps_retentionLaw {s : State} (u : TreeSettings) (law : RetentionLaw s) :
    RetentionLaw (s.replaceSettings u) := by
  refine law.of_same rfl fun h => ?_
  unfold State.isLostAt
  rcases State.term_replaceSettings_eq s u h with e | e
  · rw [e]
  · rw [e]
    cases s.term h with
    | none => simp
    | some v => simp

/-- Settles O17: a handle joins the list as its entry becomes LOST and leaves it as the entry stops being LOST. -/
theorem stepKeepsTheRetentionLaw : Obligations.StepKeepsTheRetentionLaw := by
  intro s t e _ law
  exact kept_by_step (P := RetentionLaw) (fun _ _ m => m.keeps_retentionLaw)
    (fun _ u _ _ _ _ law => State.replaceSettings_keeps_retentionLaw u law) law e

end Sys2Proof.Machine
end

section
/-! Messages (R24, R64 to R69): how a registry message joins an out-queue, what offering one leaves of the state, and the
report of an evicted message, which adds owed kinds to one entry and does nothing else. -/

namespace Sys2Proof.Machine

/-! ## The join of a registry message (R67 to R69) -/

theorem evictYoungest_eq {a b : List QMsg} {v : QMsg} (normal : v.urgent = false) (urgent : ∀ x ∈ b, x.urgent = true) :
    evictYoungest (a ++ v :: b) = some (v, a ++ b) := by
  have rest : evictYoungest b = none := by
    cases e : evictYoungest b with
    | none => rfl
    | some p =>
      obtain ⟨l, r, eb, -, nu, -⟩ := evictYoungest_spec (v := p.1) (r := p.2) e
      have := urgent p.1 (by rw [eb]; simp)
      rw [nu] at this; cases this
  induction a with
  | nil => simp [evictYoungest, rest, normal]
  | cons x xs ih => simp [evictYoungest, ih]

theorem evictYoungest_eq_none {q : List QMsg} (urgent : ∀ x ∈ q, x.urgent = true) : evictYoungest q = none := by
  cases e : evictYoungest q with
  | none => rfl
  | some p =>
    obtain ⟨l, r, eq, -, nu, -⟩ := evictYoungest_spec (v := p.1) (r := p.2) e
    have := urgent p.1 (by rw [eq]; simp)
    rw [nu] at this; cases this

theorem any_sameSlot_iff (r : Nat) (m : TreeMsg) (q : List QMsg) : q.any (registryMsg r m).sameSlot = true ↔
    ∃ x ∈ q, x.msg.kind = m.kind ∧ x.msg.handle = m.handle := by
  rw [List.any_eq_true]
  refine exists_congr fun x => and_congr_right fun _ => (QMsg.sameSlot_iff _ _).trans ?_
  exact and_congr eq_comm eq_comm

section
variable {r : Nat} {m : TreeMsg} {queue q : List QMsg}

theorem joinRegistry_replaces (hq : q = dropSuperseded m queue)
    (stands : ∃ x ∈ q, x.msg.kind = m.kind ∧ x.msg.handle = m.handle) : joinRegistry r m queue =
      ⟨q.map fun z => if z.msg.kind = m.kind ∧ z.msg.handle = m.handle then registryMsg r m else z, true, none⟩ := by
  unfold joinRegistry joinOrReplace
  rw [← hq, if_pos ((any_sameSlot_iff r m q).2 stands)]
  unfold replaceIn
  congr 1
  refine List.map_congr_left fun z _ => ?_
  have same : (registryMsg r m).sameSlot z = true ↔ z.msg.kind = m.kind ∧ z.msg.handle = m.handle := by
    rw [QMsg.sameSlot_iff]; exact ⟨fun ⟨k, h⟩ => ⟨k.symm, h.symm⟩, fun ⟨k, h⟩ => ⟨k.symm, h.symm⟩⟩
  by_cases e : z.msg.kind = m.kind ∧ z.msg.handle = m.handle
  · rw [if_pos e, if_pos (same.2 e)]; rfl
  · rw [if_neg e, if_neg fun k => e (same.1 k)]

theorem joinRegistry_eq_joinTail (hq : q = dropSuperseded m queue)
    (fresh : ∀ x ∈ q, ¬(x.msg.kind = m.kind ∧ x.msg.handle = m.handle)) :
    joinRegistry r m queue = joinTail (registryMsg r m) q := by
  unfold joinRegistry joinOrReplace
  rw [← hq, if_neg fun k => ?_]
  obtain ⟨x, mem, e⟩ := (any_sameSlot_iff r m q).1 k
  exact fresh x mem e

theorem joinTail_room {x : QMsg} (room : q.length < 48) : joinTail x q = ⟨q ++ [x], true, none⟩ := if_pos room

theorem joinTail_full {x : QMsg} (full : 48 ≤ q.length) (no : x.urgent = false ∨ ∀ y ∈ q, y.urgent = true) :
    joinTail x q = ⟨q, false, none⟩ := by
  have big : ¬q.length < Config.outQueueSize := Nat.not_lt.2 full
  unfold joinTail
  rw [if_neg big]
  rcases no with no | no
  · simp [no]
  · rw [evictYoungest_eq_none no]; split <;> rfl

theorem joinTail_evicts {x v : QMsg} {a b : List QMsg} (full : 48 ≤ q.length) (urgent : x.urgent = true)
    (hq : q = a ++ v :: b) (normal : v.urgent = false) (rest : ∀ y ∈ b, y.urgent = true) :
    joinTail x q = ⟨a ++ b ++ [x], true, some v⟩ := by
  have big : ¬q.length < Config.outQueueSize := Nat.not_lt.2 full
  unfold joinTail
  rw [if_neg big, if_pos urgent, hq, evictYoungest_eq normal rest]

end

/-- A taken message stands in the queue with fresh repeats, and an evicted one stood there, of another kind or for
another handle and not superseded by the message. -/
theorem joinRegistry_spec (r : Nat) (m : TreeMsg) (queue : List QMsg) :
    ((joinRegistry r m queue).taken = true → registryMsg r m ∈ (joinRegistry r m queue).queue) ∧
    (∀ v, (joinRegistry r m queue).evicted = some v → (joinRegistry r m queue).taken = true ∧ isUrgentKind m.kind = true ∧
      v ∈ dropSuperseded m queue ∧ ¬(v.msg.kind = m.kind ∧ v.msg.handle = m.handle)) := by
  by_cases stands : ∃ x ∈ dropSuperseded m queue, x.msg.kind = m.kind ∧ x.msg.handle = m.handle
  · rw [joinRegistry_replaces rfl stands]
    refine ⟨fun _ => ?_, fun v e => by cases e⟩
    obtain ⟨x, mem, same⟩ := stands
    exact List.mem_map.2 ⟨x, mem, if_pos same⟩
  · have fresh : ∀ x ∈ dropSuperseded m queue, ¬(x.msg.kind = m.kind ∧ x.msg.handle = m.handle) :=
      fun x mem same => stands ⟨x, mem, same⟩
    rw [joinRegistry_eq_joinTail rfl fresh]
    by_cases room : (dropSuperseded m queue).length < 48
    · rw [joinTail_room room]; exact ⟨fun _ => by simp, fun v e => by cases e⟩
    · unfold joinTail
      rw [if_neg (show ¬(dropSuperseded m queue).length < Config.outQueueSize from room)]
      split
      · rename_i urgent
        split
        · rename_i v rest e
          obtain ⟨a, b, eq, rfl, -, -⟩ := evictYoungest_spec e
          have mem : v ∈ dropSuperseded m queue := by rw [eq]; simp
          refine ⟨fun _ => by simp, fun w ew => ?_⟩
          obtain rfl : v = w := Option.some.inj ew
          exact ⟨rfl, urgent, mem, fresh v mem⟩
        · exact ⟨nofun, nofun⟩
      · exact ⟨nofun, nofun⟩

/-! ## Reports (R24, R69) -/

theorem State.refusedOwes_eq_false (s : State) (t : Terminal) (k : MsgKind) : s.refusedOwes t k = false ↔
    k = .dismiss ∧ t.phase.isDismissing = true ∧ s.isUp t.home = false := by
  unfold State.refusedOwes
  cases k <;> cases t.phase.isDismissing <;> cases s.isUp t.home <;> decide

theorem State.refusedOwes_of_kind (s : State) (t : Terminal) {k : MsgKind} (e : k ≠ .dismiss) :
    s.refusedOwes t k = true := by
  rw [← Bool.not_eq_false, State.refusedOwes_eq_false]; exact fun ⟨k, _, _⟩ => e k

theorem State.refusedOwes_of_phase (s : State) {t : Terminal} (k : MsgKind) (e : t.phase.isDismissing = false) :
    s.refusedOwes t k = true := by
  rw [← Bool.not_eq_false, State.refusedOwes_eq_false, e]; exact fun ⟨_, d, _⟩ => by cases d

theorem State.refusedOwes_of_up {s : State} {t : Terminal} (k : MsgKind) (e : s.isUp t.home = true) :
    s.refusedOwes t k = true := by
  rw [← Bool.not_eq_false, State.refusedOwes_eq_false, e]; exact fun ⟨_, _, u⟩ => by cases u

/-- An evicted or not taken message is reported alike (R69). -/
theorem State.takeReport_refused (s : State) {why : ReportCause} (e : why ≠ .discarded) (c : Chan) (k : MsgKind)
    (h : Handle) : s.takeReport why c k h =
      s.modTerm h fun t => if s.refusedOwes t k then t.makeOwed k else t := by
  cases why
  · rfl
  · rfl
  · exact absurd rfl e

theorem Terminal.makeOwed_of_ne {k : MsgKind} (e : k ≠ .trimDelay) (t : Terminal) :
    t.makeOwed k = { t with owed := (t.owed.dropFor k).add k } := by
  cases k with
  | trimDelay => exact absurd rfl e
  | _ => rfl

theorem Terminal.makeOwed_trim {t : Terminal} {fix : Fix} {d : Drift} {n : Nat} {ch : Int} (e : t.phase = .active fix d n)
    (pending : d.trimPending = some ch) : t.makeOwed .trimDelay = { t with owed := { t.owed with trim := some ch } } := by
  simp [Terminal.makeOwed, e, pending]

theorem Terminal.makeOwed_no_trim {t : Terminal} (idle : ∀ fix d n, t.phase = .active fix d n → d.trimPending = none) :
    t.makeOwed .trimDelay = t := by
  unfold Terminal.makeOwed
  dsimp only
  split
  · rename_i fix d n e
    rw [idle fix d n e]
  · rfl

/-- A kind made owed changes the owed set alone. -/
theorem Terminal.makeOwed_eq (t : Terminal) (k : MsgKind) : t.makeOwed k = { t with owed := (t.makeOwed k).owed } := by
  unfold Terminal.makeOwed; (repeat' split) <;> rfl

/-! ## Entries to which reports add owed kinds -/

/-- The entry with some kinds made owed, one after the other. -/
def Entry.owing (ks : List MsgKind) (e : Entry) : Entry :=
  { e with term := e.term.map fun t => ks.foldl Terminal.makeOwed t }

/-- Handle k holds in t what it holds in s, with kinds made owed by reports. -/
def State.Owing (s t : State) (k : Handle) : Prop := ∃ ks, t.entry k = (s.entry k).map (Entry.owing ks)

theorem Terminal.foldl_makeOwed_eq (ks : List MsgKind) (t : Terminal) :
    ks.foldl Terminal.makeOwed t = { t with owed := (ks.foldl Terminal.makeOwed t).owed } := by
  induction ks generalizing t with
  | nil => rfl
  | cons k ks ih => rw [List.foldl_cons, ih, Terminal.makeOwed_eq]

theorem State.Owing.of_entry {s t : State} {k : Handle} (e : t.entry k = s.entry k) : State.Owing s t k := by
  refine ⟨[], ?_⟩
  rw [e]
  cases s.entry k with
  | none => rfl
  | some x => rcases x with ⟨h, f, _ | u⟩ <;> rfl

theorem State.Owing.refl (s : State) (k : Handle) : State.Owing s s k := .of_entry rfl

theorem State.Owing.trans {s t u : State} {k : Handle} (a : State.Owing s t k) (b : State.Owing t u k) :
    State.Owing s u k := by
  obtain ⟨ks, ea⟩ := a
  obtain ⟨ls, eb⟩ := b
  refine ⟨ks ++ ls, ?_⟩
  rw [eb, ea]
  cases s.entry k with
  | none => rfl
  | some x => simp [Entry.owing, List.foldl_append, Function.comp_def]

theorem State.Owing.congr {s t t' : State} {k : Handle} (a : State.Owing s t k) (e : t'.registry = t.registry) :
    State.Owing s t' k := a.trans (.of_entry (State.entry_congr e k))

/-- A handle that holds no entry, or a DAMAGED one, holds the same. -/
theorem State.Owing.entry_none {s t : State} {k : Handle} (a : State.Owing s t k) (absent : s.term k = none) :
    t.entry k = s.entry k := by
  obtain ⟨ks, e⟩ := a
  rw [e]
  cases he : s.entry k with
  | none => rfl
  | some x =>
    have : x.term = none := by simpa [State.term, he] using absent
    rcases x with ⟨h, f, _ | u⟩
    · rfl
    · cases this

theorem State.Owing.entry {s t : State} {k : Handle} (a : State.Owing s t k) {f : Flaw} {u : Terminal}
    (he : s.entry k = some ⟨k, f, some u⟩) : ∃ o, t.entry k = some ⟨k, f, some { u with owed := o }⟩ := by
  obtain ⟨ks, e⟩ := a
  refine ⟨(ks.foldl Terminal.makeOwed u).owed, ?_⟩
  rw [e, he, ← Terminal.foldl_makeOwed_eq]
  rfl

theorem State.Owing.term {s t : State} {k : Handle} (a : State.Owing s t k) {u : Terminal} (hu : s.term k = some u) :
    ∃ o, t.term k = some { u with owed := o } := by
  obtain ⟨ks, e⟩ := a
  obtain ⟨x, hx, ex⟩ := State.entry_of_term hu
  refine ⟨(ks.foldl Terminal.makeOwed u).owed, ?_⟩
  unfold State.term
  rw [e, hx, ← Terminal.foldl_makeOwed_eq]
  simp [Entry.owing, ex]

theorem State.Owing.term_none {s t : State} {k : Handle} (a : State.Owing s t k) (absent : s.term k = none) :
    t.term k = none := by
  rw [← absent]; unfold State.term; rw [a.entry_none absent]

theorem Entry.eta_of_term {e : Entry} {t : Option Terminal} (k : e.term = t) : { e with term := t } = e := by
  rw [← k]

theorem State.Owing.takeReport (s : State) (why : ReportCause) (c : Chan) (kind : MsgKind) (h k : Handle) :
    State.Owing s (s.takeReport why c kind h) k := by
  have owed (p : Terminal → Bool) : State.Owing s (s.modTerm h fun t => if p t then t.makeOwed kind else t) k := by
    by_cases e : k = h
    · subst e
      have entry := State.entry_modTerm s k k fun t => if p t then t.makeOwed kind else t
      cases he : s.entry k with
      | none => exact .of_entry (by rw [entry, he]; rfl)
      | some x =>
        have hx : x.handle = k := State.entry_handle he
        cases ht : x.term with
        | none =>
          exact .of_entry (by rw [entry, he, Option.map_some, Entry.modTerm, if_pos hx, ht]; exact congrArg some (Entry.eta_of_term ht))
        | some t =>
          refine ⟨if p t then [kind] else [], ?_⟩
          rw [entry, he]
          cases hp : p t <;> simp [Entry.modTerm, Entry.owing, hx, ht, hp]
    · exact .of_entry (State.entry_modTerm_ne s e _)
  cases why
  · exact owed fun t => s.refusedOwes t kind
  · exact owed fun t => s.refusedOwes t kind
  · exact owed fun t => t.discardOwes c kind

theorem State.Owing.offerMsg (s : State) (c : Chan) (m : TreeMsg) (k : Handle) :
    State.Owing s (s.offerMsg c m).1 k := by
  unfold State.offerMsg
  split
  · dsimp only
    split
    · rename_i v _
      exact State.Owing.trans (.of_entry rfl) (.takeReport _ .evicted c v.msg.kind v.msg.handle k)
    · exact .of_entry rfl
  · exact .refl s k

/-- A message queued for entry h changes the owed sets of the others alone, by the report of an evicted message. -/
theorem State.Owing.queueFor (s : State) {h k : Handle} (e : k ≠ h) (m : TreeMsg) :
    State.Owing s (s.queueFor h m) k := by
  unfold State.queueFor
  split
  · exact .refl s k
  · rename_i t _
    have first : State.Owing s (s.modTerm h fun u => { u with owed := u.owed.dropFor m.kind }) k :=
      .of_entry (State.entry_modTerm_ne s e _)
    have offered := first.trans (.offerMsg _ t.home m k)
    dsimp only
    split
    · exact offered
    · exact offered.trans (.takeReport _ .notTaken t.home m.kind h k)

/-! ## What a message leaves of the state -/

/-- What a message or a change of an entry's fields leaves: the state but registry and channels, of each channel all but
its out-queue, and the handles held. -/
structure State.Told (s t : State) : Prop where
  whole : t = { s with registry := t.registry, chans := t.chans }
  chan : ∀ c, t.chan c = { s.chan c with outq := (t.chan c).outq }
  handles : t.heldHandles = s.heldHandles

theorem State.Told.refl (s : State) : State.Told s s := ⟨rfl, fun _ => rfl, rfl⟩

theorem State.Told.trans {s t u : State} (a : State.Told s t) (b : State.Told t u) : State.Told s u where
  whole := by rw [b.whole, a.whole]
  chan c := by rw [b.chan c, a.chan c]
  handles := b.handles.trans a.handles

theorem State.Told.modTerm (s : State) (h : Handle) (f : Terminal → Terminal) : State.Told s (s.modTerm h f) :=
  ⟨rfl, fun _ => rfl, State.heldHandles_modTerm s h f⟩

theorem State.Told.outq (s : State) (c : Chan) (q : List QMsg) :
    State.Told s (s.modChan c fun x => { x with outq := q }) where
  whole := rfl
  chan d := by
    rw [State.chan_modChan]
    split
    · rename_i e; rw [e]
    · rfl
  handles := rfl

theorem State.Told.takeReport (s : State) (why : ReportCause) (c : Chan) (k : MsgKind) (h : Handle) :
    State.Told s (s.takeReport why c k h) := by
  cases why <;> exact .modTerm s h _

theorem State.Told.offerMsg (s : State) (c : Chan) (m : TreeMsg) : State.Told s (s.offerMsg c m).1 := by
  unfold State.offerMsg
  split
  · dsimp only
    split
    · rename_i v _
      exact State.Told.trans (.outq s c _) (.takeReport _ .evicted c v.msg.kind v.msg.handle)
    · exact .outq s c _
  · exact .refl s

theorem State.Told.queueFor (s : State) (h : Handle) (m : TreeMsg) : State.Told s (s.queueFor h m) := by
  unfold State.queueFor
  split
  · exact .refl s
  · rename_i t _
    have offered := (State.Told.modTerm s h fun u => { u with owed := u.owed.dropFor m.kind }).trans
      (.offerMsg _ t.home m)
    dsimp only
    split
    · exact offered
    · exact offered.trans (.takeReport _ .notTaken t.home m.kind h)

theorem State.Told.isUp {s t : State} (a : State.Told s t) (c : Chan) : t.isUp c = s.isUp c := by
  unfold State.isUp; rw [a.chan c]; rfl

theorem State.isUp_outq (s : State) (c : Chan) (q : List QMsg) (d : Chan) :
    (s.modChan c fun x => { x with outq := q }).isUp d = s.isUp d := (State.Told.outq s c q).isUp d

theorem State.Told.tree {s t : State} (a : State.Told s t) : t.tree = s.tree := by rw [a.whole]

theorem State.Told.retention {s t : State} (a : State.Told s t) : t.retention = s.retention := by rw [a.whole]

theorem State.Told.roster {s t : State} (a : State.Told s t) (c : Chan) : (t.chan c).roster = (s.chan c).roster := by
  rw [a.chan c]

theorem State.Told.hasWork {s t : State} (a : State.Told s t) (h : Handle) : t.hasWork h = s.hasWork h := by
  unfold State.hasWork
  congr 1
  funext c
  rw [a.chan c]; rfl

/-- The out-queue of another channel is no part of the offer. -/
theorem State.offerMsg_outq_ne (s : State) {c d : Chan} (e : d ≠ c) (m : TreeMsg) :
    ((s.offerMsg c m).1.chan d).outq = (s.chan d).outq := by
  unfold State.offerMsg
  split
  · dsimp only
    split
    · rw [State.takeReport_chan, State.chan_modChan_ne s e]
    · rw [State.chan_modChan_ne s e]
  · rfl

theorem State.offerMsg_outq_same (s : State) (c : Chan) (m : TreeMsg) : ((s.offerMsg c m).1.chan c).outq =
    if s.isUp c then (joinRegistry s.tree.r m (s.chan c).outq).queue else (s.chan c).outq := by
  unfold State.offerMsg
  split
  · dsimp only
    split
    · rw [State.takeReport_chan, State.chan_modChan_same]
    · rw [State.chan_modChan_same]
  · rfl

theorem State.offerMsg_taken (s : State) (c : Chan) (m : TreeMsg) : (s.offerMsg c m).2 =
    (s.isUp c && (joinRegistry s.tree.r m (s.chan c).outq).taken) := by
  unfold State.offerMsg
  cases s.isUp c with
  | false => rfl
  | true => rw [if_pos rfl, Bool.true_and]; dsimp only; split <;> rfl

/-- An offered message that evicts none leaves the registry alone. -/
theorem State.offerMsg_of_join {s : State} {c : Chan} {m : TreeMsg} {q : List QMsg} {taken : Bool}
    (up : s.isUp c = true) (join : joinRegistry s.tree.r m (s.chan c).outq = ⟨q, taken, none⟩) :
    s.offerMsg c m = (s.modChan c fun x => { x with outq := q }, taken) := by
  simp [State.offerMsg, up, join]

theorem State.offerMsg_of_evict {s : State} {c : Chan} {m : TreeMsg} {q : List QMsg} {taken : Bool} {v : QMsg}
    (up : s.isUp c = true) (join : joinRegistry s.tree.r m (s.chan c).outq = ⟨q, taken, some v⟩) :
    s.offerMsg c m =
      ((s.modChan c fun x => { x with outq := q }).takeReport .evicted c v.msg.kind v.msg.handle, taken) := by
  simp [State.offerMsg, up, join]

theorem State.offerMsg_of_down {s : State} {c : Chan} (m : TreeMsg) (down : s.isUp c = false) :
    s.offerMsg c m = (s, false) := by simp [State.offerMsg, down]

/-- An offered message whose queue takes none of the handle's messages for it leaves the entry of the handle alone: what
it evicts is another handle's. -/
theorem State.entry_offerMsg_of_supersedes {s : State} {c : Chan} {m : TreeMsg}
    (all : isUrgentKind m.kind = true → ∀ k, k ≠ m.kind → supersedes m.kind k = true) :
    (s.offerMsg c m).1.entry m.handle = s.entry m.handle := by
  unfold State.offerMsg
  split
  · dsimp only
    split
    · rename_i v e
      obtain ⟨-, urgent, mem, slot⟩ := (joinRegistry_spec s.tree.r m (s.chan c).outq).2 v e
      have ne : m.handle ≠ v.msg.handle := by
        intro eh
        have kind : v.msg.kind ≠ m.kind := fun ek => slot ⟨ek, eh.symm⟩
        have keep := (List.mem_filter.1 mem).2
        rw [all urgent _ kind] at keep
        simp [eh] at keep
      exact (State.entry_modTerm_ne _ ne _).trans rfl
    · rfl
  · rfl

/-! ## A message queued for an entry (R24, R66 to R69) -/

theorem State.queueFor_eq {s w : State} {h : Handle} {t : Terminal} (ht : s.term h = some t) (m : TreeMsg)
    (hw : w = s.modTerm h fun u => { u with owed := u.owed.dropFor m.kind }) : s.queueFor h m =
      if (w.offerMsg t.home m).2 then (w.offerMsg t.home m).1
      else (w.offerMsg t.home m).1.takeReport .notTaken t.home m.kind h := by
  simp only [State.queueFor, ht, hw]

section
variable {s : State} {h : Handle} {m : TreeMsg} {t : Terminal} {q : List QMsg}

/-- Off a channel that is not UP the message is reported not taken. -/
theorem State.queueFor_down (order : s.inOrder) (ht : s.term h = some t) (down : s.isUp t.home = false) :
    s.queueFor h m = s.modTerm h fun u =>
      if s.refusedOwes t m.kind then ({ u with owed := u.owed.dropFor m.kind } : Terminal).makeOwed m.kind
      else { u with owed := u.owed.dropFor m.kind } := by
  rw [State.queueFor_eq ht m rfl, State.offerMsg_of_down (s := s.modTerm h _) m down, if_neg Bool.false_ne_true]
  refine (State.modTerm_modTerm s h _ _).trans (State.modTerm_congr order fun u hu => ?_)
  obtain rfl : t = u := Option.some.inj (ht.symm.trans hu)
  rfl

theorem State.queueFor_of_join (ht : s.term h = some t) (up : s.isUp t.home = true)
    (join : joinRegistry s.tree.r m (s.chan t.home).outq = ⟨q, true, none⟩) :
    s.queueFor h m = (s.modTerm h fun u => { u with owed := u.owed.dropFor m.kind }).modChan t.home
      fun x => { x with outq := q } := by
  rw [State.queueFor_eq ht m rfl, State.offerMsg_of_join (s := s.modTerm h _) up join, if_pos rfl]

theorem State.queueFor_of_refused (order : s.inOrder) (ht : s.term h = some t) (up : s.isUp t.home = true)
    (join : joinRegistry s.tree.r m (s.chan t.home).outq = ⟨q, false, none⟩) :
    s.queueFor h m = (s.modTerm h fun u => ({ u with owed := u.owed.dropFor m.kind } : Terminal).makeOwed
      m.kind).modChan t.home fun x => { x with outq := q } := by
  rw [State.queueFor_eq ht m rfl, State.offerMsg_of_join (s := s.modTerm h _) up join, if_neg Bool.false_ne_true,
    State.takeReport_refused _ (by decide), State.modTerm_modChan, State.modTerm_modTerm]
  congr 1
  refine State.modTerm_congr order fun u hu => ?_
  obtain rfl : t = u := Option.some.inj (ht.symm.trans hu)
  rw [if_pos (State.refusedOwes_of_up _ ?_)]
  exact (State.isUp_outq _ _ _ _).trans up

theorem State.queueFor_of_evict {v : QMsg} (ht : s.term h = some t) (up : s.isUp t.home = true)
    (join : joinRegistry s.tree.r m (s.chan t.home).outq = ⟨q, true, some v⟩) :
    s.queueFor h m = ((s.modTerm h fun u => { u with owed := u.owed.dropFor m.kind }).modChan t.home
      fun x => { x with outq := q }).takeReport .evicted t.home v.msg.kind v.msg.handle := by
  rw [State.queueFor_eq ht m rfl, State.offerMsg_of_evict (s := s.modTerm h _) up join, if_pos rfl]

end

/-- A change of an entry that has no fields changes nothing. -/
theorem State.modTerm_absent {s : State} {h : Handle} (order : s.inOrder) (absent : s.term h = none)
    (f : Terminal → Terminal) : s.modTerm h f = s :=
  State.modTerm_id order fun t ht => by rw [absent] at ht; cases ht

/-- Settles O40: the join of the message by cases of the queue, and the report of what it does not take or evicts. -/
theorem queueForSendsOrOwes : Obligations.QueueForSendsOrOwes := by
  refine ⟨fun k j => ?_, fun k => ?_, fun r k => ?_, fun o k => ?_, fun o k => ?_,
    fun u k e => Terminal.makeOwed_of_ne e u, fun u fix d n ch e p => Terminal.makeOwed_trim e p,
    fun u idle => Terminal.makeOwed_no_trim idle, ?_⟩
  · cases k <;> cases j <;> decide
  · cases k <;> decide
  · cases k <;> rfl
  · cases k <;> rfl
  · cases k <;> rfl
  intro s h m t q law ht mh hq
  subst mh
  have order : s.inOrder := law.1
  refine ⟨fun down lost => ?_, fun down kind gone => ?_, fun up fresh => ⟨fun room => ?_, fun full no => ?_,
    fun a v b full urgent eq normal rest => ?_⟩, fun up stands => ?_⟩
  · have owes : s.refusedOwes t m.kind = true := by
      rw [← Bool.not_eq_false, State.refusedOwes_eq_false]
      rintro ⟨kind, gone, -⟩
      rw [lost kind] at gone; cases gone
    rw [State.queueFor_down order ht down, owes]; rfl
  · have drops : s.refusedOwes t m.kind = false := (State.refusedOwes_eq_false _ _ _).2 ⟨kind, gone, down⟩
    rw [State.queueFor_down order ht down, drops, kind]; rfl
  · exact State.queueFor_of_join ht up ((joinRegistry_eq_joinTail hq fresh).trans (joinTail_room room))
  · exact State.queueFor_of_refused order ht up ((joinRegistry_eq_joinTail hq fresh).trans (joinTail_full full no))
  · have join := (joinRegistry_eq_joinTail (r := s.tree.r) hq fresh).trans (joinTail_evicts full urgent eq normal rest)
    have state := State.queueFor_of_evict ht up join
    have msg : registryMsg s.tree.r m = ⟨m, true, repeatsOf s.tree.r m.kind, true⟩ := by rw [registryMsg, urgent]
    rw [msg] at state
    refine ⟨state, fun absent => ?_, fun u ne hu => ?_⟩
    · rw [state, State.takeReport_refused _ (by decide)]
      refine State.modTerm_absent (s := (s.modTerm _ _).modChan _ _) (State.inOrder_modTerm order _ _) ?_ _
      rw [State.term_modChan]; exact State.term_modTerm_none _ _ absent
    · have own : (s.queueFor m.handle m).term v.msg.handle =
          some (if s.refusedOwes u v.msg.kind then u.makeOwed v.msg.kind else u) := by
        rw [state, State.takeReport_refused _ (by decide), State.term_modTerm_same, State.term_modChan,
          State.term_modTerm_ne _ ne, hu]
        refine congrArg (fun b : Bool => some (if b then u.makeOwed v.msg.kind else u)) ?_
        unfold State.refusedOwes
        rw [State.isUp_outq, State.isUp_modTerm]
      rw [own]
      refine ⟨fun trim dismiss => ?_, fun fix d n ch trim active pending => ?_, fun trim idle => ?_⟩
      · rw [if_pos (State.refusedOwes_of_kind s u dismiss), Terminal.makeOwed_of_ne trim]
      · rw [trim, if_pos (State.refusedOwes_of_kind s u (by decide)), Terminal.makeOwed_trim active pending]
      · rw [trim, if_pos (State.refusedOwes_of_kind s u (by decide)), Terminal.makeOwed_no_trim idle]
  · exact State.queueFor_of_join ht up (joinRegistry_replaces hq stands)

end Sys2Proof.Machine
end

section
/-! Entry transitions (R22, R23, R27, R81) and the events of Section 2: void events, roster events, reports and a
registry message queued for an entry that has just changed. -/

namespace Sys2Proof.Machine

/-! ## Range work (R47, R48) -/

theorem Gap.names_iff_range (g : Gap) (h : Handle) : g.names h = true ↔ ∃ seen, g.kind = .range h seen := by
  unfold Gap.names
  cases g.kind <;> simp

theorem Offer.names_iff_range (o : Offer) (h : Handle) : o.names h = true ↔ o.kind = .range h := by
  unfold Offer.names
  cases o.kind <;> simp

theorem Gap.voidFor_eq (g : Gap) (h : Handle) : g.voidFor h = if g.names h then { g with kind := .voidRange } else g := by
  unfold Gap.voidFor Gap.names
  cases g.kind <;> simp

theorem Offer.voidFor_eq (o : Offer) (h : Handle) :
    o.voidFor h = if o.names h then { o with kind := .voidRange } else o := by
  unfold Offer.voidFor Offer.names
  cases o.kind <;> simp

theorem Gap.names_voidFor_same (g : Gap) (h : Handle) : (g.voidFor h).names h = false := by
  rw [Gap.voidFor_eq]
  cases e : g.names h with
  | true => rfl
  | false => exact e

theorem Offer.names_voidFor_same (o : Offer) (h : Handle) : (o.voidFor h).names h = false := by
  rw [Offer.voidFor_eq]
  cases e : o.names h with
  | true => rfl
  | false => exact e

theorem ChanState.hasWork_iff (x : ChanState) (h : Handle) : x.hasWork h = true ↔
    h ∈ x.rangeQ ∨ (∃ o, x.offer = some o ∧ o.names h = true) ∨ ∃ g ∈ x.gaps, g.names h = true := by
  simp [ChanState.hasWork, Option.any_eq_true, or_assoc]

theorem State.hasWork_iff (s : State) (h : Handle) : s.hasWork h = true ↔ ∃ c, (s.chan c).hasWork h = true := by
  unfold State.hasWork
  rw [List.any_eq_true]
  exact ⟨fun ⟨c, _, k⟩ => ⟨c, k⟩, fun ⟨c, k⟩ => ⟨c, Chan.mem_all c, k⟩⟩

theorem ChanState.hasWork_voidFor (x : ChanState) (h : Handle) : (x.voidFor h).hasWork h = false := by
  rw [← Bool.not_eq_true, ChanState.hasWork_iff]
  rintro (mem | ⟨o, ho, names⟩ | ⟨g, hg, names⟩)
  · simp [ChanState.voidFor] at mem
  · obtain ⟨o', -, rfl⟩ := Option.map_eq_some_iff.1 ho
    rw [Offer.names_voidFor_same] at names; cases names
  · obtain ⟨g', -, rfl⟩ := List.mem_map.1 hg
    rw [Gap.names_voidFor_same] at names; cases names

/-- A void event on every channel leaves the handle no range work (R48). -/
theorem State.hasWork_voidAll (s : State) (h : Handle) : (s.voidAll h).hasWork h = false := by
  rw [← Bool.not_eq_true, State.hasWork_iff]
  rintro ⟨c, work⟩
  rw [State.voidAll, State.chan_modChans, ChanState.hasWork_voidFor] at work
  cases work

/-- Range work is read from the queues, offers and gaps of the channels. -/
theorem State.hasWork_congr {s t : State} (same : ∀ c, (t.chan c).rangeQ = (s.chan c).rangeQ ∧
    (t.chan c).offer = (s.chan c).offer ∧ (t.chan c).gaps = (s.chan c).gaps) (h : Handle) :
    t.hasWork h = s.hasWork h := by
  unfold State.hasWork ChanState.hasWork
  congr 1
  funext c
  obtain ⟨q, o, g⟩ := same c
  rw [q, o, g]

/-! ## Roster events (R62) -/

theorem State.rosterJoin_eq (s : State) (c : Chan) (h : Handle) : s.rosterJoin c h =
    if s.isUp c = true ∧ h ∉ (s.chan c).roster ∧ 1 ≤ h ∧ h ≤ 511
    then s.modChan c fun x => { x with roster := x.roster ++ [h], tx := x.tx ++ [.rosterJoin h] } else s := by
  have wf : Handle.wf h = true ↔ 1 ≤ h ∧ h ≤ 511 := by
    simp only [Handle.wf, Bool.and_eq_true, decide_eq_true_eq]; rfl
  simp only [State.rosterJoin, wf, State.send_eq, State.modChan_modChan]

theorem State.rosterLeave_eq (s : State) (c : Chan) (h : Handle) : s.rosterLeave c h =
    if h ∈ (s.chan c).roster
    then s.modChan c fun x => { x with roster := x.roster.filter fun k => !(k == h), tx := x.tx ++ [.rosterLeave h] }
    else s := by
  unfold State.rosterLeave
  rw [State.send_eq, State.modChan_modChan]

theorem State.not_mem_rosterLeave (s : State) (c : Chan) (h : Handle) : h ∉ ((s.rosterLeave c h).chan c).roster := by
  rw [State.rosterLeave_eq]
  split
  · simp
  · assumption

/-- A roster event changes the channels alone. -/
theorem State.rosterLeave_whole (s : State) (c : Chan) (h : Handle) :
    s.rosterLeave c h = { s with chans := (s.rosterLeave c h).chans } := by
  rw [State.rosterLeave_eq]; split <;> rfl

/-! ## Events and reports by themselves (log entry 5) -/

theorem State.discardOwes_iff (t : Terminal) (c : Chan) (k : MsgKind) : t.discardOwes c k = true ↔
    t.home = c ∧ (k = .enrol ∧ (∃ n f, t.phase = .enrolling n f) ∨
      k = .hush ∧ ((∃ n l f d, t.phase = .ranging n l f d) ∨ ∃ fix, t.phase = .hushed fix) ∨
      (k = .setDelay ∨ k = .resume) ∧ (∃ fix, t.phase = .joining fix) ∨
      k = .retune ∧ (∃ fix target, t.phase = .retuning fix target) ∨
      k = .dismiss ∧ ∃ f age, t.phase = .lost f age false) := by
  unfold Terminal.discardOwes
  rw [Bool.and_eq_true, decide_eq_true_eq]
  refine and_congr_right fun _ => ?_
  cases t.phase <;> cases k <;> simp

/-- A report for an entry of fields t makes the kind owed when the entry wants it, and is dropped else. -/
theorem State.takeReport_term {s : State} {h : Handle} {t : Terminal} (order : s.inOrder) (ht : s.term h = some t)
    {why : ReportCause} {c : Chan} {k : MsgKind} {owes : Bool}
    (e : owes = match why with | .discarded => t.discardOwes c k | _ => s.refusedOwes t k) :
    s.takeReport why c k h = if owes then s.modTerm h fun u => u.makeOwed k else s := by
  have step (p : Terminal → Bool) (hp : p t = owes) :
      (s.modTerm h fun u => if p u then u.makeOwed k else u) = if owes then s.modTerm h fun u => u.makeOwed k else s := by
    cases owes with
    | true =>
      refine State.modTerm_congr order fun u hu => ?_
      obtain rfl : t = u := Option.some.inj (ht.symm.trans hu)
      rw [if_pos hp]
    | false =>
      refine State.modTerm_id order fun u hu => ?_
      obtain rfl : t = u := Option.some.inj (ht.symm.trans hu)
      rw [hp]; rfl
  cases why
  · exact step (fun u => s.refusedOwes u k) e.symm
  · exact step (fun u => s.refusedOwes u k) e.symm
  · exact step (fun u => u.discardOwes c k) e.symm

theorem State.takeReport_absent {s : State} {h : Handle} (order : s.inOrder) (absent : s.term h = none)
    (why : ReportCause) (c : Chan) (k : MsgKind) : s.takeReport why c k h = s := by
  cases why <;> exact State.modTerm_absent order absent _

theorem exec_outQueueReport (s : State) (why : ReportCause) (c : Chan) (k : MsgKind) (h : Handle) :
    exec (.outQueueReport why c k h) s = .next ((s.dropEvent (.report why c k h)).takeReport why c k h) := rfl

/-- A report given by itself, by what the entry wants. -/
theorem exec_outQueueReport_term {s : State} {h : Handle} {t : Terminal} (order : s.inOrder) (ht : s.term h = some t)
    {why : ReportCause} {c : Chan} {k : MsgKind} {owes : Bool}
    (e : (match why with | .discarded => t.discardOwes c k | _ => s.refusedOwes t k) = owes) :
    exec (.outQueueReport why c k h) s = .next (if owes
      then (s.dropEvent (.report why c k h)).modTerm h fun u => u.makeOwed k else s.dropEvent (.report why c k h)) := by
  rw [exec_outQueueReport, State.takeReport_term (s := s.dropEvent _) order ht e.symm]

/-- A report that is not of a discarded message. -/
theorem exec_outQueueReport_refused {s : State} {h : Handle} {t : Terminal} (order : s.inOrder) (ht : s.term h = some t)
    {why : ReportCause} (refused : why ≠ .discarded) {c : Chan} {k : MsgKind} {owes : Bool} (e : s.refusedOwes t k = owes) :
    exec (.outQueueReport why c k h) s = .next (if owes
      then (s.dropEvent (.report why c k h)).modTerm h fun u => u.makeOwed k else s.dropEvent (.report why c k h)) := by
  refine exec_outQueueReport_term order ht ?_
  cases why with
  | discarded => exact absurd rfl refused
  | _ => exact e

/-- Settles O57: each event by the equation of its effect. -/
theorem reportsVoidsAndRosterEvents : Obligations.ReportsVoidsAndRosterEvents := by
  refine ⟨fun s e => rfl, fun g h => ⟨g.names_iff_range h, g.voidFor_eq h⟩, fun o h => ⟨o.names_iff_range h, o.voidFor_eq h⟩,
    ChanState.hasWork_iff, fun s h => ⟨s.hasWork_iff h, rfl⟩, State.rosterLeave_eq, exec_outQueueReport, fun s c h => ?_⟩
  have join : exec (.rosterJoinEvent c h) s = .next ((s.dropEvent (.rosterJoin c h)).rosterJoin c h) := rfl
  have leave : exec (.rosterLeaveEvent c h) s = .next ((s.dropEvent (.rosterLeave c h)).rosterLeave c h) := rfl
  rw [State.rosterJoin_eq] at join
  rw [State.rosterLeave_eq] at leave
  refine ⟨?_, fun up out lo hi => ?_, fun no => ?_, fun mem => ?_, fun out => ?_, fun k why law => ⟨fun absent => ?_,
    fun t ht => ⟨fun refused => ⟨fun trim wants => ?_, fun gone down => ?_, fun fix d n ch active pending => ?_,
      fun idle => ?_⟩, fun wanted hw => ⟨fun w => ?_, fun w => ?_⟩⟩⟩⟩
  · have void : exec (.voidEvent c h) s = .next ((s.dropEvent (.void c h)).modChan c (·.voidFor h)) := rfl
    rw [void]
    refine congrArg _ (State.modChan_congr _ c ?_)
    have gaps : (Gap.voidFor · h) = fun g => if g.names h then { g with kind := .voidRange } else g :=
      funext fun g => g.voidFor_eq h
    have offers : (Offer.voidFor · h) = fun o => if o.names h then { o with kind := .voidRange } else o :=
      funext fun o => o.voidFor_eq h
    rw [ChanState.voidFor, gaps, offers]
  · rw [join]; exact congrArg _ (if_pos ⟨up, out, lo, hi⟩)
  · rw [join]
    refine congrArg _ (if_neg ?_)
    rintro ⟨up, out, lo, hi⟩
    rcases no with down | mem | zero | big
    · exact absurd (down.symm.trans up) (by decide)
    · exact out mem
    · exact absurd (zero ▸ lo) (by decide)
    · exact absurd hi (Nat.not_le.2 big)
  · rw [leave]; exact congrArg _ (if_pos mem)
  · rw [leave]; exact congrArg _ (if_neg out)
  · rw [exec_outQueueReport, State.takeReport_absent (s := s.dropEvent _) law.1 absent]
  · have owes : s.refusedOwes t k = true := by
      rw [← Bool.not_eq_false, State.refusedOwes_eq_false]
      rintro ⟨dismiss, gone, down⟩
      rcases wants with w | w | w
      · exact w dismiss
      · rw [gone] at w; cases w
      · rw [down] at w; cases w
    rw [exec_outQueueReport_refused law.1 ht refused owes,
      if_pos rfl, funext (Terminal.makeOwed_of_ne trim)]
  · have drops : s.refusedOwes t .dismiss = false := (State.refusedOwes_eq_false _ _ _).2 ⟨rfl, gone, down⟩
    rw [exec_outQueueReport_refused law.1 ht refused drops,
      if_neg Bool.false_ne_true]
  · have owes : s.refusedOwes t .trimDelay = true := State.refusedOwes_of_kind s t (by decide)
    rw [exec_outQueueReport_refused law.1 ht refused owes,
      if_pos rfl]
    refine congrArg _ (State.modTerm_congr law.1 fun u hu => ?_)
    obtain rfl : t = u := Option.some.inj (ht.symm.trans hu)
    exact Terminal.makeOwed_trim active pending
  · have owes : s.refusedOwes t .trimDelay = true := State.refusedOwes_of_kind s t (by decide)
    rw [exec_outQueueReport_refused law.1 ht refused owes,
      if_pos rfl]
    refine congrArg _ (State.modTerm_id law.1 fun u hu => ?_)
    obtain rfl : t = u := Option.some.inj (ht.symm.trans hu)
    exact Terminal.makeOwed_no_trim idle
  · have owes : t.discardOwes c k = true := (State.discardOwes_iff t c k).2 (hw.1 w)
    have trim : k ≠ .trimDelay := by
      rintro rfl
      obtain ⟨-, w⟩ := hw.1 w
      simp at w
    rw [exec_outQueueReport_term (why := .discarded) law.1 ht owes, if_pos rfl, funext (Terminal.makeOwed_of_ne trim)]
  · have drops : t.discardOwes c k = false := by
      rw [← Bool.not_eq_true, State.discardOwes_iff]; exact fun k => w (hw.2 k)
    rw [exec_outQueueReport_term (why := .discarded) law.1 ht drops, if_neg Bool.false_ne_true]

/-! ## Freeing an entry (R22) -/

theorem State.entry_freeEntry (s : State) (h x : Handle) (notice : Bool) :
    (s.freeEntry h notice).entry x = if x = h then none else s.entry x := by
  unfold State.entry
  rw [State.freeEntry_registry, List.find?_filter]
  split
  · rename_i e
    subst e
    exact List.find?_eq_none.2 fun y _ => by cases y.handle == x <;> simp
  · rename_i e
    congr 1
    funext y
    by_cases hy : y.handle = x
    · simp [hy, e]
    · simp [hy]

/-- The state that freeing an entry leaves, FREED aside. -/
theorem State.freeEntry_false (s : State) (h : Handle) : s.freeEntry h false = { s with
    registry := s.registry.filter fun e => !(e.handle == h)
    retention := s.retention.filter fun x => !(x == h)
    fullLatch := false
    chans := s.chans.map fun x => { x.voidFor h with outq := removeAllButDismiss h x.outq } } := rfl

theorem State.freeEntry_true (s : State) (h : Handle) :
    s.freeEntry h true = (s.freeEntry h false).raise (Notice.freed h ((s.term h).map (·.mark))) := rfl

/-- Settles O41: freeing is its equation, and no channel then holds work for the handle. -/
theorem freeingAnEntry : Obligations.FreeingAnEntry := by
  intro s h
  refine ⟨rfl, ?_, fun k e => ?_, ?_, ?_⟩
  · rw [State.entry_freeEntry, if_pos rfl]
  · rw [State.entry_freeEntry, if_neg e]
  · rw [State.freeEntry_true, State.raise_retention, State.freeEntry_false]
    simp
  · have same : (s.freeEntry h true).hasWork h = (s.voidAll h).hasWork h := by
      refine State.hasWork_congr (fun c => ?_) h
      rw [State.freeEntry_true, State.chan_raise]
      cases c <;> exact ⟨rfl, rfl, rfl⟩
    rw [same, State.hasWork_voidAll]

/-! ## A message queued for an entry that has just changed -/

/-- DISMISS supersedes every other kind for its handle, and ENROL evicts no message. -/
theorem supersedes_of_urgent {m : TreeMsg} (k : m.kind = .dismiss ∨ m.kind = .enrol) :
    isUrgentKind m.kind = true → ∀ j, j ≠ m.kind → supersedes m.kind j = true := by
  rcases k with e | e <;> rw [e]
  · exact fun _ j ne => bne_iff_ne.2 ne
  · intro urgent; cases urgent

/-- What queueing DISMISS or ENROL leaves of the entry: its fields but the owed kinds, and either the message stands in
the queue of its UP home or its kind is owed, or neither for a DISMISS that R24 drops. -/
theorem State.queueFor_own {s : State} {h : Handle} {t : Terminal} {m : TreeMsg} {D A : Owed} (ht : s.term h = some t)
    (mh : m.handle = h) (kind : m.kind = .dismiss ∨ m.kind = .enrol) (hD : t.owed.dropFor m.kind = D)
    (hA : (D.dropFor m.kind).add m.kind = A) : ∃ owed, (s.queueFor h m).term h = some { t with owed := owed } ∧
      ((owed = D ∧ s.isUp t.home = true ∧ registryMsg s.tree.r m ∈ ((s.queueFor h m).chan t.home).outq) ∨
        (owed = A ∧ s.refusedOwes t m.kind = true) ∨
        (owed = D ∧ s.refusedOwes t m.kind = false)) := by
  subst mh hD hA
  generalize hw : (s.modTerm m.handle fun u => { u with owed := u.owed.dropFor m.kind }) = w
  have told : State.Told s w := hw ▸ .modTerm s _ _
  have wterm : w.term m.handle = some { t with owed := t.owed.dropFor m.kind } := by
    rw [← hw, State.term_modTerm_same, ht]; rfl
  have offered : (w.offerMsg t.home m).1.term m.handle = some { t with owed := t.owed.dropFor m.kind } := by
    rw [← wterm]
    unfold State.term
    rw [State.entry_offerMsg_of_supersedes (supersedes_of_urgent kind)]
  have up (c : Chan) : (w.offerMsg t.home m).1.isUp c = s.isUp c := (told.trans (.offerMsg w t.home m)).isUp c
  rw [State.queueFor_eq ht m hw.symm]
  cases taken : (w.offerMsg t.home m).2 with
  | true =>
    refine ⟨_, offered, .inl ⟨rfl, ?_⟩⟩
    rw [State.offerMsg_taken, Bool.and_eq_true, told.isUp, told.tree] at taken
    obtain ⟨isUp, join⟩ := taken
    refine ⟨isUp, ?_⟩
    rw [if_pos rfl, State.offerMsg_outq_same, told.isUp, isUp, if_pos rfl, told.tree]
    exact (joinRegistry_spec _ _ _).1 join
  | false =>
    rw [if_neg Bool.false_ne_true, State.takeReport_refused _ (by decide), State.term_modTerm_same, offered]
    have same : (w.offerMsg t.home m).1.refusedOwes { t with owed := t.owed.dropFor m.kind } m.kind =
        s.refusedOwes t m.kind := by unfold State.refusedOwes; rw [up]
    rw [Option.map_some, same]
    cases owes : s.refusedOwes t m.kind with
    | true =>
      have trim : m.kind ≠ .trimDelay := by rcases kind with e | e <;> rw [e] <;> decide
      refine ⟨_, ?_, .inr (.inl ⟨rfl, rfl⟩)⟩
      rw [if_pos rfl, Terminal.makeOwed_of_ne trim]
    | false => exact ⟨_, rfl, .inr (.inr ⟨rfl, rfl⟩)⟩

/-- The queue of the entry's home after a registry message is offered to it, the others as they were. -/
theorem State.queueFor_outq {s : State} {h : Handle} {t : Terminal} (ht : s.term h = some t) (m : TreeMsg) (d : Chan) :
    ((s.queueFor h m).chan d).outq = if d = t.home ∧ s.isUp d = true
      then (joinRegistry s.tree.r m (s.chan d).outq).queue else (s.chan d).outq := by
  have offered : ((s.queueFor h m).chan d).outq =
      (((s.modTerm h fun u => { u with owed := u.owed.dropFor m.kind }).offerMsg t.home m).1.chan d).outq := by
    rw [State.queueFor_eq ht m rfl]
    split
    · rfl
    · rw [State.takeReport_chan]
  rw [offered]
  by_cases e : d = t.home
  · subst e
    rw [State.offerMsg_outq_same, State.isUp_modTerm]
    by_cases up : s.isUp t.home = true
    · rw [if_pos up, if_pos ⟨rfl, up⟩]; rfl
    · rw [if_neg up, if_neg fun k => up k.2]; rfl
  · rw [State.offerMsg_outq_ne _ e, if_neg fun k => e k.1]; rfl

/-- A queue that a registry message joined holds what it held and the message. -/
theorem mem_joinRegistry {r : Nat} {m : TreeMsg} {queue : List QMsg} {x : QMsg}
    (mem : x ∈ (joinRegistry r m queue).queue) : x = registryMsg r m ∨ x ∈ queue := by
  have old {y : QMsg} (k : y ∈ dropSuperseded m queue) : y ∈ queue := List.mem_of_mem_filter k
  by_cases stands : ∃ y ∈ dropSuperseded m queue, y.msg.kind = m.kind ∧ y.msg.handle = m.handle
  · rw [joinRegistry_replaces rfl stands] at mem
    obtain ⟨y, hy, rfl⟩ := List.mem_map.1 mem
    split
    · exact .inl rfl
    · exact .inr (old hy)
  · rw [joinRegistry_eq_joinTail rfl fun y my same => stands ⟨y, my, same⟩] at mem
    unfold joinTail at mem
    split at mem
    · rcases List.mem_append.1 mem with k | k
      · exact .inr (old k)
      · exact .inl (List.mem_singleton.1 k)
    · split at mem
      · split at mem
        · rename_i v rest e
          rcases List.mem_append.1 mem with k | k
          · exact .inr (old ((evictYoungest_sublist e).subset k))
          · exact .inl (List.mem_singleton.1 k)
        · exact .inr (old mem)
      · exact .inr (old mem)

/-! ## DISMISSING and LOST (R23, R27) -/

theorem State.enterDismissing_eq {s : State} {h : Handle} {t : Terminal} (ht : s.term h = some t) :
    s.enterDismissing h = (((if t.phase.isActive then s.rosterLeave t.home h else s).voidAll h).modTerm h fun u => { u with
      owed := Owed.none, moveFlag := false, phase := .dismissing false (!s.isUp t.home) }).queueFor h (.dismiss h) := by
  simp only [State.enterDismissing, ht]

theorem State.enterLost_eq {s : State} {h : Handle} {t : Terminal} (ht : s.term h = some t) :
    s.enterLost h = ({ (s.rosterLeave t.home h).modTerm h fun u => { u with
      moveFlag := false, phase := .lost t.phase.final 0 false } with
        retention := s.retention ++ [h] } : State).queueFor h (.dismiss h) := by
  simp only [State.enterLost, ht, State.rosterLeave_retention]

/-- Settles O42: the DISMISS is queued for the changed entry, and what it evicts is another entry's. -/
theorem enteringDismissing : Obligations.EnteringDismissing := by
  intro s h t ht
  refine ⟨State.enterDismissing_eq ht, ?_⟩
  rw [State.enterDismissing_eq ht]
  generalize hl : (if t.phase.isActive then s.rosterLeave t.home h else s) = left
  have reg : left.registry = s.registry := by rw [← hl]; split <;> simp
  have up : left.isUp t.home = s.isUp t.home := by rw [← hl]; split; exact State.isUp_rosterLeave s t.home t.home h; rfl
  have tree : left.tree = s.tree := by rw [← hl]; split <;> simp
  generalize hb : ((left.voidAll h).modTerm h fun u => { u with
    owed := Owed.none, moveFlag := false, phase := .dismissing false (!s.isUp t.home) }) = b
  have bterm : b.term h = some { t with
      owed := Owed.none, moveFlag := false, phase := .dismissing false (!s.isUp t.home) } := by
    rw [← hb, State.term_modTerm_same, State.term_voidAll, State.term_congr reg, ht]; rfl
  have bup : b.isUp t.home = s.isUp t.home := by rw [← hb, State.isUp_modTerm, State.isUp_voidAll, up]
  have btree : b.tree = s.tree := by rw [← hb, State.modTerm_tree, State.voidAll_tree, tree]
  have told : State.Told b (b.queueFor h (.dismiss h)) := .queueFor b h _
  have bwork : b.hasWork h = false := by rw [← hb]; exact State.hasWork_voidAll left h
  obtain ⟨owed, hterm, ho⟩ := State.queueFor_own (D := Owed.none) (A := { Owed.none with dismiss := true }) bterm rfl
    (m := .dismiss h) (.inl rfl) rfl rfl
  refine ⟨owed, hterm, ?_, fun down => ?_, (told.hasWork h).trans bwork, fun active => ?_, fun isUp empty => ?_,
    fun k u ne hu => ?_⟩
  · rcases ho with ⟨e, -⟩ | ⟨e, -⟩ | ⟨e, -⟩ <;> simp [e]
  · rcases ho with ⟨e, -⟩ | ⟨e, owes⟩ | ⟨e, -⟩
    · exact e
    · exact absurd owes (Bool.eq_false_iff.1 ((State.refusedOwes_eq_false _ _ _).2 ⟨rfl, rfl, bup.trans down⟩))
    · exact e
  · rw [told.roster, ← hb, State.chan_modTerm, State.voidAll, State.chan_modChans]
    rw [active, if_pos rfl] at hl
    rw [← hl]; exact State.not_mem_rosterLeave s t.home h
  · rcases ho with ⟨-, -, mem⟩ | ⟨e, -⟩ | ⟨-, drops⟩
    · exact ⟨_, mem, rfl, rfl, by rw [btree]; rfl⟩
    · rw [empty] at e; cases e
    · have down := ((State.refusedOwes_eq_false _ _ _).1 drops).2.2
      rw [bup, isUp] at down; cases down
  · refine ((State.Owing.of_entry ?_).trans (.queueFor b ne _)).term hu
    rw [← hb, State.entry_modTerm_ne _ ne]
    exact State.entry_congr reg k

/-- Settles O43: as for O42, with the retention list. -/
theorem enteringLost : Obligations.EnteringLost := by
  refine ⟨fun p => by cases p <;> rfl, fun s h t ht => ?_⟩
  refine ⟨State.enterLost_eq ht, ?_⟩
  rw [State.enterLost_eq ht]
  generalize hb : ({ (s.rosterLeave t.home h).modTerm h fun u => { u with
    moveFlag := false, phase := .lost t.phase.final 0 false } with retention := s.retention ++ [h] } : State) = b
  have bterm : b.term h = some { t with moveFlag := false, phase := .lost t.phase.final 0 false } := by
    rw [← hb]
    exact (State.term_modTerm_same _ h _).trans (by rw [State.term_rosterLeave, ht]; rfl)
  have bup : b.isUp t.home = s.isUp t.home := by rw [← hb]; exact State.isUp_rosterLeave s t.home t.home h
  have btree : b.tree = s.tree := by rw [← hb]; exact State.rosterLeave_tree s t.home h
  have told : State.Told b (b.queueFor h (.dismiss h)) := .queueFor b h _
  obtain ⟨owed, hterm, ho⟩ := State.queueFor_own (D := Owed.none) (A := { Owed.none with dismiss := true }) bterm rfl
    (m := .dismiss h) (.inl rfl) rfl rfl
  have owes := State.refusedOwes_of_phase b (t := { t with moveFlag := false, phase := .lost t.phase.final 0 false })
    (TreeMsg.dismiss h).kind rfl
  refine ⟨told.retention.trans (by rw [← hb]), ?_, owed, hterm, ?_, fun down => ?_, fun isUp empty => ?_,
    fun k u ne hu => ?_⟩
  · rw [told.roster, ← hb]; exact State.not_mem_rosterLeave s t.home h
  · rcases ho with ⟨e, -⟩ | ⟨e, -⟩ | ⟨e, -⟩ <;> simp [e]
  · rcases ho with ⟨-, up, -⟩ | ⟨e, -⟩ | ⟨-, drops⟩
    · rw [bup, down] at up; cases up
    · exact e
    · rw [owes] at drops; cases drops
  · rcases ho with ⟨-, -, mem⟩ | ⟨e, -⟩ | ⟨-, drops⟩
    · exact ⟨_, mem, rfl, rfl, by rw [btree]; rfl⟩
    · rw [empty] at e; cases e
    · rw [owes] at drops; cases drops
  · refine ((State.Owing.of_entry ?_).trans (.queueFor b ne _)).term hu
    rw [← hb]
    exact (State.entry_modTerm_ne _ ne _).trans (State.entry_congr (State.rosterLeave_registry s t.home h) k)

end Sys2Proof.Machine
end

section
/-! New and re-enrolled entries (R18, R21, R81, R88, R103): the lowest free handle, the entry created for a mark, and the
state a re-enrolment leaves. -/

namespace Sys2Proof.Machine

/-! ## Re-enrolment (R81, R90) -/

/-- The state once the entry's range work is void and an ACTIVE entry has left its roster (R81, steps 1 and 2). -/
def State.reEnrolLeft (s : State) (h : Handle) (t : Terminal) : State :=
  if t.phase.isActive then ((s.forgetEnrol h).voidAll h).rosterLeave t.home h else (s.forgetEnrol h).voidAll h

/-- The state in which a re-enrolment queues its ENROL (R81, steps 1 to 5). -/
def State.reEnrolBase (s : State) (h : Handle) (t : Terminal) (c : Chan) (x : Int) (retry : Nat) (remove : Bool) : State :=
  { (if remove then (s.reEnrolLeft h t).modChan t.home fun y => { y with outq := removeAll h y.outq }
      else s.reEnrolLeft h t).modTerm h fun u => u.reEnrolled c x retry with
    retention := if t.phase.isLost then s.retention.filter fun k => !(k == h) else s.retention }

theorem State.forgetEnrol_eq (s : State) (h : Handle) : s.forgetEnrol h = { s with
    events := s.events.filter fun e => !(Chan.all.any fun d => e == .finalHandOut d .enrol h) } := by
  unfold State.forgetEnrol
  congr 2
  funext e
  cases e with
  | finalHandOut d k h' =>
    rw [Bool.eq_iff_iff]
    cases d <;> cases k <;> simp [Chan.all]
  | _ => simp [Chan.all]

section
variable {s : State} {h : Handle} {t : Terminal} {c : Chan} {x : Int} {retry : Nat} {remove : Bool}

theorem State.reEnrolLeft_whole (s : State) (h : Handle) (t : Terminal) : s.reEnrolLeft h t = { s with
    events := s.events.filter fun e => !(Chan.all.any fun d => e == .finalHandOut d .enrol h)
    chans := (s.reEnrolLeft h t).chans } := by
  unfold State.reEnrolLeft
  rw [State.forgetEnrol_eq]
  split
  · rw [State.rosterLeave_whole]; rfl
  · rfl

theorem State.reEnrolLeft_chan (s : State) (h : Handle) (t : Terminal) (d : Chan) : ∃ roster tx,
    (s.reEnrolLeft h t).chan d = { (s.chan d).voidFor h with roster := roster, tx := tx } ∧
      (t.phase.isActive = true → d = t.home → h ∉ roster) := by
  have gone : ((s.forgetEnrol h).voidAll h).chan d = (s.chan d).voidFor h := State.chan_modChans _ _ _
  unfold State.reEnrolLeft
  cases t.phase.isActive with
  | false => exact ⟨_, _, gone, fun k => by cases k⟩
  | true =>
    obtain ⟨r, tx, e⟩ := State.rosterLeave_chan ((s.forgetEnrol h).voidAll h) t.home d h
    refine ⟨r, tx, by rw [if_pos rfl, e, gone], fun _ home => ?_⟩
    subst home
    have out := State.not_mem_rosterLeave ((s.forgetEnrol h).voidAll h) t.home h
    rw [e] at out
    exact out

theorem State.reEnrol_eq (ht : s.term h = some t) (announce : Bool) : s.reEnrol h c x retry remove announce =
    if announce then ((s.reEnrolBase h t c x retry remove).queueFor h (.enrol h t.mark)).raise (Notice.registered h c t.mark)
    else (s.reEnrolBase h t c x retry remove).queueFor h (.enrol h t.mark) := by
  have kept : (s.reEnrolLeft h t).retention = s.retention := by rw [State.reEnrolLeft_whole]
  unfold State.reEnrol State.reEnrolBase
  rw [ht, ← kept]
  cases remove <;> rfl

/-- The whole of what the steps before the ENROL change. -/
theorem State.reEnrolBase_whole (s : State) (h : Handle) (t : Terminal) (c : Chan) (x : Int) (retry : Nat) (remove : Bool) :
    s.reEnrolBase h t c x retry remove = { s with
      events := s.events.filter fun e => !(Chan.all.any fun d => e == .finalHandOut d .enrol h)
      registry := s.registry.map (·.modTerm h fun u => u.reEnrolled c x retry)
      retention := if t.phase.isLost then s.retention.filter fun k => !(k == h) else s.retention
      chans := (s.reEnrolBase h t c x retry remove).chans } := by
  unfold State.reEnrolBase
  rw [State.reEnrolLeft_whole]
  cases remove <;> rfl

theorem State.reEnrolBase_chan (d : Chan) : ∃ roster tx, (s.reEnrolBase h t c x retry remove).chan d =
    { (s.chan d).voidFor h with
      outq := if remove = true ∧ d = t.home then removeAll h (s.chan d).outq else (s.chan d).outq
      roster := roster
      tx := tx } ∧ (t.phase.isActive = true → d = t.home → h ∉ roster) := by
  obtain ⟨roster, tx, e, out⟩ := s.reEnrolLeft_chan h t d
  refine ⟨roster, tx, ?_, out⟩
  cases remove with
  | false =>
    rw [if_neg fun k => Bool.false_ne_true k.1]
    exact e
  | true =>
    refine (State.chan_modChan (s.reEnrolLeft h t) t.home d fun y => { y with outq := removeAll h y.outq }).trans ?_
    by_cases home : d = t.home
    · subst home
      rw [if_pos rfl, e, if_pos ⟨rfl, rfl⟩]
      rfl
    · rw [if_neg home, e, if_neg fun k => home k.2]
      rfl

theorem State.reEnrolBase_isUp (d : Chan) : (s.reEnrolBase h t c x retry remove).isUp d = s.isUp d := by
  obtain ⟨_, _, e, -⟩ := State.reEnrolBase_chan (s := s) (h := h) (t := t) (c := c) (x := x) (retry := retry)
    (remove := remove) d
  unfold State.isUp; rw [e]; rfl

theorem State.reEnrolBase_hasWork : (s.reEnrolBase h t c x retry remove).hasWork h = false := by
  rw [← State.hasWork_voidAll s h]
  refine State.hasWork_congr (fun d => ?_) h
  obtain ⟨_, _, e, -⟩ := State.reEnrolBase_chan (s := s) (h := h) (t := t) (c := c) (x := x) (retry := retry)
    (remove := remove) d
  rw [e, State.voidAll, State.chan_modChans]
  exact ⟨rfl, rfl, rfl⟩

end

/-- Settles O53: the steps before the ENROL are `reEnrolBase`, and the ENROL itself is `queueFor_own`. -/
theorem reEnrollingAnEntry : Obligations.ReEnrollingAnEntry := by
  intro s h t c x retry remove announce ht
  generalize hb : s.reEnrolBase h t c x retry remove = b
  have whole := State.reEnrolBase_whole s h t c x retry remove
  have chan := State.reEnrolBase_chan (s := s) (h := h) (t := t) (c := c) (x := x) (retry := retry) (remove := remove)
  have bup := State.reEnrolBase_isUp (s := s) (h := h) (t := t) (c := c) (x := x) (retry := retry) (remove := remove)
  have bwork := State.reEnrolBase_hasWork (s := s) (h := h) (t := t) (c := c) (x := x) (retry := retry) (remove := remove)
  rw [hb] at whole bwork
  simp only [hb] at chan bup
  have breg : b.registry = (s.modTerm h fun u => u.reEnrolled c x retry).registry := by rw [whole]; rfl
  have bterm : b.term h = some (t.reEnrolled c x retry) := by
    rw [State.term_congr breg, State.term_modTerm_same, ht]; rfl
  have told : State.Told b (b.queueFor h (.enrol h t.mark)) := .queueFor b h _
  have reEnrol : s.reEnrol h c x retry remove announce =
      if announce then (b.queueFor h (.enrol h t.mark)).raise (Notice.registered h c t.mark)
      else b.queueFor h (.enrol h t.mark) := by rw [State.reEnrol_eq ht, hb]
  have keeps {β : Type} (p : State → β) (k : ∀ u n, p (State.raise u n) = p u) :
      p (s.reEnrol h c x retry remove announce) = p (b.queueFor h (.enrol h t.mark)) := by
    rw [reEnrol]; cases announce
    · rfl
    · exact k _ _
  have rchan (d : Chan) := keeps (·.chan d) fun u n => State.chan_raise u n d
  have rterm (k : Handle) := keeps (·.term k) fun u n => State.term_raise u n k
  obtain ⟨owed, hterm, ho⟩ := State.queueFor_own (D := Owed.none) (A := { Owed.none with enrol := true }) bterm rfl
    (m := .enrol h t.mark) (.inr rfl) rfl rfl
  have owes := State.refusedOwes_of_phase b (t := t.reEnrolled c x retry) (TreeMsg.enrol h t.mark).kind rfl
  refine ⟨fun gone left asked hg hl ha => ?_, ?_, ?_, ?_, fun active => ?_, fun other => ?_, fun home asked => ?_,
    fun up room said => ?_, ⟨owed, ?_, ?_, fun down => ?_, fun up empty => ?_⟩, fun k u ne hu => ?_⟩
  · rw [reEnrol]
    have base : asked = b.queueFor h (.enrol h t.mark) := by
      rw [ha, hl, hg, ← hb, ← State.forgetEnrol_eq]; rfl
    rw [base]
  · rw [keeps (·.hasWork h) fun u n => State.hasWork_congr (fun d => by simp) h, told.hasWork h, bwork]
  · rw [keeps (·.events) fun u n => State.raise_events u n, told.whole]; rw [whole]
  · rw [keeps (·.retention) fun u n => State.raise_retention u n, told.retention]; rw [whole]
  · obtain ⟨roster, tx, e, out⟩ := chan t.home
    rw [rchan, told.roster, e]
    exact out active rfl
  · obtain ⟨roster, tx, e, -⟩ := chan t.home
    rw [rchan, State.queueFor_outq bterm, if_neg fun k => other k.1, e]
    cases remove <;> simp [removeAll]
  · intro m mem own
    subst asked home
    obtain ⟨roster, tx, e, -⟩ := chan t.home
    have queue : (b.chan t.home).outq = removeAll h (s.chan t.home).outq := by rw [e]; simp
    rw [rchan, State.queueFor_outq bterm, queue] at mem
    have old : m ∉ removeAll h (s.chan t.home).outq := fun k => by
      have := List.of_mem_filter k
      simp [own] at this
    split at mem
    · rcases mem_joinRegistry mem with rfl | mem
      · rfl
      · exact absurd mem old
    · exact absurd mem old
  · rw [reEnrol, said, if_pos rfl]
    have notices : (b.queueFor h (.enrol h t.mark)).notices = s.notices := by rw [told.whole, whole]
    unfold State.raise
    rw [notices, if_pos (c := s.notices.length < Config.noticeQueueSize) room]
    exact List.mem_append_right _ List.mem_cons_self
  · rw [rterm]; exact hterm
  · rcases ho with ⟨e, -⟩ | ⟨e, -⟩ | ⟨e, -⟩ <;> simp [e]
  · rcases ho with ⟨-, up, -⟩ | ⟨e, -⟩ | ⟨-, drops⟩
    · rw [bup] at up; exact absurd (down.symm.trans up) (by decide)
    · exact e
    · rw [owes] at drops; cases drops
  · rcases ho with ⟨-, -, mem⟩ | ⟨e, -⟩ | ⟨-, drops⟩
    · refine ⟨_, by rw [rchan]; exact mem, rfl, ?_⟩
      have tree : b.tree = s.tree := by rw [whole]
      rw [tree]; rfl
    · rw [empty] at e; cases e
    · rw [owes] at drops; cases drops
  · have own : State.Owing s (b.queueFor h (.enrol h t.mark)) k :=
      (State.Owing.of_entry ((State.entry_congr breg k).trans (State.entry_modTerm_ne s ne _))).trans (.queueFor b ne _)
    rw [rterm]
    exact own.term hu

/-! ## The lowest free handle (R18, R21) -/

theorem State.holds_iff (s : State) (h : Handle) : s.holds h = true ↔ ∃ e, s.entry h = some e := by
  unfold State.holds State.entry
  rw [← Option.isSome_iff_exists, List.find?_isSome, List.any_eq_true]

theorem State.lowestFree_eq_none (s : State) :
    s.lowestFree = none ↔ ∀ k, 1 ≤ k → k ≤ 511 → ∃ e, s.entry k = some e := by
  unfold State.lowestFree
  rw [List.find?_range'_eq_none]
  refine forall_congr' fun k => imp_congr_right fun _ => ?_
  rw [Bool.not_not, State.holds_iff]
  exact imp_congr_left (Nat.lt_succ_iff (m := k) (n := 511))

theorem State.lowestFree_eq_some (s : State) (h : Handle) : s.lowestFree = some h ↔
    1 ≤ h ∧ h ≤ 511 ∧ s.entry h = none ∧ ∀ k, 1 ≤ k → k < h → ∃ e, s.entry k = some e := by
  unfold State.lowestFree
  rw [List.find?_range'_eq_some, List.mem_range'_1]
  have free : (!s.holds h) = true ↔ s.entry h = none := by
    rw [Bool.not_eq_true', ← Bool.not_eq_true, State.holds_iff, Option.eq_none_iff_forall_ne_some, not_exists]
  have below : (∀ j, 1 ≤ j → j < h → (!!s.holds j) = true) ↔ ∀ k, 1 ≤ k → k < h → ∃ e, s.entry k = some e := by
    refine forall_congr' fun k => imp_congr_right fun _ => imp_congr_right fun _ => ?_
    rw [Bool.not_not, State.holds_iff]
  rw [free, below]
  exact ⟨fun ⟨e, ⟨lo, hi⟩, b⟩ => ⟨lo, Nat.lt_succ_iff.1 hi, e, b⟩, fun ⟨lo, hi, e, b⟩ => ⟨e, ⟨lo, Nat.lt_succ_iff.2 hi⟩, b⟩⟩

theorem State.entry_createEntry {s : State} {h : Handle} (free : s.holds h = false) (m : Mark) (c : Chan) (coarse : Int)
    (k : Handle) : (s.createEntry h m c coarse).entry k =
      if k = h then some ⟨h, .sound, some (newTerminal m c coarse)⟩ else s.entry k := by
  unfold State.entry
  rw [State.createEntry_registry]
  exact find_insertEntry _ _ _ (State.not_holds_iff.1 free)

/-- The mark's item leaves the pending list, which clears the latch; without an item the latch stands (R100). -/
theorem State.createEntry_whole (s : State) (h : Handle) (m : Mark) (c : Chan) (coarse : Int) :
    s.createEntry h m c coarse = { s with
      registry := insertEntry ⟨h, .sound, some (newTerminal m c coarse)⟩ s.registry
      waiting := s.waiting.filter fun i => !(i.mark == m)
      pendingFullLatch := if (s.waitingItem m).isSome then false else s.pendingFullLatch } := by
  unfold State.createEntry
  by_cases waits : (s.waitingItem m).isSome = true
  · rw [if_pos waits, if_pos waits]; rfl
  · rw [if_neg waits, if_neg waits]
    have all : s.waiting.filter (fun i => !(i.mark == m)) = s.waiting := by
      refine List.filter_eq_self.2 fun i mem => ?_
      rw [Bool.not_eq_true', Bool.eq_false_iff]
      exact fun e => waits (List.find?_isSome.2 ⟨i, mem, e⟩)
    rw [all]

/-- Settles O32. -/
theorem newEntriesTakeTheLowestFreeHandle : Obligations.NewEntriesTakeTheLowestFreeHandle := by
  refine ⟨State.lowestFree_eq_none, State.lowestFree_eq_some, fun s h m c coarse law lowest => ?_⟩
  obtain ⟨lo, hi, free, below⟩ := (s.lowestFree_eq_some h).1 lowest
  have unheld : s.holds h = false := (State.lowestFree_spec lowest).1
  refine ⟨lo, hi, free, below, law.createEntry unheld lo hi m c coarse, ?_, fun k e => ?_, _,
    by rw [State.createEntry_registry]; exact s.createEntry_whole h m c coarse, fun fresh => ?_, fun i mem e => ?_⟩
  · rw [State.entry_createEntry unheld, if_pos rfl]; rfl
  · rw [State.entry_createEntry unheld, if_neg e]
  · refine if_neg fun k => ?_
    obtain ⟨i, mem, e⟩ := List.find?_isSome.1 k
    exact fresh i mem (beq_iff_eq.1 e)
  · exact if_pos (List.find?_isSome.2 ⟨i, mem, by simp [e]⟩)

/-! ## ADMIT (R103) -/

theorem State.newEntry_lowest {s : State} {h : Handle} (lowest : s.lowestFree = some h) (m : Mark) (c : Chan)
    (coarse : Int) : s.newEntry m c coarse =
      (((s.createEntry h m c coarse).queueFor h (.enrol h m)).raise (Notice.registered h c m), some h) := by
  unfold State.newEntry State.takeHandle
  rw [lowest]

theorem State.newEntry_full {s : State} (lowest : s.lowestFree = none) (empty : s.retention = []) (m : Mark) (c : Chan)
    (coarse : Int) : s.newEntry m c coarse = (s, none) := by
  unfold State.newEntry State.takeHandle
  rw [lowest, empty]

theorem State.newEntry_evicts {s : State} {o h : Handle} {rest : List Handle} (lowest : s.lowestFree = none)
    (oldest : s.retention = o :: rest) (next : (s.freeEntry o true).lowestFree = some h) (m : Mark) (c : Chan)
    (coarse : Int) : s.newEntry m c coarse =
      ((((s.freeEntry o true).createEntry h m c coarse).queueFor h (.enrol h m)).raise (Notice.registered h c m), some h) := by
  unfold State.newEntry State.takeHandle
  rw [lowest, oldest]
  dsimp only
  rw [next]

/-- Settles O31. -/
theorem admitCreatesTheEntryOfAPendingMark : Obligations.AdmitCreatesTheEntryOfAPendingMark := by
  intro s m ready
  have exec_admit : exec (.admitMark m) s = .next (State.answer (s.reqAdmit m)) := State.request_ready ready _ (·.reqAdmit m)
  refine ⟨rfl, fun absent => ?_, fun i waits => ⟨fun down => ?_, fun up => ⟨fun h lowest => ?_, fun lowest empty => ?_,
    fun o rest h lowest oldest next => ?_⟩⟩⟩
  · rw [exec_admit, State.reqAdmit, absent]; rfl
  · rw [exec_admit, State.reqAdmit, waits]; simp only [down]; rfl
  · rw [exec_admit, State.reqAdmit, waits]; simp only [up, if_true, State.newEntry_lowest lowest]; rfl
  · rw [exec_admit, State.reqAdmit, waits]; simp only [up, if_true, State.newEntry_full lowest empty]; rfl
  · rw [exec_admit, State.reqAdmit, waits]; simp only [up, if_true, State.newEntry_evicts lowest oldest next]; rfl

end Sys2Proof.Machine
end

section
/-! Requests and parts of a scan on one entry (R27 to R30, R36, R37, R102, R135 to R137, R143, R144, R157): the tallies,
the first-error record, and what each request and each part does with the entry that its read leaves. -/

namespace Sys2Proof.Machine

theorem State.freeCount_reset : State.reset.freeCount = 511 := by
  have all : (List.range' 1 Config.maxHandle).filter (fun h => !State.reset.holds h) = List.range' 1 Config.maxHandle :=
    List.filter_eq_self.2 fun _ _ => rfl
  rw [State.freeCount, all, List.length_range']
  rfl

/-- Settles O3: each value is read off the definition of the reset state. -/
theorem resetLeavesTheInitialValues : Obligations.ResetLeavesTheInitialValues := by
  refine ⟨rfl, rfl, State.freeCount_reset, rfl, rfl, rfl, rfl, rfl, rfl, rfl, rfl, rfl, rfl, rfl, rfl, rfl, rfl,
    fun c => ?_⟩
  rw [State.chan_reset]
  refine ⟨rfl, rfl, rfl, rfl, rfl, rfl, rfl, rfl, rfl, rfl, rfl, rfl, rfl, rfl, rfl, rfl, rfl, rfl, rfl, rfl, rfl,
    fun k => ?_⟩
  cases k <;> rfl

/-! ## Tallies and the first-error record (R36, R157) -/

theorem TallyKind.idx_injective {j k : TallyKind} (e : j.idx = k.idx) : j = k := by
  have inverse (k : TallyKind) : TallyKind.ofNat k.idx.val = k := by cases k <;> rfl
  rw [← inverse j, e, inverse k]

theorem Chan.ofNum_eq_none {n : Nat} (h : 3 < n) : Chan.ofNum n = none := by
  unfold Chan.ofNum
  split
  · exact absurd h (by decide)
  · exact absurd h (by decide)
  · exact absurd h (by decide)
  · exact absurd h (by decide)
  · rfl

theorem clearOfCode_eq_none {n : Nat} (h : 1 < n) : clearOfCode n = none := by
  unfold clearOfCode
  split
  · exact absurd h (by decide)
  · exact absurd h (by decide)
  · rfl

/-- Settles O24. -/
theorem talliesCountAndAreReadAndCleared : Obligations.TalliesCountAndAreReadAndCleared := by
  refine ⟨fun s c k => ⟨?_, fun j ne => ?_, ?_⟩, by decide, fun x i k e => ?_, fun _ _ _ => rfl, fun s ready => ?_⟩
  · rw [State.chan_bump_same, tally_set, if_pos rfl]; rfl
  · rw [State.chan_bump_same, tally_set, if_neg fun e => ne (TallyKind.idx_injective e).symm]
  · refine State.modChan_congr s c ?_
    rw [State.chan_bump_same]
  · subst e; rfl
  · have tallyRead (ch clear : Byte) : exec (.tallyRead ch clear) s = .next (State.answer (s.reqTallyRead ch clear)) :=
      State.request_ready ready _ (·.reqTallyRead ch clear)
    have recordRead (clear : Byte) :
        exec (.storeRecordRead clear) s = .next (State.answer (s.reqStoreRecordRead clear)) :=
      State.request_ready ready _ (·.reqStoreRecordRead clear)
    refine ⟨fun ch c named => ⟨?_, ?_⟩, fun ch clear bad => ?_, fun body empty corr uncorr => ?_, fun clear bad => ?_⟩
    · rw [tallyRead, State.reqTallyRead, State.onChannel, named]; rfl
    · rw [tallyRead, State.reqTallyRead, State.onChannel, named]; rfl
    · rw [tallyRead, State.reqTallyRead, State.onChannel]
      rcases bad with bad | bad
      · rw [Chan.ofNum_eq_none bad]; rfl
      · rw [clearOfCode_eq_none bad]
        cases Chan.ofNum ch.toNat <;> rfl
    · have code0 : clearOfCode (0 : Byte).toNat = some false := rfl
      have code1 : clearOfCode (1 : Byte).toNat = some true := rfl
      rw [recordRead, recordRead, State.reqStoreRecordRead, State.reqStoreRecordRead, code0, code1]
      cases first : s.firstError with
      | none => rw [empty first]; exact ⟨rfl, rfl⟩
      | some f =>
        obtain ⟨kind, h⟩ := f
        cases kind with
        | correctable => rw [corr h first]; exact ⟨rfl, rfl⟩
        | uncorrectable => rw [uncorr h first]; exact ⟨rfl, rfl⟩
    · rw [recordRead, State.reqStoreRecordRead, clearOfCode_eq_none bad]; rfl

/-! ## Requests on a sound entry (R26) -/

section
variable {s : State} {h : BitVec 16}

theorem State.onHandle_held (f : State → State × Reply) (lo : 1 ≤ h.toNat) (hi : h.toNat ≤ 511) {e : Entry}
    (he : s.entry h.toNat = some e) : s.onHandle h f = f (s.readEntry h.toNat) := by
  have range : ¬(h.toNat = 0 ∨ Config.maxHandle < h.toNat) := by
    rintro (zero | big)
    · rw [zero] at lo; exact absurd lo (by decide)
    · exact absurd hi (Nat.not_le.2 big)
  rw [State.onHandle, if_neg range, if_pos (State.holds_of_entry he)]

theorem State.onHandle_damaged (f : State → State × Reply) (lo : 1 ≤ h.toNat) (hi : h.toNat ≤ 511) {flaw : Flaw}
    (he : s.entry h.toNat = some ⟨h.toNat, flaw, none⟩) : s.onHandle h f = f s := by
  rw [State.onHandle_held f lo hi he, State.readEntry_term_none (by rw [State.term, he]; rfl)]

theorem State.onHandle_sound (f : State → State × Reply) (lo : 1 ≤ h.toNat) (hi : h.toNat ≤ 511) {t : Terminal}
    (he : s.sound h.toNat t) : s.onHandle h f = f s := by
  rw [State.onHandle_held f lo hi he, State.readEntry_sound he]

theorem State.onEntry_sound (f : State → Terminal → State × Reply) (lo : 1 ≤ h.toNat) (hi : h.toNat ≤ 511) {t : Terminal}
    (he : s.sound h.toNat t) : s.onEntry h f = f s t := by
  rw [State.onEntry, State.onHandle_sound _ lo hi he, State.term_of_sound he]

end

/-- Settles O37. -/
theorem dismissAndClearDamaged : Obligations.DismissAndClearDamaged := by
  intro s h ready lo hi
  have dismiss : exec (.dismiss h) s = .next (State.answer (s.reqDismiss h)) :=
    State.request_ready ready _ (·.reqDismiss h)
  have clear : exec (.clearDamaged h) s = .next (State.answer (s.reqClearDamaged h)) :=
    State.request_ready ready _ (·.reqClearDamaged h)
  refine ⟨fun t f age sent ht phase => ?_, fun t sent due ht phase => ?_, fun t ht notLost notGoing => ?_,
    fun f he => ?_, fun t ht => ?_⟩
  · rw [dismiss, State.reqDismiss, State.onEntry_sound _ lo hi ht, phase]; rfl
  · rw [dismiss, State.reqDismiss, State.onEntry_sound _ lo hi ht, phase]; rfl
  · rw [dismiss, State.reqDismiss, State.onEntry_sound _ lo hi ht]
    cases phase : t.phase with
    | lost f age sent => rw [phase] at notLost; cases notLost
    | dismissing sent due => rw [phase] at notGoing; cases notGoing
    | _ => rfl
  · have absent : s.term h.toNat = none := by rw [State.term, he]; rfl
    rw [clear, State.reqClearDamaged, State.onHandle_damaged _ lo hi he, absent]; rfl
  · rw [clear, State.reqClearDamaged, State.onHandle_sound _ lo hi ht, State.term_of_sound ht]; rfl

/-! ## HUSH, RESUME, RERANGE and MOVE (R28 to R30, R143, R144) -/

/-- An entry that holds a fix goes back to RANGING with it (R30). -/
theorem State.modTerm_reRanged {s : State} {h : Handle} {t : Terminal} {fix : Fix} (order : s.inOrder)
    (ht : s.term h = some t) (final : t.phase.final = some fix.final) (fill : t.phase.fill = some fix.fill) :
    s.modTerm h (·.reRanged fix.final) =
      s.modTerm h fun u => { u with estimate := fix.final, phase := .ranging 0 [] (some fix.final) (some fix.fill) } := by
  refine State.modTerm_congr order fun u hu => ?_
  obtain rfl : t = u := Option.some.inj (ht.symm.trans hu)
  rw [Terminal.reRanged, final, fill]

/-- Settles O38. -/
theorem hushResumeRerangeAndMove : Obligations.HushResumeRerangeAndMove := by
  intro s h t target ready law lo hi ht
  have hush : exec (.hush h) s = .next (State.answer (s.reqHush h)) := State.request_ready ready _ (·.reqHush h)
  have resume : exec (.resume h) s = .next (State.answer (s.reqResume h)) := State.request_ready ready _ (·.reqResume h)
  have rerange : exec (.rerange h) s = .next (State.answer (s.reqRerange h)) :=
    State.request_ready ready _ (·.reqRerange h)
  have move : exec (.move h target) s = .next (State.answer (s.reqMove h target)) :=
    State.request_ready ready _ (·.reqMove h target)
  rw [State.reqHush, State.onEntry_sound _ lo hi ht] at hush
  rw [State.reqResume, State.onEntry_sound _ lo hi ht] at resume
  rw [State.reqRerange, State.onEntry_sound _ lo hi ht] at rerange
  rw [State.reqMove, State.onEntry_sound _ lo hi ht] at move
  have hterm := State.term_of_sound ht
  have left : (s.rosterLeave t.home h.toNat).inOrder := by
    unfold State.inOrder; rw [State.rosterLeave_registry]; exact law.1
  have leftTerm : (s.rosterLeave t.home h.toNat).term h.toNat = some t := (State.term_rosterLeave _ _ _ _).trans hterm
  refine ⟨fun fix d n phase => ?_, fun fix phase => ⟨?_, ?_⟩, fun noActive noHushed => ?_, fun noHushed => ?_,
    fun fix d n phase => ⟨?_, fun bad => ?_, fun c named other down => ?_, fun c named other up => ?_⟩,
    fun fix phase => ?_, fun noActive => ?_, fun noActive noHushed => ?_⟩
  · rw [hush, phase]; rfl
  · rw [hush, phase]; rfl
  · rw [resume, phase]; rfl
  · rw [hush]
    cases phase : t.phase with
    | active fix d n => exact absurd phase (noActive fix d n)
    | hushed fix => exact absurd phase (noHushed fix)
    | _ => rfl
  · rw [resume]
    cases phase : t.phase with
    | hushed fix => exact absurd phase (noHushed fix)
    | _ => rfl
  · rw [rerange, phase]
    dsimp only
    rw [State.rerangeEntry, phase]
    simp only [Phase.isActive, if_true]
    rw [State.modTerm_reRanged (fix := fix) left leftTerm (by rw [phase]; rfl) (by rw [phase]; rfl)]
    rfl
  · rw [move, phase]
    dsimp only
    rcases bad with bad | bad <;> rw [bad]
    · rfl
    · dsimp only; rw [if_pos rfl]; rfl
  · rw [move, phase]
    dsimp only
    rw [named]
    dsimp only
    rw [if_neg other, if_neg (by rw [down]; decide)]; rfl
  · rw [move, phase]
    dsimp only
    rw [named]
    dsimp only
    rw [if_neg other, if_pos up]; rfl
  · rw [rerange, phase]
    dsimp only
    rw [State.rerangeEntry, phase]
    simp only [Phase.isActive, Bool.false_eq_true, if_false]
    rw [State.modTerm_reRanged (fix := fix) law.1 hterm (by rw [phase]; rfl) (by rw [phase]; rfl)]
    rfl
  · rw [move]
    cases phase : t.phase with
    | active fix d n => exact absurd phase (noActive fix d n)
    | _ => rfl
  · rw [rerange]
    cases phase : t.phase with
    | active fix d n => exact absurd phase (noActive fix d n)
    | hushed fix => exact absurd phase (noHushed fix)
    | _ => rfl

/-! ## Parts of a scan taken by themselves (R102, R135 to R137) -/

/-- An entry that has been read is free, DAMAGED or sound. -/
theorem State.entry_readEntry_cases (s : State) (h : Handle) :
    (s.readEntry h).term h = none ∨ ∃ t, (s.readEntry h).sound h t := by
  cases he : s.entry h with
  | none => exact .inl (by rw [State.readEntry_term_none (by rw [State.term, he]; rfl), State.term, he]; rfl)
  | some e =>
    obtain ⟨k, flaw, term⟩ := e
    obtain rfl : k = h := State.entry_handle he
    cases term with
    | none => exact .inl (by rw [State.readEntry_term_none (by rw [State.term, he]; rfl), State.term, he]; rfl)
    | some t =>
      cases flaw with
      | sound => exact .inr ⟨t, by rw [State.readEntry_sound he]; exact he⟩
      | correctable =>
        refine .inr ⟨t, ?_⟩
        have repaired : (s.setEntry k ⟨k, .sound, some t⟩).entry k = some ⟨k, .sound, some t⟩ := by
          rw [State.entry_setEntry s k k _ rfl, if_pos rfl, he]; rfl
        unfold State.sound State.readEntry
        rw [he]
        dsimp only
        split
        · exact (State.entry_congr (State.offerFlaw_registry _ _ _) k).trans repaired
        · exact repaired
      | uncorrectable => exact .inl (State.term_readEntry_uncorrectable he)

theorem State.readEntry_readEntry (s : State) (h : Handle) : (s.readEntry h).readEntry h = s.readEntry h := by
  rcases s.entry_readEntry_cases h with absent | ⟨t, ht⟩
  · exact State.readEntry_term_none absent
  · exact State.readEntry_sound ht

/-- Settles O60. -/
theorem lossRetentionAndPendingExpire : Obligations.LossRetentionAndPendingExpire := by
  intro s run
  have lost {s : State} (run : s.running) (h : Handle) : exec (.lost h) s = .next (s.lossPart h) :=
    congrArg _ (State.whenRunning_running run _)
  have retention {s : State} (run : s.running) (h : Handle) : exec (.retentionExpiry h) s = .next (s.retentionPart h) :=
    congrArg _ (State.whenRunning_running run _)
  have pending (m : Mark) : exec (.pendingExpired m) s = .next (s.pendingPart m) :=
    congrArg _ (State.whenRunning_running run _)
  refine ⟨fun h => ?_, fun h t ht => ⟨fun fix d n phase up unheard most => ?_, fun fix d n phase stays => ?_,
    fun idle => ?_, fun f age sent phase => ⟨fun old => ?_, fun young => ?_⟩, fun idle => ?_⟩, fun h absent => ?_,
    fun m => ⟨fun fresh => ?_, fun i waits => ⟨fun young => ?_, fun old => ?_⟩⟩⟩
  · have run' : (s.readEntry h).running := by unfold State.running; rw [State.readEntry_pins]; exact run
    rw [lost run, lost run', retention run, retention run', State.lossPart, State.lossPart, State.retentionPart,
      State.retentionPart, State.readEntry_readEntry]
    exact ⟨rfl, rfl⟩
  · rw [lost run, State.lossPart, State.readEntry_sound ht, State.term_of_sound ht]
    dsimp only
    rw [phase]
    dsimp only
    rw [if_pos ⟨up, unheard, most⟩]; rfl
  · rw [lost run, State.lossPart, State.readEntry_sound ht, State.term_of_sound ht]
    dsimp only
    rw [phase]
    dsimp only
    rw [if_neg]
    rintro ⟨up, unheard, most⟩
    rcases stays with down | heard | few
    · rw [down] at up; cases up
    · rw [heard] at unheard; cases unheard
    · exact absurd most (Nat.not_le.2 few)
  · rw [lost run, State.lossPart, State.readEntry_sound ht, State.term_of_sound ht]
    dsimp only
    cases phase : t.phase with
    | active fix d n => rw [phase] at idle; cases idle
    | _ => rfl
  · rw [retention run, State.retentionPart, State.readEntry_sound ht, State.term_of_sound ht]
    dsimp only
    rw [phase]
    dsimp only
    rw [if_pos old]
  · rw [retention run, State.retentionPart, State.readEntry_sound ht, State.term_of_sound ht]
    dsimp only
    rw [phase]
    dsimp only
    rw [if_neg (Nat.not_le.2 young)]
  · rw [retention run, State.retentionPart, State.readEntry_sound ht, State.term_of_sound ht]
    dsimp only
    cases phase : t.phase with
    | lost f age sent => rw [phase] at idle; cases idle
    | _ => rfl
  · rw [lost run, retention run, State.lossPart, State.retentionPart, State.readEntry_term_none absent,
      absent]
    exact ⟨rfl, rfl⟩
  · have absent : s.waitingItem m = none := List.find?_eq_none.2 fun i mem e => fresh i mem (beq_iff_eq.1 e)
    rw [pending, State.pendingPart, absent]
  · rw [pending, State.pendingPart, waits]
    dsimp only
    rw [if_neg (Nat.not_le.2 young)]
  · rw [pending, State.pendingPart, waits]
    dsimp only
    rw [if_pos old]; rfl

end Sys2Proof.Machine
end

section
/-! The store check (R33 to R36): what a read leaves of the whole state, of each channel and of each entry. -/

namespace Sys2Proof.Machine

/-! ## What the registry's operations leave alone -/

/-- What a read, and every other operation of the registry, leaves alone: the fields of the state it does not own, and of
each channel all but its range work, roster, records sent and out-queue. -/
structure State.Walked (s t : State) : Prop where
  whole : t = { s with
    registry := t.registry
    chans := t.chans
    retention := t.retention
    firstError := t.firstError
    fullLatch := t.fullLatch
    notices := t.notices
    overflow := t.overflow }
  chan : ∀ c, t.chan c = { s.chan c with
    rangeQ := (t.chan c).rangeQ
    gaps := (t.chan c).gaps
    offer := (t.chan c).offer
    roster := (t.chan c).roster
    tx := (t.chan c).tx
    outq := (t.chan c).outq }

theorem State.Walked.refl (s : State) : State.Walked s s := ⟨rfl, fun _ => rfl⟩

theorem State.Walked.trans {s t u : State} (a : State.Walked s t) (b : State.Walked t u) : State.Walked s u where
  whole := by rw [b.whole, a.whole]
  chan c := by rw [b.chan c, a.chan c]

/-- A change of the registry, the retention list, the record, the latch and the notices. -/
theorem State.Walked.of_chans {s t : State} (chans : t.chans = s.chans) (whole : t = { s with
    registry := t.registry
    chans := t.chans
    retention := t.retention
    firstError := t.firstError
    fullLatch := t.fullLatch
    notices := t.notices
    overflow := t.overflow }) : State.Walked s t := by
  refine ⟨whole, fun c => ?_⟩
  rw [State.chan_congr chans c]

theorem State.Walked.modTerm (s : State) (h : Handle) (f : Terminal → Terminal) : State.Walked s (s.modTerm h f) :=
  .of_chans rfl rfl

theorem State.Walked.setEntry (s : State) (h : Handle) (e : Entry) : State.Walked s (s.setEntry h e) := .of_chans rfl rfl

theorem State.Walked.raise (s : State) (n : Notice) : State.Walked s (s.raise n) := by
  refine .of_chans (State.raise_chans s n) ?_
  unfold State.raise
  split <;> rfl

theorem State.Walked.offerFlaw (s : State) (k : FlawKind) (h : Handle) : State.Walked s (s.offerFlaw k h) := by
  unfold State.offerFlaw
  split
  · exact .refl s
  · exact State.Walked.trans (t := { s with firstError := some ⟨k, h⟩ }) (.of_chans rfl rfl) (.raise _ _)

theorem State.Walked.told {s t : State} (a : State.Told s t) : State.Walked s t where
  whole := by rw [a.whole]
  chan c := by rw [a.chan c]

theorem State.Walked.queueFor (s : State) (h : Handle) (m : TreeMsg) : State.Walked s (s.queueFor h m) :=
  .told (.queueFor s h m)

theorem State.Walked.voidAll (s : State) (h : Handle) : State.Walked s (s.voidAll h) where
  whole := rfl
  chan c := by rw [State.voidAll, State.chan_modChans]; rfl

theorem State.Walked.rosterLeave (s : State) (c : Chan) (h : Handle) : State.Walked s (s.rosterLeave c h) where
  whole := by rw [State.rosterLeave_whole]
  chan d := by
    obtain ⟨r, tx, e⟩ := State.rosterLeave_chan s c d h
    rw [e]

theorem State.Walked.tree {s t : State} (a : State.Walked s t) : t.tree = s.tree := by rw [a.whole]

theorem State.Walked.table {s t : State} (a : State.Walked s t) : t.table = s.table := by rw [a.whole]

theorem State.Walked.waiting {s t : State} (a : State.Walked s t) : t.waiting = s.waiting := by rw [a.whole]

theorem State.Walked.isUp {s t : State} (a : State.Walked s t) (c : Chan) : t.isUp c = s.isUp c := by
  unfold State.isUp; rw [a.chan c]; rfl

/-! ## Roster leaves on every channel (R34, R62) -/

/-- The part of a roster-leave event on one channel (R62). -/
def ChanState.leaveRoster (x : ChanState) (h : Handle) : ChanState :=
  { x with
    roster := x.roster.filter fun k => !(k == h)
    tx := if h ∈ x.roster then x.tx ++ [.rosterLeave h] else x.tx }

theorem State.rosterLeave_modChan (s : State) (c : Chan) (h : Handle) : s.rosterLeave c h = s.modChan c (·.leaveRoster h) := by
  rw [State.rosterLeave_eq]
  split
  · rename_i mem
    refine State.modChan_congr s c ?_
    rw [ChanState.leaveRoster, if_pos mem]
  · rename_i out
    have same : (s.chan c).roster.filter (fun k => !(k == h)) = (s.chan c).roster := by
      refine List.filter_eq_self.2 fun k mem => ?_
      rw [Bool.not_eq_true', beq_eq_false_iff_ne]
      rintro rfl
      exact out mem
    have still : (s.chan c).leaveRoster h = s.chan c := by rw [ChanState.leaveRoster, if_neg out, same]
    exact (State.modChan_id s c (·.leaveRoster h) still).symm

theorem State.leaveRosters_eq (s : State) (h : Handle) : s.leaveRosters h = s.modChans (·.leaveRoster h) := by
  rw [modChans_eq]
  simp only [State.leaveRosters, Chan.all, List.foldl_cons, List.foldl_nil, State.rosterLeave_modChan]

/-! ## DISMISS on every UP channel (R34) -/

theorem State.dismissDamaged_outq (s : State) (h : Handle) (c d : Chan) : ((s.dismissDamaged h c).chan d).outq =
    if d = c ∧ s.isUp d = true then (joinRegistry s.tree.r (.dismiss h) (s.chan d).outq).queue else (s.chan d).outq := by
  unfold State.dismissDamaged
  by_cases e : d = c
  · subst e
    rw [State.offerMsg_outq_same]
    simp only [true_and]
  · rw [State.offerMsg_outq_ne s e, if_neg fun k => e k.1]

theorem State.Told.dismissEverywhere (s : State) (h : Handle) : State.Told s (s.dismissEverywhere h) :=
  (State.Told.offerMsg s .c0 _).trans <| (State.Told.offerMsg _ .c1 _).trans <|
    (State.Told.offerMsg _ .c2 _).trans (.offerMsg _ .c3 _)

theorem State.Owing.dismissEverywhere (s : State) (h k : Handle) : State.Owing s (s.dismissEverywhere h) k :=
  (State.Owing.offerMsg s .c0 _ k).trans <| (State.Owing.offerMsg _ .c1 _ k).trans <|
    (State.Owing.offerMsg _ .c2 _ k).trans (.offerMsg _ .c3 _ k)

theorem State.dismissEverywhere_outq (s : State) (h : Handle) (c : Chan) : ((s.dismissEverywhere h).chan c).outq =
    if s.isUp c = true then (joinRegistry s.tree.r (.dismiss h) (s.chan c).outq).queue else (s.chan c).outq := by
  have up (w : State) (d e : Chan) : (w.dismissDamaged h d).isUp e = w.isUp e := (State.Told.offerMsg w d _).isUp e
  have tree (w : State) (d : Chan) : (w.dismissDamaged h d).tree = w.tree := (State.Told.offerMsg w d _).tree
  cases c <;> simp [State.dismissEverywhere, Chan.all, State.dismissDamaged_outq, up, tree]

theorem State.takeReport_registry {w w' : State} (reg : w.registry = w'.registry) (up : ∀ c, w.isUp c = w'.isUp c)
    (c : Chan) (k : MsgKind) (h : Handle) :
    (w.takeReport .evicted c k h).registry = (w'.takeReport .evicted c k h).registry := by
  have owes : w.refusedOwes = w'.refusedOwes := by
    funext t k; unfold State.refusedOwes; rw [up]
  unfold State.takeReport State.modTerm
  dsimp only
  rw [reg, owes]

/-- The reports of the messages that a list of channels evicted. -/
def State.takeEvicted (out : Chan → Option QMsg) (w : State) (c : Chan) : State :=
  match out c with
  | some v => w.takeReport .evicted c v.msg.kind v.msg.handle
  | none => w

theorem State.takeEvicted_isUp (out : Chan → Option QMsg) (w : State) (c d : Chan) :
    (w.takeEvicted out c).isUp d = w.isUp d := by
  unfold State.takeEvicted
  split
  · exact (State.Told.takeReport w .evicted c _ _).isUp d
  · rfl

/-- The DISMISSes change the registry by the reports of what they evict alone. -/
theorem foldl_dismissDamaged_registry {out : Chan → Option QMsg} {h : Handle} (l : List Chan) (nd : l.Nodup)
    (w w' : State) (reg : w.registry = w'.registry) (up : ∀ c, w.isUp c = w'.isUp c)
    (evicted : ∀ c ∈ l, out c =
      if w.isUp c = true then (joinRegistry w.tree.r (.dismiss h) (w.chan c).outq).evicted else none) :
    (l.foldl (fun st c => st.dismissDamaged h c) w).registry = (l.foldl (State.takeEvicted out) w').registry := by
  induction l generalizing w w' with
  | nil => exact reg
  | cons c l ih =>
    obtain ⟨fresh, nd⟩ := List.nodup_cons.1 nd
    have told : State.Told w (w.dismissDamaged h c) := .offerMsg w c _
    refine ih nd _ _ ?_ (fun d => ?_) fun d mem => ?_
    · have first := evicted c List.mem_cons_self
      show (w.offerMsg c (.dismiss h)).1.registry = (w'.takeEvicted out c).registry
      unfold State.takeEvicted
      cases isUp : w.isUp c with
      | false =>
        rw [isUp, if_neg Bool.false_ne_true] at first
        rw [first, State.offerMsg_of_down _ isUp]
        exact reg
      | true =>
        rw [isUp, if_pos rfl] at first
        cases join : joinRegistry w.tree.r (.dismiss h) (w.chan c).outq with
        | mk q taken ev =>
          rw [join] at first
          dsimp only at first
          subst first
          cases e : out c with
          | none => rw [e] at join; rw [State.offerMsg_of_join isUp join]; exact reg
          | some v =>
            rw [e] at join
            rw [State.offerMsg_of_evict isUp join]
            exact State.takeReport_registry (w := w.modChan c _) reg
              (fun d => (State.isUp_outq w c q d).trans (up d)) c _ _
    · rw [told.isUp, State.takeEvicted_isUp, up]
    · have ne : d ≠ c := fun e => fresh (e ▸ mem)
      have outq : ((w.dismissDamaged h c).chan d).outq = (w.chan d).outq := State.offerMsg_outq_ne w ne _
      rw [evicted d (List.mem_cons_of_mem _ mem), told.isUp, told.tree, outq]

section
variable {q : List QMsg} {h : Handle} {r : Nat}

/-- With no message of the handle in the queue, DISMISS joins at its tail. -/
theorem joinRegistry_dismiss (fresh : ∀ m ∈ q, m.msg.handle ≠ h) :
    joinRegistry r (.dismiss h) q = joinTail ⟨.dismiss h, true, r, true⟩ q := by
  refine joinRegistry_eq_joinTail (m := .dismiss h) (List.filter_eq_self.2 fun m mem => ?_).symm
    fun m mem same => fresh m mem same.2
  have ne : (m.msg.handle == h) = false := beq_eq_false_iff_ne.2 (fresh m mem)
  show (!(m.msg.handle == h && _)) = true
  rw [ne]; rfl

theorem filter_normal_getLast? {a b : List QMsg} {v : QMsg} (hq : q = a ++ v :: b) (normal : v.urgent = false)
    (urgent : ∀ m ∈ b, m.urgent = true) : (q.filter fun m => !m.urgent).getLast? = some v := by
  have rest : b.filter (fun m => !m.urgent) = [] := List.filter_eq_nil_iff.2 fun m mem => by rw [urgent m mem]; decide
  rw [hq, List.filter_append, List.filter_cons_of_pos (by rw [normal]; rfl), rest, List.getLast?_append]
  rfl

/-- A queue is all urgent, or its youngest normal message has none but urgent ones behind it. -/
theorem normal_split (q : List QMsg) : (∀ m ∈ q, m.urgent = true) ∨
    ∃ a v b, q = a ++ v :: b ∧ v.urgent = false ∧ ∀ m ∈ b, m.urgent = true := by
  induction q with
  | nil => exact .inl fun m mem => by cases mem
  | cons x xs ih =>
    rcases ih with all | ⟨a, v, b, rfl, normal, urgent⟩
    · cases hx : x.urgent with
      | true => exact .inl (List.forall_mem_cons.2 ⟨hx, all⟩)
      | false => exact .inr ⟨[], x, xs, rfl, hx, all⟩
    · exact .inr ⟨x :: a, v, b, rfl, normal, urgent⟩

theorem joinRegistry_dismiss_evicted (fresh : ∀ m ∈ q, m.msg.handle ≠ h) :
    (joinRegistry r (.dismiss h) q).evicted = if 48 ≤ q.length then (q.filter fun m => !m.urgent).getLast? else none := by
  rw [joinRegistry_dismiss fresh]
  by_cases full : 48 ≤ q.length
  · rw [if_pos full]
    rcases normal_split q with all | ⟨a, v, b, hq, normal, urgent⟩
    · rw [joinTail_full full (.inr all), List.filter_eq_nil_iff.2 fun m mem => by rw [all m mem]; decide]
      rfl
    · rw [joinTail_evicts full rfl hq normal urgent, filter_normal_getLast? hq normal urgent]
  · rw [if_neg full, joinTail_room (Nat.lt_of_not_le full)]

end

/-! ## An entry becomes DAMAGED (R34) -/

/-- The state in which the DISMISSes of an entry that becomes DAMAGED are queued (R34). -/
def State.damageBase (s : State) (h : Handle) : State :=
  { s with
    chans := s.chans.map fun x => ({ x.voidFor h with outq := removeAll h x.outq } : ChanState).leaveRoster h
    registry := s.registry.map fun x => if x.handle = h then ⟨h, .sound, none⟩ else x
    retention := s.retention.filter fun x => !(x == h) }

theorem State.damage_eq (s : State) (h : Handle) :
    s.damage h = ((s.damageBase h).dismissEverywhere h).offerFlaw .uncorrectable h := by
  unfold State.damage
  dsimp only
  rw [State.leaveRosters_eq]
  rfl

theorem State.damageBase_chan (s : State) (h : Handle) (c : Chan) : (s.damageBase h).chan c =
    ({ (s.chan c).voidFor h with outq := removeAll h (s.chan c).outq } : ChanState).leaveRoster h := by
  cases c <;> rfl

theorem State.Walked.damageBase (s : State) (h : Handle) : State.Walked s (s.damageBase h) where
  whole := rfl
  chan c := by rw [State.damageBase_chan]; rfl

theorem State.Walked.damage (s : State) (h : Handle) : State.Walked s (s.damage h) := by
  rw [State.damage_eq]
  exact (State.Walked.damageBase s h).trans <| (State.Walked.told (.dismissEverywhere _ h)).trans (.offerFlaw _ _ h)

theorem State.damageBase_entry (s : State) (h k : Handle) : (s.damageBase h).entry k =
    if k = h then (s.entry h).map fun _ => ⟨h, .sound, none⟩ else s.entry k :=
  (State.entry_congr (s := s.damageBase h) (t := s.setEntry h ⟨h, .sound, none⟩) rfl k).trans
    (State.entry_setEntry s h k _ rfl)

theorem State.Owing.damage (s : State) {h k : Handle} (e : k ≠ h) : State.Owing s (s.damage h) k := by
  rw [State.damage_eq]
  refine State.Owing.congr (State.Owing.trans (.of_entry ?_) (.dismissEverywhere _ h k)) (State.offerFlaw_registry _ _ h)
  rw [State.damageBase_entry, if_neg e]

theorem State.entry_damage {s : State} {h : Handle} {e : Entry} (he : s.entry h = some e) :
    (s.damage h).entry h = some ⟨h, .sound, none⟩ := by
  have base : (s.damageBase h).entry h = some ⟨h, .sound, none⟩ := by
    rw [State.damageBase_entry, if_pos rfl, he]; rfl
  rw [State.damage_eq, State.entry_congr (State.offerFlaw_registry _ _ h),
    (State.Owing.dismissEverywhere _ h h).entry_none (by rw [State.term, base]; rfl), base]

theorem State.heldHandles_damage (s : State) (h : Handle) : (s.damage h).heldHandles = s.heldHandles := by
  rw [State.damage_eq]
  refine (congrArg (List.map Entry.handle) (State.offerFlaw_registry _ _ h)).trans ?_
  exact ((State.Told.dismissEverywhere _ h).handles).trans (State.heldHandles_storeDamaged s h)

theorem State.damage_retention (s : State) (h : Handle) :
    (s.damage h).retention = s.retention.filter fun k => !(k == h) := by
  rw [State.damage_eq, State.offerFlaw_retention, (State.Told.dismissEverywhere _ h).retention]; rfl

theorem State.damage_chan (s : State) (h : Handle) (c : Chan) : (s.damage h).chan c =
    { ({ (s.chan c).voidFor h with outq := removeAll h (s.chan c).outq } : ChanState).leaveRoster h with
      outq := if s.isUp c = true then (joinRegistry s.tree.r (.dismiss h) (removeAll h (s.chan c).outq)).queue
        else removeAll h (s.chan c).outq } := by
  rw [State.damage_eq, State.chan_offerFlaw, (State.Told.dismissEverywhere _ h).chan c, State.dismissEverywhere_outq,
    (State.Walked.damageBase s h).isUp, (State.Walked.damageBase s h).tree, State.damageBase_chan]
  rfl

theorem State.offerFlaw_of_some {s : State} {f : FirstError} (first : s.firstError = some f) (k : FlawKind) (h : Handle) :
    s.offerFlaw k h = s := by
  unfold State.offerFlaw; rw [first]

theorem State.offerFlaw_of_none {s : State} (first : s.firstError = none) (k : FlawKind) (h : Handle) :
    s.offerFlaw k h = ({ s with firstError := some ⟨k, h⟩ } : State).raise (Notice.storeError h k) := by
  unfold State.offerFlaw; rw [first]

/-- A flaw offered reads and changes the record and the notices alone. -/
theorem State.offerFlaw_frame (s : State) (registry : List Entry) (chans : PerChan ChanState) (retention : List Handle)
    (k : FlawKind) (h : Handle) :
    ({ s with registry := registry, chans := chans, retention := retention } : State).offerFlaw k h =
      { s.offerFlaw k h with registry := registry, chans := chans, retention := retention } := by
  rcases Option.eq_none_or_eq_some s.firstError with first | ⟨f, first⟩
  · rw [State.offerFlaw_of_none first]
    refine (State.offerFlaw_of_none (s := { s with registry := registry, chans := chans, retention := retention })
      first k h).trans ?_
    unfold State.raise
    dsimp only
    split <;> rfl
  · rw [State.offerFlaw_of_some first]
    exact State.offerFlaw_of_some (s := { s with registry := registry, chans := chans, retention := retention }) first k h

theorem State.damage_whole (s : State) (h : Handle) : s.damage h = { s.offerFlaw .uncorrectable h with
    registry := (s.damage h).registry
    chans := (s.damage h).chans
    retention := s.retention.filter fun k => !(k == h) } := by
  have told := (State.Told.dismissEverywhere (s.damageBase h) h).whole
  rw [State.damage_eq, told]
  refine (State.offerFlaw_frame s _ _ _ _ h).trans ?_
  rw [State.offerFlaw_registry, State.chans_offerFlaw]
  rfl

/-! ## A read with the store check (R33) -/

/-- What a read does, by the entry and its flaw. -/
theorem State.readEntry_eq {s : State} {h : Handle} {flaw : Flaw} {t : Terminal} (he : s.entry h = some ⟨h, flaw, some t⟩) :
    s.readEntry h = match (generalizing := false) flaw with
      | .sound => s
      | .correctable => if s.tree.capture = .all then (s.setEntry h ⟨h, .sound, some t⟩).offerFlaw .correctable h
          else s.setEntry h ⟨h, .sound, some t⟩
      | .uncorrectable => s.damage h := by
  simp only [State.readEntry, he]
  cases flaw <;> rfl

/-- A read leaves the state alone, repairs the entry in place, or makes it DAMAGED. -/
theorem State.readEntry_by {P : State → Prop} {s : State} {h : Handle} (still : P s)
    (repaired : ∀ e, s.entry h = some e → P (s.setEntry h { e with flaw := .sound }))
    (captured : ∀ e, s.entry h = some e → P ((s.setEntry h { e with flaw := .sound }).offerFlaw .correctable h))
    (damaged : P (s.damage h)) : P (s.readEntry h) := by
  unfold State.readEntry
  split
  · exact still
  · rename_i e he
    split
    · exact still
    · exact still
    · dsimp only
      split
      · exact captured e he
      · exact repaired e he
    · exact damaged

theorem State.Walked.readEntry (s : State) (h : Handle) : State.Walked s (s.readEntry h) :=
  State.readEntry_by (P := State.Walked s) (.refl s) (fun _ _ => .setEntry s h _)
    (fun _ _ => (State.Walked.setEntry s h _).trans (.offerFlaw _ _ h)) (.damage s h)

theorem State.heldHandles_readEntry (s : State) (h : Handle) : (s.readEntry h).heldHandles = s.heldHandles :=
  State.readEntry_by (P := fun t => t.heldHandles = s.heldHandles) rfl
    (fun e he => State.heldHandles_setEntry s (State.entry_handle (e := e) he))
    (fun e he => (congrArg (List.map Entry.handle) (State.offerFlaw_registry _ _ h)).trans
      (State.heldHandles_setEntry s (State.entry_handle (e := e) he)))
    (State.heldHandles_damage s h)

theorem State.Owing.readEntry (s : State) {h k : Handle} (e : k ≠ h) : State.Owing s (s.readEntry h) k := by
  have repair (x : Entry) (hx : s.entry h = some x) : State.Owing s (s.setEntry h { x with flaw := .sound }) k :=
    .of_entry ((State.entry_setEntry s h k { x with flaw := .sound } (State.entry_handle (e := x) hx)).trans (if_neg e))
  exact State.readEntry_by (P := fun t => State.Owing s t k) (.refl s k) repair
    (fun x hx => (repair x hx).congr (State.offerFlaw_registry _ _ h)) (.damage s e)

/-- What a read leaves of its own entry. -/
theorem State.entry_readEntry {s : State} {h : Handle} {flaw : Flaw} {t : Terminal}
    (he : s.entry h = some ⟨h, flaw, some t⟩) :
    (s.readEntry h).entry h = some ⟨h, .sound, if flaw = .uncorrectable then none else some t⟩ := by
  have repaired : (s.setEntry h ⟨h, .sound, some t⟩).entry h = some ⟨h, .sound, some t⟩ := by
    rw [State.entry_setEntry s h h _ rfl, if_pos rfl, he]; rfl
  rw [State.readEntry_eq he]
  cases flaw with
  | sound => exact he
  | correctable =>
    dsimp only
    split
    · exact (State.entry_congr (State.offerFlaw_registry _ _ h) h).trans repaired
    · exact repaired
  | uncorrectable => exact State.entry_damage he

/-! ## Requests that name a handle (R26, R35) -/

section
variable {s : State} {h : BitVec 16}

theorem State.onHandle_outOfRange (f : State → State × Reply) (bad : h.toNat = 0 ∨ 511 < h.toNat) :
    s.onHandle h f = (s, Reply.bare .outOfRange) := if_pos bad

theorem State.onHandle_free (f : State → State × Reply) (lo : 1 ≤ h.toNat) (hi : h.toNat ≤ 511)
    (free : s.entry h.toNat = none) : s.onHandle h f = (s, Reply.bare .noEntry) := by
  have range : ¬(h.toNat = 0 ∨ Config.maxHandle < h.toNat) := by
    rintro (zero | big)
    · rw [zero] at lo; exact absurd lo (by decide)
    · exact absurd hi (Nat.not_le.2 big)
  have unheld : ¬s.holds h.toNat = true := by
    rw [State.holds_iff, free]; rintro ⟨e, he⟩; cases he
  rw [State.onHandle, if_neg range, if_neg unheld]

/-- A request acts on what the read of its entry left, so that reading it before changes nothing. -/
theorem State.onHandle_readEntry (f : State → State × Reply) (lo : 1 ≤ h.toNat) (hi : h.toNat ≤ 511) {e : Entry}
    (he : s.entry h.toNat = some e) : (s.readEntry h.toNat).onHandle h f = s.onHandle h f := by
  obtain ⟨x, hx⟩ : ∃ x, (s.readEntry h.toNat).entry h.toNat = some x := by
    have held : h.toNat ∈ (s.readEntry h.toNat).heldHandles := by
      rw [State.heldHandles_readEntry]
      exact List.mem_map.2 ⟨e, State.entry_mem he, State.entry_handle he⟩
    obtain ⟨x, mem, ex⟩ := List.mem_map.1 held
    exact Option.isSome_iff_exists.1 (List.find?_isSome.2 ⟨x, mem, by simp [ex]⟩)
  rw [State.onHandle_held f lo hi hx, State.onHandle_held f lo hi he, State.readEntry_readEntry]

end

theorem State.readEntry_portReady (s : State) (h : Handle) : (s.readEntry h).portReady = s.portReady := by
  rw [(State.Walked.readEntry s h).whole]; rfl

/-- Each request that names a handle is one function of what the read of its entry left. -/
theorem exec_onHandle {i : Instr} {h : BitVec 16} {target : Byte} (mem : i ∈ [Instr.entryRead h, .dismiss h, .hush h,
    .resume h, .rerange h, .move h target, .clearDamaged h]) : ∃ f : State → State × Reply, ∀ s : State,
      s.portReady = true → exec i s = .next (State.answer (s.onHandle h f)) := by
  simp only [List.mem_cons, List.not_mem_nil, or_false] at mem
  rcases mem with rfl | rfl | rfl | rfl | rfl | rfl | rfl
  · exact ⟨_, fun s ready => State.request_ready ready _ (·.reqEntryRead h)⟩
  · exact ⟨_, fun s ready => State.request_ready ready _ (·.reqDismiss h)⟩
  · exact ⟨_, fun s ready => State.request_ready ready _ (·.reqHush h)⟩
  · exact ⟨_, fun s ready => State.request_ready ready _ (·.reqResume h)⟩
  · exact ⟨_, fun s ready => State.request_ready ready _ (·.reqRerange h)⟩
  · exact ⟨_, fun s ready => State.request_ready ready _ (·.reqMove h target)⟩
  · exact ⟨_, fun s ready => State.request_ready ready _ (·.reqClearDamaged h)⟩

/-- Those that act on a sound entry are functions of its fields. -/
theorem exec_onEntry {i : Instr} {h : BitVec 16} {target : Byte} (mem : i ∈ [Instr.dismiss h, .hush h, .resume h,
    .rerange h, .move h target]) : ∃ f : State → Terminal → State × Reply, ∀ s : State, s.portReady = true →
      exec i s = .next (State.answer (s.onEntry h f)) := by
  simp only [List.mem_cons, List.not_mem_nil, or_false] at mem
  rcases mem with rfl | rfl | rfl | rfl | rfl
  · exact ⟨_, fun s ready => State.request_ready ready _ (·.reqDismiss h)⟩
  · exact ⟨_, fun s ready => State.request_ready ready _ (·.reqHush h)⟩
  · exact ⟨_, fun s ready => State.request_ready ready _ (·.reqResume h)⟩
  · exact ⟨_, fun s ready => State.request_ready ready _ (·.reqRerange h)⟩
  · exact ⟨_, fun s ready => State.request_ready ready _ (·.reqMove h target)⟩

/-- Settles O35: `exec_onHandle` for the refusals, `readEntry_eq` for the repair, `damage_eq` for the damage. -/
theorem entryRequestsRefuseOtherHandles : Obligations.EntryRequestsRefuseOtherHandles := by
  intro s h target ready
  generalize hk : h.toNat = k
  refine ⟨fun i mem => ?_, fun i mem f lo hi he => ?_, fun t repaired he hr => ⟨fun all free => ?_, fun some_ => ?_⟩,
    fun t r noted out he hread hout hnoted => ?_⟩
  · obtain ⟨f, act⟩ := exec_onHandle mem
    rw [act s ready, act _ ((s.readEntry_portReady k).trans ready)]
    subst hk
    refine ⟨fun bad => ?_, fun lo hi free => ?_, fun lo hi => ?_⟩
    · rw [State.onHandle_outOfRange f bad]; rfl
    · rw [State.onHandle_free f lo hi free]; rfl
    · cases he : s.entry h.toNat with
      | none => rw [State.readEntry_term_none (by rw [State.term, he]; rfl)]
      | some e => rw [State.onHandle_readEntry f lo hi he]
  · obtain ⟨f, act⟩ := exec_onEntry mem
    subst hk
    have absent : s.term h.toNat = none := by rw [State.term, he]; rfl
    rw [act s ready, State.onEntry, State.onHandle_damaged _ lo hi he, absent]; rfl
  · rw [State.readEntry_eq he, hr]
    dsimp only
    rw [if_pos all]
    exact State.offerFlaw_of_none (s := s.setEntry k ⟨k, .sound, some t⟩) free _ _
  · rw [State.readEntry_eq he, hr]
    dsimp only
    split
    · rename_i all
      rcases some_ with no | first
      · rw [no] at all; cases all
      · obtain ⟨f, first⟩ := Option.ne_none_iff_exists'.1 first
        exact State.offerFlaw_of_some (s := s.setEntry k ⟨k, .sound, some t⟩) first _ _
    · rfl
  · have hdamage : r = s.damage k := by rw [hread, State.readEntry_eq he]
    have queue (c : Chan) : removeAll k (s.chan c).outq = (s.chan c).outq.filter fun m => !(m.msg.handle == k) := rfl
    have fresh (c : Chan) : ∀ m ∈ (s.chan c).outq.filter (fun m => !(m.msg.handle == k)), m.msg.handle ≠ k := by
      intro m mem
      simpa using List.of_mem_filter mem
    have noted' : noted = s.offerFlaw .uncorrectable k := by
      rw [hnoted]
      cases first : s.firstError with
      | none => exact (State.offerFlaw_of_none first _ _).symm
      | some f => exact (State.offerFlaw_of_some first _ _).symm
    have base := State.Walked.damageBase s k
    have outq (c : Chan) : ((s.damageBase k).chan c).outq = (s.chan c).outq.filter fun m => !(m.msg.handle == k) := by
      rw [State.damageBase_chan]; rfl
    have reg : r.registry = (Chan.all.foldl (State.takeEvicted out) (s.setEntry k ⟨k, .sound, none⟩)).registry := by
      rw [hdamage, State.damage_eq, State.offerFlaw_registry]
      refine foldl_dismissDamaged_registry (out := out) _ (by decide) _ _ rfl (fun c => base.isUp c) fun c _ => ?_
      rw [hout c _ rfl, outq, base.isUp, joinRegistry_dismiss_evicted (fresh c)]
      split
      · rename_i both; rw [if_pos both.1, if_pos both.2]
      · rename_i no
        by_cases up : s.isUp c = true
        · rw [if_pos up, if_neg fun full => no ⟨up, full⟩]
        · rw [if_neg up]
    refine ⟨?_, ?_, ?_, fun j u ne hu => ?_, fun room j ne => ?_, fun c q hq => ?_⟩
    · rw [hdamage, noted']; exact State.damage_whole s k
    · exact reg
    · rw [hdamage]; exact State.entry_damage he
    · rw [hdamage]; exact (State.Owing.damage s ne).term hu
    · have still (w : State) (c : Chan) : State.takeEvicted out w c = w := by
        have none_ : out c = none := by
          rw [hout c _ rfl]
          refine if_neg fun ⟨up, full⟩ => ?_
          exact absurd (room c up) (Nat.not_lt.2 (full.trans (List.length_filter_le _ _)))
        unfold State.takeEvicted; rw [none_]
      simp only [Chan.all, List.foldl_cons, List.foldl_nil, still] at reg
      rw [State.entry_congr reg, State.entry_setEntry s k j _ rfl, if_neg ne]
    · have chan := State.damage_chan s k c
      rw [← hdamage, queue, ← hq] at chan
      have fresh' : ∀ m ∈ q, m.msg.handle ≠ k := hq ▸ fresh c
      have out' : (r.chan c).outq =
          if s.isUp c = true then (joinTail ⟨.dismiss k, true, s.tree.r, true⟩ q).queue else q := by
        rw [chan, joinRegistry_dismiss fresh']
      refine ⟨?_, fun down => ?_, fun up room => ?_, fun up full urgent => ?_,
        fun a v b up full split normal urgent => ?_⟩
      · have gaps : (Gap.voidFor · k) = fun g => if g.names k then { g with kind := .voidRange } else g :=
          funext fun g => g.voidFor_eq k
        have offers : (Offer.voidFor · k) = fun o => if o.names k then { o with kind := .voidRange } else o :=
          funext fun o => o.voidFor_eq k
        rw [out', chan, joinRegistry_dismiss fresh', ← gaps, ← offers]
        rfl
      · rw [out', if_neg (by rw [down]; decide)]
      · rw [out', if_pos up, joinTail_room room]
      · rw [out', if_pos up, joinTail_full full (.inr urgent)]
      · rw [out', if_pos up, joinTail_evicts full rfl split normal urgent]

end Sys2Proof.Machine
end

section
/-! Final hand-outs (R25, Table 2-6) and the closing and lapse of gaps (R47, R51, R56, R57, R112), each on what the read of
the entry left. -/

namespace Sys2Proof.Machine

theorem State.inOrder_readEntry {s : State} (order : s.inOrder) (h : Handle) : (s.readEntry h).inOrder := by
  unfold State.inOrder
  rw [show (s.readEntry h).registry.map (·.handle) = s.registry.map (·.handle) from State.heldHandles_readEntry s h]
  exact order

/-! ## Final hand-outs (Table 2-6) -/

/-- Settles O56: a hand-out reads its entry and then acts by the table on the fields that the read left. -/
theorem finalHandOutsActAsTheTableSays : Obligations.FinalHandOutsActAsTheTableSays := by
  intro s c k h law
  have take : exec (.finalHandOutEvent c k h) s = .next ((s.dropEvent (.finalHandOut c k h)).takeFinalHandOut c k h) := rfl
  refine ⟨fun absent => ?_, fun flaw t s0 he hs0 => ?_⟩
  · have absent' : (s.dropEvent (.finalHandOut c k h)).term h = none := absent
    rw [take, State.takeFinalHandOut, State.readEntry_term_none absent']
    simp only [absent']
  · have he' : (s.dropEvent (.finalHandOut c k h)).entry h = some ⟨h, flaw, some t⟩ := he
    have order : s0.inOrder := hs0 ▸ State.inOrder_readEntry (s := s.dropEvent _) law.1 h
    have entry := State.entry_readEntry he'
    rw [State.takeFinalHandOut, ← hs0] at take
    rw [← hs0] at entry
    refine ⟨fun sound => ?_, fun ignored => ?_, fun ok home => ?_⟩
    · subst sound; rw [hs0]; exact State.readEntry_sound he'
    · rw [take]
      by_cases un : flaw = .uncorrectable
      · rw [if_pos un] at entry
        have none_ : s0.term h = none := by rw [State.term, entry]; rfl
        simp only [none_]
      · rw [if_neg un] at entry
        have term : s0.term h = some t := by rw [State.term, entry]; rfl
        simp only [term]
        rcases ignored with un' | other | hush
        · exact absurd un' un
        · rw [if_neg other]
        · subst hush; rw [ite_self]
    · rw [if_neg ok] at entry
      have term : s0.term h = some t := by rw [State.term, entry]; rfl
      simp only [term, home, if_true] at take
      rw [take]
      have own {f g : Terminal → Terminal} (same : f t = g t) : s0.modTerm h f = s0.modTerm h g :=
        State.modTerm_congr order fun u hu => by
          obtain rfl : t = u := Option.some.inj (term.symm.trans hu)
          exact same
      refine ⟨fun n f enrol phase => ?_, fun fix s1 phase kinds hs1 => ?_, fun fix d n ch trim phase pending => ?_,
        fun fix target retune phase => ?_, fun sent due dismiss phase => ?_, fun f age sent dismiss phase => ?_,
        fun enrol joins trim retune dismiss => ?_⟩
      · subst enrol; rw [phase]; rfl
      · have activate : s0.activate h = if t.moveFlag then s1.raise (Notice.moveDone h c) else s1 := by
          simp only [State.activate, term, phase, home, hs1]
          rfl
        rcases kinds with rfl | rfl <;> rw [phase] <;> exact congrArg _ activate
      · subst trim; rw [phase]; dsimp only; rw [pending]; rfl
      · subst retune
        rw [phase]
        refine congrArg (Host.Outcome.next ·) (congrArg (State.rangeRequest · h) (congrArg (State.modChan · target _) ?_))
        refine own ?_
        rw [Terminal.reRanged, phase]
        rfl
      · subst dismiss; rw [phase]
      · subst dismiss; rw [phase]
      · cases k with
        | enrol =>
          cases phase : t.phase with
          | enrolling n f => exact absurd phase (enrol rfl n f)
          | _ => rfl
        | setDelay =>
          cases phase : t.phase with
          | joining fix => exact absurd phase (joins (.inl rfl) fix)
          | _ => rfl
        | resume =>
          cases phase : t.phase with
          | joining fix => exact absurd phase (joins (.inr rfl) fix)
          | _ => rfl
        | trimDelay =>
          cases phase : t.phase with
          | active fix d n => dsimp only; rw [trim rfl fix d n phase]; rfl
          | _ => rfl
        | retune =>
          cases phase : t.phase with
          | retuning fix target => exact absurd phase (retune rfl fix target)
          | _ => rfl
        | dismiss =>
          obtain ⟨going, lost⟩ := dismiss rfl
          cases phase : t.phase with
          | lost f age sent => rw [phase] at lost; cases lost
          | dismissing sent due => rw [phase] at going; cases going
          | _ => rfl
        | hush => rfl

/-! ## Tags and end cycles of the gaps in flight -/

/-- What the lapse of the gaps reads of a channel: their tags and end cycles, in the order of placement. -/
def State.gapEnds (s : State) (c : Chan) : List (Tag × Cyc) := (s.chan c).gaps.map fun g => (g.tag, g.endCycle)

theorem Gap.voidFor_ends (g : Gap) (h : Handle) : (g.voidFor h).tag = g.tag ∧ (g.voidFor h).endCycle = g.endCycle := by
  rw [Gap.voidFor_eq]; split <;> exact ⟨rfl, rfl⟩

section
variable (s : State) (c : Chan)

theorem State.gapEnds_congr {s t : State} {c : Chan} (gaps : (t.chan c).gaps = (s.chan c).gaps) :
    t.gapEnds c = s.gapEnds c := by unfold State.gapEnds; rw [gaps]

theorem State.gapEnds_modChan (d : Chan) {f : ChanState → ChanState} (k : ∀ x, (f x).gaps = x.gaps) :
    (s.modChan d f).gapEnds c = s.gapEnds c := by
  refine State.gapEnds_congr ?_
  rw [State.chan_modChan]
  split
  · rename_i e; rw [k, e]
  · rfl

theorem ChanState.voidFor_ends (x : ChanState) (h : Handle) : (x.voidFor h).gaps.map (fun g => (g.tag, g.endCycle)) =
    x.gaps.map fun g => (g.tag, g.endCycle) := by
  show (x.gaps.map (·.voidFor h)).map _ = _
  rw [List.map_map]
  refine List.map_congr_left fun g _ => ?_
  obtain ⟨tag, ends⟩ := g.voidFor_ends h
  exact Prod.ext tag ends

theorem State.gapEnds_voidAll (h : Handle) : (s.voidAll h).gapEnds c = s.gapEnds c := by
  unfold State.gapEnds State.voidAll
  rw [State.chan_modChans, ChanState.voidFor_ends]

theorem State.gapEnds_rosterLeave (d : Chan) (h : Handle) : (s.rosterLeave d h).gapEnds c = s.gapEnds c :=
  State.gapEnds_congr (State.rosterLeave_keeps (·.gaps) (fun _ _ _ => rfl) s d c h)

theorem State.gapEnds_raise (n : Notice) : (s.raise n).gapEnds c = s.gapEnds c :=
  State.gapEnds_congr (by rw [State.chan_raise])

theorem State.gapEnds_told {s t : State} (a : State.Told s t) (c : Chan) : t.gapEnds c = s.gapEnds c :=
  State.gapEnds_congr (by rw [a.chan c])

theorem State.gapEnds_bump (d : Chan) (k : TallyKind) : (s.bump d k).gapEnds c = s.gapEnds c :=
  State.gapEnds_congr (State.bump_chan_gaps s d c k)

theorem State.gapEnds_readEntry (h : Handle) : (s.readEntry h).gapEnds c = s.gapEnds c :=
  State.readEntry_by (P := fun t => t.gapEnds c = s.gapEnds c) rfl (fun _ _ => rfl)
    (fun _ _ => State.gapEnds_congr (by rw [State.chan_offerFlaw, State.chan_setEntry]))
    ((State.damage_keeps (fun x => x.gaps.map fun g : Gap => (g.tag, g.endCycle)) (fun _ _ => rfl) (fun _ _ _ => rfl) s h
      c).trans
      ((s.chan c).voidFor_ends h))

theorem State.gapEnds_rangeRequest (h : Handle) : (s.rangeRequest h).gapEnds c = s.gapEnds c := by
  unfold State.rangeRequest
  split
  · rfl
  · split
    · rfl
    · exact s.gapEnds_modChan c _ fun _ => rfl

theorem State.gapEnds_enterLost (h : Handle) : (s.enterLost h).gapEnds c = s.gapEnds c := by
  unfold State.enterLost
  split
  · rfl
  · exact (State.gapEnds_told (.queueFor _ h _) c).trans (s.gapEnds_rosterLeave c _ h)

theorem State.gapEnds_enterDismissing (h : Handle) : (s.enterDismissing h).gapEnds c = s.gapEnds c := by
  unfold State.enterDismissing
  split
  · rfl
  · refine (State.gapEnds_told ((State.Told.modTerm _ h _).trans (.queueFor _ h _)) c).trans ?_
    rw [State.gapEnds_voidAll]
    split
    · exact s.gapEnds_rosterLeave c _ h
    · rfl

theorem State.gapEnds_failAttempt (h : Handle) (o : RangeOutcome) : (s.failAttempt h o).gapEnds c = s.gapEnds c := by
  unfold State.failAttempt
  split
  · rfl
  · dsimp only
    split
    · split
      · rw [State.gapEnds_raise, State.gapEnds_enterLost, State.gapEnds_raise, State.gapEnds_voidAll]
      · rw [State.gapEnds_enterLost, State.gapEnds_raise, State.gapEnds_voidAll]
    · rw [State.gapEnds_enterDismissing, State.gapEnds_raise, State.gapEnds_voidAll]

theorem State.gapEnds_addRetry (h : Handle) (o : RangeOutcome) : (s.addRetry h o).gapEnds c = s.gapEnds c := by
  unfold State.addRetry
  split
  · rfl
  · split
    · rfl
    · split
      · exact s.gapEnds_failAttempt c h o
      · rfl

theorem State.gapEnds_gapCloseEvent (d : Chan) (h : Handle) (seen : Bool) :
    (s.gapCloseEvent d h seen).gapEnds c = s.gapEnds c := by
  unfold State.gapCloseEvent
  dsimp only
  split
  · exact s.gapEnds_readEntry c h
  · split
    · split
      · rw [State.gapEnds_rangeRequest, State.gapEnds_readEntry]
      · split
        · rw [State.gapEnds_addRetry, State.gapEnds_bump, State.gapEnds_readEntry]
        · rw [State.gapEnds_rangeRequest, State.gapEnds_addRetry, State.gapEnds_bump, State.gapEnds_readEntry]
    · exact s.gapEnds_readEntry c h

theorem State.gapEnds_quiet (d : Chan) : (s.quiet d).gapEnds c = s.gapEnds c := by
  unfold State.quiet
  split
  · rw [State.gapEnds_raise]; exact s.gapEnds_modChan c d fun _ => rfl
  · rfl

end

/-! ## Closing (R56) -/

section
variable {s s1 : State} {c : Chan} {a b : List Gap} {g : Gap}

theorem ChanState.gapOf_split {x : ChanState} (gaps : x.gaps = a ++ g :: b) (fresh : ∀ g' ∈ a ++ b, g'.tag ≠ g.tag) :
    x.gapOf g.tag = some g := by
  have before : a.find? (·.tag == g.tag) = none :=
    List.find?_eq_none.2 fun g' mem e => fresh g' (List.mem_append_left _ mem) (beq_iff_eq.1 e)
  rw [ChanState.gapOf, gaps, List.find?_append, before]
  simp

/-- The closed gap leaves the table, and its kind says what follows (R56). -/
theorem State.closeGap_eq (gaps : (s.chan c).gaps = a ++ g :: b) (fresh : ∀ g' ∈ a ++ b, g'.tag ≠ g.tag)
    (hs1 : s1 = s.modChan c fun x => { x with gaps := a ++ b }) : s.closeGap c g = match g.kind with
      | .range h seen => s1.gapCloseEvent c h seen
      | .voidRange => s1
      | .census _ => s1.quiet c := by
  have rest : (s.chan c).gaps.filter (fun g' => !(g'.tag == g.tag)) = a ++ b := by
    have keep (l : List Gap) (k : ∀ g' ∈ l, g'.tag ≠ g.tag) : l.filter (fun g' => !(g'.tag == g.tag)) = l :=
      List.filter_eq_self.2 fun g' mem => by simpa using k g' mem
    rw [gaps, List.filter_append, List.filter_cons_of_neg (by simp),
      keep a fun g' mem => fresh g' (List.mem_append_left _ mem), keep b fun g' mem => fresh g' (List.mem_append_right _ mem)]
  have closed : s.modChan c (fun x => { x with gaps := x.gaps.filter fun g' => !(g'.tag == g.tag) }) = s1 := by
    rw [hs1]
    exact State.modChan_congr s c (by rw [rest])
  unfold State.closeGap
  rw [closed] <;> rfl

theorem State.gapEnds_closeGap (gaps : (s.chan c).gaps = a ++ g :: b) (fresh : ∀ g' ∈ a ++ b, g'.tag ≠ g.tag) :
    (s.closeGap c g).gapEnds c = (a ++ b).map fun g => (g.tag, g.endCycle) := by
  have rest : (s.modChan c fun x => { x with gaps := a ++ b }).gapEnds c = (a ++ b).map fun g => (g.tag, g.endCycle) := by
    rw [State.gapEnds, State.chan_modChan_same]
  rw [State.closeGap_eq gaps fresh rfl, ← rest]
  split
  · exact State.gapEnds_gapCloseEvent _ c c _ _
  · rfl
  · exact State.gapEnds_quiet _ c c

/-- The tags of the gaps that lapse, read from their tags and end cycles. -/
theorem State.lapseCheck_eq (s : State) (c : Chan) (n : Cyc) : s.lapseCheck c n =
    (((s.gapEnds c).filter fun p => atOrAfter n (p.2 + Config.lapseCycles)).map (·.1)).foldl
      (fun st tag => st.lapseOne c tag) s := by
  unfold State.lapseCheck State.gapEnds
  rw [List.filter_map, List.map_map]
  rfl

theorem Gap.lapsedAt_iff (g : Gap) (n : Cyc) : g.lapsedAt n = true ↔ (n - (g.endCycle + 8)).toNat < 32768 :=
  decide_eq_true_iff

theorem filter_lapsed_eq_nil {l : List Gap} {n : Cyc} (k : ∀ g ∈ l, 32768 ≤ (n - (g.endCycle + 8)).toNat) :
    (l.map fun g => (g.tag, g.endCycle)).filter (fun p => atOrAfter n (p.2 + Config.lapseCycles)) = [] := by
  rw [List.filter_map, List.map_eq_nil_iff]
  exact List.filter_eq_nil_iff.2 fun g mem lapsed => absurd ((g.lapsedAt_iff n).1 lapsed) (Nat.not_lt.2 (k g mem))

/-- The first gap that lapses is taken as if it had been closed, and the rest lapse from the state that leaves (R57). -/
theorem State.lapseCheck_first {n : Cyc} (gaps : (s.chan c).gaps = a ++ g :: b) (fresh : ∀ g' ∈ a ++ b, g'.tag ≠ g.tag)
    (lapsed : (n - (g.endCycle + 8)).toNat < 32768) (ahead : ∀ g' ∈ a, 32768 ≤ (n - (g'.endCycle + 8)).toNat) :
    s.lapseCheck c n = (s.lapseOne c g.tag).lapseCheck c n := by
  have one : s.lapseOne c g.tag = ((s.closeGap c g).modChan c fun x => { x with
      lapsed := pushLapsed g.tag x.lapsed }).bump c .lapses := by
    unfold State.lapseOne; rw [ChanState.gapOf_split gaps fresh]
  have ends : (s.lapseOne c g.tag).gapEnds c = (a ++ b).map fun g => (g.tag, g.endCycle) := by
    rw [one, State.gapEnds_bump, State.gapEnds_modChan _ c c (f := fun x => { x with
      lapsed := pushLapsed g.tag x.lapsed }) fun _ => rfl]
    exact State.gapEnds_closeGap gaps fresh
  have now : atOrAfter n ((g.tag, g.endCycle).2 + Config.lapseCycles) = true := (g.lapsedAt_iff n).2 lapsed
  rw [State.lapseCheck_eq, State.lapseCheck_eq, ends, State.gapEnds, gaps, List.map_append, List.map_append, List.map_cons,
    List.filter_append, List.filter_append, filter_lapsed_eq_nil ahead, List.filter_cons, if_pos now]
  rfl

end

/-- Settles O51: `closeGap_eq` for what a close does by the kind of the gap, `lapseCheck_first` for the order of lapses. -/
theorem gapsCloseAndLapse : Obligations.GapsCloseAndLapse := by
  refine ⟨fun s h stands hstands => ?_, fun _ _ => rfl, fun s c run => ?_⟩
  · have work : s.hasWork h = true ↔ stands := by
      rw [State.hasWork_iff, hstands]
      refine exists_congr fun c => ?_
      rw [ChanState.hasWork_iff]
      simp only [Offer.names_iff_range, Gap.names_iff_range]
    refine ⟨fun no => ?_, fun t ht free => ?_⟩
    · unfold State.rangeRequest
      split
      · rfl
      · rename_i t ht
        rcases no with absent | st
        · rw [absent] at ht; cases ht
        · exact if_pos (work.2 st)
    · unfold State.rangeRequest
      rw [ht]
      exact if_neg fun k => free (work.1 k)
  · have close (tag : Tag) : exec (.gapClosed c tag) s = .next (s.takeGapClosed c tag) :=
      congrArg _ (State.whenRunning_running run _)
    have noGap {tag : Tag} (fresh : ∀ g ∈ (s.chan c).gaps, g.tag ≠ tag) : (s.chan c).gapOf tag = none :=
      List.find?_eq_none.2 fun g mem e => fresh g mem (beq_iff_eq.1 e)
    refine ⟨fun tag no => ?_, fun tag up fresh mem => ?_, fun n no => ?_, fun a b g s1 up gaps fresh hs1 => ?_⟩
    · rw [close]
      unfold State.takeGapClosed
      rcases no with down | ⟨fresh, out⟩
      · rw [down]; rfl
      · rw [noGap fresh]
        simp [out]
    · rw [close]
      unfold State.takeGapClosed
      rw [if_pos up, noGap fresh]
      simp [mem]
    · rcases no with down | ahead
      · exact congrArg _ ((State.whenRunning_running run _).trans (if_neg (by rw [down]; decide)))
      · cases up : s.isUp c with
        | false => exact congrArg _ ((State.whenRunning_running run _).trans (if_neg (by rw [up]; decide)))
        | true => rw [exec_gapLapse n run up, State.lapseCheck_of_none ahead]
    · have closed : exec (.gapClosed c g.tag) s = .next (s.closeGap c g) := by
        rw [close, State.takeGapClosed, if_pos up, ChanState.gapOf_split gaps fresh]
      have kinds := State.closeGap_eq gaps fresh hs1
      refine ⟨fun void => ?_, fun answers census => ⟨fun idle => ?_, fun pending => ?_⟩,
        fun h flaw t seen s2 law he range hs2 => ?_, fun h seen range absent => ?_, fun n lapsed ahead => ?_⟩
      · rw [closed, kinds, void]
      · rw [closed, kinds, census, hs1]
        refine congrArg _ (if_neg ?_)
        rw [State.chan_modChan_same, idle]; decide
      · rw [closed, kinds, census]
        refine congrArg _ (State.quiet_of_pending ?_)
        rw [hs1, State.chan_modChan_same]; exact pending
      · have he1 : s1.entry h = some ⟨h, flaw, some t⟩ := by rw [hs1]; exact he
        have order1 : s1.inOrder := by rw [hs1]; exact law.1
        have order : s2.inOrder := hs2 ▸ State.inOrder_readEntry order1 h
        have entry := State.entry_readEntry he1
        have tree : s1.tree = s.tree := by rw [hs1]; rfl
        have tree2 : s2.tree = s.tree := by rw [hs2, (State.Walked.readEntry s1 h).tree, tree]
        rw [closed, kinds, range]
        dsimp only
        unfold State.gapCloseEvent
        rw [← hs2] at entry ⊢
        dsimp only
        refine ⟨fun sound => ?_, fun idle => ?_, fun ok k smp f d phase => ?_⟩
        · subst sound; rw [hs2]; exact State.readEntry_sound he1
        · by_cases un : flaw = .uncorrectable
          · rw [if_pos un] at entry
            have none_ : s2.term h = none := by rw [State.term, entry]; rfl
            simp only [none_]
          · rw [if_neg un] at entry
            have term : s2.term h = some t := by rw [State.term, entry]; rfl
            simp only [term]
            cases phase : t.phase with
            | ranging k smp f d => exact absurd phase ((idle.resolve_left un) k smp f d)
            | _ => rfl
        · rw [if_neg ok] at entry
          have term : s2.term h = some t := by rw [State.term, entry]; rfl
          have term' : (s2.bump c .noReply).term h = some t := term
          have order' : (s2.bump c .noReply).inOrder := by unfold State.inOrder; rw [State.bump_registry]; exact order
          have tree' : (s2.bump c .noReply).tree = s.tree := tree2
          simp only [term, phase]
          refine ⟨fun hs => ?_, fun hs short => ?_, fun hs reached => ?_⟩
          · rw [if_pos hs]
          · rw [if_neg (by rw [hs]; decide), if_neg (by rw [tree]; exact Nat.not_le.2 short),
              State.addRetry_counted .noReply order' term' phase (by rw [tree']; exact short)]
          · rw [if_neg (by rw [hs]; decide), if_pos (by rw [tree]; exact reached),
              State.addRetry_failed .noReply term' phase (by rw [tree']; exact reached)]
      · have absent1 : s1.term h = none := by rw [hs1]; exact absent
        rw [closed, kinds, range]
        dsimp only
        unfold State.gapCloseEvent
        rw [State.readEntry_term_none absent1]
        simp only [absent1]
      · refine ⟨_, closed, fun first hfirst => ?_⟩
        have one : s.lapseOne c g.tag = first := by
          rw [hfirst, State.lapseOne, ChanState.gapOf_split gaps fresh]
          rfl
        have run' : first.running := by
          unfold State.running; rw [← one, State.lapseOne_pins]; exact run
        have up' : first.isUp c = true := by rw [← one, State.isUp_lapseOne]; exact up
        have step := State.lapseCheck_first gaps fresh lapsed ahead
        rw [one] at step
        rw [exec_gapLapse n run up, exec_gapLapse n run' up', step]
        refine ⟨rfl, fun later => congrArg _ ?_⟩
        have ends : first.gapEnds c = (a ++ b).map fun g => (g.tag, g.endCycle) := by
          rw [hfirst, State.gapEnds_bump, State.gapEnds_modChan _ c c (f := fun x => { x with
            lapsed := (if 4 ≤ x.lapsed.length then x.lapsed.drop 1 else x.lapsed) ++ [g.tag] }) fun _ => rfl]
          exact State.gapEnds_closeGap gaps fresh
        rw [State.lapseCheck_eq, ends, filter_lapsed_eq_nil fun g' mem => (List.mem_append.1 mem).elim (ahead g') (later g')]
        rfl

end Sys2Proof.Machine
end

section
/-! Walks over the entries: one operation taken at each handle in turn, where the operation at one handle leaves the
entries of the others, or can add owed kinds to them and nothing else. The announcement of a link that becomes UP is one (R42). -/

namespace Sys2Proof.Machine

/-! ## Walks -/

section
variable {K : Type} {P : State → Prop} {f g : State → K → State} {R : State → State → K → Prop}

/-- Two operations that agree wherever the entry at hand is as the walk found it, up to R, make the same walk. -/
theorem foldl_walk (refl : ∀ s k, R s s k) (trans : ∀ {s t u k}, R s t k → R t u k → R s u k) {s : State}
    (l : List K) (nd : l.Nodup) (start : P s) (keeps : ∀ w h, P w → P (f w h))
    (other : ∀ w h k, k ≠ h → P w → R w (f w h) k)
    (same : ∀ w h, h ∈ l → P w → R s w h → f w h = g w h) : l.foldl f s = l.foldl g s := by
  suffices walk : ∀ (l : List K), l.Nodup → ∀ v, P v → (∀ k ∈ l, R s v k) →
      (∀ w h, h ∈ l → P w → R s w h → f w h = g w h) → l.foldl f v = l.foldl g v from
    walk l nd s start (fun k _ => refl s k) same
  intro l
  induction l with
  | nil => intros; rfl
  | cons h l ih =>
    intro nd v hv reached same
    obtain ⟨fresh, nd⟩ := List.nodup_cons.1 nd
    rw [List.foldl_cons, List.foldl_cons, ← same v h List.mem_cons_self hv (reached h List.mem_cons_self)]
    refine ih nd _ (keeps v h hv) (fun k mem => ?_) fun w k mem => same w k (List.mem_cons_of_mem _ mem)
    exact trans (reached k (List.mem_cons_of_mem _ mem)) (other v h k (fun e => fresh (e ▸ mem)) hv)

/-- What a walk leaves of an entry: what the operation at its own handle leaves, up to R. -/
theorem foldl_walk_entry (refl : ∀ s k, R s s k) (trans : ∀ {s t u k}, R s t k → R t u k → R s u k) {s : State}
    (l : List K) (nd : l.Nodup) (start : P s) (keeps : ∀ w h, P w → P (f w h))
    (other : ∀ w h k, k ≠ h → P w → R w (f w h) k) (k : K) :
    (k ∉ l → R s (l.foldl f s) k) ∧ (k ∈ l → ∃ w, P w ∧ R s w k ∧ R (f w k) (l.foldl f s) k) := by
  induction l generalizing s with
  | nil => exact ⟨fun _ => refl s k, fun mem => by cases mem⟩
  | cons h l ih =>
    obtain ⟨fresh, nd⟩ := List.nodup_cons.1 nd
    obtain ⟨out, inside⟩ := ih nd (keeps s h start)
    refine ⟨fun no => ?_, fun mem => ?_⟩
    · obtain ⟨ne, no⟩ := not_or.1 fun k => no (List.mem_cons.2 k)
      exact trans (other s h k ne start) (out no)
    · by_cases e : k = h
      · subst e
        exact ⟨s, start, refl s k, out fresh⟩
      · obtain ⟨w, hw, before, after⟩ := inside ((List.mem_cons.1 mem).resolve_left e)
        exact ⟨w, hw, trans (other s h k e start) before, after⟩

end

theorem State.inOrder.nodup {s : State} (order : s.inOrder) : s.heldHandles.Nodup :=
  List.Pairwise.imp (fun lt => Nat.ne_of_lt lt) order

/-! ## Announcing a roster (R42, R62) -/

theorem State.Walked.rosterJoin (s : State) (c : Chan) (h : Handle) : State.Walked s (s.rosterJoin c h) := by
  rw [State.rosterJoin_eq]
  split
  · refine ⟨rfl, fun d => ?_⟩
    rw [State.chan_modChan]
    split
    · rename_i e; rw [e]
    · rfl
  · exact .refl s

theorem State.Walked.announce (s : State) (c : Chan) (h : Handle) : State.Walked s (s.announce c h) := by
  unfold State.announce
  split
  · exact .refl s
  · split
    · dsimp only
      split
      · exact (State.Walked.readEntry s h).trans (.rosterJoin _ c h)
      · exact .readEntry s h
    · exact .refl s

theorem State.Owing.announce (s : State) (c : Chan) {h k : Handle} (e : k ≠ h) : State.Owing s (s.announce c h) k := by
  unfold State.announce
  split
  · exact .refl s k
  · split
    · dsimp only
      split
      · exact (State.Owing.readEntry s e).congr (State.rosterJoin_registry _ c h)
      · exact .readEntry s e
    · exact .refl s k

/-- The entry is ACTIVE and homed on c. -/
def State.isActiveOn (s : State) (c : Chan) (h : Handle) : Bool :=
  (s.term h).any fun t => t.phase.isActive && decide (t.home = c)

theorem State.isActiveOn_owing {s w : State} {h : Handle} (a : State.Owing s w h) (c : Chan) :
    w.isActiveOn c h = s.isActiveOn c h := by
  unfold State.isActiveOn
  cases ht : s.term h with
  | none => rw [a.term_none ht]
  | some t =>
    obtain ⟨o, e⟩ := a.term ht
    rw [e]; rfl

/-- The entry that a lookup by handle finds is the one that stands in the registry (R18). -/
theorem State.filter_heldHandles {s : State} (order : s.inOrder) (p : Terminal → Bool) :
    s.heldHandles.filter (fun h => (s.term h).any p) = (s.registry.filter fun e => e.term.any p).map (·.handle) := by
  unfold State.heldHandles
  rw [List.filter_map]
  congr 1
  refine List.filter_congr fun e mem => ?_
  show Option.any p (s.term e.handle) = _
  rw [State.term, State.entry_of_mem order mem]
  rfl

/-- The read and the ROSTER JOIN of one entry on an UP channel (R42). -/
def State.announceRead (c : Chan) (w : State) (h : Handle) : State :=
  if (w.readEntry h).term h = none ∨ h ∈ ((w.readEntry h).chan c).roster then w.readEntry h
  else (w.readEntry h).modChan c fun x => { x with roster := x.roster ++ [h], tx := x.tx ++ [.rosterJoin h] }

theorem State.announce_eq {w : State} {c : Chan} {h : Handle} (up : w.isUp c = true) (lo : 1 ≤ h) (hi : h ≤ 511) :
    w.announce c h = if w.isActiveOn c h then w.announceRead c h else w := by
  unfold State.announce State.isActiveOn
  cases ht : w.term h with
  | none => rfl
  | some t =>
    simp only [Option.any_some, Bool.and_eq_true, decide_eq_true_eq]
    split
    · unfold State.announceRead
      cases hr : (w.readEntry h).term h with
      | none => simp
      | some u =>
        have up' : (w.readEntry h).isUp c = true := (State.Walked.readEntry w h).isUp c ▸ up
        simp only [Option.isSome_some, if_true, State.rosterJoin_eq, reduceCtorEq, false_or]
        by_cases mem : h ∈ ((w.readEntry h).chan c).roster
        · rw [if_pos mem, if_neg fun k => k.2.1 mem]
        · rw [if_neg mem, if_pos ⟨up', mem, lo, hi⟩]
    · rfl

/-- The announcement walks the ACTIVE entries homed on the channel alone. -/
theorem State.announceAll_eq {s : State} {c : Chan} (law : HandleLaw s) (up : s.isUp c = true) :
    s.heldHandles.foldl (fun st h => st.announce c h) s =
      ((s.registry.filter fun e => e.term.any fun t => t.phase.isActive && decide (t.home = c)).map (·.handle)).foldl
        (State.announceRead c) s := by
  obtain ⟨order, range⟩ := handleLaw_iff.1 law
  rw [← State.filter_heldHandles order, List.foldl_filter]
  refine foldl_walk (P := State.Walked s) State.Owing.refl State.Owing.trans _ order.nodup (.refl s) (fun w h a => a.trans (.announce w c h))
    (fun w h k e _ => .announce w c e) fun w h mem a owed => ?_
  obtain ⟨lo, hi⟩ := range h mem
  rw [State.announce_eq ((a.isUp c).trans up) lo hi, State.isActiveOn_owing owed]
  rfl

/-- Handles that join the roster of one channel, each once, with their records. -/
theorem foldl_rosterJoins {c : Chan} (l : List Handle) (nd : l.Nodup) (w : State) :
    l.foldl (fun (w : State) h => if h ∈ (w.chan c).roster then w
      else w.modChan c fun x => { x with roster := x.roster ++ [h], tx := x.tx ++ [.rosterJoin h] }) w =
    w.modChan c fun x => { x with
      roster := x.roster ++ l.filter fun h => !((w.chan c).roster.contains h)
      tx := x.tx ++ (l.filter fun h => !((w.chan c).roster.contains h)).map TxRecord.rosterJoin } := by
  induction l generalizing w with
  | nil => exact (State.modChan_id w c _ (by simp)).symm
  | cons h l ih =>
    obtain ⟨fresh, nd⟩ := List.nodup_cons.1 nd
    rw [List.foldl_cons]
    by_cases mem : h ∈ (w.chan c).roster
    · rw [if_pos mem, ih nd, List.filter_cons_of_neg (by simpa using mem)]
    · rw [if_neg mem, ih nd, List.filter_cons_of_pos (by simpa using mem), State.modChan_modChan, State.chan_modChan_same]
      have rest : l.filter (fun k => !(((w.chan c).roster ++ [h]).contains k)) =
          l.filter fun k => !((w.chan c).roster.contains k) := by
        refine List.filter_congr fun k hk => ?_
        have ne : k ≠ h := fun e => fresh (e ▸ hk)
        simp [ne]
      dsimp only
      rw [rest]
      refine State.modChan_congr w c ?_
      simp

/-- A walk of announcements over sound entries joins their handles to the roster. -/
theorem foldl_announceRead_sound {c : Chan} (l : List Handle) {s w : State} (sound : s.allSound)
    (reg : w.registry = s.registry) (held : ∀ h ∈ l, s.term h ≠ none) : l.foldl (State.announceRead c) w =
      l.foldl (fun (w : State) h => if h ∈ (w.chan c).roster then w
        else w.modChan c fun x => { x with roster := x.roster ++ [h], tx := x.tx ++ [.rosterJoin h] }) w := by
  induction l generalizing w with
  | nil => rfl
  | cons h l ih =>
    have read : w.readEntry h = w := State.readEntry_of_allSound (by rw [reg]; exact sound) h
    have term : w.term h ≠ none := by rw [State.term_congr reg]; exact held h List.mem_cons_self
    have one : w.announceRead c h = if h ∈ (w.chan c).roster then w
        else w.modChan c fun x => { x with roster := x.roster ++ [h], tx := x.tx ++ [.rosterJoin h] } := by
      unfold State.announceRead
      rw [read]
      simp only [term, false_or]
    rw [List.foldl_cons, List.foldl_cons, one]
    refine ih ?_ fun k mem => held k (List.mem_cons_of_mem _ mem)
    split
    · exact reg
    · exact reg

/-! ## CYCLE on a link that aligns (R42) -/

/-- What the fourth consecutive CYCLE makes of a channel before its roster is announced (R42, R58). -/
def ChanState.aligned (n : Cyc) (x : ChanState) : ChanState :=
  { x with
    link := .up n
    cycleSeen := true
    tx := x.tx ++ [.cycleReply n [] none]
    dueAge := 0
    declineStreak := 0
    starved := false
    due := x.due || x.mode == .periodic
    periodCtr := if x.mode = .periodic then 0 else x.periodCtr }

theorem State.alignmentComplete_eq (s : State) (c : Chan) (n : Cyc) (k : Nat) :
    ((s.modChan c fun x => { x with link := .aligning n k, cycleSeen := true }).send c
      (.cycleReply n [] none)).alignmentComplete c n =
    s.heldHandles.foldl (fun st h => st.announce c h)
      ((s.modChan c (ChanState.aligned n)).raise (Notice.channelState c (.up n))) := by
  have start : (((s.modChan c fun x => { x with link := .aligning n k, cycleSeen := true }).send c
      (.cycleReply n [] none)).setLink c (.up n)).modChan c ChanState.becomeUp =
      (s.modChan c (ChanState.aligned n)).raise (Notice.channelState c (.up n)) := by
    unfold State.setLink State.send
    dsimp only
    rw [State.raise_modChan, State.modChan_modChan, State.modChan_modChan, State.modChan_modChan]
    refine congrArg (State.raise · _) (State.modChan_congr s c ?_)
    unfold ChanState.becomeUp ChanState.aligned
    dsimp only
    split
    · rename_i periodic; simp [periodic]
    · rename_i other; simp [other]
  unfold State.alignmentComplete
  dsimp only
  rw [start]
  have held : ((s.modChan c (ChanState.aligned n)).raise (Notice.channelState c (.up n))).heldHandles = s.heldHandles :=
    congrArg (List.map Entry.handle) (State.raise_registry _ _)
  rw [held]

/-- Settles O47: the link's own change is `aligned`, and the announcement is a walk over the ACTIVE entries. -/
theorem cyclesOutsideAService : Obligations.CyclesOutsideAService := by
  intro s c n room run
  have cycle : exec (.cycle c n room) s = .next (s.takeCycle c n room) := congrArg _ (State.whenRunning_running run _)
  refine ⟨fun closed => ?_, fun last up slipped => ?_, fun last count count' link hcount => ?_⟩
  · rw [cycle, State.takeCycle]
    rcases closed with link | link <;> rw [link]
  · rw [cycle, State.takeCycle, up]
    dsimp only
    rw [if_neg slipped, State.slip, State.send_eq, State.modChan_modChan]
  · have take : exec (.cycle c n room) s = .next (if 4 ≤ count' then
          ((s.modChan c fun x => { x with link := .aligning n count', cycleSeen := true }).send c
            (.cycleReply n [] none)).alignmentComplete c n
        else (s.modChan c fun x => { x with link := .aligning n count', cycleSeen := true }).send c
          (.cycleReply n [] none)) := by
      rw [cycle, State.takeCycle, link, hcount]; rfl
    rw [take]
    generalize hU : (s.modChan c (ChanState.aligned n)).raise (Notice.channelState c (.up n)) = U
    have regU : U.registry = s.registry := by rw [← hU]; exact State.raise_registry _ _
    have upU : U.isUp c = true := by
      rw [← hU, State.isUp_raise, State.isUp, State.chan_modChan_same]; rfl
    have walk (full : 4 ≤ count') (law : HandleLaw s) : (if 4 ≤ count' then
          ((s.modChan c fun x => { x with link := .aligning n count', cycleSeen := true }).send c
            (.cycleReply n [] none)).alignmentComplete c n
        else (s.modChan c fun x => { x with link := .aligning n count', cycleSeen := true }).send c
          (.cycleReply n [] none)) =
        ((s.registry.filter fun e => e.term.any fun t => t.phase.isActive && decide (t.home = c)).map (·.handle)).foldl
          (State.announceRead c) U := by
      have lawU : HandleLaw U := by unfold HandleLaw; rw [regU]; exact law
      rw [if_pos full, State.alignmentComplete_eq, hU, ← regU, ← State.announceAll_eq lawU upU]
      exact congrArg (List.foldl _ U) (congrArg (List.map Entry.handle) regU).symm
    refine ⟨fun short => ?_, fun full law => ?_, fun joins hjoins full law sound => ?_⟩
    · rw [if_neg (Nat.not_le.2 short), State.send_eq, State.modChan_modChan]
    · rw [walk full law, ← hU]; rfl
    · have held : ∀ h ∈ (s.registry.filter fun e => e.term.any fun t => t.phase.isActive && decide (t.home = c)).map
          (·.handle), s.term h ≠ none := by
        intro h mem absent
        rw [← State.filter_heldHandles law.1] at mem
        have any := List.of_mem_filter mem
        rw [absent] at any; cases any
      have nd : ((s.registry.filter fun e => e.term.any fun t => t.phase.isActive && decide (t.home = c)).map
          (·.handle)).Nodup := by
        rw [← State.filter_heldHandles law.1]; exact (State.inOrder.nodup law.1).filter _
      have rosterU : (U.chan c).roster = (s.chan c).roster := by
        rw [← hU, State.chan_raise, State.chan_modChan_same]; rfl
      have names : ((s.registry.filter fun e => e.term.any fun t => t.phase.isActive && decide (t.home = c)).map
          (·.handle)).filter (fun h => !((U.chan c).roster.contains h)) = joins := by
        rw [hjoins, rosterU, List.filter_map, List.filter_filter]; rfl
      rw [walk full law, foldl_announceRead_sound _ sound regU held, foldl_rosterJoins _ nd U, names, ← hU,
        State.raise_modChan, State.modChan_modChan]
      refine congrArg _ (congrArg (State.raise · _) (State.modChan_congr s c ?_))
      simp [ChanState.aligned]

end Sys2Proof.Machine
end

section
/-! Census replies (R76 to R89, R98 to R101): the eight checks, the read of every entry, the match of the mark and the
verdict on an unknown one. -/

namespace Sys2Proof.Machine

/-! ## The read of every entry (R80) -/

/-- A walk of reads leaves what each read leaves. -/
theorem State.foldl_readEntry_by {P : State → Prop} (l : List Handle) {s : State} (start : P s)
    (read : ∀ w h, P w → P (w.readEntry h)) : P (l.foldl (fun st h => st.readEntry h) s) := by
  induction l generalizing s with
  | nil => exact start
  | cons h l ih => exact ih (read s h start)

theorem State.Walked.readAll (s : State) : State.Walked s s.readAll :=
  State.foldl_readEntry_by (P := State.Walked s) _ (.refl s) fun w h a => a.trans (.readEntry w h)

theorem State.heldHandles_readAll (s : State) : s.readAll.heldHandles = s.heldHandles :=
  State.foldl_readEntry_by (P := fun t => t.heldHandles = s.heldHandles) _ rfl
    fun w h a => (State.heldHandles_readEntry w h).trans a

theorem State.readAll_of_allSound {s : State} (sound : s.allSound) : s.readAll = s :=
  State.foldl_readEntry_by (P := fun t => t = s) _ rfl fun w h e => by
    subst e; exact State.readEntry_of_allSound sound h

/-- A read never touches the registry-full latch. -/
theorem State.fullLatch_readEntry (s : State) (h : Handle) : (s.readEntry h).fullLatch = s.fullLatch := by
  have flaw (w : State) (k : FlawKind) : (w.offerFlaw k h).fullLatch = w.fullLatch := by
    unfold State.offerFlaw
    split
    · rfl
    · exact State.raise_fullLatch _ _
  refine State.readEntry_by (P := fun t => t.fullLatch = s.fullLatch) rfl (fun _ _ => rfl) (fun e _ => flaw _ _) ?_
  rw [State.damage_whole]
  exact flaw s .uncorrectable

theorem State.fullLatch_readAll (s : State) : s.readAll.fullLatch = s.fullLatch :=
  State.foldl_readEntry_by (P := fun t => t.fullLatch = s.fullLatch) _ rfl
    fun w h a => (State.fullLatch_readEntry w h).trans a

theorem State.holds_of_heldHandles {s t : State} (e : t.heldHandles = s.heldHandles) (h : Handle) :
    t.holds h = s.holds h := by
  have held (u : State) : u.holds h = u.heldHandles.any (· == h) := by
    unfold State.holds State.heldHandles; rw [List.any_map]; rfl
  rw [held, held, e]

theorem State.lowestFree_of_heldHandles {s t : State} (e : t.heldHandles = s.heldHandles) : t.lowestFree = s.lowestFree := by
  unfold State.lowestFree
  simp only [State.holds_of_heldHandles e]

/-! ## The eight checks (R77, Table 5-1) -/

theorem isBlank_iff (m : Mark) : isBlank m = true ↔ m = 0 ∨ m = BitVec.allOnes 56 := by
  simp [isBlank]

theorem elapsed_eq_none {L : Nat} {g a : Cyc} {s o : Nat} :
    elapsed L g s a o = none ↔ 32768 ≤ (a - g).toNat ∨ L ≤ o ∨ (a - g).toNat * L + o < s := by
  unfold elapsed
  dsimp only
  split <;> simp_all

section
variable {tree : TreeSettings} {S rt : Int} {g : Gap} {answers : List Mark} {a : Arrival} {m : Mark} {E : Nat}

theorem censusVerdict_eq (hm : m = identityOf a.mark)
    (hE : E = (a.startCycle - g.refCycle).toNat * tree.L + a.startOffset.toNat)
    (hrt : rt = coarseRoundTrip tree S E a.slot.toNat) : censusVerdict tree S g answers a =
      (if a.status ≠ .clean then .defect .deliveryDefect
      else if xorBytes a.mark ≠ 0 then .defect .checkDefect
      else if m = 0 ∨ m = BitVec.allOnes 56 then .defect .blankMark
      else if tree.Jmax < a.slot.toNat then .defect .holdoffRange
      else if 32768 ≤ (a.startCycle - g.refCycle).toNat ∨ tree.L ≤ a.startOffset.toNat ∨ E < g.start ∨
        g.start + g.len < E + tree.Bd then .defect .outOfSpan
      else if rt < 0 ∨ 1048575 < rt ∨ rt + S < 0 ∨ rt + S < (tree.rtMin : Int) - tree.Tc ∨ tree.rtMax + tree.Tc < rt + S
        then .defect .outOfReach
      else if m ∈ answers then .defect .duplicateInGap
      else if 8 ≤ answers.length then .defect .answerOverflow
      else .sound rt) := by
  have reach : (!reachOk tree S rt) = true ↔
      rt < 0 ∨ 1048575 < rt ∨ rt + S < 0 ∨ rt + S < (tree.rtMin : Int) - tree.Tc ∨ tree.rtMax + tree.Tc < rt + S := by
    rw [Bool.not_eq_true', ← Bool.not_eq_true, reachOk_iff]; omega
  have span : (!inSpan g.start g.len E tree.Bd) = true ↔ E < g.start ∨ g.start + g.len < E + tree.Bd := by
    simp only [inSpan, Bool.not_eq_true', Bool.and_eq_false_iff, decide_eq_false_iff_not, Nat.not_le]
  unfold censusVerdict
  simp only [← hm, isBlank_iff, List.contains_iff_mem]
  refine if_congr Iff.rfl rfl (if_congr Iff.rfl rfl (if_congr Iff.rfl rfl (if_congr Iff.rfl rfl ?_)))
  cases e : elapsed tree.L g.refCycle 0 a.startCycle a.startOffset.toNat with
  | none =>
    have far := elapsed_eq_none.1 e
    refine (if_pos ?_).symm
    rcases far with far | far | far
    · exact .inl far
    · exact .inr (.inl far)
    · exact absurd far (Nat.not_lt_zero _)
  | some E' =>
    obtain ⟨near, offset, -, same⟩ := elapsed_eq_some.1 e
    obtain rfl : E' = E := by rw [same, hE, Nat.sub_zero]
    dsimp only
    rw [← hrt]
    refine if_congr ?_ rfl (if_congr reach rfl rfl)
    rw [span]
    constructor
    · exact fun out => .inr (.inr out)
    · rintro (far | far | out)
      · exact absurd near (Nat.not_lt.2 far)
      · exact absurd offset (Nat.not_lt.2 far)
      · exact out

end

/-! ## The entry of a mark (R20, R80) -/

theorem State.findMark_of_term {s : State} (law : MarkLaw s) {h : Handle} {t : Terminal} (ht : s.term h = some t) :
    s.findMark t.mark = some (h, t) := by
  cases found : s.findMark t.mark with
  | none => exact absurd rfl (State.findMark_eq_none.1 found h t ht)
  | some p =>
    obtain ⟨k, u⟩ := p
    obtain ⟨hu, same⟩ := State.findMark_eq_some found
    obtain rfl := law.1 k h u t hu ht same
    rw [hu] at ht
    rw [Option.some.inj ht]

/-! ## Registration (R88, R89) -/

section
variable {s : State} {m : Mark} {c : Chan} {x : Int}

theorem State.register_lowest {h : Handle} (lowest : s.lowestFree = some h) : s.register c m x =
    ((s.createEntry h m c x).queueFor h (.enrol h m)).raise (Notice.registered h c m) := by
  rw [State.register, State.newEntry_lowest lowest]

theorem State.register_evicts {o h : Handle} {rest : List Handle} (lowest : s.lowestFree = none)
    (oldest : s.retention = o :: rest) (next : (s.freeEntry o true).lowestFree = some h) : s.register c m x =
      (((s.freeEntry o true).createEntry h m c x).queueFor h (.enrol h m)).raise (Notice.registered h c m) := by
  rw [State.register, State.newEntry_evicts lowest oldest next]

theorem State.register_full {full : State} (lowest : s.lowestFree = none) (empty : s.retention = [])
    (hfull : full = { s.bump c .registryFull with
      waiting := s.waiting.map fun i => if i.mark = m
        then { i with chan := c, coarse := x, age := 0, answers := min (i.answers + 1) 255 } else i
      fullLatch := true }) :
    s.register c m x = if s.fullLatch then full else full.raise (Notice.registryFull c m) := by
  rw [State.register, State.newEntry_full lowest empty, hfull]
  dsimp only
  unfold State.registrationFailed
  dsimp only
  rw [State.bump_fullLatch]
  cases latch : s.fullLatch with
  | true =>
    rw [if_pos rfl, if_pos rfl]
    unfold State.refreshWaiting
    have stands : (s.bump c .registryFull).fullLatch = true := (State.bump_fullLatch s c _).trans latch
    rw [← stands]; rfl
  | false =>
    rw [if_neg Bool.false_ne_true, if_neg Bool.false_ne_true]
    unfold State.refreshWaiting State.raise
    dsimp only
    split <;> rfl

/-- A mark to register, by its table entry or by the open policy (R98). -/
theorem State.admission_registers (ok : (∃ e, tableFind m s.table = some e ∧ e.policy = .letIn) ∨
    (tableFind m s.table = none ∧ s.waitingItem m = none ∧ s.tree.policy = .openAll)) :
    s.admission c m x = s.register c m x := by
  unfold State.admission
  rcases ok with ⟨e, found, policy⟩ | ⟨found, absent, policy⟩
  · rw [found, Option.map_some, policy]
    cases s.waitingItem m <;> rfl
  · rw [found, absent, policy]; rfl

theorem State.admission_waits (found : tableFind m s.table = none) (waits : s.waitingItem m ≠ none) :
    s.admission c m x = s.refreshWaiting m c x := by
  obtain ⟨i, hi⟩ := Option.ne_none_iff_exists'.1 waits
  rw [State.admission, found, hi]; rfl

theorem State.admission_closed (found : tableFind m s.table = none) (absent : s.waitingItem m = none)
    (policy : s.tree.policy = .closed) : s.admission c m x = s.bump c .closedAnswer := by
  rw [State.admission, found, absent, policy]; rfl

theorem State.admission_ask (found : tableFind m s.table = none) (absent : s.waitingItem m = none)
    (policy : s.tree.policy = .ask) : s.admission c m x = s.appendWaiting m c x := by
  rw [State.admission, found, absent, policy]; rfl

theorem State.admission_barred {e : TableEntry} {s2 : State} (found : tableFind m s.table = some e) (policy : e.policy = .bar)
    (hs2 : s2 = if (s.waitingItem m).isSome = true then s.removeWaiting m else s) : s.admission c m x =
      if e.seen then s2.bump c .barredAnswer
      else ({ s2.bump c .barredAnswer with table := tableSeen m s.table } : State).raise (Notice.barredSeen c m) := by
  have barred : s.admission c m x = s2.barredAnswer c m := by
    rw [State.admission, found, Option.map_some, policy, hs2]
    cases s.waitingItem m <;> rfl
  have table : s2.table = s.table := by rw [hs2]; split <;> rfl
  have table' : (s2.bump c .barredAnswer).table = s.table := (State.bump_table s2 c _).trans table
  rw [barred, State.barredAnswer, table, found, table']

end

/-- Settles O52: the checks are `censusVerdict_eq`, and what follows a sound reply is read off `matched` and `admission`
in the state that the reads leave. -/
theorem censusRepliesAreJudgedAndMatched : Obligations.CensusRepliesAreJudgedAndMatched := by
  intro s c a g answers m E rt run up kind gap census hm hE hrt
  have verdict := censusVerdict_eq (tree := s.tree) (S := (s.chan c).skew) (g := g) (answers := answers) (rt := rt) hm hE hrt
  have take : exec (.arrival c a) s = .next (s.takeCensusReply c g answers a) := by
    rw [exec_arrival_running run, State.takeArrival, if_pos up]
    simp only [kind, gap, census]
  have tag : g.tag = a.tag := ChanState.gapOf_tag gap
  refine ⟨verdict, fun x => ?_, fun k bad => ?_, fun x s0 s1 ok hs0 hs1 => ?_⟩
  · rw [verdict]
    constructor
    · intro k
      split at k; · cases k
      split at k; · cases k
      split at k; · cases k
      split at k; · cases k
      split at k; · cases k
      split at k; · cases k
      split at k; · cases k
      split at k; · cases k
      rename_i clean check blank slot span reach fresh room
      obtain rfl : rt = x := by cases k; rfl
      obtain ⟨notZero, notOnes⟩ := not_or.1 blank
      refine ⟨not_not.1 clean, not_not.1 check, notZero, notOnes, Nat.not_lt.1 slot, ?_, ?_, ?_, ?_, hrt, ?_, ?_, ?_, ?_, ?_,
        fresh, ?_⟩ <;> omega
    · rintro ⟨clean, check, notZero, notOnes, slot, near, offset, lo, hi, hx, r0, r1, r2, r3, r4, fresh, room⟩
      obtain rfl : x = rt := by rw [hx, hrt]
      rw [if_neg (not_not.2 clean), if_neg (not_not.2 check), if_neg (not_or.2 ⟨notZero, notOnes⟩),
        if_neg (Nat.not_lt.2 slot), if_neg (by omega), if_neg (by omega), if_neg fresh, if_neg (Nat.not_le.2 room)]
  · have defect : s.takeCensusReply c g answers a = s.censusDefect c k m := by
      rw [State.takeCensusReply, bad, hm]; rfl
    rw [take, defect, State.censusDefect]
    refine ⟨fun off => ?_, fun on => ?_⟩
    · rw [if_neg (by rw [off]; decide)]
    · rw [if_pos on]
      cases k <;> rfl
  · have base : s.addAnswer c g.tag m = s0 := by rw [hs0, tag]; rfl
    have read : s1 = s0.readAll := by rw [hs1, hs0]; rfl
    have reply : s.takeCensusReply c g answers a = match s1.findMark m with
        | some (h, t) => s1.matched c h t x
        | none => s1.admission c m x := by
      have hm' : m = identityOf a.mark := hm
      rw [State.takeCensusReply, ok, read, ← base, hm'] <;> rfl
    have walked : State.Walked s0 s1 := read ▸ .readAll s0
    have tree : s1.tree = s.tree := by rw [walked.tree, hs0]; rfl
    have table : s1.table = s.table := by rw [walked.table, hs0]; rfl
    have waiting : s1.waiting = s.waiting := by rw [walked.waiting, hs0]; rfl
    have item : s1.waitingItem m = s.waitingItem m := by unfold State.waitingItem; rw [waiting]
    have latch : s1.pendingFullLatch = s.pendingFullLatch := by rw [walked.whole, hs0]; rfl
    have full : s1.fullLatch = s.fullLatch := by rw [read, State.fullLatch_readAll, hs0]; rfl
    have lowest : s1.lowestFree = s.lowestFree := by
      rw [read, State.lowestFree_of_heldHandles (State.heldHandles_readAll s0), hs0]; rfl
    refine ⟨fun sound => ?_, fun h t handles marks hsound hmark => ?_, fun handles unknown => ?_⟩
    · rw [read]; exact State.readAll_of_allSound (by rw [hs0]; exact sound)
    · have marks0 : MarkLaw s0 := by rw [hs0]; exact marks
      have marks1 : MarkLaw s1 := by rw [read]; exact (micros_readAll s0).keeps_markLaw marks0
      have found : s1.findMark m = some (h, t) := hmark ▸ State.findMark_of_term marks1 (State.term_of_sound hsound)
      rw [take, reply, found]
      dsimp only
      unfold State.matched
      refine ⟨fun f age sent phase => ?_, fun n retry => ?_, fun sent due phase => ?_, fun fix held => ?_⟩
      · rw [phase]
      · have restart : s1.matched c h t x = s1.censusRestart c h t n x := by
          unfold State.matched
          cases phase : t.phase with
          | enrolling k f => rw [phase] at retry; cases retry; rfl
          | ranging k l f d => rw [phase] at retry; cases retry; rfl
          | _ => rw [phase] at retry; cases retry
        unfold State.matched at restart
        rw [restart, State.censusRestart]
        dsimp only
        rw [tree]
        refine ⟨fun short => ?_, fun reached => ?_⟩
        · rw [if_pos short]
        · rw [if_neg (Nat.not_lt.2 reached)]
          by_cases home : t.home = c
          · simp [home]
          · simp [home, removeAll]
      · rw [phase]
      · have judged : s1.matched c h t x = if t.heard then s1.markConflict c h t.mark else s1.reEnrol h c x 0 true true := by
          unfold State.matched
          cases phase : t.phase with
          | joining _ => rfl
          | active _ _ _ => rfl
          | hushed _ => rfl
          | retuning _ _ => rfl
          | _ => rw [phase] at held; cases held
        unfold State.matched at judged
        rw [judged]
        refine ⟨fun heard => ?_, fun unheard => ?_⟩
        · rw [if_pos heard, hmark]; rfl
        · rw [if_neg (by rw [unheard]; decide)]
    · have found : s1.findMark m = none := State.findMark_eq_none.2 unknown
      rw [take, reply, found]
      dsimp only
      refine ⟨fun untabled fresh => ⟨fun closed => ?_, fun ask room => ?_, fun ask no => ⟨fun latched => ?_, fun open_ => ?_⟩⟩,
        fun untabled waits => ?_, fun e s2 tabled bar hs2 => ?_, fun registers => ?_⟩
      · rw [State.admission_closed (table ▸ untabled) (item.trans fresh) (tree ▸ closed)]
      · rw [State.admission_ask (table ▸ untabled) (item.trans fresh) (tree ▸ ask), State.appendWaiting, waiting]
        exact congrArg _ (if_pos room)
      · rw [State.admission_ask (table ▸ untabled) (item.trans fresh) (tree ▸ ask), State.appendWaiting, waiting]
        exact congrArg _ ((if_neg (Nat.not_lt.2 no)).trans (if_pos (latch.trans latched)))
      · rw [State.admission_ask (table ▸ untabled) (item.trans fresh) (tree ▸ ask), State.appendWaiting, waiting]
        have off : ¬s1.pendingFullLatch = true := by rw [latch, open_]; decide
        exact congrArg _ ((if_neg (Nat.not_lt.2 no)).trans (if_neg off))
      · rw [State.admission_waits (table ▸ untabled) (by rw [item]; exact waits), ← waiting]; rfl
      · have hs2' : s2 = if (s1.waitingItem m).isSome = true then s1.removeWaiting m else s1 := by
          rw [hs2, item, ← waiting]; rfl
        rw [State.admission_barred (table ▸ tabled) bar hs2', table]
        refine ⟨fun seen => ?_, fun unseen => ?_⟩
        · rw [if_pos seen]
        · rw [if_neg (by rw [unseen]; decide)]; rfl
      · rw [State.admission_registers (by rw [table, item, tree]; exact registers)]
        refine ⟨fun h free => ?_, fun o rest h none_ oldest next => ?_, fun w none_ empty hw => ?_⟩
        · rw [State.register_lowest (lowest.trans free)]
        · rw [State.register_evicts (lowest.trans none_) oldest next]
        · rw [State.register_full (lowest.trans none_) empty (full := w) (by rw [hw, waiting]), full]
          exact ⟨fun k => by rw [if_pos k], fun k => by rw [if_neg (by rw [k]; decide)]⟩

end Sys2Proof.Machine
end

section
/-! A channel's exit from UP (R31, R32, R148, R149): what it makes of one entry, and of the whole registry entry by entry. -/

namespace Sys2Proof.Machine

/-! ## The kinds a walk can add to an entry it has passed (R24, R123) -/

/-- A TRIM DELAY that becomes owed again in ACTIVE brings the trim change that is pending: the owed trim change of an
entry whose trim-pending is the owed one stays, or leaves the owed set. -/
theorem Terminal.foldl_makeOwed_trim {fix : Fix} {d : Drift} {n : Nat} (ks : List MsgKind) (t : Terminal)
    (phase : t.phase = .active fix d n) (k : d.trimPending = t.owed.trim ∨ t.owed.trim = none) :
    d.trimPending = (ks.foldl Terminal.makeOwed t).owed.trim ∨ (ks.foldl Terminal.makeOwed t).owed.trim = none := by
  induction ks generalizing t with
  | nil => exact k
  | cons kind ks ih =>
    refine ih (t.makeOwed kind) ((Terminal.makeOwed_phase t kind).trans phase) ?_
    cases kind with
    | trimDelay =>
      cases pending : d.trimPending with
      | some ch => rw [Terminal.makeOwed_trim phase pending]; exact .inl rfl
      | none =>
        have idle : ∀ fix d n, t.phase = .active fix d n → d.trimPending = none := fun fix' d' n' e => by
          rw [phase] at e; cases e; exact pending
        rw [Terminal.makeOwed_no_trim idle, ← pending]
        exact k.imp_right (·.trans pending.symm)
    | enrol => exact k
    | hush => exact k
    | resume => exact k
    | retune => exact k
    | setDelay => exact .inr rfl
    | dismiss => exact .inr rfl

theorem State.Owing.entry_trim {s t : State} {k : Handle} (a : State.Owing s t k) {f : Flaw} {u : Terminal}
    (he : s.entry k = some ⟨k, f, some u⟩) : ∃ o, t.entry k = some ⟨k, f, some { u with owed := o }⟩ ∧
      ∀ fix d n, u.phase = .active fix d n → d.trimPending = u.owed.trim ∨ u.owed.trim = none →
        d.trimPending = o.trim ∨ o.trim = none := by
  obtain ⟨ks, e⟩ := a
  refine ⟨(ks.foldl Terminal.makeOwed u).owed, ?_, fun fix d n phase same => ?_⟩
  · rw [e, he, ← Terminal.foldl_makeOwed_eq]; rfl
  · exact Terminal.foldl_makeOwed_trim ks u phase same

/-! ## One entry -/

theorem State.entry_modTerm_own {s : State} {h : Handle} {flaw : Flaw} {t : Terminal}
    (he : s.entry h = some ⟨h, flaw, some t⟩) (f : Terminal → Terminal) :
    (s.modTerm h f).entry h = some ⟨h, flaw, some (f t)⟩ := by
  rw [State.entry_modTerm, he]; simp [Entry.modTerm]

/-- What the exit of channel c makes of an entry it concerns (R31, R32, R148, R149). -/
def Terminal.exited (c : Chan) (t : Terminal) : Terminal :=
  match t.phase with
  | .ranging n _ f d => { t with phase := .ranging n [] f d }
  | .active fix _ n => { t with phase := .active fix (freshDrift t.owed) n }
  | .retuning fix target =>
    if target = c then { t with
      owed := { t.owed with retune := false }
      moveFlag := false
      phase := .active fix (freshDrift t.owed) 0 }
    else t
  | .dismissing sent _ => { t with phase := .dismissing sent true }
  | _ => t

theorem State.Walked.withdrawRetune (s : State) (h : Handle) (t : Terminal) : State.Walked s (s.withdrawRetune h t) := by
  unfold State.withdrawRetune
  split
  · exact .modTerm s h _
  · exact State.Walked.told (.outq s t.home _)

theorem State.Walked.cancelMove (s : State) (h : Handle) (t : Terminal) (fix : Fix) :
    State.Walked s (s.cancelMove h t fix) :=
  (State.Walked.withdrawRetune s h t).trans <| (State.Walked.modTerm _ h _).trans <|
    (State.Walked.rosterJoin _ t.home h).trans (.raise _ _)

theorem State.cancelMove_registry (s : State) (h : Handle) (t : Terminal) (fix : Fix) :
    (s.cancelMove h t fix).registry = ((s.withdrawRetune h t).modTerm h fun u => { u with
      moveFlag := false, phase := .active fix (freshDrift u.owed) 0 }).registry := by
  unfold State.cancelMove
  rw [State.raise_registry, State.rosterJoin_registry]

theorem State.entry_cancelMove_ne (s : State) {h k : Handle} (e : k ≠ h) (t : Terminal) (fix : Fix) :
    (s.cancelMove h t fix).entry k = s.entry k := by
  rw [State.entry_congr (State.cancelMove_registry s h t fix), State.entry_modTerm_ne _ e]
  unfold State.withdrawRetune
  split
  · exact State.entry_modTerm_ne s e _
  · rfl

theorem State.entry_cancelMove {s : State} {h : Handle} {flaw : Flaw} {t : Terminal} {fix : Fix} {c : Chan}
    (he : s.entry h = some ⟨h, flaw, some t⟩) (phase : t.phase = .retuning fix c) :
    (s.cancelMove h t fix).entry h = some ⟨h, flaw, some (t.exited c)⟩ := by
  rw [State.entry_congr (State.cancelMove_registry s h t fix)]
  have withdrawn : (s.withdrawRetune h t).entry h =
      some ⟨h, flaw, some { t with owed := { t.owed with retune := false } }⟩ := by
    unfold State.withdrawRetune
    cases owed : t.owed.retune with
    | true => rw [if_pos rfl, State.entry_modTerm_own he]
    | false =>
      rw [if_neg Bool.false_ne_true]
      refine he.trans ?_
      rw [← owed]
  rw [State.entry_modTerm_own withdrawn, Terminal.exited, phase]
  simp [freshDrift]

section
variable (s : State) (c : Chan) (h : Handle)

theorem State.Walked.exitEntry : State.Walked s (s.exitEntry c h) := by
  have read := State.Walked.readEntry s h
  unfold State.exitEntry
  split
  · exact .refl s
  · split
    · dsimp only
      split
      · exact read
      · split
        · exact read.trans (.modTerm _ h _)
        · exact read.trans (.modTerm _ h _)
        · split
          · exact read.trans (.cancelMove _ h _ _)
          · exact read
        · exact read.trans (.modTerm _ h _)
        · exact read
    · exact .refl s

theorem State.Owing.exitEntry {k : Handle} (e : k ≠ h) : State.Owing s (s.exitEntry c h) k := by
  have read := State.Owing.readEntry s e
  unfold State.exitEntry
  split
  · exact .refl s k
  · split
    · dsimp only
      split
      · exact read
      · split
        · exact read.trans (.of_entry (State.entry_modTerm_ne _ e _))
        · exact read.trans (.of_entry (State.entry_modTerm_ne _ e _))
        · split
          · exact read.trans (.of_entry (State.entry_cancelMove_ne _ e _ _))
          · exact read
        · exact read.trans (.of_entry (State.entry_modTerm_ne _ e _))
        · exact read
    · exact .refl s k

end

section
variable {s : State} {c : Chan} {h : Handle} {flaw : Flaw} {t : Terminal}

theorem State.exitEntry_absent (absent : s.term h = none) : s.exitEntry c h = s := by
  unfold State.exitEntry; rw [absent]

theorem State.exitEntry_unconcerned (he : s.entry h = some ⟨h, flaw, some t⟩) (no : t.exitConcerns c = false) :
    s.exitEntry c h = s := by
  unfold State.exitEntry
  rw [State.term, he]
  exact if_neg (by rw [no]; decide)

/-- The exit acts on what the read of the entry left. -/
theorem State.exitEntry_read (he : s.entry h = some ⟨h, flaw, some t⟩) (concerns : t.exitConcerns c = true)
    (ok : flaw ≠ .uncorrectable) : s.exitEntry c h = match t.phase with
      | .ranging .. => (s.readEntry h).modTerm h Terminal.clearSamples
      | .active fix _ missed =>
        (s.readEntry h).modTerm h fun u => { u with phase := .active fix (freshDrift u.owed) missed }
      | .retuning fix target => if target = c then (s.readEntry h).cancelMove h t fix else s.readEntry h
      | .dismissing sent _ => (s.readEntry h).modTerm h fun u => { u with phase := .dismissing sent true }
      | _ => s.readEntry h := by
  have term : s.term h = some t := by rw [State.term, he]; rfl
  have read : (s.readEntry h).term h = some t := by
    rw [State.term, State.entry_readEntry he, if_neg ok]; rfl
  unfold State.exitEntry
  simp only [term, read, concerns, if_true] <;> rfl

theorem State.entry_exitEntry (he : s.entry h = some ⟨h, flaw, some t⟩) (concerns : t.exitConcerns c = true) :
    (s.exitEntry c h).entry h = some ⟨h, .sound, if flaw = .uncorrectable then none else some (t.exited c)⟩ := by
  have entry := State.entry_readEntry he
  by_cases un : flaw = .uncorrectable
  · rw [if_pos un] at entry ⊢
    have term : s.term h = some t := by rw [State.term, he]; rfl
    have absent : (s.readEntry h).term h = none := by rw [State.term, entry]; rfl
    unfold State.exitEntry
    simp only [term, concerns, if_true, absent]
    exact entry
  · rw [if_neg un] at entry ⊢
    rw [State.exitEntry_read he concerns un]
    cases phase : t.phase with
    | ranging n smp f d =>
      dsimp only
      rw [State.entry_modTerm_own entry, Terminal.clearSamples, Terminal.exited, phase]
    | active fix d n =>
      dsimp only
      rw [State.entry_modTerm_own entry, Terminal.exited, phase]
    | retuning fix target =>
      dsimp only
      split
      · rename_i e
        subst e
        exact State.entry_cancelMove entry phase
      · rename_i e
        rw [entry, Terminal.exited, phase]
        dsimp only
        rw [if_neg e]
    | dismissing sent due =>
      dsimp only
      rw [State.entry_modTerm_own entry, Terminal.exited, phase]
    | enrolling n f => rw [Terminal.exited, phase]; exact entry
    | joining fix => rw [Terminal.exited, phase]; exact entry
    | hushed fix => rw [Terminal.exited, phase]; exact entry
    | lost f age sent => rw [Terminal.exited, phase]; exact entry

end

/-! ## The whole walk -/

theorem exec_channelExit (s : State) (c : Chan) : exec (.channelExitEvent c) s =
    .next (s.heldHandles.foldl (fun st h => st.exitEntry c h) (s.dropEvent (.channelExit c))) := rfl

/-- What the exit leaves of the entry of one handle. -/
theorem State.exit_entry {s : State} (law : HandleLaw s) (c : Chan) (h : Handle) :
    (s.term h = none →
      (s.heldHandles.foldl (fun st h => st.exitEntry c h) (s.dropEvent (.channelExit c))).entry h = s.entry h) ∧
    ∀ t flaw, s.entry h = some ⟨h, flaw, some t⟩ → ∃ w, State.Owing s w h ∧ State.Owing (w.exitEntry c h)
      (s.heldHandles.foldl (fun st h => st.exitEntry c h) (s.dropEvent (.channelExit c))) h := by
  have walk := foldl_walk_entry (P := fun _ => True) (f := fun st h => st.exitEntry c h) State.Owing.refl
    State.Owing.trans (s := s.dropEvent (.channelExit c)) s.heldHandles (State.inOrder.nodup law.1) trivial
    (fun _ _ _ => trivial) (fun w h k e _ => .exitEntry w c h e) h
  refine ⟨fun absent => ?_, fun t flaw he => ?_⟩
  · by_cases mem : h ∈ s.heldHandles
    · obtain ⟨w, -, before, after⟩ := walk.2 mem
      have gone : w.term h = none := before.term_none (s := s.dropEvent _) absent
      rw [State.exitEntry_absent gone] at after
      exact (after.entry_none gone).trans (before.entry_none (s := s.dropEvent _) absent)
    · exact (walk.1 mem).entry_none (s := s.dropEvent _) absent
  · have mem : h ∈ s.heldHandles := List.mem_map.2 ⟨_, State.entry_mem he, rfl⟩
    obtain ⟨w, -, before, after⟩ := walk.2 mem
    exact ⟨w, before, after⟩

/-! ## Notices in the order they are raised (R155) -/

/-- The notices that an operation raises join the queue in order, up to its 64 places, and one that finds no place sets
the overflow flag. -/
def State.Noticed (s t : State) (new : List Notice) : Prop :=
  s.notices.length ≤ 64 → t.notices = (s.notices ++ new).take 64 ∧
    t.overflow = (s.overflow || decide (64 < s.notices.length + new.length))

theorem State.Noticed.of_same {s t : State} (notices : t.notices = s.notices) (overflow : t.overflow = s.overflow) :
    State.Noticed s t [] := by
  intro room
  rw [notices, overflow, List.append_nil, List.take_of_length_le room, List.length_nil, Nat.add_zero,
    decide_eq_false (Nat.not_lt.2 room), Bool.or_false]
  exact ⟨rfl, rfl⟩

theorem State.Noticed.raise (s : State) (n : Notice) : State.Noticed s (s.raise n) [n] := by
  intro room
  unfold State.raise
  by_cases lt : s.notices.length < 64
  · rw [if_pos (c := s.notices.length < Config.noticeQueueSize) lt, List.take_of_length_le (by simp; omega),
      decide_eq_false (by simp; omega), Bool.or_false]
    exact ⟨rfl, rfl⟩
  · have full : s.notices.length = 64 := by omega
    rw [if_neg (c := s.notices.length < Config.noticeQueueSize) lt, List.take_append_of_le_length (by omega),
      List.take_of_length_le (by omega), decide_eq_true (by simp; omega), Bool.or_true]
    exact ⟨rfl, rfl⟩

theorem State.Noticed.trans {s t u : State} {a b : List Notice} (first : State.Noticed s t a) (next : State.Noticed t u b) :
    State.Noticed s u (a ++ b) := by
  intro room
  obtain ⟨notices, overflow⟩ := first room
  have len : t.notices.length = min 64 (s.notices.length + a.length) := by rw [notices]; simp
  obtain ⟨notices', overflow'⟩ := next (by omega)
  refine ⟨?_, ?_⟩
  · rw [notices', notices, ← List.append_assoc]
    by_cases fits : (s.notices ++ a).length ≤ 64
    · rw [List.take_of_length_le fits]
    · rw [List.take_append_of_le_length (l₁ := s.notices ++ a) (by omega),
        List.take_append_of_le_length (by simp only [List.length_take]; omega), List.take_take, Nat.min_self]
  · rw [overflow', overflow, len, List.length_append, Bool.or_assoc]
    congr 1
    rw [Bool.eq_iff_iff]
    simp only [Bool.or_eq_true, decide_eq_true_eq]
    omega

theorem State.Noticed.refl (s : State) : State.Noticed s s [] := .of_same rfl rfl

theorem State.Noticed.told {s t : State} (a : State.Told s t) : State.Noticed s t [] :=
  .of_same (by rw [a.whole]) (by rw [a.whole])

theorem State.Noticed.whole {s t : State} {registry : List Entry} {chans : PerChan ChanState}
    (e : t = { s with registry := registry, chans := chans }) : State.Noticed s t [] :=
  .of_same (by rw [e]) (by rw [e])

/-! ## The exit with every entry sound -/

theorem State.sound_of_term {s : State} (sound : s.allSound) {h : Handle} {t : Terminal} (ht : s.term h = some t) :
    s.sound h t := by
  obtain ⟨⟨k, flaw, term⟩, he, rfl⟩ := State.entry_of_term ht
  obtain rfl : k = h := State.entry_handle he
  obtain rfl : flaw = .sound := sound _ (State.entry_mem he)
  exact he

/-- The move of an entry that the exit of channel c cancels. -/
def exitMove (c : Chan) (h : Handle) (t : Terminal) : Option (Handle × Terminal) :=
  match t.phase with
  | .retuning _ target => if target = c then some (h, t) else none
  | _ => none

theorem exitMove_handle {c : Chan} {h : Handle} {t : Terminal} {p : Handle × Terminal} (k : exitMove c h t = some p) :
    p.1 = h := by
  unfold exitMove at k
  split at k
  · split at k
    · cases k; rfl
    · cases k
  · cases k

/-- The exit of a sound entry cancels its move or changes its own fields and nothing else. -/
theorem State.exitEntry_cases {s : State} (sound : s.allSound) (c : Chan) (h : Handle) :
    (∃ t fix, s.sound h t ∧ t.phase = .retuning fix c ∧ s.exitEntry c h = s.cancelMove h t fix) ∨
      ((s.term h).bind (exitMove c h) = none ∧ ∃ f, s.exitEntry c h = s.modTerm h f ∨ s.exitEntry c h = s) := by
  cases ht : s.term h with
  | none => exact .inr ⟨rfl, id, .inr (State.exitEntry_absent ht)⟩
  | some t =>
    have he := State.sound_of_term sound ht
    by_cases concerns : t.exitConcerns c = true
    · have act := State.exitEntry_read he concerns (by decide)
      rw [State.readEntry_sound he] at act
      rw [act, Option.bind_some]
      cases phase : t.phase with
      | retuning fix target =>
        by_cases e : target = c
        · subst e; exact .inl ⟨t, fix, he, phase, if_pos rfl⟩
        · exact .inr ⟨by rw [exitMove, phase]; exact if_neg e, id, .inr (if_neg e)⟩
      | ranging n smp f d => exact .inr ⟨by rw [exitMove, phase], _, .inl rfl⟩
      | active fix d n => exact .inr ⟨by rw [exitMove, phase], _, .inl rfl⟩
      | dismissing sent due => exact .inr ⟨by rw [exitMove, phase], _, .inl rfl⟩
      | _ => exact .inr ⟨by rw [exitMove, phase], id, .inr rfl⟩
    · refine .inr ⟨?_, id, .inr (State.exitEntry_unconcerned he (Bool.not_eq_true _ ▸ concerns))⟩
      rw [Option.bind_some]
      unfold exitMove
      split
      · rename_i fix target phase
        refine if_neg fun e => concerns ?_
        simp [Terminal.exitConcerns, phase, e]
      · rfl

/-- What cancelled moves make of one channel: RETUNEs not owed leave its out-queue, and the handles homed there join the
roster of an UP channel (R148). -/
def ChanState.cancelMoves (d : Chan) (up : Bool) (moves : List (Handle × Terminal)) (x : ChanState) : ChanState :=
  { x with
    outq := x.outq.filter fun m => !(m.msg.kind == .retune &&
      moves.any fun p => decide (p.2.home = d) && !p.2.owed.retune && m.msg.handle == p.1)
    roster := x.roster ++ (moves.filter fun p => decide (p.2.home = d) && up && !(x.roster.contains p.1)).map (·.1)
    tx := x.tx ++ ((moves.filter fun p => decide (p.2.home = d) && up && !(x.roster.contains p.1)).map (·.1)).map
      TxRecord.rosterJoin }

theorem ChanState.cancelMoves_nil (d : Chan) (up : Bool) (x : ChanState) : x.cancelMoves d up [] = x := by
  simp [ChanState.cancelMoves]

theorem ChanState.cancelMoves_cons {d : Chan} {up : Bool} {p : Handle × Terminal} {moves : List (Handle × Terminal)}
    (fresh : ∀ q ∈ moves, q.1 ≠ p.1) (x : ChanState) :
    x.cancelMoves d up (p :: moves) = (x.cancelMoves d up [p]).cancelMoves d up moves := by
  have joins : moves.filter (fun q => decide (q.2.home = d) && up && !((x.cancelMoves d up [p]).roster.contains q.1)) =
      moves.filter fun q => decide (q.2.home = d) && up && !(x.roster.contains q.1) := by
    refine List.filter_congr fun q mem => ?_
    have apart : (x.cancelMoves d up [p]).roster.contains q.1 = x.roster.contains q.1 := by
      rw [Bool.eq_iff_iff, List.contains_iff_mem, List.contains_iff_mem]
      refine ⟨fun k => (List.mem_append.1 k).resolve_right fun k => ?_, fun k => List.mem_append_left _ k⟩
      obtain ⟨r, hr, e⟩ := List.mem_map.1 k
      obtain rfl := List.mem_singleton.1 (List.mem_of_mem_filter hr)
      exact fresh q mem e.symm
    rw [apart]
  unfold ChanState.cancelMoves at joins ⊢
  dsimp only at joins ⊢
  rw [joins, List.filter_filter]
  have outq : x.outq.filter (fun m => !(m.msg.kind == .retune && (p :: moves).any fun q =>
      decide (q.2.home = d) && !q.2.owed.retune && m.msg.handle == q.1)) = x.outq.filter fun m =>
        (!(m.msg.kind == .retune && moves.any fun q => decide (q.2.home = d) && !q.2.owed.retune && m.msg.handle == q.1)) &&
          !(m.msg.kind == .retune && [p].any fun q => decide (q.2.home = d) && !q.2.owed.retune && m.msg.handle == q.1) := by
    refine List.filter_congr fun m _ => ?_
    rw [List.any_cons, List.any_cons, List.any_nil, Bool.or_false]
    cases m.msg.kind == .retune with
    | false => rfl
    | true => rw [Bool.true_and, Bool.true_and, Bool.true_and, Bool.not_or, Bool.and_comm]
  rw [outq]
  congr 1
  · rw [List.append_assoc, ← List.map_append, ← List.filter_append]; rfl
  · rw [List.append_assoc, ← List.map_append, ← List.map_append, ← List.filter_append]; rfl

theorem State.chan_cancelMove {s : State} {h : Handle} (t : Terminal) (fix : Fix) (lo : 1 ≤ h) (hi : h ≤ 511) (d : Chan) :
    (s.cancelMove h t fix).chan d = (s.chan d).cancelMoves d (s.isUp d) [(h, t)] := by
  have withdrawn (e : Chan) : (s.withdrawRetune h t).chan e = { s.chan e with outq := (s.chan e).outq.filter fun m =>
      !(m.msg.kind == .retune && (decide (t.home = e) && !t.owed.retune && m.msg.handle == h)) } := by
    have all (l : List QMsg) (k : ∀ m : QMsg, (decide (t.home = e) && !t.owed.retune && m.msg.handle == h) = false) :
        l.filter (fun m => !(m.msg.kind == .retune && (decide (t.home = e) && !t.owed.retune && m.msg.handle == h))) = l :=
      List.filter_eq_self.2 fun m _ => by rw [k]; simp
    unfold State.withdrawRetune
    cases owed : t.owed.retune with
    | true => rw [if_pos rfl, ← owed, all _ fun m => by simp [owed]]; rfl
    | false =>
      rw [if_neg Bool.false_ne_true, State.chan_modChan]
      by_cases home : e = t.home
      · subst home
        rw [if_pos rfl]
        congr 1
        refine List.filter_congr fun m _ => ?_
        simp [Bool.and_comm]
      · rw [if_neg home, ← owed, all _ fun m => by simp [Ne.symm home]]
  have up (e : Chan) : (((s.withdrawRetune h t).modTerm h fun u => { u with
      moveFlag := false, phase := .active fix (freshDrift u.owed) 0 }).isUp e) = s.isUp e :=
    (State.isUp_modTerm _ h _ e).trans ((State.Walked.withdrawRetune s h t).isUp e)
  have joined : (s.cancelMove h t fix).chan d = (((s.withdrawRetune h t).modTerm h fun u => { u with
      moveFlag := false, phase := .active fix (freshDrift u.owed) 0 }).rosterJoin t.home h).chan d :=
    State.chan_raise _ _ d
  rw [joined, State.rosterJoin_eq, up]
  unfold ChanState.cancelMoves
  simp only [List.any_cons, List.any_nil, Bool.or_false]
  by_cases home : d = t.home
  · subst home
    by_cases joins : s.isUp t.home = true ∧ h ∉ (s.chan t.home).roster
    · have cond : s.isUp t.home = true ∧ h ∉ (((s.withdrawRetune h t).modTerm h fun u => { u with
          moveFlag := false, phase := .active fix (freshDrift u.owed) 0 }).chan t.home).roster ∧ 1 ≤ h ∧ h ≤ 511 := by
        rw [State.chan_modTerm, withdrawn]; exact ⟨joins.1, joins.2, lo, hi⟩
      rw [if_pos cond, State.chan_modChan_same, State.chan_modTerm, withdrawn]
      simp [joins.1, joins.2]
    · have cond : ¬(s.isUp t.home = true ∧ h ∉ (((s.withdrawRetune h t).modTerm h fun u => { u with
          moveFlag := false, phase := .active fix (freshDrift u.owed) 0 }).chan t.home).roster ∧ 1 ≤ h ∧ h ≤ 511) := by
        rw [State.chan_modTerm, withdrawn]; exact fun k => joins ⟨k.1, k.2.1⟩
      rw [if_neg cond, State.chan_modTerm, withdrawn]
      have none_ : ([(h, t)].filter fun p => decide (p.2.home = t.home) && s.isUp t.home &&
          !((s.chan t.home).roster.contains p.1)) = [] := by
        rw [List.filter_eq_nil_iff]
        intro p mem k
        obtain rfl := List.mem_singleton.1 mem
        simp only [decide_true, Bool.true_and, Bool.and_eq_true, Bool.not_eq_true', List.contains_eq_mem,
          decide_eq_false_iff_not] at k
        exact joins k
      rw [none_]; simp
  · have elsewhere (v : State) : (if s.isUp t.home = true ∧ h ∉ (v.chan t.home).roster ∧ 1 ≤ h ∧ h ≤ 511
        then v.modChan t.home fun x => { x with roster := x.roster ++ [h], tx := x.tx ++ [.rosterJoin h] }
        else v).chan d = v.chan d := by
      split
      · exact State.chan_modChan_ne v home _
      · rfl
    rw [elsewhere, State.chan_modTerm, withdrawn]
    simp [Ne.symm home]

/-- With every entry sound the exit of one entry leaves every other as it is. -/
theorem State.exitEntry_other {s : State} (sound : s.allSound) (c : Chan) {h k : Handle} (e : k ≠ h) :
    (s.exitEntry c h).entry k = s.entry k := by
  rcases s.exitEntry_cases sound c h with ⟨t, fix, -, -, act⟩ | ⟨-, f, act | act⟩
  · rw [act]; exact State.entry_cancelMove_ne s e t fix
  · rw [act]; exact State.entry_modTerm_ne s e f
  · rw [act]

theorem State.exitEntry_allSound {s : State} (sound : s.allSound) (c : Chan) (h : Handle) : (s.exitEntry c h).allSound :=
  (micros_exitEntry s c h).rec sound fun _ m k => m.keeps_allSound k

/-- The move of the entry of handle h that the exit of channel c cancels. -/
def State.exitMoveAt (s : State) (c : Chan) (h : Handle) : Option (Handle × Terminal) := (s.term h).bind (exitMove c h)

theorem State.exitMoveAt_handle {s : State} {c : Chan} {h : Handle} {p : Handle × Terminal}
    (k : s.exitMoveAt c h = some p) : p.1 = h := by
  obtain ⟨t, -, e⟩ := Option.bind_eq_some_iff.1 k
  exact exitMove_handle e

theorem State.exitMoveAt_cancel {s : State} {c : Chan} {h : Handle} {t : Terminal} {fix : Fix} (ht : s.sound h t)
    (phase : t.phase = .retuning fix c) : s.exitMoveAt c h = some (h, t) := by
  rw [State.exitMoveAt, State.term_of_sound ht, Option.bind_some, exitMove, phase]
  exact if_pos rfl

/-- The MOVE_FAILED of a cancelled move (R148). -/
def moveFailed (p : Handle × Terminal) : Notice := ⟨.moveFailed, some p.1, some p.2.home, none, some 1⟩

section
variable {s : State} (sound : s.allSound) (c : Chan) (h : Handle)
include sound

theorem State.exitEntry_chan (lo : 1 ≤ h) (hi : h ≤ 511) (d : Chan) :
    (s.exitEntry c h).chan d = (s.chan d).cancelMoves d (s.isUp d) (s.exitMoveAt c h).toList := by
  rcases s.exitEntry_cases sound c h with ⟨t, fix, ht, phase, act⟩ | ⟨move, f, act⟩
  · rw [act, State.chan_cancelMove t fix lo hi, State.exitMoveAt_cancel ht phase]; rfl
  · rw [State.exitMoveAt, move, Option.toList_none, ChanState.cancelMoves_nil]
    rcases act with act | act <;> rw [act]
    rfl

theorem State.exitEntry_noticed : State.Noticed s (s.exitEntry c h) ((s.exitMoveAt c h).toList.map moveFailed) := by
  rcases s.exitEntry_cases sound c h with ⟨t, fix, ht, phase, act⟩ | ⟨move, f, act⟩
  · rw [act, State.exitMoveAt_cancel ht phase]
    have quiet : State.Noticed s (((s.withdrawRetune h t).modTerm h fun u => { u with
        moveFlag := false, phase := .active fix (freshDrift u.owed) 0 }).rosterJoin t.home h) [] := by
      refine .of_same ?_ ?_ <;> · unfold State.rosterJoin State.withdrawRetune; split <;> split <;> rfl
    exact quiet.trans (.raise _ _)
  · rw [State.exitMoveAt, move]
    rcases act with act | act <;> rw [act]
    · exact .whole rfl
    · exact .refl s

theorem State.exitEntry_whole : s.exitEntry c h = { s with
    registry := (s.exitEntry c h).registry
    chans := (s.exitEntry c h).chans
    notices := (s.exitEntry c h).notices
    overflow := (s.exitEntry c h).overflow } := by
  rcases s.exitEntry_cases sound c h with ⟨t, fix, ht, phase, act⟩ | ⟨move, f, act⟩
  · rw [act]
    unfold State.cancelMove State.rosterJoin State.withdrawRetune State.raise
    dsimp only
    split <;> split <;> split <;> rfl
  · rcases act with act | act <;> rw [act]
    rfl

/-- The exit of a list of entries, each sound. -/
theorem State.foldl_exitEntry (l : List Handle) (nd : l.Nodup) (range : ∀ h ∈ l, 1 ≤ h ∧ h ≤ 511) :
    State.Noticed s (l.foldl (fun st h => st.exitEntry c h) s) ((l.filterMap (s.exitMoveAt c)).map moveFailed) ∧
      (∀ d, (l.foldl (fun st h => st.exitEntry c h) s).chan d =
        (s.chan d).cancelMoves d (s.isUp d) (l.filterMap (s.exitMoveAt c))) ∧
      l.foldl (fun st h => st.exitEntry c h) s = { s with
        registry := (l.foldl (fun st h => st.exitEntry c h) s).registry
        chans := (l.foldl (fun st h => st.exitEntry c h) s).chans
        notices := (l.foldl (fun st h => st.exitEntry c h) s).notices
        overflow := (l.foldl (fun st h => st.exitEntry c h) s).overflow } := by
  induction l generalizing s with
  | nil => exact ⟨.refl s, fun d => (ChanState.cancelMoves_nil _ _ _).symm, rfl⟩
  | cons h l ih =>
    obtain ⟨fresh, nd⟩ := List.nodup_cons.1 nd
    obtain ⟨⟨lo, hi⟩, range⟩ := List.forall_mem_cons.1 range
    have moves : l.filterMap ((s.exitEntry c h).exitMoveAt c) = l.filterMap (s.exitMoveAt c) := by
      refine List.filterMap_congr fun k mem => ?_
      have ne : k ≠ h := fun e => fresh (e ▸ mem)
      rw [State.exitMoveAt, State.term, State.exitEntry_other sound c ne]
      rfl
    have split : (h :: l).filterMap (s.exitMoveAt c) = (s.exitMoveAt c h).toList ++ l.filterMap (s.exitMoveAt c) := by
      rw [List.filterMap_cons]
      cases s.exitMoveAt c h <;> rfl
    obtain ⟨noticed, chan, whole⟩ := ih (State.exitEntry_allSound sound c h) nd range
    rw [moves] at noticed chan
    rw [split, List.foldl_cons, List.map_append]
    refine ⟨(State.exitEntry_noticed sound c h).trans noticed, fun d => ?_, ?_⟩
    · rw [chan d, (State.Walked.exitEntry s c h).isUp, State.exitEntry_chan sound c h lo hi d]
      cases move : s.exitMoveAt c h with
      | none => rw [Option.toList_none, ChanState.cancelMoves_nil, List.nil_append]
      | some p =>
        refine (ChanState.cancelMoves_cons (fun q mem e => ?_) _).symm
        obtain ⟨k, hk, hq⟩ := List.mem_filterMap.1 mem
        rw [State.exitMoveAt_handle hq, State.exitMoveAt_handle move] at e
        exact fresh (e ▸ hk)
    · rw [whole, State.exitEntry_whole sound c h]

end

/-- Settles O58: `exitEntry` entry by entry, a walk for the registry, and with sound entries a walk for the rest. -/
theorem channelExitReachesItsEntries : Obligations.ChannelExitReachesItsEntries := by
  refine ⟨State.rosterJoin_eq, fun s c => ?_, fun s c law => ⟨_, exec_channelExit s c, fun h => (s.exit_entry law c h).1,
    fun h flaw t read he hread => ?_⟩, fun s c moves new law sound hmoves hnew => ?_⟩
  · rw [exec_channelExit]
    refine congrArg _ ?_
    refine congrArg (fun f => List.foldl f (s.dropEvent (.channelExit c)) s.heldHandles) ?_
    funext w h
    unfold State.exitEntry
    cases ht : w.term h with
    | none => rfl
    | some t0 =>
      refine if_congr Iff.rfl ?_ rfl
      dsimp only
      cases hr : (w.readEntry h).term h with
      | none => rfl
      | some t =>
        dsimp only
        cases phase : t.phase with
        | ranging n smp f d =>
          refine congrArg ((w.readEntry h).modTerm h) (funext fun u => ?_)
          rcases u with ⟨_, _, _, _, _, _, _, p⟩
          cases p <;> rfl
        | _ => rfl
  · obtain ⟨w, before, after⟩ := (s.exit_entry law c h).2 t flaw he
    obtain ⟨o, hw⟩ := before.entry he
    have concerns : read = ({ t with owed := o } : Terminal).exitConcerns c := hread
    refine ⟨fun yes un => ?_, fun no => ?_, fun yes ok => ?_⟩
    · have entry := State.entry_exitEntry hw (concerns ▸ yes)
      rw [if_pos un] at entry
      rw [after.entry_none (by rw [State.term, entry]; rfl), entry]
    · rw [State.exitEntry_unconcerned hw (concerns ▸ no)] at after
      obtain ⟨o', e⟩ := after.entry hw
      exact ⟨o', e⟩
    · have entry := State.entry_exitEntry hw (concerns ▸ yes)
      rw [if_neg ok] at entry
      obtain ⟨o', e, trim⟩ := after.entry_trim entry
      unfold State.sound
      rw [e]
      unfold Terminal.exited at trim ⊢
      dsimp only at trim ⊢
      cases phase : t.phase with
      | active fix d n =>
        rw [phase] at trim
        exact ⟨o', o.trim, trim fix _ n rfl (.inl rfl), rfl⟩
      | retuning fix target =>
        rw [phase] at trim
        dsimp only at trim ⊢
        by_cases e : target = c
        · simp only [if_pos e] at trim ⊢
          exact ⟨o', o.trim, trim fix _ 0 rfl (.inl rfl), rfl⟩
        · simp only [if_neg e]
          exact ⟨o', o'.trim, .inl rfl, by rw [← phase]⟩
      | ranging n smp f d => exact ⟨o', o'.trim, .inl rfl, rfl⟩
      | dismissing sent due => exact ⟨o', o'.trim, .inl rfl, rfl⟩
      | enrolling n f => exact ⟨o', o'.trim, .inl rfl, rfl⟩
      | joining fix => exact ⟨o', o'.trim, .inl rfl, rfl⟩
      | hushed fix => exact ⟨o', o'.trim, .inl rfl, rfl⟩
      | lost f age sent => exact ⟨o', o'.trim, .inl rfl, rfl⟩
  · obtain ⟨order, range⟩ := handleLaw_iff.1 law
    obtain ⟨noticed, chan, whole⟩ := State.foldl_exitEntry (s := s.dropEvent (.channelExit c)) sound c s.heldHandles
      order.nodup range
    have same : s.heldHandles.filterMap ((s.dropEvent (.channelExit c)).exitMoveAt c) = moves := by
      rw [hmoves]
      unfold State.heldHandles
      rw [List.filterMap_map]
      refine List.filterMap_congr fun e mem => ?_
      show (s.term e.handle).bind _ = _
      rw [State.term, State.entry_of_mem order mem]
      rfl
    rw [same] at noticed chan
    refine ⟨_, exec_channelExit s c, whole, ?_, fun d joins hj => ?_, fun h => (s.exit_entry law c h).1, fun h t ht => ?_⟩
    · rw [hnew]; exact noticed
    · rw [chan d, hj]; rfl
    · have mem : h ∈ s.heldHandles := List.mem_map.2 ⟨_, State.entry_mem ht, rfl⟩
      obtain ⟨w, hw, before, after⟩ := (foldl_walk_entry (P := State.allSound) (f := fun st h => st.exitEntry c h)
        (R := fun s t k => t.entry k = s.entry k) (fun _ _ => rfl) (fun a b => b.trans a) (s := s.dropEvent (.channelExit c))
        s.heldHandles order.nodup sound (fun w h k => State.exitEntry_allSound k c h)
        (fun w h k e k' => State.exitEntry_other k' c e) h).2 mem
      have entry : w.entry h = some ⟨h, .sound, some t⟩ := before.trans ht
      unfold State.term
      rw [after]
      by_cases concerns : t.exitConcerns c = true
      · rw [State.entry_exitEntry entry concerns, if_neg (by decide)]
        unfold Terminal.exited
        unfold Terminal.exitConcerns at concerns
        cases phase : t.phase with
        | retuning fix target => rfl
        | ranging n smp f d =>
          rw [phase, Bool.or_false, decide_eq_true_eq] at concerns
          simp [concerns]
        | active fix d n =>
          rw [phase, Bool.or_false, decide_eq_true_eq] at concerns
          simp [concerns, freshDrift, Config.settleCount]
        | dismissing sent due =>
          rw [phase, Bool.or_false, decide_eq_true_eq] at concerns
          simp [concerns]
        | _ => rfl
      · rw [State.exitEntry_unconcerned entry (Bool.not_eq_true _ ▸ concerns), entry]
        unfold Terminal.exitConcerns at concerns
        obtain ⟨home, move⟩ := not_or.1 fun k => concerns (Bool.or_eq_true _ _ ▸ k)
        rw [decide_eq_true_eq] at home
        cases phase : t.phase with
        | retuning fix target =>
          rw [phase, decide_eq_true_eq] at move
          simp [move]
        | ranging n smp f d => simp [home, ← phase]
        | active fix d n => simp [home, ← phase]
        | dismissing sent due => simp [home, ← phase]
        | _ => rfl

end Sys2Proof.Machine
end

section
/-! The presence scanner (R134 to R141): the three steps at one entry, the owed kinds offered, the walk over the registry,
and the silence of the links. -/

namespace Sys2Proof.Machine

/-! ## Changes of an owed set alone -/

/-- The entry of handle k is as it was, but for the owed set of an entry that holds one. -/
def State.OwedOnly (s t : State) (k : Handle) : Prop := ∃ g : Terminal → Owed,
  t.entry k = (s.entry k).map fun e => { e with term := e.term.map fun u => { u with owed := g u } }

theorem State.OwedOnly.of_owing {s t : State} {k : Handle} (a : State.Owing s t k) : State.OwedOnly s t k := by
  obtain ⟨ks, e⟩ := a
  refine ⟨fun u => (ks.foldl Terminal.makeOwed u).owed, e.trans (congrArg (Option.map · (s.entry k)) (funext fun x => ?_))⟩
  unfold Entry.owing
  rw [show (fun u => ks.foldl Terminal.makeOwed u) = fun u => { u with owed := (ks.foldl Terminal.makeOwed u).owed } from
    funext fun u => Terminal.foldl_makeOwed_eq ks u]

theorem State.OwedOnly.refl (s : State) (k : Handle) : State.OwedOnly s s k := .of_owing (.refl s k)

theorem State.OwedOnly.trans {s t u : State} {k : Handle} (a : State.OwedOnly s t k) (b : State.OwedOnly t u k) :
    State.OwedOnly s u k := by
  obtain ⟨g, e⟩ := a
  obtain ⟨g', e'⟩ := b
  refine ⟨fun u => g' { u with owed := g u }, ?_⟩
  rw [e', e]
  cases s.entry k with
  | none => rfl
  | some x => simp [Function.comp_def]

theorem State.OwedOnly.modTerm (s : State) (h : Handle) (g : Terminal → Owed) (k : Handle) :
    State.OwedOnly s (s.modTerm h fun u => { u with owed := g u }) k := by
  by_cases e : k = h
  · subst e
    refine ⟨g, ?_⟩
    rw [State.entry_modTerm]
    cases he : s.entry k with
    | none => rfl
    | some x => simp [Entry.modTerm, State.entry_handle he]
  · exact .of_owing (.of_entry (State.entry_modTerm_ne s e _))

theorem State.OwedOnly.entry_none {s t : State} {k : Handle} (a : State.OwedOnly s t k) (absent : s.term k = none) :
    t.entry k = s.entry k := by
  obtain ⟨g, e⟩ := a
  rw [e]
  cases he : s.entry k with
  | none => rfl
  | some x =>
    have none_ : x.term = none := by simpa [State.term, he] using absent
    rcases x with ⟨h, f, _ | u⟩
    · rfl
    · cases none_

theorem State.OwedOnly.entry {s t : State} {k : Handle} (a : State.OwedOnly s t k) {f : Flaw} {u : Terminal}
    (he : s.entry k = some ⟨k, f, some u⟩) : ∃ o, t.entry k = some ⟨k, f, some { u with owed := o }⟩ := by
  obtain ⟨g, e⟩ := a
  exact ⟨g u, by rw [e, he]; rfl⟩

theorem State.OwedOnly.queueFor (s : State) (h : Handle) (m : TreeMsg) (k : Handle) :
    State.OwedOnly s (s.queueFor h m) k := by
  unfold State.queueFor
  split
  · exact .refl s k
  · rename_i t _
    dsimp only
    have offered := (State.OwedOnly.modTerm s h (fun u => u.owed.dropFor m.kind) k).trans
      (.of_owing (.offerMsg _ t.home m k))
    split
    · exact offered
    · exact offered.trans (.of_owing (.takeReport _ _ _ _ h k))

/-! ## The owed step (R139) -/

section
variable (s : State) (h : Handle)

theorem State.Told.offerOwed (k : MsgKind) : State.Told s (s.offerOwed h k) := by
  unfold State.offerOwed
  split
  · exact .refl s
  · split
    · exact .refl s
    · dsimp only
      split
      · exact (State.Told.offerMsg s _ _).trans (.modTerm _ h _)
      · exact .offerMsg s _ _

theorem State.Owing.offerOwed (k : MsgKind) {x : Handle} (e : x ≠ h) : State.Owing s (s.offerOwed h k) x := by
  unfold State.offerOwed
  split
  · exact .refl s x
  · split
    · exact .refl s x
    · dsimp only
      split
      · exact (State.Owing.offerMsg s _ _ x).trans (.of_entry (State.entry_modTerm_ne _ e _))
      · exact .offerMsg s _ _ x

theorem State.OwedOnly.offerOwed (k : MsgKind) (x : Handle) : State.OwedOnly s (s.offerOwed h k) x := by
  unfold State.offerOwed
  split
  · exact .refl s x
  · split
    · exact .refl s x
    · dsimp only
      split
      · exact (State.OwedOnly.of_owing (.offerMsg s _ _ x)).trans (.modTerm _ h _ x)
      · exact .of_owing (.offerMsg s _ _ x)

/-- What each kind offered keeps, the owed step keeps. -/
theorem State.owedStep_by {P : State → Prop} (start : P s) (keeps : ∀ w k, P w → P (w.offerOwed h k)) :
    P (s.owedStep h) := by
  have walk (l : List MsgKind) : ∀ w, P w → P (l.foldl (fun st k => st.offerOwed h k) w) := by
    induction l with
    | nil => exact fun w k => k
    | cons k l ih => exact fun w kw => ih _ (keeps w k kw)
  unfold State.owedStep
  split
  · exact start
  · split
    · exact walk _ s start
    · exact start

theorem State.Told.owedStep : State.Told s (s.owedStep h) :=
  s.owedStep_by h (P := State.Told s) (.refl s) fun w k a => a.trans (.offerOwed w h k)

theorem State.Owing.owedStep {x : Handle} (e : x ≠ h) : State.Owing s (s.owedStep h) x :=
  s.owedStep_by h (P := fun t => State.Owing s t x) (.refl s x) fun w k a => a.trans (.offerOwed w h k e)

theorem State.OwedOnly.owedStep (x : Handle) : State.OwedOnly s (s.owedStep h) x :=
  s.owedStep_by h (P := fun t => State.OwedOnly s t x) (.refl s x) fun w k a => a.trans (.offerOwed w h k x)

end

/-! ## What one entry's step leaves of the others -/

/-- Another entry is as it was, but for kinds added to its owed set, and stands in the retention list as it did. -/
def State.Passed (s t : State) (k : Handle) : Prop := State.Owing s t k ∧ (k ∈ t.retention ↔ k ∈ s.retention)

theorem State.Passed.refl (s : State) (k : Handle) : State.Passed s s k := ⟨.refl s k, Iff.rfl⟩

theorem State.Passed.trans {s t u : State} {k : Handle} (a : State.Passed s t k) (b : State.Passed t u k) :
    State.Passed s u k := ⟨a.1.trans b.1, b.2.trans a.2⟩

theorem State.Passed.of_retention {s t : State} {k : Handle} (a : State.Owing s t k) (e : t.retention = s.retention) :
    State.Passed s t k := ⟨a, by rw [e]⟩

theorem State.retention_readEntry (s : State) (h : Handle) : (s.readEntry h).retention = s.retention ∨
    (s.readEntry h).retention = s.retention.filter fun k => !(k == h) :=
  State.readEntry_by (P := fun t => t.retention = s.retention ∨ t.retention = s.retention.filter fun k => !(k == h))
    (.inl rfl) (fun _ _ => .inl rfl) (fun _ _ => .inl (State.offerFlaw_retention _ _ h)) (.inr (s.damage_retention h))

theorem mem_filter_ne {k h : Handle} (e : k ≠ h) (l : List Handle) : k ∈ l.filter (fun x => !(x == h)) ↔ k ∈ l := by
  rw [List.mem_filter]; simp [e]

theorem not_mem_filter_self (h : Handle) (l : List Handle) : h ∉ l.filter fun x => !(x == h) := fun k => by
  have := List.of_mem_filter k
  simp at this

theorem State.Passed.readEntry (s : State) {h k : Handle} (e : k ≠ h) : State.Passed s (s.readEntry h) k := by
  refine ⟨.readEntry s e, ?_⟩
  rcases s.retention_readEntry h with r | r <;> rw [r]
  exact mem_filter_ne e _

theorem State.freeEntry_retention (s : State) (h : Handle) (notice : Bool) :
    (s.freeEntry h notice).retention = s.retention.filter fun x => !(x == h) := by
  cases notice with
  | false => rw [State.freeEntry_false]
  | true => rw [State.freeEntry_true, State.raise_retention, State.freeEntry_false]

theorem State.Walked.freeEntry (s : State) (h : Handle) (notice : Bool) : State.Walked s (s.freeEntry h notice) := by
  have quiet : State.Walked s (s.freeEntry h false) := by
    rw [State.freeEntry_false]
    exact ⟨rfl, fun c => by cases c <;> rfl⟩
  cases notice with
  | false => exact quiet
  | true => rw [State.freeEntry_true]; exact quiet.trans (.raise _ _)

theorem State.Passed.freeEntry (s : State) {h k : Handle} (e : k ≠ h) (notice : Bool) :
    State.Passed s (s.freeEntry h notice) k := by
  refine ⟨.of_entry ?_, ?_⟩
  · rw [State.entry_freeEntry, if_neg e]
  · rw [State.freeEntry_retention]; exact mem_filter_ne e _

theorem State.enterLost_absent {s : State} {h : Handle} (absent : s.term h = none) : s.enterLost h = s := by
  unfold State.enterLost; rw [absent]

theorem State.Walked.enterLost (s : State) (h : Handle) : State.Walked s (s.enterLost h) := by
  cases ht : s.term h with
  | none => rw [State.enterLost_absent ht]; exact .refl s
  | some t =>
    rw [State.enterLost_eq ht]
    refine State.Walked.trans (t := { (s.rosterLeave t.home h).modTerm h fun u => { u with
      moveFlag := false, phase := .lost t.phase.final 0 false } with retention := s.retention ++ [h] }) ?_ (.queueFor _ h _)
    exact (State.Walked.rosterLeave s t.home h).trans (.of_chans rfl rfl)

theorem State.enterLost_retention {s : State} {h : Handle} {t : Terminal} (ht : s.term h = some t) :
    (s.enterLost h).retention = s.retention ++ [h] := by
  rw [State.enterLost_eq ht, (State.Told.queueFor _ h _).retention]

theorem State.Passed.enterLost (s : State) {h k : Handle} (e : k ≠ h) : State.Passed s (s.enterLost h) k := by
  cases ht : s.term h with
  | none => rw [State.enterLost_absent ht]; exact .refl s k
  | some t =>
    refine ⟨?_, ?_⟩
    · rw [State.enterLost_eq ht]
      refine State.Owing.trans (t := { (s.rosterLeave t.home h).modTerm h fun u => { u with
        moveFlag := false, phase := .lost t.phase.final 0 false } with retention := s.retention ++ [h] }) (.of_entry ?_)
        (.queueFor _ e _)
      exact (State.entry_modTerm_ne _ e _).trans (State.entry_congr (State.rosterLeave_registry s t.home h) k)
    · rw [State.enterLost_retention ht]; simp [e]

theorem State.entry_enterLost {s : State} {h : Handle} {f : Flaw} {t : Terminal} (he : s.entry h = some ⟨h, f, some t⟩) :
    ∃ o, (s.enterLost h).entry h = some ⟨h, f, some { t with
      moveFlag := false, owed := o, phase := .lost t.phase.final 0 false }⟩ := by
  have ht : s.term h = some t := by rw [State.term, he]; rfl
  rw [State.enterLost_eq ht]
  refine State.OwedOnly.entry (.queueFor _ h _ h) (u := { t with moveFlag := false, phase := .lost t.phase.final 0 false }) ?_
  have left : (s.rosterLeave t.home h).entry h = some ⟨h, f, some t⟩ :=
    (State.entry_congr (State.rosterLeave_registry s t.home h) h).trans he
  exact State.entry_modTerm_own left _

/-! ## The state step (R135 to R138) -/

/-- What the state step makes of an entry, none for one that it frees. -/
def State.stepped (s : State) (t : Terminal) : Option Terminal :=
  match t.phase with
  | .active fix d missed =>
    if s.isUp t.home then
      if t.heard then some { t with phase := .active fix d 0 }
      else if s.tree.mLost ≤ missed + 1 then some { t with moveFlag := false, phase := .lost (some fix.final) 0 false }
      else some { t with phase := .active fix d (missed + 1) }
    else some t
  | .lost f age sent => if age < s.tree.retention then some { t with phase := .lost f (age + 1) sent } else none
  | .dismissing sent due => if sent || due || !s.isUp t.home then none else some t
  | _ => some t

/-- The notices of the state step (R136 to R138). -/
def State.stepNotices (s : State) (h : Handle) (t : Terminal) : List Notice :=
  match t.phase with
  | .active _ _ missed => if s.isUp t.home && !t.heard && decide (s.tree.mLost ≤ missed + 1)
      then [⟨.lost, some h, some t.home, some t.mark, none⟩] else []
  | .lost _ age _ => if s.tree.retention ≤ age then [⟨.freed, some h, none, some t.mark, none⟩] else []
  | .dismissing sent due => if sent || due || !s.isUp t.home then [⟨.freed, some h, none, some t.mark, none⟩] else []
  | _ => []

/-- The state step is one of: nothing, a change of the entry's own fields, its loss, or its freeing. -/
inductive State.Step (s : State) (h : Handle) (t : Terminal) : State → Prop where
  | still (stepped : s.stepped t = some t) (quiet : s.stepNotices h t = []) : State.Step s h t s
  | fields (p : Phase) (stepped : s.stepped t = some { t with phase := p }) (quiet : s.stepNotices h t = []) :
      State.Step s h t (s.modTerm h fun u => { u with phase := p })
  | lost (final : s.stepped t = some { t with moveFlag := false, phase := .lost t.phase.final 0 false })
      (notices : s.stepNotices h t = [Notice.lost h t.home t.mark]) :
      State.Step s h t ((s.enterLost h).raise (Notice.lost h t.home t.mark))
  | freed (gone : s.stepped t = none) (notices : s.stepNotices h t = [Notice.freed h (some t.mark)]) :
      State.Step s h t (s.freeEntry h true)

theorem State.stateStep_active {s : State} {h : Handle} {t : Terminal} {fix : Fix} {d : Drift} {missed : Nat}
    (ht : s.term h = some t) (phase : t.phase = .active fix d missed) : s.stateStep h = s.presence h t fix d missed := by
  unfold State.stateStep; rw [ht]; dsimp only; rw [phase]

theorem State.stateStep_lost {s : State} {h : Handle} {t : Terminal} {f : Option Int} {age : Nat} {sent : Bool}
    (ht : s.term h = some t) (phase : t.phase = .lost f age sent) : s.stateStep h =
      if age < s.tree.retention then s.modTerm h fun u => { u with phase := .lost f (age + 1) sent }
      else s.freeEntry h true := by
  unfold State.stateStep; rw [ht]; dsimp only; rw [phase]

theorem State.stateStep_dismissing {s : State} {h : Handle} {t : Terminal} {sent due : Bool}
    (ht : s.term h = some t) (phase : t.phase = .dismissing sent due) : s.stateStep h =
      if sent || due || !(s.isUp t.home) then s.freeEntry h true else s := by
  unfold State.stateStep; rw [ht]; dsimp only; rw [phase]

theorem State.presence_step {s : State} {h : Handle} {t : Terminal} {fix : Fix} {d : Drift} {missed : Nat}
    (phase : t.phase = .active fix d missed) : State.Step s h t (s.presence h t fix d missed) := by
  unfold State.presence
  cases up : s.isUp t.home with
  | false => exact .still (by simp [State.stepped, phase, up]) (by simp [State.stepNotices, phase, up])
  | true =>
    cases heard : t.heard with
    | true => exact .fields _ (by simp [State.stepped, phase, up, heard]) (by simp [State.stepNotices, phase, heard])
    | false =>
      by_cases most : s.tree.mLost ≤ missed + 1
      · rw [if_pos rfl, if_neg Bool.false_ne_true, if_pos most]
        exact .lost (by simp [State.stepped, phase, up, heard, most, Phase.final])
          (by simp [State.stepNotices, phase, up, heard, most, Notice.lost])
      · rw [if_pos rfl, if_neg Bool.false_ne_true, if_neg most]
        exact .fields _ (by simp [State.stepped, phase, up, heard, most]) (by simp [State.stepNotices, phase, most])

theorem State.stateStep_step {s : State} {h : Handle} {t : Terminal} (ht : s.term h = some t) :
    State.Step s h t (s.stateStep h) := by
  cases phase : t.phase with
  | active fix d missed => rw [State.stateStep_active ht phase]; exact State.presence_step phase
  | lost f age sent =>
    rw [State.stateStep_lost ht phase]
    by_cases young : age < s.tree.retention
    · rw [if_pos young]
      exact .fields _ (by simp [State.stepped, phase, young]) (by simp [State.stepNotices, phase, young])
    · rw [if_neg young]
      exact .freed (by simp [State.stepped, phase, young])
        (by simp [State.stepNotices, phase, Nat.not_lt.1 young, Notice.freed])
  | dismissing sent due =>
    rw [State.stateStep_dismissing ht phase]
    by_cases gone : (sent || due || !s.isUp t.home) = true
    · rw [if_pos gone]
      exact .freed (by rw [State.stepped, phase]; exact if_pos gone) (by rw [State.stepNotices, phase]; exact if_pos gone)
    · rw [if_neg gone]
      exact .still (by rw [State.stepped, phase]; exact if_neg gone) (by rw [State.stepNotices, phase]; exact if_neg gone)
  | _ =>
    rw [State.stateStep]; simp only [ht, phase]
    exact .still (by rw [State.stepped, phase]) (by rw [State.stepNotices, phase])

theorem State.stateStep_absent {s : State} {h : Handle} (absent : s.term h = none) : s.stateStep h = s := by
  unfold State.stateStep; rw [absent]

theorem State.Walked.stateStep (s : State) (h : Handle) : State.Walked s (s.stateStep h) := by
  cases ht : s.term h with
  | none => rw [State.stateStep_absent ht]; exact .refl s
  | some t =>
    have step := State.stateStep_step ht
    generalize s.stateStep h = w at step ⊢
    cases step with
    | still => exact .refl s
    | fields => exact .modTerm s h _
    | lost => exact (State.Walked.enterLost s h).trans (.raise _ _)
    | freed => exact .freeEntry s h true

theorem State.Passed.stateStep (s : State) {h k : Handle} (e : k ≠ h) : State.Passed s (s.stateStep h) k := by
  cases ht : s.term h with
  | none => rw [State.stateStep_absent ht]; exact .refl s k
  | some t =>
    have step := State.stateStep_step ht
    generalize s.stateStep h = w at step ⊢
    cases step with
    | still => exact .refl s k
    | fields => exact .of_retention (.of_entry (State.entry_modTerm_ne s e _)) rfl
    | lost =>
      exact (State.Passed.enterLost s e).trans
        (.of_retention (.of_entry (State.entry_congr (State.raise_registry _ _) k)) (State.raise_retention _ _))
    | freed => exact .freeEntry s e true

/-! ## What the reads of a walk take into the first-error record (R36) -/

/-- The flaw that a read of this entry offers to the record (R33, R34). -/
def Entry.flawFound (capture : StoreCapture) (e : Entry) : Option FirstError :=
  match e.term, e.flaw with
  | some _, .uncorrectable => some ⟨.uncorrectable, e.handle⟩
  | some _, .correctable => if capture = .all then some ⟨.correctable, e.handle⟩ else none
  | _, _ => none

/-- The flaw that the record takes of reading these entries in turn (R36). -/
def State.caughtOf (s : State) (l : List Entry) : Option FirstError :=
  if s.firstError = none then l.findSome? (·.flawFound s.tree.capture) else none

/-- The notice of a flaw that the record took. -/
def flawNotice (r : FirstError) : Notice := Notice.storeError r.handle r.kind

theorem Entry.flawFound_handle {capture : StoreCapture} {e : Entry} {r : FirstError} (found : e.flawFound capture = some r) :
    r.handle = e.handle := by
  unfold Entry.flawFound at found
  split at found
  · cases found; rfl
  · split at found
    · cases found; rfl
    · cases found
  · cases found

theorem Entry.flawFound_owing (capture : StoreCapture) (ks : List MsgKind) (e : Entry) :
    (e.owing ks).flawFound capture = e.flawFound capture := by
  rcases e with ⟨h, f, t⟩
  cases t <;> cases f <;> rfl

theorem State.caughtOf_cons (s : State) (e : Entry) (l : List Entry) :
    s.caughtOf (e :: l) = (s.caughtOf [e]).or (s.caughtOf l) := by
  unfold State.caughtOf
  by_cases first : s.firstError = none
  · simp only [if_pos first, List.findSome?_cons, List.findSome?_nil]
    cases e.flawFound s.tree.capture <;> rfl
  · simp only [if_neg first, Option.or_none]

theorem State.caughtOf_handle {s : State} {l : List Entry} {r : FirstError} (caught : s.caughtOf l = some r) :
    ∃ e ∈ l, r.handle = e.handle := by
  unfold State.caughtOf at caught
  split at caught
  · obtain ⟨e, mem, found⟩ := List.exists_of_findSome?_eq_some caught
    exact ⟨e, mem, Entry.flawFound_handle found⟩
  · cases caught

theorem State.offerFlaw_noticed (s : State) (k : FlawKind) (h : Handle) :
    State.Noticed s (s.offerFlaw k h) ((if s.firstError = none then some ⟨k, h⟩ else none).toList.map flawNotice) ∧
      (s.offerFlaw k h).firstError = (if s.firstError = none then some ⟨k, h⟩ else none).or s.firstError := by
  rcases Option.eq_none_or_eq_some s.firstError with first | ⟨f, first⟩
  · rw [State.offerFlaw_of_none first, if_pos first]
    exact ⟨State.Noticed.raise { s with firstError := some ⟨k, h⟩ } _, State.raise_firstError _ _⟩
  · rw [State.offerFlaw_of_some first, if_neg (by rw [first]; nofun)]
    exact ⟨.refl s, rfl⟩

theorem State.readEntry_noticed {s : State} {e : Entry} (he : s.entry e.handle = some e) :
    State.Noticed s (s.readEntry e.handle) ((s.caughtOf [e]).toList.map flawNotice) ∧
      (s.readEntry e.handle).firstError = (s.caughtOf [e]).or s.firstError := by
  have one : s.caughtOf [e] = if s.firstError = none then e.flawFound s.tree.capture else none := by
    unfold State.caughtOf List.findSome?
    cases e.flawFound s.tree.capture <;> rfl
  rw [one]
  have quiet (w : State) (notices : w.notices = s.notices) (overflow : w.overflow = s.overflow)
      (first : w.firstError = s.firstError) (found : e.flawFound s.tree.capture = none) :
      State.Noticed s w ((if s.firstError = none then e.flawFound s.tree.capture else none).toList.map flawNotice) ∧
        w.firstError = (if s.firstError = none then e.flawFound s.tree.capture else none).or s.firstError := by
    rw [found, ite_self]
    exact ⟨.of_same notices overflow, first⟩
  rcases e with ⟨h, flaw, _ | t⟩
  · rw [State.readEntry_term_none (by rw [State.term, he]; rfl)]
    exact quiet s rfl rfl rfl rfl
  · rw [State.readEntry_eq he]
    cases flaw with
    | sound => exact quiet s rfl rfl rfl rfl
    | correctable =>
      dsimp only
      by_cases all : s.tree.capture = .all
      · rw [if_pos all, show Entry.flawFound s.tree.capture ⟨h, .correctable, some t⟩ = some ⟨.correctable, h⟩ from if_pos all]
        exact (s.setEntry h ⟨h, .sound, some t⟩).offerFlaw_noticed .correctable h
      · rw [if_neg all]
        exact quiet _ rfl rfl rfl (if_neg all)
    | uncorrectable =>
      dsimp only
      obtain ⟨notices, first⟩ := s.offerFlaw_noticed .uncorrectable h
      exact ⟨fun room => by rw [State.damage_whole]; exact notices room, by rw [State.damage_whole]; exact first⟩

/-- A walk over entries whose step reads the entry and then raises its own notices: the notices come in the order of the
entries, each flaw that the record takes at its entry's place. -/
theorem State.Noticed.walk {s : State} {f : State → Handle → State} {news : Entry → List Notice}
    (step : ∀ w e, s.entry e.handle = some e → State.Walked s w → State.Owing s w e.handle →
      State.Noticed w (f w e.handle) ((w.caughtOf [e]).toList.map flawNotice ++ news e) ∧
        (f w e.handle).firstError = (w.caughtOf [e]).or w.firstError)
    (walked : ∀ w h, State.Walked w (f w h)) (others : ∀ w h k, k ≠ h → State.Owing w (f w h) k) (l : List Entry) :
    ∀ w, State.Walked s w → (∀ e ∈ l, s.entry e.handle = some e ∧ State.Owing s w e.handle) → (l.map Entry.handle).Nodup →
      State.Noticed w ((l.map Entry.handle).foldl f w) (l.flatMap fun e =>
        (((w.caughtOf l).toList.filter fun r => r.handle == e.handle).map flawNotice) ++ news e) ∧
      ((l.map Entry.handle).foldl f w).firstError = (w.caughtOf l).or w.firstError := by
  induction l with
  | nil =>
    intro w _ _ _
    have no : w.caughtOf [] = none := ite_self (none : Option FirstError)
    rw [no]
    exact ⟨.refl w, rfl⟩
  | cons e l ih =>
    intro w start own nd
    obtain ⟨fresh, nd⟩ := List.nodup_cons.1 nd
    obtain ⟨⟨he, owing⟩, own⟩ := List.forall_mem_cons.1 own
    obtain ⟨noticed, first⟩ := step w e he start owing
    have other (e' : Entry) (mem : e' ∈ l) : e'.handle ≠ e.handle :=
      fun k => fresh (k ▸ List.mem_map_of_mem mem)
    obtain ⟨noticed', first'⟩ := ih (f w e.handle) (start.trans (walked w e.handle))
      (fun e' mem => ⟨(own e' mem).1, (own e' mem).2.trans (others w e.handle _ (other e' mem))⟩) nd
    have capture : (f w e.handle).tree = w.tree := (walked w e.handle).tree
    cases found : w.caughtOf [e] with
    | none =>
      rw [found] at noticed first
      have whole : w.caughtOf (e :: l) = w.caughtOf l := by rw [State.caughtOf_cons, found]; rfl
      have same : (f w e.handle).caughtOf l = w.caughtOf l := by unfold State.caughtOf; rw [capture, first]; rfl
      have later : ((w.caughtOf l).toList.filter fun r => r.handle == e.handle) = [] := by
        refine List.filter_eq_nil_iff.2 fun r mem => ?_
        obtain ⟨e', mem', at_⟩ := State.caughtOf_handle (Option.mem_toList.1 mem)
        rw [at_]
        simpa using other e' mem'
      rw [same] at noticed' first'
      rw [whole, List.flatMap_cons, later]
      exact ⟨noticed.trans noticed', first'.trans (by rw [first]; rfl)⟩
    | some r =>
      rw [found] at noticed first
      have whole : w.caughtOf (e :: l) = some r := by rw [State.caughtOf_cons, found]; rfl
      have rest : (f w e.handle).caughtOf l = none := if_neg (by rw [first]; nofun)
      have at_ : r.handle = e.handle := by simpa using State.caughtOf_handle found
      have here : ((some r).toList.filter fun r => r.handle == e.handle) = [r] := by simp [at_]
      have elsewhere : (l.flatMap fun e' => (((some r).toList.filter fun r => r.handle == e'.handle).map flawNotice) ++ news e') =
          l.flatMap fun e' => ((((none : Option FirstError).toList.filter fun r => r.handle == e'.handle).map flawNotice) ++ news e') := by
        refine List.flatMap_congr fun e' mem => ?_
        have no : ((some r).toList.filter fun r => r.handle == e'.handle) = [] := by simp [at_, (other e' mem).symm]
        rw [no]; rfl
      rw [rest] at noticed' first'
      rw [whole, List.flatMap_cons, here, elsewhere]
      exact ⟨noticed.trans noticed', first'.trans first⟩

end Sys2Proof.Machine
end

section
/-! The walk of a scan expiry over the registry (R134): what it makes of each entry, and its notices. -/

namespace Sys2Proof.Machine

/-! ## The step of the walk at one entry -/

theorem State.entry_modTerm_absent {s : State} {h : Handle} (absent : s.term h = none) (f : Terminal → Terminal) (k : Handle) :
    (s.modTerm h f).entry k = s.entry k := by
  by_cases e : k = h
  · subst e
    rw [State.entry_modTerm]
    cases he : s.entry k with
    | none => rfl
    | some x =>
      obtain ⟨i, flaw, t⟩ := x
      obtain rfl : t = none := by simpa [State.term, he] using absent
      simp [Entry.modTerm]
  · exact State.entry_modTerm_ne s e f

theorem State.owedStep_absent {s : State} {h : Handle} (absent : s.term h = none) : s.owedStep h = s := by
  unfold State.owedStep; rw [absent]

theorem State.scanEntry_absent {s : State} {h : Handle} (absent : s.term h = none) :
    s.scanEntry h = s.heardStep h := by
  unfold State.scanEntry
  rw [State.readEntry_term_none absent, State.stateStep_absent absent, State.owedStep_absent absent]

section
variable (s : State) (h : Handle)

theorem State.Walked.scanEntry : State.Walked s (s.scanEntry h) :=
  (State.Walked.readEntry s h).trans <| (State.Walked.stateStep _ h).trans <|
    (State.Walked.told (.owedStep _ h)).trans (.modTerm _ h _)

theorem State.Passed.scanEntry {k : Handle} (e : k ≠ h) : State.Passed s (s.scanEntry h) k :=
  (State.Passed.readEntry s e).trans <| (State.Passed.stateStep _ e).trans <|
    (State.Passed.of_retention (.owedStep _ h e) (State.Told.owedStep _ h).retention).trans
      (.of_retention (.of_entry (State.entry_modTerm_ne _ e _)) rfl)

end

/-- What the state step leaves of its own sound entry. -/
theorem State.entry_stateStep {s : State} {h : Handle} {t : Terminal} (sound : s.sound h t) :
    (s.stepped t = none → (s.stateStep h).entry h = none ∧ h ∉ (s.stateStep h).retention) ∧
    (∀ u, s.stepped t = some u → ∃ o, (s.stateStep h).sound h { u with owed := o }) ∧
    (s.stepNotices h t = [Notice.lost h t.home t.mark] → h ∈ (s.stateStep h).retention) := by
  have step := State.stateStep_step (State.term_of_sound sound)
  generalize s.stateStep h = w at step ⊢
  cases step with
  | still stepped quiet =>
    rw [stepped, quiet]
    exact ⟨nofun, fun u e => ⟨t.owed, by cases e; exact sound⟩, nofun⟩
  | fields p stepped quiet =>
    rw [stepped, quiet]
    exact ⟨nofun, fun u e => ⟨t.owed, by cases e; exact State.entry_modTerm_own sound _⟩, nofun⟩
  | lost final notices =>
    rw [final]
    refine ⟨nofun, fun u e => ?_, fun _ => ?_⟩
    · obtain ⟨o, entry⟩ := State.entry_enterLost sound
      refine ⟨o, ?_⟩
      cases e
      exact (State.entry_congr (State.raise_registry _ _) h).trans entry
    · rw [State.raise_retention, State.enterLost_retention (State.term_of_sound sound)]
      exact List.mem_append_right _ (List.mem_singleton_self h)
  | freed gone notices =>
    rw [gone, notices]
    refine ⟨fun _ => ⟨?_, ?_⟩, fun u e => (Option.some_ne_none u e.symm).elim, fun e => by simp [Notice.freed, Notice.lost] at e⟩
    · rw [State.entry_freeEntry, if_pos rfl]
    · rw [State.freeEntry_retention]; exact not_mem_filter_self h _

/-- What the state step makes of an entry depends on the settings and the links alone. -/
theorem State.stepped_congr {s w : State} (a : State.Walked s w) (t : Terminal) : w.stepped t = s.stepped t := by
  unfold State.stepped; rw [a.tree, a.isUp]

theorem State.stepNotices_congr {s w : State} (a : State.Walked s w) (h : Handle) (t : Terminal) :
    w.stepNotices h t = s.stepNotices h t := by
  unfold State.stepNotices; rw [a.tree, a.isUp]

theorem State.stepped_owed (s : State) (t : Terminal) (o : Owed) :
    s.stepped { t with owed := o } = (s.stepped t).map fun u => { u with owed := o } := by
  rcases t with ⟨mark, home, estimate, wasActive, moveFlag, heard, owed, phase⟩
  unfold State.stepped
  cases phase with
  | active fix d missed => dsimp only; split_ifs <;> rfl
  | lost f age sent => dsimp only; split_ifs <;> rfl
  | dismissing sent due => dsimp only; split_ifs <;> rfl
  | _ => rfl

/-- The owed step and the heard step after a state step that left the entry of the walk. -/
theorem State.entry_owedHeard {w : State} {h : Handle} {u : Terminal} (sound : w.sound h u) :
    ∃ o, ((w.owedStep h).heardStep h).sound h { u with heard := false, owed := o } := by
  obtain ⟨o, owed⟩ := (State.OwedOnly.owedStep w h h).entry sound
  exact ⟨o, State.entry_modTerm_own owed _⟩

theorem State.entry_owedHeard_absent {w : State} {h : Handle} (absent : w.term h = none) :
    ((w.owedStep h).heardStep h).entry h = w.entry h := by
  rw [State.owedStep_absent absent]
  exact State.entry_modTerm_absent absent _ h

/-- What the walk leaves of its own entry. -/
theorem State.entry_scanEntry {w : State} {h : Handle} {flaw : Flaw} {t : Terminal}
    (he : w.entry h = some ⟨h, flaw, some t⟩) :
    (flaw = .uncorrectable → (w.scanEntry h).entry h = some ⟨h, .sound, none⟩ ∧ h ∉ (w.scanEntry h).retention) ∧
    (flaw ≠ .uncorrectable →
      (w.stepped t = none → (w.scanEntry h).entry h = none ∧ h ∉ (w.scanEntry h).retention) ∧
      (∀ u, w.stepped t = some u → ∃ o, (w.scanEntry h).sound h { u with heard := false, owed := o }) ∧
      (w.stepNotices h t = [Notice.lost h t.home t.mark] → h ∈ (w.scanEntry h).retention)) := by
  have kept (v : State) : ((v.owedStep h).heardStep h).retention = v.retention := (State.Told.owedStep v h).retention
  have read := State.entry_readEntry he
  refine ⟨fun bad => ?_, fun good => ?_⟩
  · rw [if_pos bad] at read
    have absent : (w.readEntry h).term h = none := by rw [State.term, read]; rfl
    unfold State.scanEntry
    rw [State.stateStep_absent absent, State.entry_owedHeard_absent absent, kept, State.readEntry_eq he, bad]
    exact ⟨State.entry_damage he, by rw [State.damage_retention]; exact not_mem_filter_self h _⟩
  · rw [if_neg good] at read
    have walked := State.Walked.readEntry w h
    rw [← State.stepped_congr walked, ← State.stepNotices_congr walked]
    obtain ⟨gone, left, lost⟩ := State.entry_stateStep read
    refine ⟨fun e => ?_, fun u e => ?_, fun e => (kept _).symm ▸ lost e⟩
    · obtain ⟨entry, out⟩ := gone e
      exact ⟨(State.entry_owedHeard_absent (by rw [State.term, entry]; rfl)).trans entry, (kept _).symm ▸ out⟩
    · obtain ⟨o, sound⟩ := left u e
      obtain ⟨o', after⟩ := State.entry_owedHeard sound
      exact ⟨o', after⟩

/-! ## The notices of the walk (R36, R136 to R138) -/

/-- The notices of the state step of an entry, of which one with an uncorrectable flaw takes none. -/
def State.scanNews (s : State) (e : Entry) : List Notice :=
  match if e.flaw = .uncorrectable then none else e.term with
  | none => []
  | some t => s.stepNotices e.handle t

theorem State.freeEntry_noticed {s : State} {h : Handle} {t : Terminal} (ht : s.term h = some t) :
    State.Noticed s (s.freeEntry h true) [Notice.freed h (some t.mark)] ∧ (s.freeEntry h true).firstError = s.firstError := by
  rw [State.freeEntry_true, ht]
  exact ⟨State.Noticed.trans (a := []) (.of_same rfl rfl) (.raise (s.freeEntry h false) _), State.raise_firstError _ _⟩

theorem State.enterLost_noticed (s : State) (h : Handle) :
    State.Noticed s (s.enterLost h) [] ∧ (s.enterLost h).firstError = s.firstError := by
  cases ht : s.term h with
  | none => rw [State.enterLost_absent ht]; exact ⟨.refl s, rfl⟩
  | some t =>
    rw [State.enterLost_eq ht]
    have queued := State.Told.queueFor ({ (s.rosterLeave t.home h).modTerm h fun u => { u with
      moveFlag := false, phase := .lost t.phase.final 0 false } with retention := s.retention ++ [h] } : State) h (.dismiss h)
    rw [State.rosterLeave_modChan] at queued ⊢
    exact ⟨.of_same (by rw [queued.whole]; rfl) (by rw [queued.whole]; rfl), by rw [queued.whole]; rfl⟩

theorem State.stateStep_noticed {s : State} {h : Handle} {t : Terminal} (ht : s.term h = some t) :
    State.Noticed s (s.stateStep h) (s.stepNotices h t) ∧ (s.stateStep h).firstError = s.firstError := by
  have step := State.stateStep_step ht
  generalize s.stateStep h = w at step ⊢
  cases step with
  | still stepped quiet => rw [quiet]; exact ⟨.refl s, rfl⟩
  | fields p stepped quiet => rw [quiet]; exact ⟨.of_same rfl rfl, rfl⟩
  | lost final notices =>
    rw [notices]
    obtain ⟨quiet, first⟩ := s.enterLost_noticed h
    exact ⟨quiet.trans (.raise _ _), (State.raise_firstError _ _).trans first⟩
  | freed gone notices => rw [notices]; exact State.freeEntry_noticed ht

theorem State.owedHeard_noticed (s : State) (h : Handle) :
    State.Noticed s ((s.owedStep h).heardStep h) [] ∧ ((s.owedStep h).heardStep h).firstError = s.firstError :=
  ⟨(State.Noticed.told (.owedStep s h)).trans (.of_same rfl rfl),
    show (s.owedStep h).firstError = s.firstError by rw [(State.Told.owedStep s h).whole]⟩

theorem State.stepNotices_owed (s : State) (h : Handle) (t : Terminal) (o : Owed) :
    s.stepNotices h { t with owed := o } = s.stepNotices h t := rfl

theorem State.scanEntry_noticed {s w : State} {e : Entry} (he : s.entry e.handle = some e) (walked : State.Walked s w)
    (owing : State.Owing s w e.handle) :
    State.Noticed w (w.scanEntry e.handle) ((w.caughtOf [e]).toList.map flawNotice ++ s.scanNews e) ∧
      (w.scanEntry e.handle).firstError = (w.caughtOf [e]).or w.firstError := by
  obtain ⟨ks, hw⟩ := owing
  rw [he, Option.map_some] at hw
  have same : w.caughtOf [e.owing ks] = w.caughtOf [e] := by
    unfold State.caughtOf; simp only [List.findSome?_cons, Entry.flawFound_owing]
  obtain ⟨notices, first⟩ := State.readEntry_noticed (e := e.owing ks) hw
  rw [same] at notices first
  have after (v : State) (news : List Notice) (a : State.Noticed (w.readEntry e.handle) v news)
      (f : v.firstError = (w.readEntry e.handle).firstError) :
      State.Noticed w ((v.owedStep e.handle).heardStep e.handle) ((w.caughtOf [e]).toList.map flawNotice ++ news) ∧
        ((v.owedStep e.handle).heardStep e.handle).firstError = (w.caughtOf [e]).or w.firstError := by
    obtain ⟨quiet, f'⟩ := v.owedHeard_noticed e.handle
    refine ⟨?_, f'.trans (f.trans first)⟩
    have all := (notices.trans a).trans quiet
    rwa [List.append_nil] at all
  rcases e with ⟨h, flaw, term⟩
  have found : (w.readEntry h).term h = (if flaw = .uncorrectable then none else term).map fun t =>
      ks.foldl Terminal.makeOwed t := by
    cases term with
    | none => rw [State.readEntry_term_none (by rw [State.term, hw]; rfl), State.term, hw]; split <;> rfl
    | some t => rw [State.term, State.entry_readEntry hw]; split <;> rfl
  unfold State.scanEntry State.scanNews
  dsimp only
  cases kept : if flaw = .uncorrectable then none else term with
  | none =>
    rw [kept] at found
    rw [State.stateStep_absent found]
    exact after _ [] (.refl _) rfl
  | some t =>
    rw [kept, Option.map_some] at found
    obtain ⟨a, f⟩ := State.stateStep_noticed found
    rw [Terminal.foldl_makeOwed_eq, State.stepNotices_owed,
      State.stepNotices_congr (walked.trans (.readEntry w h))] at a
    exact after _ _ a f

/-- The walk of a scan expiry: the notices in handle order, the flaw that the record takes among them, and the record. -/
theorem State.walk_noticed {s : State} (law : HandleLaw s) :
    State.Noticed s (s.heldHandles.foldl (fun st h => st.scanEntry h) s) (s.registry.flatMap fun e =>
      (((s.caughtOf s.registry).toList.filter fun r => r.handle == e.handle).map flawNotice) ++ s.scanNews e) ∧
    (s.heldHandles.foldl (fun st h => st.scanEntry h) s).firstError = (s.caughtOf s.registry).or s.firstError :=
  State.Noticed.walk (f := fun st h => st.scanEntry h) (fun _ _ he walked owing => State.scanEntry_noticed he walked owing)
    State.Walked.scanEntry (fun w h _ ne => (State.Passed.scanEntry w h ne).1) s.registry s (.refl s)
    (fun e mem => ⟨State.entry_of_mem law.1 mem, .refl s e.handle⟩) (State.inOrder.nodup law.1)

/-! ## What the walk makes of each entry -/

theorem State.Walked.walk (s : State) (l : List Handle) : State.Walked s (l.foldl (fun st h => st.scanEntry h) s) := by
  induction l generalizing s with
  | nil => exact .refl s
  | cons h l ih => exact (State.Walked.scanEntry s h).trans (ih _)

/-- Kinds added to the owed set later leave what the walk made of an entry. -/
theorem State.Passed.sound {s t : State} {h : Handle} {u : Terminal} (a : State.Passed s t h) (sound : s.sound h u) :
    ∃ o, t.sound h { u with owed := o } := (State.OwedOnly.of_owing a.1).entry sound

theorem State.Passed.absent {s t : State} {h : Handle} (a : State.Passed s t h) (absent : s.term h = none) :
    t.entry h = s.entry h := a.1.entry_none absent

theorem State.Passed.mem {s t : State} {h : Handle} (a : State.Passed s t h) : h ∈ t.retention ↔ h ∈ s.retention := a.2

theorem State.walk_entry {s W : State} (law : HandleLaw s) (walk : W = s.heldHandles.foldl (fun st h => st.scanEntry h) s)
    (h : Handle) :
    (s.term h = none → W.entry h = s.entry h) ∧
    ∀ t flaw, s.entry h = some ⟨h, flaw, some t⟩ →
      (flaw = .uncorrectable → W.entry h = some ⟨h, .sound, none⟩ ∧ h ∉ W.retention) ∧
      (flaw ≠ .uncorrectable →
        (s.stepped t = none → W.entry h = none ∧ h ∉ W.retention) ∧
        (∀ u, s.stepped t = some u → ∃ o, W.sound h { u with heard := false, owed := o }) ∧
        (s.stepNotices h t = [Notice.lost h t.home t.mark] → h ∈ W.retention)) := by
  obtain ⟨out, inside⟩ := foldl_walk_entry (P := State.Walked s) (f := fun st h => st.scanEntry h) State.Passed.refl
    State.Passed.trans (s := s) s.heldHandles (State.inOrder.nodup law.1) (.refl s)
    (fun w h a => a.trans (.scanEntry w h)) (fun w h k e _ => .scanEntry w h e) h
  rw [← walk] at out inside
  refine ⟨fun absent => ?_, fun t flaw he => ?_⟩
  · by_cases mem : h ∈ s.heldHandles
    · obtain ⟨w, -, before, after⟩ := inside mem
      have gone : w.term h = none := before.1.term_none absent
      have still : (w.scanEntry h).entry h = w.entry h := by
        rw [State.scanEntry_absent gone]; exact State.entry_modTerm_absent gone _ h
      exact (after.absent (by rw [State.term, still]; exact gone)).trans (still.trans (before.absent absent))
    · exact (out mem).absent absent
  · obtain ⟨w, walked, before, after⟩ := inside (List.mem_map.2 ⟨_, State.entry_mem he, rfl⟩)
    obtain ⟨o, hw⟩ := (State.OwedOnly.of_owing before.1).entry he
    obtain ⟨bad, good⟩ := State.entry_scanEntry hw
    rw [State.stepped_owed, State.stepNotices_owed, State.stepped_congr walked, State.stepNotices_congr walked] at good
    have later (gone : (w.scanEntry h).term h = none) (left : h ∉ (w.scanEntry h).retention) :
        W.entry h = (w.scanEntry h).entry h ∧ h ∉ W.retention := ⟨after.absent gone, fun k => left (after.mem.1 k)⟩
    refine ⟨fun e => ?_, fun e => ?_⟩
    · obtain ⟨entry, left⟩ := bad e
      rw [← entry]
      exact later (by rw [State.term, entry]; rfl) left
    · obtain ⟨freed, kept, lost⟩ := good e
      refine ⟨fun gone => ?_, fun u stepped => ?_, fun notices => after.mem.2 (lost notices)⟩
      · obtain ⟨entry, left⟩ := freed (by rw [gone]; rfl)
        rw [← entry]
        exact later (by rw [State.term, entry]; rfl) left
      · obtain ⟨o', sound⟩ := kept _ (by rw [stepped]; rfl)
        obtain ⟨o'', sound'⟩ := after.sound sound
        exact ⟨o'', sound'⟩

end Sys2Proof.Machine
end

section
/-! The rest of a scan expiry: the pending list ages (R102) and the links count silence (R44). -/

namespace Sys2Proof.Machine

/-! ## The pending list -/

theorem State.raises_frame (s : State) (l : List Notice) :
    l.foldl State.raise s = { s with
      notices := (l.foldl State.raise s).notices
      overflow := (l.foldl State.raise s).overflow } := by
  induction l generalizing s with
  | nil => rfl
  | cons n l ih =>
    rw [List.foldl_cons, ih (s.raise n)]
    unfold State.raise
    split <;> rfl

theorem State.Noticed.raises (s : State) (l : List Notice) : State.Noticed s (l.foldl State.raise s) l := by
  induction l generalizing s with
  | nil => exact .refl s
  | cons n l ih => exact (State.Noticed.raise s n).trans (ih _)

/-- The pending list once it has aged, and the notices of the items that leave, are the only changes but the latch. -/
theorem State.ageWaiting_eq (s : State) : s.ageWaiting =
    (((s.waiting.filter fun i => decide (s.tree.aHold ≤ i.age + 1)).map fun i => Notice.pendingExpired i.mark).foldl
      State.raise { s with
        waiting := (s.waiting.map fun i => { i with age := i.age + 1 }).filter fun i => decide (i.age < s.tree.aHold)
        pendingFullLatch := s.ageWaiting.pendingFullLatch }) := by
  have gone : ((s.waiting.map PendingItem.aged).filter fun i => decide (s.tree.aHold ≤ i.age)) =
      (s.waiting.filter fun i => decide (s.tree.aHold ≤ i.age + 1)).map PendingItem.aged := List.filter_map
  have stay : (fun i : PendingItem => !decide (s.tree.aHold ≤ i.age)) = fun i => decide (i.age < s.tree.aHold) :=
    funext fun i => by rw [← decide_not]; exact decide_eq_decide.2 Nat.not_le
  have latch (w : State) (l : List Notice) : (l.foldl State.raise w).pendingFullLatch = w.pendingFullLatch := by
    rw [State.raises_frame]
  have body : s.ageWaiting = ((s.waiting.filter fun i => decide (s.tree.aHold ≤ i.age + 1)).map fun i =>
      Notice.pendingExpired i.mark).foldl State.raise { s with
        waiting := (s.waiting.map PendingItem.aged).filter fun i => decide (i.age < s.tree.aHold)
        pendingFullLatch := if ((s.waiting.filter fun i => decide (s.tree.aHold ≤ i.age + 1)).map
          PendingItem.aged).isEmpty then s.pendingFullLatch else false } := by
    unfold State.ageWaiting
    dsimp only
    rw [gone, stay, List.foldl_map, List.foldl_map]
    rfl
  rw [body, latch]
  rfl

theorem State.ageWaiting_frame (s : State) : s.ageWaiting = { s with
    waiting := (s.waiting.map fun i => { i with age := i.age + 1 }).filter fun i => decide (i.age < s.tree.aHold)
    pendingFullLatch := s.ageWaiting.pendingFullLatch
    notices := s.ageWaiting.notices
    overflow := s.ageWaiting.overflow } := by
  have body := s.ageWaiting_eq
  rw [State.raises_frame, ← s.ageWaiting_eq] at body
  exact body

theorem State.ageWaiting_noticed (s : State) : State.Noticed s s.ageWaiting
    ((s.waiting.filter fun i => decide (s.tree.aHold ≤ i.age + 1)).map fun i => Notice.pendingExpired i.mark) := by
  rw [State.ageWaiting_eq]
  exact State.Noticed.trans (a := []) (.of_same rfl rfl) (.raises { s with
    waiting := (s.waiting.map fun i => { i with age := i.age + 1 }).filter fun i => decide (i.age < s.tree.aHold)
    pendingFullLatch := s.ageWaiting.pendingFullLatch } _)

/-! ## The links count silence -/

/-- The notices of the silence count of a channel. -/
def State.silenceNews (s : State) (c : Chan) : List Notice :=
  if (s.chan c).cycleSeen = false ∧ 1 ≤ (s.chan c).silence then
    match (s.chan c).link with
    | .aligning .. => [Notice.channelState c .down]
    | .up _ => (if (s.chan c).quietPending then [Notice.censusQuiet c] else []) ++ [Notice.channelState c .down]
    | _ => []
  else []

/-- What a silence count, and a change of link state, leave of everything but the channel, the events and the notices. -/
structure State.Silent (s t : State) (c : Chan) : Prop where
  whole : t = { s with events := t.events, chans := t.chans, notices := t.notices, overflow := t.overflow }
  other : ∀ d, d ≠ c → t.chan d = s.chan d

theorem State.Silent.refl (s : State) (c : Chan) : State.Silent s s c := ⟨rfl, fun _ _ => rfl⟩

theorem State.Silent.trans {s t u : State} {c : Chan} (a : State.Silent s t c) (b : State.Silent t u c) :
    State.Silent s u c where
  whole := by rw [b.whole, a.whole]
  other d e := (b.other d e).trans (a.other d e)

theorem State.Silent.modChan (s : State) (c : Chan) (f : ChanState → ChanState) : State.Silent s (s.modChan c f) c :=
  ⟨rfl, fun _ e => State.chan_modChan_ne s e f⟩

theorem State.Silent.raise (s : State) (c : Chan) (n : Notice) : State.Silent s (s.raise n) c := by
  refine ⟨?_, fun _ _ => State.chan_raise s n _⟩
  unfold State.raise; split <;> rfl

theorem State.Silent.quiet (s : State) (c : Chan) : State.Silent s (s.quiet c) c := by
  unfold State.quiet
  split
  · exact (State.Silent.modChan s c _).trans (.raise _ c _)
  · exact .refl s c

theorem State.Silent.setLink (s : State) (c : Chan) (l : LinkState) : State.Silent s (s.setLink c l) c :=
  (State.Silent.modChan s c _).trans (.raise _ c _)

theorem State.Silent.goTo (s : State) (c : Chan) (l : LinkState) : State.Silent s (s.goTo c l) c := by
  unfold State.goTo State.leaveUp
  split
  · have cleared := (State.Silent.modChan s c ChanState.leaveUp).trans (.quiet _ c)
    refine cleared.trans (.trans (t := { (s.modChan c ChanState.leaveUp).quiet c with
      events := ((s.modChan c ChanState.leaveUp).quiet c).events ++
        (Event.channelExit c :: discardReports c (s.chan c).outq) }) ⟨rfl, fun _ _ => rfl⟩ (.setLink _ c l))
  · exact .setLink s c l

theorem State.Silent.countSilence (s : State) (c : Chan) : State.Silent s (s.countSilence c) c := by
  unfold State.countSilence
  dsimp only
  split
  · exact .refl s c
  · exact .refl s c
  · split
    · exact .modChan s c _
    · split
      · exact (State.Silent.modChan s c _).trans (.goTo _ c _)
      · exact .modChan s c _

theorem State.setLink_down (s : State) (c : Chan) :
    State.Noticed s (s.setLink c .down) [Notice.channelState c .down] ∧
      ((s.setLink c .down).chan c).link = .down ∧ ((s.setLink c .down).chan c).silence = 0 := by
  refine ⟨State.Noticed.trans (a := []) (.of_same rfl rfl) (.raise (s.modChan c _) _), ?_⟩
  unfold State.setLink
  rw [State.chan_raise, State.chan_modChan_same]
  exact ⟨rfl, rfl⟩

theorem State.quiet_noticed (s : State) (c : Chan) :
    State.Noticed s (s.quiet c) (if (s.chan c).quietPending then [Notice.censusQuiet c] else []) := by
  unfold State.quiet
  split
  · exact State.Noticed.trans (a := []) (.of_same rfl rfl) (.raise (s.modChan c _) _)
  · exact .refl s

theorem State.goTo_down (s : State) (c : Chan) :
    State.Noticed s (s.goTo c .down) ((if s.isUp c && (s.chan c).quietPending then [Notice.censusQuiet c] else []) ++
      [Notice.channelState c .down]) ∧ ((s.goTo c .down).chan c).link = .down ∧ ((s.goTo c .down).chan c).silence = 0 := by
  unfold State.goTo
  cases up : s.isUp c with
  | false => exact s.setLink_down c
  | true =>
    unfold State.leaveUp
    have quiet := (s.modChan c ChanState.leaveUp).quiet_noticed c
    rw [State.chan_modChan_same] at quiet
    generalize hw : ({ (s.modChan c ChanState.leaveUp).quiet c with
      events := ((s.modChan c ChanState.leaveUp).quiet c).events ++
        (Event.channelExit c :: discardReports c (s.chan c).outq) } : State) = w
    obtain ⟨down, link⟩ := w.setLink_down c
    have before : State.Noticed s w (if (s.chan c).quietPending then [Notice.censusQuiet c] else []) := by
      intro room; rw [← hw]; exact quiet room
    simp only [Bool.true_and, if_true, hw]
    exact ⟨before.trans down, link⟩

/-- What a silence count makes of the link of its channel. -/
def ChanState.SilenceCounted (x y : ChanState) : Prop :=
  match x.link with
  | .down => y.link = .down ∧ y.silence = x.silence
  | .mismatched => y.link = .mismatched ∧ y.silence = x.silence
  | l =>
    (x.cycleSeen = true → y.link = l ∧ y.silence = 0 ∧ y.cycleSeen = false) ∧
    (x.cycleSeen = false → x.silence = 0 → y.link = l ∧ y.silence = 1 ∧ y.cycleSeen = false) ∧
    (x.cycleSeen = false → 1 ≤ x.silence → y.link = .down ∧ y.silence = 0)

/-- The silence count of a link in ALIGNING or UP. -/
theorem State.countSilence_live {s : State} {c : Chan} (live : (∃ k n, (s.chan c).link = .aligning k n) ∨ ∃ n, (s.chan c).link = .up n) :
    ((s.chan c).cycleSeen = true → s.countSilence c = s.modChan c fun y => { y with silence := 0, cycleSeen := false }) ∧
    ((s.chan c).cycleSeen = false → (s.chan c).silence = 0 → s.countSilence c = s.modChan c fun y => { y with silence := 1 }) ∧
    ((s.chan c).cycleSeen = false → 1 ≤ (s.chan c).silence → s.countSilence c =
      (s.modChan c fun y => { y with silence := (s.chan c).silence + 1 }).goTo c .down) := by
  have counted : s.countSilence c = if (s.chan c).cycleSeen then s.modChan c fun y => { y with silence := 0, cycleSeen := false }
      else if 2 ≤ (s.chan c).silence + 1 then (s.modChan c fun y => { y with silence := (s.chan c).silence + 1 }).goTo c .down
      else s.modChan c fun y => { y with silence := (s.chan c).silence + 1 } := by
    unfold State.countSilence
    rcases live with ⟨k, n, link⟩ | ⟨n, link⟩ <;> simp only [link] <;> rfl
  refine ⟨fun seen => ?_, fun unseen zero => ?_, fun unseen one => ?_⟩
  · rw [counted, seen]; rfl
  · rw [counted, unseen, zero]; rfl
  · rw [counted, unseen, if_neg Bool.false_ne_true, if_pos (by omega)]

theorem State.countSilence_still {s : State} {c : Chan} (still : (s.chan c).link = .down ∨ (s.chan c).link = .mismatched) :
    s.countSilence c = s := by
  unfold State.countSilence
  rcases still with link | link <;> simp only [link]

theorem State.countSilence_counted (s : State) (c : Chan) :
    (s.chan c).SilenceCounted ((s.countSilence c).chan c) ∧ State.Noticed s (s.countSilence c) (s.silenceNews c) := by
  have still (k : (s.chan c).link = .down ∨ (s.chan c).link = .mismatched) : State.Noticed s (s.countSilence c) (s.silenceNews c) := by
    rw [State.countSilence_still k, State.silenceNews]
    rcases k with link | link <;> simp only [link, ite_self] <;> exact .refl s
  have live (l : LinkState) (hl : (s.chan c).link = l) (k : (∃ k n, l = .aligning k n) ∨ ∃ n, l = .up n) :
      (((s.chan c).cycleSeen = true → ((s.countSilence c).chan c).link = l ∧ ((s.countSilence c).chan c).silence = 0 ∧
          ((s.countSilence c).chan c).cycleSeen = false) ∧
        ((s.chan c).cycleSeen = false → (s.chan c).silence = 0 → ((s.countSilence c).chan c).link = l ∧
          ((s.countSilence c).chan c).silence = 1 ∧ ((s.countSilence c).chan c).cycleSeen = false) ∧
        ((s.chan c).cycleSeen = false → 1 ≤ (s.chan c).silence → ((s.countSilence c).chan c).link = .down ∧
          ((s.countSilence c).chan c).silence = 0)) ∧ State.Noticed s (s.countSilence c) (s.silenceNews c) := by
    obtain ⟨seen, first, second⟩ := State.countSilence_live (s := s) (c := c) (by rw [hl]; exact k)
    refine ⟨⟨fun e => ?_, fun e zero => ?_, fun e one => ?_⟩, ?_⟩
    · rw [seen e, State.chan_modChan_same]; exact ⟨hl, rfl, rfl⟩
    · rw [first e zero, State.chan_modChan_same]; exact ⟨hl, rfl, e⟩
    · rw [second e one]; exact (State.goTo_down _ c).2
    · unfold State.silenceNews
      by_cases out : (s.chan c).cycleSeen = false ∧ 1 ≤ (s.chan c).silence
      · rw [if_pos out, second out.1 out.2]
        have down := ((s.modChan c fun y => { y with silence := (s.chan c).silence + 1 }).goTo_down c).1
        rw [State.chan_modChan_same, State.isUp, State.chan_modChan_same] at down
        intro room
        have down := down room
        rw [hl]
        rcases k with ⟨k, n, rfl⟩ | ⟨n, rfl⟩
        · simpa [ChanState.isUp, hl] using down
        · simpa [ChanState.isUp, hl] using down
      · rw [if_neg out]
        cases e : (s.chan c).cycleSeen with
        | true => rw [seen e]; exact .of_same rfl rfl
        | false => rw [first e (by simpa [e] using out)]; exact .of_same rfl rfl
  unfold ChanState.SilenceCounted
  cases link : (s.chan c).link with
  | down =>
    refine ⟨?_, still (.inl link)⟩
    rw [State.countSilence_still (.inl link)]; exact ⟨link, rfl⟩
  | mismatched =>
    refine ⟨?_, still (.inr link)⟩
    rw [State.countSilence_still (.inr link)]; exact ⟨link, rfl⟩
  | aligning k n => exact live _ link (.inl ⟨k, n, rfl⟩)
  | up n => exact live _ link (.inr ⟨n, rfl⟩)

/-- The silence counts of the channels of a list, one after the other. -/
theorem State.silences (l : List Chan) (nd : l.Nodup) (s : State) :
    State.Noticed s (l.foldl (fun st c => st.countSilence c) s) (l.flatMap s.silenceNews) ∧
    (∀ c ∈ l, (s.chan c).SilenceCounted ((l.foldl (fun st c => st.countSilence c) s).chan c)) ∧
    (∀ c, c ∉ l → (l.foldl (fun st c => st.countSilence c) s).chan c = s.chan c) ∧
    l.foldl (fun st c => st.countSilence c) s = { s with
      events := (l.foldl (fun st c => st.countSilence c) s).events
      chans := (l.foldl (fun st c => st.countSilence c) s).chans
      notices := (l.foldl (fun st c => st.countSilence c) s).notices
      overflow := (l.foldl (fun st c => st.countSilence c) s).overflow } := by
  induction l generalizing s with
  | nil => exact ⟨.refl s, nofun, fun _ _ => rfl, rfl⟩
  | cons c l ih =>
    obtain ⟨fresh, nd⟩ := List.nodup_cons.1 nd
    obtain ⟨noticed, counted, other, whole⟩ := ih nd (s.countSilence c)
    have silent := State.Silent.countSilence s c
    have ne (d : Chan) (mem : d ∈ l) : d ≠ c := fun e => fresh (e ▸ mem)
    obtain ⟨here, news⟩ := s.countSilence_counted c
    refine ⟨?_, fun d mem => ?_, fun d out => ?_, ?_⟩
    · have same : l.flatMap (s.countSilence c).silenceNews = l.flatMap s.silenceNews :=
        List.flatMap_congr fun d mem => by unfold State.silenceNews; rw [silent.other d (ne d mem)]
      rw [same] at noticed
      exact news.trans noticed
    · by_cases e : d = c
      · subst e; rw [List.foldl_cons, other d fresh]; exact here
      · rw [← silent.other d e]; exact counted d ((List.mem_cons.1 mem).resolve_left e)
    · obtain ⟨e, out⟩ := not_or.1 fun k => out (List.mem_cons.2 k)
      exact (other d out).trans (silent.other d e)
    · rw [List.foldl_cons, whole, silent.whole]

/-! ## A scan expiry -/

theorem exec_scanExpiry {s : State} (run : s.running) : exec .scanExpiry s = .next s.scan :=
  congrArg Host.Outcome.next (State.whenRunning_running run State.scan)

/-- The walk of a scan expiry, its pending list and its links, with the notices of each. -/
theorem State.scan_parts {s W A s' : State} (law : HandleLaw s)
    (walk : W = s.heldHandles.foldl (fun st h => st.scanEntry h) { s with prescaler := 0 }) (aged : A = W.ageWaiting)
    (silent : s' = Chan.all.foldl (fun st c => st.countSilence c) A) :
    State.Noticed s s' (s.registry.flatMap (fun e =>
        (((s.caughtOf s.registry).toList.filter fun r => r.handle == e.handle).map flawNotice) ++ s.scanNews e) ++
      ((s.waiting.filter fun i => decide (s.tree.aHold ≤ i.age + 1)).map fun i => Notice.pendingExpired i.mark) ++
      Chan.all.flatMap s.silenceNews) ∧
    s' = { s with
      events := s'.events
      prescaler := 0
      chans := s'.chans
      registry := W.registry
      retention := W.retention
      fullLatch := W.fullLatch
      firstError := (s.caughtOf s.registry).or s.firstError
      waiting := (s.waiting.map fun i => { i with age := i.age + 1 }).filter fun i => decide (i.age < s.tree.aHold)
      pendingFullLatch := s'.pendingFullLatch
      notices := s'.notices
      overflow := s'.overflow } ∧
    ∀ c, (s.chan c).SilenceCounted (s'.chan c) := by
  have walked : State.Walked { s with prescaler := 0 } W := walk ▸ State.Walked.walk _ s.heldHandles
  obtain ⟨news, first⟩ := State.walk_noticed (s := { s with prescaler := 0 }) law
  rw [show ({ s with prescaler := 0 } : State).heldHandles = s.heldHandles from rfl, ← walk] at news first
  obtain ⟨quiet, counted, -, whole⟩ := A.silences Chan.all (by decide)
  rw [← silent] at quiet counted whole
  have frame : A = _ := aged.trans W.ageWaiting_frame
  have expired := W.ageWaiting_noticed
  have kept (c : Chan) : A.chan c = { s.chan c with
      rangeQ := (W.chan c).rangeQ
      gaps := (W.chan c).gaps
      offer := (W.chan c).offer
      roster := (W.chan c).roster
      tx := (W.chan c).tx
      outq := (W.chan c).outq } := (congrArg (State.chan · c) frame).trans (walked.chan c)
  have same : Chan.all.flatMap A.silenceNews = Chan.all.flatMap s.silenceNews :=
    List.flatMap_congr fun c _ => by unfold State.silenceNews; rw [kept c]
  rw [← aged, walked.waiting, walked.tree] at expired
  rw [same] at quiet
  refine ⟨?_, ?_, fun c => ?_⟩
  · exact (State.Noticed.trans (a := []) (.of_same rfl rfl) news).trans expired |>.trans quiet
  · rw [whole, frame, first, walked.waiting, walked.tree, walked.whole]
    rfl
  · have here := counted c (by cases c <;> decide)
    rw [kept c] at here
    exact here

end Sys2Proof.Machine
end

section
/-! The owed kinds a scan offers (R139), and the scan expiry as a whole. -/

namespace Sys2Proof.Machine

/-- What R139 composes for an owed kind. -/
theorem composeOwed_spec {h : Handle} {t : Terminal} {k : MsgKind} {m : TreeMsg} (composed : match (generalizing := false) k with
      | .hush => m = .hush h
      | .dismiss => m = .dismiss h
      | .enrol => m = .enrol h t.mark
      | .setDelay => ∃ d, t.phase.fill = some d ∧ m = .setDelay h d
      | .resume => m = .resume h
      | .trimDelay => ∃ ch, t.owed.trim = some ch ∧ m = .trimDelay h ch
      | .retune => ∃ fix target, t.phase = .retuning fix target ∧ m = .retune h target) :
    composeOwed h t k = some m ∧ m.kind = k ∧ m.handle = h := by
  cases k with
  | setDelay => obtain ⟨d, fill, rfl⟩ := composed; simp [composeOwed, fill, TreeMsg.kind, TreeMsg.handle]
  | trimDelay => obtain ⟨ch, trim, rfl⟩ := composed; simp [composeOwed, trim, TreeMsg.kind, TreeMsg.handle]
  | retune => obtain ⟨fix, target, phase, rfl⟩ := composed; simp [composeOwed, phase, TreeMsg.kind, TreeMsg.handle]
  | _ => obtain rfl := composed; exact ⟨rfl, rfl, rfl⟩

section
variable {s : State} {h : Handle} {t : Terminal} {k : MsgKind} {m : TreeMsg} {q : List QMsg}

theorem State.offerOwed_eq (ht : s.term h = some t) (composed : composeOwed h t k = some m) : s.offerOwed h k =
    if (s.offerMsg t.home m).2 then (s.offerMsg t.home m).1.modTerm h fun u => { u with owed := u.owed.remove k }
    else (s.offerMsg t.home m).1 := by
  simp only [State.offerOwed, ht, composed]

theorem State.offerOwed_taken (ht : s.term h = some t) (composed : composeOwed h t k = some m) (up : s.isUp t.home = true)
    (join : joinRegistry s.tree.r m (s.chan t.home).outq = ⟨q, true, none⟩) : s.offerOwed h k =
      (s.modTerm h fun u => { u with owed := u.owed.remove k }).modChan t.home fun y => { y with outq := q } := by
  rw [State.offerOwed_eq ht composed, State.offerMsg_of_join up join]; rfl

theorem State.offerOwed_refused (ht : s.term h = some t) (composed : composeOwed h t k = some m) (up : s.isUp t.home = true)
    (join : joinRegistry s.tree.r m (s.chan t.home).outq = ⟨q, false, none⟩) : s.offerOwed h k =
      s.modChan t.home fun y => { y with outq := q } := by
  rw [State.offerOwed_eq ht composed, State.offerMsg_of_join up join]; rfl

theorem State.offerOwed_evicts {v : QMsg} (ht : s.term h = some t) (composed : composeOwed h t k = some m)
    (up : s.isUp t.home = true) (join : joinRegistry s.tree.r m (s.chan t.home).outq = ⟨q, true, some v⟩) :
    s.offerOwed h k = ((s.modChan t.home fun y => { y with outq := q }).takeReport .evicted t.home v.msg.kind
      v.msg.handle).modTerm h fun u => { u with owed := u.owed.remove k } := by
  rw [State.offerOwed_eq ht composed, State.offerMsg_of_evict up join]; rfl

end

/-- The owed set and its kinds. -/
theorem owed_has_remove (o : Owed) (k : MsgKind) : o.has k = (match k with
      | .enrol => o.enrol
      | .setDelay => o.setDelay
      | .trimDelay => o.trim.isSome
      | .hush => o.hush
      | .resume => o.resume
      | .retune => o.retune
      | .dismiss => o.dismiss) ∧
    o.remove k = match k with
      | .enrol => { o with enrol := false }
      | .setDelay => { o with setDelay := false }
      | .trimDelay => { o with trim := none }
      | .hush => { o with hush := false }
      | .resume => { o with resume := false }
      | .retune => { o with retune := false }
      | .dismiss => { o with dismiss := false } := by
  cases k <;> exact ⟨rfl, rfl⟩

theorem State.owedStep_eq {s : State} {h : Handle} {t : Terminal} (ht : s.term h = some t) : s.owedStep h =
    if s.isUp t.home then (owedOrder.filter fun k => t.owed.has k).foldl (fun st k => st.offerOwed h k) s else s := by
  simp only [State.owedStep, ht]

/-- What a scan leaves of an entry that takes its steps, by the state step. -/
theorem State.scan_entry {s s' : State} {h : Handle} {t : Terminal}
    (freed : s.stepped t = none → s'.entry h = none ∧ h ∉ s'.retention)
    (kept : ∀ u, s.stepped t = some u → ∃ o, s'.sound h { u with heard := false, owed := o })
    (lost : s.stepNotices h t = [Notice.lost h t.home t.mark] → h ∈ s'.retention) : ∃ o : Owed,
      match (generalizing := false) t.phase with
      | .active fix d missed =>
        (s.isUp t.home = false → s'.sound h { t with heard := false, owed := o }) ∧
        (s.isUp t.home = true → t.heard = true →
          s'.sound h { t with heard := false, owed := o, phase := .active fix d 0 }) ∧
        (s.isUp t.home = true → t.heard = false → missed + 1 < s.tree.mLost →
          s'.sound h { t with heard := false, owed := o, phase := .active fix d (missed + 1) }) ∧
        (s.isUp t.home = true → t.heard = false → s.tree.mLost ≤ missed + 1 →
          s'.sound h { t with
            heard := false, owed := o, moveFlag := false, phase := .lost (some fix.final) 0 false } ∧
          h ∈ s'.retention)
      | .lost f age sent =>
        (age < s.tree.retention →
          s'.sound h { t with heard := false, owed := o, phase := .lost f (age + 1) sent }) ∧
        (s.tree.retention ≤ age → s'.entry h = none ∧ h ∉ s'.retention)
      | .dismissing sent due =>
        (sent = true ∨ due = true ∨ s.isUp t.home = false → s'.entry h = none) ∧
        (sent = false → due = false → s.isUp t.home = true →
          s'.sound h { t with heard := false, owed := o })
      | _ => s'.sound h { t with heard := false, owed := o } := by
  obtain ⟨o, sound⟩ : ∃ o, ∀ u, s.stepped t = some u → s'.sound h { u with heard := false, owed := o } := by
    cases stepped : s.stepped t with
    | none => exact ⟨t.owed, fun u e => (Option.some_ne_none u e.symm).elim⟩
    | some u =>
      obtain ⟨o, sound⟩ := kept u stepped
      refine ⟨o, fun v e => ?_⟩
      obtain rfl := Option.some.inj e
      exact sound
  refine ⟨o, ?_⟩
  cases phase : t.phase with
  | active fix d missed =>
    refine ⟨fun down => ?_, fun up heard => ?_, fun up heard few => ?_, fun up heard most => ⟨?_, lost ?_⟩⟩
    · rw [← phase]; exact sound t (by simp [State.stepped, phase, down])
    · exact sound _ (by simp only [State.stepped, phase, up, heard, if_true]; rfl)
    · exact sound _ (by simp only [State.stepped, phase, up, heard, Nat.not_le.2 few, if_true, if_false, Bool.false_eq_true]; rfl)
    · exact sound _ (by simp only [State.stepped, phase, up, heard, most, if_true, if_false, Bool.false_eq_true]; rfl)
    · simp [State.stepNotices, phase, up, heard, most, Notice.lost]
  | lost f age sent =>
    refine ⟨fun young => ?_, fun old => freed ?_⟩
    · exact sound _ (by simp only [State.stepped, phase, young, if_true]; rfl)
    · simp [State.stepped, phase, Nat.not_lt.2 old]
  | dismissing sent due =>
    refine ⟨fun gone => (freed ?_).1, fun unsent soon up => ?_⟩
    · rcases gone with gone | gone | gone <;> simp [State.stepped, phase, gone]
    · rw [← phase]; exact sound t (by simp [State.stepped, phase, unsent, soon, up])
  | _ => dsimp only; rw [← phase]; exact sound t (by simp [State.stepped, phase])

/-- Settles O59: the walk entry by entry, then the pending list and the links, and the notices of each in turn. -/
theorem scanExpiryWalksTheRegistry : Obligations.ScanExpiryWalksTheRegistry := by
  refine ⟨?_, owed_has_remove, ?_⟩
  · intro s caught new run law hcaught hnew
    obtain ⟨W, walk⟩ : ∃ W, W = s.heldHandles.foldl (fun st h => st.scanEntry h) { s with prescaler := 0 } := ⟨_, rfl⟩
    obtain ⟨s', scan⟩ : ∃ s', s' = Chan.all.foldl (fun st c => st.countSilence c) W.ageWaiting := ⟨_, rfl⟩
    obtain ⟨noticed, whole, counted⟩ := State.scan_parts law walk rfl scan
    obtain rfl : caught = s.caughtOf s.registry := hcaught
    have news : new = s.registry.flatMap (fun e =>
        (((s.caughtOf s.registry).toList.filter fun r => r.handle == e.handle).map flawNotice) ++ s.scanNews e) ++
      ((s.waiting.filter fun i => decide (s.tree.aHold ≤ i.age + 1)).map fun i => Notice.pendingExpired i.mark) ++
      Chan.all.flatMap s.silenceNews := by
      rw [hnew]
      refine congrArg (· ++ _ ++ _) (List.flatMap_congr fun e _ => congrArg (· ++ _) (List.map_congr_left fun r mem => ?_))
      obtain ⟨-, at_⟩ := List.mem_filter.1 mem
      rcases r with ⟨kind, handle⟩
      obtain rfl : handle = e.handle := by simpa using at_
      cases kind <;> rfl
    rw [← news] at noticed
    have entry (h : Handle) : s'.entry h = W.entry h := by rw [whole]; rfl
    have retention : s'.retention = W.retention := by rw [whole]
    have walked (h : Handle) := State.walk_entry (s := { s with prescaler := 0 }) law walk h
    refine ⟨s', ?_, by rw [whole], ?_, noticed, by rw [whole], by rw [whole], by rw [whole], ?_, fun h absent => ?_,
      fun h t he => ?_, fun h t flaw he sound => ?_, counted⟩
    · rw [exec_scanExpiry run, scan, walk]; rfl
    · rw [scan, walk]; rfl
    · rw [whole]
      dsimp only
      cases s.caughtOf s.registry <;> rfl
    · rw [entry]; exact (walked h).1 absent
    · rw [entry, retention]; exact ((walked h).2 t _ he).1 rfl
    · obtain ⟨freed, kept, lost⟩ := ((walked h).2 t flaw he).2 sound
      refine State.scan_entry (s := s) (by rw [entry, retention]; exact freed) (fun u stepped => ?_)
        (by rw [retention]; exact lost)
      obtain ⟨o, after⟩ := kept u stepped
      exact ⟨o, (entry h).trans after⟩
  · intro s h t ht
    refine ⟨fun down => ?_, fun up => ?_, fun k m q n up composed hq hn => ?_⟩
    · rw [State.owedStep_eq ht, down]; rfl
    · rw [State.owedStep_eq ht, up]; rfl
    · obtain ⟨composed, kind, handle⟩ := composeOwed_spec composed
      have dropped : q = dropSuperseded m (s.chan t.home).outq := by
        rw [hq, dropSuperseded, kind, handle]
      have msg : registryMsg s.tree.r m = n := by rw [hn, registryMsg, kind]
      refine ⟨fun stands => ?_, fun fresh => ⟨fun room => ?_, fun full no => ?_, fun a v b full urgent eq normal rest => ?_⟩⟩
      · have join := joinRegistry_replaces (r := s.tree.r) dropped (by rw [kind, handle]; exact stands)
        rw [kind, handle, msg] at join
        exact State.offerOwed_taken ht composed up join
      all_goals
        have join := joinRegistry_eq_joinTail (r := s.tree.r) dropped (by rw [kind, handle]; exact fresh)
        rw [msg] at join
      · exact State.offerOwed_taken ht composed up (join.trans (joinTail_room room))
      · exact State.offerOwed_refused ht composed up (join.trans (joinTail_full full (by rw [hn]; exact no)))
      · exact State.offerOwed_evicts ht composed up (join.trans (joinTail_evicts full (by rw [hn]; exact urgent) eq normal rest))

end Sys2Proof.Machine
end

section
/-! The keep-tree restart (R39, Table 2-9): with every link DOWN and every queue empty, the step at one entry changes that
entry, the record and the notices alone. -/

namespace Sys2Proof.Machine

/-! ## Channels that hold nothing -/

/-- A channel whose link is DOWN, with no range work, roster or message. -/
structure ChanState.Idle (x : ChanState) : Prop where
  link : x.link = .down
  rangeQ : x.rangeQ = []
  gaps : x.gaps = []
  offer : x.offer = none
  roster : x.roster = []
  outq : x.outq = []

theorem ChanState.Idle.restarted (x : ChanState) : x.restarted.Idle := ⟨rfl, rfl, rfl, rfl, rfl, rfl⟩

/-- Void events, roster events and the removal of messages find nothing on such a channel. -/
theorem ChanState.Idle.voidFor {x : ChanState} (idle : x.Idle) (h : Handle) : { x.voidFor h with outq := [] } = x := by
  obtain ⟨-, rangeQ, gaps, offer, -, outq⟩ := idle
  cases x
  dsimp only at rangeQ gaps offer outq
  subst rangeQ gaps offer outq
  rfl

theorem ChanState.Idle.leaveRoster {x : ChanState} (idle : x.Idle) (h : Handle) : x.leaveRoster h = x := by
  obtain ⟨-, -, -, -, roster, -⟩ := idle
  cases x
  dsimp only at roster
  subst roster
  rfl

theorem PerChan.map_eq_self {α : Type} {q : PerChan α} {f : α → α} (same : ∀ c, f (q.get c) = q.get c) : q.map f = q := by
  cases q
  exact PerChan.mk.injEq .. ▸ ⟨same .c0, same .c1, same .c2, same .c3⟩

/-- Every channel holds nothing. -/
def State.Quiescent (s : State) : Prop := ∀ c, (s.chan c).Idle

theorem State.Quiescent.isUp {s : State} (q : s.Quiescent) (c : Chan) : s.isUp c = false :=
  State.isUp_eq_false fun n => by rw [(q c).link]; nofun

theorem State.Quiescent.of_chans {s t : State} (q : s.Quiescent) (chans : t.chans = s.chans) : t.Quiescent :=
  fun c => by rw [State.chan_congr chans c]; exact q c

section
variable {s : State} (q : s.Quiescent) (h : Handle)
include q

theorem State.Quiescent.freeEntry : s.freeEntry h false = { s with
    registry := s.registry.filter fun e => !(e.handle == h)
    retention := s.retention.filter fun x => !(x == h)
    fullLatch := false } := by
  have chans : (s.chans.map fun x => { x.voidFor h with outq := removeAllButDismiss h x.outq }) = s.chans :=
    PerChan.map_eq_self fun c => by
      show { (s.chan c).voidFor h with outq := removeAllButDismiss h (s.chan c).outq } = s.chan c
      rw [(q c).outq]; exact (q c).voidFor h
  rw [State.freeEntry_false, chans]

theorem State.Quiescent.damageBase : s.damageBase h = { s with
    registry := s.registry.map fun x => if x.handle = h then ⟨h, .sound, none⟩ else x
    retention := s.retention.filter fun x => !(x == h) } := by
  have chans : (s.chans.map fun x => ({ x.voidFor h with outq := removeAll h x.outq } : ChanState).leaveRoster h) = s.chans :=
    PerChan.map_eq_self fun c => by
      show ({ (s.chan c).voidFor h with outq := removeAll h (s.chan c).outq } : ChanState).leaveRoster h = s.chan c
      rw [(q c).outq]
      exact (congrArg (ChanState.leaveRoster · h) ((q c).voidFor h)).trans ((q c).leaveRoster h)
  unfold State.damageBase
  rw [chans]

theorem State.Quiescent.dismissEverywhere : s.dismissEverywhere h = s := by
  have one (c : Chan) : s.dismissDamaged h c = s := by
    rw [State.dismissDamaged, State.offerMsg_of_down _ (q.isUp c)]
  simp only [State.dismissEverywhere, Chan.all, List.foldl_cons, List.foldl_nil, one]

theorem State.Quiescent.damage : s.damage h = ({ s with
    registry := s.registry.map fun x => if x.handle = h then ⟨h, .sound, none⟩ else x
    retention := s.retention.filter fun x => !(x == h) } : State).offerFlaw .uncorrectable h := by
  have base : (s.damageBase h).Quiescent := by rw [q.damageBase]; exact q
  rw [State.damage_eq, base.dismissEverywhere, q.damageBase]

theorem State.Quiescent.enterLost (order : s.inOrder) {t : Terminal} (ht : s.term h = some t) :
    s.enterLost h = ({ s with retention := s.retention ++ [h] } : State).modTerm h fun u => { u with
      moveFlag := false, owed := { Owed.none with dismiss := true }, phase := .lost t.phase.final 0 false } := by
  obtain ⟨b, hb⟩ : ∃ b : State, b = { s with retention := s.retention ++ [h] } := ⟨_, rfl⟩
  have out : s.rosterLeave t.home h = s := by rw [State.rosterLeave, if_neg (by rw [(q t.home).roster]; nofun)]
  have entering : s.enterLost h = (b.modTerm h fun u => { u with
      moveFlag := false, phase := .lost t.phase.final 0 false }).queueFor h (.dismiss h) := by
    rw [State.enterLost_eq ht, out, hb]; rfl
  have found : b.term h = some t := by rw [hb]; exact ht
  have entered := State.term_modTerm_same b h fun u => { u with moveFlag := false, phase := .lost t.phase.final 0 false }
  rw [found, Option.map_some] at entered
  have inOrder : b.inOrder := by rw [hb]; exact order
  have down : b.isUp t.home = false := by rw [hb]; exact q.isUp t.home
  rw [entering, State.queueFor_down (State.inOrder_modTerm inOrder _ _) entered down,
    State.refusedOwes_of_phase (t := { t with moveFlag := false, phase := .lost t.phase.final 0 false }) _ _ rfl,
    State.modTerm_modTerm, hb]
  rfl

theorem State.Quiescent.readEntry : (s.readEntry h).chans = s.chans ∧ ∀ k, k ≠ h → (s.readEntry h).entry k = s.entry k := by
  have repaired (e : Entry) (he : s.entry h = some e) (k : Handle) (ne : k ≠ h) :
      (s.setEntry h { e with flaw := .sound }).entry k = s.entry k :=
    (State.entry_setEntry s h k { e with flaw := .sound } (State.entry_handle (e := e) he)).trans (if_neg ne)
  have damaged : (s.damage h).chans = s.chans ∧ ∀ k, k ≠ h → (s.damage h).entry k = s.entry k := by
    rw [q.damage, State.chans_offerFlaw]
    refine ⟨rfl, fun k ne => (State.entry_congr (State.offerFlaw_registry _ _ h) k).trans ?_⟩
    rw [← q.damageBase, State.damageBase_entry, if_neg ne]
  exact State.readEntry_by (P := fun t => t.chans = s.chans ∧ ∀ k, k ≠ h → t.entry k = s.entry k)
    ⟨rfl, fun _ _ => rfl⟩ (fun e he => ⟨rfl, repaired e he⟩)
    (fun e he => ⟨State.chans_offerFlaw _ _ h, fun k ne =>
      (State.entry_congr (State.offerFlaw_registry _ _ h) k).trans (repaired e he k ne)⟩) damaged

end

theorem State.retention_readEntry_eq {s : State} {e : Entry} (he : s.entry e.handle = some e) :
    (s.readEntry e.handle).retention = if e.term.isSome = true ∧ e.flaw = .uncorrectable
      then s.retention.filter fun x => !(x == e.handle) else s.retention := by
  rcases e with ⟨h, flaw, _ | t⟩
  · rw [State.readEntry_term_none (by rw [State.term, he]; rfl)]; rfl
  · rw [State.readEntry_eq he]
    cases flaw with
    | sound => rfl
    | correctable =>
      dsimp only
      split
      · exact State.offerFlaw_retention _ _ h
      · rfl
    | uncorrectable => exact State.damage_retention s h

/-! ## What a keep-tree restart makes of an entry (Table 2-9) -/

/-- The fields of an entry after a keep-tree restart, none for one that it frees. -/
def Terminal.keepTree (evs : List Event) (h : Handle) (t : Terminal) : Option Terminal :=
  match t.phase with
  | .dismissing .. => none
  | .retuning fix _ => some { t with
      heard := false, moveFlag := false, owed := { Owed.none with dismiss := true }, phase := .lost (some fix.final) 0 false }
  | _ => some (t.restarted evs h)

/-- An entry after a keep-tree restart. -/
def Entry.keepTree (evs : List Event) (e : Entry) : Option Entry :=
  match e.term with
  | none => some e
  | some t => if e.flaw = .uncorrectable then some ⟨e.handle, .sound, none⟩
    else (t.keepTree evs e.handle).map fun u => ⟨e.handle, .sound, some u⟩

/-- The entry leaves the retention list. -/
def Entry.leaves (e : Entry) : Bool := e.term.any fun t => e.flaw == .uncorrectable || t.phase.isDismissing

/-- The entry joins the end of the retention list. -/
def Entry.joins (e : Entry) : Option Handle :=
  e.term.bind fun t => match t.phase with
    | .retuning .. => if e.flaw = .uncorrectable then none else some e.handle
    | _ => none

/-- What the step at one entry does. -/
structure State.Restart (evs : List Event) (w v : State) (e : Entry) : Prop where
  chans : v.chans = w.chans
  entry : v.entry e.handle = e.keepTree evs
  others : ∀ k, k ≠ e.handle → v.entry k = w.entry k
  retention : v.retention = w.retention.filter (fun x => !(x == e.handle && e.leaves)) ++ e.joins.toList
  noticed : State.Noticed w v ((w.caughtOf [e]).toList.map flawNotice)
  firstError : v.firstError = (w.caughtOf [e]).or w.firstError

/-- The step at an entry that the read left sound changes that entry and the retention list. -/
theorem State.restartEntry_sound {w r : State} {h : Handle} {t : Terminal} (evs : List Event) (read : w.readEntry h = r)
    (q : r.Quiescent) (order : r.inOrder) (he : r.entry h = some ⟨h, .sound, some t⟩) :
    (w.restartEntry evs h).chans = r.chans ∧
    (w.restartEntry evs h).entry h = (t.keepTree evs h).map (fun u => ⟨h, .sound, some u⟩) ∧
    (∀ k, k ≠ h → (w.restartEntry evs h).entry k = r.entry k) ∧
    (w.restartEntry evs h).retention = r.retention.filter (fun x => !(x == h && t.phase.isDismissing)) ++
      (Entry.joins ⟨h, .sound, some t⟩).toList ∧
    (w.restartEntry evs h).notices = r.notices ∧ (w.restartEntry evs h).overflow = r.overflow ∧
    (w.restartEntry evs h).firstError = r.firstError := by
  have ht : r.term h = some t := State.term_of_sound he
  have all : r.retention.filter (fun x => !(x == h && false)) = r.retention := by simp
  have kept (restarts : w.restartEntry evs h = r.modTerm h fun u => u.restarted evs h)
      (keep : t.keepTree evs h = some (t.restarted evs h)) : (w.restartEntry evs h).chans = r.chans ∧
      (w.restartEntry evs h).entry h = (t.keepTree evs h).map (fun u => ⟨h, .sound, some u⟩) ∧
      (∀ k, k ≠ h → (w.restartEntry evs h).entry k = r.entry k) ∧ (w.restartEntry evs h).retention = r.retention ∧
      (w.restartEntry evs h).notices = r.notices ∧ (w.restartEntry evs h).overflow = r.overflow ∧
      (w.restartEntry evs h).firstError = r.firstError := by
    rw [restarts, keep]
    exact ⟨rfl, State.entry_modTerm_own he _, fun k ne => State.entry_modTerm_ne r ne _, rfl, rfl, rfl, rfl⟩
  cases phase : t.phase with
  | dismissing sent due =>
    have frees : w.restartEntry evs h = r.freeEntry h false := by
      simp only [State.restartEntry, read, ht, phase]
    have keep : t.keepTree evs h = none := by rw [Terminal.keepTree, phase]
    have joins : Entry.joins ⟨h, .sound, some t⟩ = none := by simp only [Entry.joins, Option.bind_some, phase]
    rw [frees, keep, joins]
    refine ⟨by rw [q.freeEntry], by rw [State.entry_freeEntry, if_pos rfl]; rfl,
      fun k ne => by rw [State.entry_freeEntry, if_neg ne], ?_, by rw [q.freeEntry], by rw [q.freeEntry], by rw [q.freeEntry]⟩
    rw [State.freeEntry_retention]
    simp [Phase.isDismissing]
  | retuning fix target =>
    have enters : w.restartEntry evs h = (r.modTerm h fun u => { u with heard := false }).enterLost h := by
      simp only [State.restartEntry, read, ht, phase]
    have keep : t.keepTree evs h = some { t with
        heard := false, moveFlag := false, owed := { Owed.none with dismiss := true }, phase := .lost (some fix.final) 0 false } := by
      rw [Terminal.keepTree, phase]
    have joins : Entry.joins ⟨h, .sound, some t⟩ = some h := by simp only [Entry.joins, Option.bind_some, phase]; rfl
    have quiet : (r.modTerm h fun u => { u with heard := false }).Quiescent := q
    have found := State.entry_modTerm_own he fun u => { u with heard := false }
    have enters := enters.trans (quiet.enterLost h (State.inOrder_modTerm order _ _) (State.term_of_sound found))
    rw [enters, keep, joins]
    refine ⟨rfl, ?_, fun k ne => ?_, ?_, rfl, rfl, rfl⟩
    · refine (State.entry_modTerm_own (s := { r.modTerm h fun u => { u with heard := false } with
        retention := r.retention ++ [h] }) found _).trans ?_
      simp [Phase.final, phase]
    · exact (State.entry_modTerm_ne _ ne _).trans (State.entry_modTerm_ne r ne _)
    · show r.retention ++ [h] = r.retention.filter (fun x => !(x == h && false)) ++ [h]
      rw [all]
  | _ =>
    obtain ⟨chans, entry, others, retention, rest⟩ := kept (by simp only [State.restartEntry, read, ht, phase])
      (by rw [Terminal.keepTree, phase])
    have joins : Entry.joins ⟨h, .sound, some t⟩ = none := by simp only [Entry.joins, Option.bind_some, phase]
    refine ⟨chans, entry, others, ?_, rest⟩
    rw [retention, joins]
    exact (List.append_nil _).trans all |>.symm

theorem State.restartEntry_step {w : State} (q : w.Quiescent) (order : w.inOrder) (evs : List Event) {e : Entry}
    (he : w.entry e.handle = some e) : State.Restart evs w (w.restartEntry evs e.handle) e := by
  obtain ⟨noticed, firstError⟩ := State.readEntry_noticed he
  obtain ⟨chans, others⟩ := q.readEntry e.handle
  have retention := State.retention_readEntry_eq he
  have all : w.retention = w.retention.filter fun x => !(x == e.handle && false) := by simp
  by_cases sound : e.term.isSome = true ∧ e.flaw ≠ .uncorrectable
  · rcases e with ⟨h, flaw, _ | t⟩
    · exact absurd sound.1 Bool.false_ne_true
    have good : flaw ≠ .uncorrectable := sound.2
    have read := State.entry_readEntry he
    rw [if_neg good] at read
    obtain ⟨chans', entry, others', retention', notices, overflow, first⟩ :=
      State.restartEntry_sound evs rfl (q.of_chans chans) (State.inOrder_readEntry order h) read
    have leaves : Entry.leaves ⟨h, flaw, some t⟩ = t.phase.isDismissing := by simp [Entry.leaves, good]
    have joins : Entry.joins ⟨h, flaw, some t⟩ = Entry.joins ⟨h, .sound, some t⟩ := by simp [Entry.joins, good]
    refine ⟨chans'.trans chans, entry.trans ?_, fun k ne => (others' k ne).trans (others k ne), ?_, ?_, first.trans firstError⟩
    · simp [Entry.keepTree, good]
    · rw [retention', retention, if_neg fun k => good k.2, leaves, joins]
    · have after := noticed.trans (State.Noticed.of_same notices overflow)
      rwa [List.append_nil] at after
  · have gone : (w.readEntry e.handle).term e.handle = none := by
      rcases e with ⟨h, flaw, _ | t⟩
      · rw [State.readEntry_term_none] <;> rw [State.term, he] <;> rfl
      · rw [State.term, State.entry_readEntry he, if_pos (by simpa using sound)]; rfl
    have stays : w.restartEntry evs e.handle = w.readEntry e.handle := by simp only [State.restartEntry, gone]
    rw [stays]
    refine ⟨chans, ?_, others, retention.trans ?_, noticed, firstError⟩
    · rcases e with ⟨h, flaw, _ | t⟩
      · rw [State.readEntry_term_none (by rw [State.term, he]; rfl)]; exact he
      · have bad : flaw = .uncorrectable := by simpa using sound
        rw [State.entry_readEntry he, if_pos bad]; exact (if_pos bad).symm
    · rcases e with ⟨h, flaw, _ | t⟩
      · simp [Entry.leaves, Entry.joins]
      · have bad : flaw = .uncorrectable := by simpa using sound
        cases phase : t.phase <;> simp [Entry.leaves, Entry.joins, bad, phase]

end Sys2Proof.Machine
end

section
/-! The keep-tree restart (R39): the walk over the registry, the range requests rebuilt, and the two statements. -/

namespace Sys2Proof.Machine

theorem State.Walked.restartEntry (s : State) (evs : List Event) (h : Handle) : State.Walked s (s.restartEntry evs h) := by
  have read := State.Walked.readEntry s h
  unfold State.restartEntry
  dsimp only
  split
  · exact read
  · split
    · exact read.trans (.freeEntry _ h false)
    · exact read.trans ((State.Walked.modTerm _ h _).trans (.enterLost _ h))
    · exact read.trans (.modTerm _ h _)

theorem State.fullLatch_enterLost (s : State) (h : Handle) : (s.enterLost h).fullLatch = s.fullLatch := by
  cases ht : s.term h with
  | none => rw [State.enterLost_absent ht]
  | some t =>
    rw [State.enterLost_eq ht, (State.Told.queueFor _ h _).whole, State.rosterLeave_modChan]
    rfl

theorem State.fullLatch_restartEntry {s : State} (clear : s.fullLatch = false) (evs : List Event) (h : Handle) :
    (s.restartEntry evs h).fullLatch = false := by
  have read := (State.fullLatch_readEntry s h).trans clear
  unfold State.restartEntry
  dsimp only
  split
  · exact read
  · split
    · rfl
    · exact (State.fullLatch_enterLost _ h).trans read
    · exact read

/-- What the walk over a part of the registry does. -/
structure State.Restarted (evs : List Event) (w v : State) (l : List Entry) : Prop where
  walked : State.Walked w v
  chans : v.chans = w.chans
  inside : ∀ e ∈ l, v.entry e.handle = e.keepTree evs
  outside : ∀ k, k ∉ l.map Entry.handle → v.entry k = w.entry k
  retention : v.retention = w.retention.filter (fun h => !(l.any fun e => e.handle == h && e.leaves)) ++ l.filterMap Entry.joins
  noticed : State.Noticed w v ((w.caughtOf l).toList.map flawNotice)
  firstError : v.firstError = (w.caughtOf l).or w.firstError
  fullLatch : w.fullLatch = false → v.fullLatch = false

theorem Entry.joins_handle {e : Entry} {h : Handle} (joins : e.joins = some h) : h = e.handle := by
  unfold Entry.joins at joins
  obtain ⟨t, -, joins⟩ := Option.bind_eq_some_iff.1 joins
  split at joins
  · split at joins
    · cases joins
    · exact (Option.some.inj joins).symm
  · cases joins

/-- The flaws that the record takes of an entry and then, in what that leaves, of the rest. -/
theorem State.caughtOf_step {w v : State} {e : Entry} (walked : State.Walked w v)
    (first : v.firstError = (w.caughtOf [e]).or w.firstError) (l : List Entry) :
    (w.caughtOf [e]).toList ++ (v.caughtOf l).toList = (w.caughtOf (e :: l)).toList ∧
      (v.caughtOf l).or v.firstError = (w.caughtOf (e :: l)).or w.firstError := by
  rw [w.caughtOf_cons e l]
  cases found : w.caughtOf [e] with
  | some r =>
    rw [found] at first
    have rest : v.caughtOf l = none := if_neg (by rw [first]; nofun)
    rw [rest, first]
    exact ⟨rfl, rfl⟩
  | none =>
    rw [found] at first
    have same : v.caughtOf l = w.caughtOf l := by unfold State.caughtOf; rw [walked.tree, first]; rfl
    rw [same, first]
    exact ⟨rfl, rfl⟩

theorem State.restart_walk (evs : List Event) (l : List Entry) : ∀ w : State, w.Quiescent → HandleLaw w →
    (∀ e ∈ l, w.entry e.handle = some e) → (l.map Entry.handle).Nodup →
    State.Restarted evs w ((l.map Entry.handle).foldl (fun st h => st.restartEntry evs h) w) l := by
  induction l with
  | nil =>
    intro w _ _ _ _
    have no : w.caughtOf [] = none := ite_self (none : Option FirstError)
    exact ⟨.refl w, rfl, fun e mem => absurd mem List.not_mem_nil, fun _ _ => rfl, by simp, by rw [no]; exact .refl w, by rw [no]; rfl, id⟩
  | cons e l ih =>
    intro w q law own nd
    obtain ⟨fresh, nd⟩ := List.nodup_cons.1 nd
    obtain ⟨he, own⟩ := List.forall_mem_cons.1 own
    have step := State.restartEntry_step q law.1 evs he
    have walked := State.Walked.restartEntry w evs e.handle
    have ne (e' : Entry) (mem : e' ∈ l) : e'.handle ≠ e.handle := fun k => fresh (k ▸ List.mem_map_of_mem mem)
    have rest := ih (w.restartEntry evs e.handle) (q.of_chans step.chans)
      ((micros_restartEntry w evs e.handle).keeps_handleLaw law)
      (fun e' mem => (step.others _ (ne e' mem)).trans (own e' mem)) nd
    obtain ⟨caught, first⟩ := State.caughtOf_step walked step.firstError l
    refine ⟨walked.trans rest.walked, rest.chans.trans step.chans, fun e' mem => ?_, fun k out => ?_, ?_, ?_, ?_,
      fun clear => rest.fullLatch (State.fullLatch_restartEntry clear evs _)⟩
    · rcases List.mem_cons.1 mem with rfl | mem
      · exact (rest.outside _ fresh).trans step.entry
      · exact rest.inside e' mem
    · obtain ⟨ne, out⟩ := not_or.1 fun m => out (List.mem_cons.2 m)
      exact (rest.outside k out).trans (step.others k ne)
    · rw [List.map_cons, List.foldl_cons, rest.retention, step.retention, List.filter_append, List.filter_filter]
      have kept : e.joins.toList.filter (fun h => !(l.any fun e => e.handle == h && e.leaves)) = e.joins.toList := by
        refine List.filter_eq_self.2 fun h mem => ?_
        obtain rfl := Entry.joins_handle (Option.mem_toList.1 mem)
        simpa using fun e' mem same => absurd same (ne e' mem)
      rw [kept, List.append_assoc]
      congr 1
      · refine List.filter_congr fun h _ => ?_
        rw [List.any_cons, Bool.not_or, Bool.and_comm, show (h == e.handle) = (e.handle == h) from Bool.beq_comm]
      · cases joins : e.joins <;> simp [joins]
    · rw [← caught, List.map_append]; exact step.noticed.trans rest.noticed
    · exact rest.firstError.trans first

/-! ## The restart as a whole -/

/-- The state that the walk of a keep-tree restart starts from, once the waiting events are taken. -/
def State.restartBase (taken : State) (source : Nat) : State :=
  { taken with
    chans := taken.chans.map ChanState.restarted
    prescaler := 0
    fullLatch := false
    waiting := []
    pendingFullLatch := false
    notices := [Notice.restarted source]
    overflow := false
    port := { txn := .idle, armed := none } }

theorem State.restartBase_quiescent (taken : State) (source : Nat) : (taken.restartBase source).Quiescent := by
  intro c
  cases c <;> exact .restarted _

theorem State.keepTreeRestart_eq (s : State) (source : Nat) : s.keepTreeRestart source =
    ((s.takeAllEvents.registry.map Entry.handle).foldl (fun st h => st.restartEntry s.takeAllEvents.allReports h)
      (s.takeAllEvents.restartBase source)).rebuildQueues := rfl

theorem State.rebuildQueues_chan (s : State) (c : Chan) :
    s.rebuildQueues.chan c = { s.chan c with rangeQ := s.rangingOn c } := by
  cases c <;> rfl

/-- A keep-tree restart is the walk over the registry and then the range requests rebuilt. -/
theorem State.keepTreeRestart_parts {s taken : State} (law : HandleLaw s) (source : Nat)
    (takes : taken = s.events.foldl State.takeEvent { s with events := [] }) : ∃ W,
      s.keepTreeRestart source = W.rebuildQueues ∧ HandleLaw taken ∧ HandleLaw W ∧
      State.Restarted taken.allReports (taken.restartBase source) W taken.registry := by
  obtain rfl : taken = s.takeAllEvents := takes
  have law' : HandleLaw s.takeAllEvents := (micros_takeAllEvents s).keeps_handleLaw law
  refine ⟨_, s.keepTreeRestart_eq source, law', ?_, State.restart_walk _ _ _ (State.restartBase_quiescent _ source) law'
    (fun e mem => State.entry_of_mem law'.1 mem) (State.inOrder.nodup law'.1)⟩
  have walk (l : List Handle) : ∀ w : State, HandleLaw w →
      HandleLaw (l.foldl (fun st h => st.restartEntry s.takeAllEvents.allReports h) w) := by
    induction l with
    | nil => exact fun w k => k
    | cons h l ih => exact fun w k => ih _ ((micros_restartEntry w _ h).keeps_handleLaw k)
  exact walk _ _ law'

/-! ## The range requests (R47) -/

/-- The handle of an entry whose range request stands on channel c after a keep-tree restart. -/
def Entry.requests (c : Chan) (e : Entry) : Option Handle :=
  e.term.bind fun t => match t.phase with
    | .ranging .. => if t.home = c ∧ e.flaw ≠ .uncorrectable then some e.handle else none
    | _ => none

/-- A RANGING entry homed on c. -/
def Terminal.rangesOn (c : Chan) (t : Terminal) : Bool :=
  decide (t.home = c) && match t.phase with | .ranging .. => true | _ => false

theorem Terminal.rangesOn_congr {c : Chan} {t u : Terminal} (home : u.home = t.home) (phase : u.phase = t.phase) :
    u.rangesOn c = t.rangesOn c := by
  unfold Terminal.rangesOn; rw [home, phase]

theorem Terminal.rangesOn_oweReported (c : Chan) (t : Terminal) (evs : List Event) (h : Handle) (ks : List MsgKind) :
    (t.oweReported evs h ks).rangesOn c = t.rangesOn c := by
  obtain ⟨-, home, phase⟩ := t.oweReported_keeps evs h ks
  exact Terminal.rangesOn_congr home phase

/-- A keep-tree restart leaves the RANGING entries RANGING on their channel, and makes no other so. -/
theorem Terminal.rangesOn_keepTree (c : Chan) (evs : List Event) (h : Handle) (t : Terminal) :
    (t.keepTree evs h).any (Terminal.rangesOn c) = t.rangesOn c := by
  rcases t with ⟨mark, home, estimate, wasActive, moveFlag, heard, owed, phase⟩
  cases phase with
  | ranging n samples final fill =>
    exact Terminal.rangesOn_oweReported c ⟨mark, home, estimate, wasActive, moveFlag, false, owed, .ranging n [] final fill⟩ ..
  | joining fix =>
    exact Terminal.rangesOn_oweReported c ⟨mark, home, estimate, wasActive, moveFlag, false, owed, .joining fix⟩ ..
  | hushed fix =>
    exact Terminal.rangesOn_oweReported c ⟨mark, home, estimate, wasActive, moveFlag, false, owed, .hushed fix⟩ ..
  | lost final age sent => cases sent <;> rfl
  | dismissing sent due => exact (Bool.and_false _).symm
  | _ => rfl

theorem Entry.requests_iff (c : Chan) (evs : List Event) (e : Entry) :
    ((e.keepTree evs).bind (·.term)).any (Terminal.rangesOn c) = true ↔ e.requests c = some e.handle := by
  rcases e with ⟨h, flaw, _ | t⟩
  · exact ⟨nofun, nofun⟩
  · by_cases bad : flaw = .uncorrectable
    · have gone : Entry.keepTree evs ⟨h, flaw, some t⟩ = some ⟨h, .sound, none⟩ := if_pos bad
      rw [gone]
      cases phase : t.phase <;> simp [Entry.requests, phase, bad]
    · have kept : (Entry.keepTree evs ⟨h, flaw, some t⟩).bind (·.term) = t.keepTree evs h := by
        simp only [Entry.keepTree, if_neg bad]
        cases t.keepTree evs h <;> rfl
      rw [kept, Terminal.rangesOn_keepTree]
      cases phase : t.phase <;> simp [Entry.requests, Terminal.rangesOn, phase, bad]

theorem Entry.requests_handle {c : Chan} {e : Entry} {h : Handle} (requests : e.requests c = some h) : h = e.handle := by
  unfold Entry.requests at requests
  obtain ⟨t, -, requests⟩ := Option.bind_eq_some_iff.1 requests
  split at requests
  · split at requests
    · exact (Option.some.inj requests).symm
    · cases requests
  · cases requests

theorem State.rangingOn_eq {s W : State} {evs : List Event} (law : HandleLaw s) (order : W.inOrder)
    (inside : ∀ e ∈ s.registry, W.entry e.handle = e.keepTree evs)
    (outside : ∀ h, h ∉ s.heldHandles → W.entry h = s.entry h) (c : Chan) :
    W.rangingOn c = s.registry.filterMap (Entry.requests c) := by
  have ranging : W.rangingOn c = W.heldHandles.filter fun h => (W.term h).any (Terminal.rangesOn c) :=
    (State.filter_heldHandles order (Terminal.rangesOn c)).symm
  have sorted : (s.registry.filterMap (Entry.requests c)).Pairwise (· < ·) := by
    refine List.Pairwise.filterMap _ (fun e e' lt h req h' req' => ?_) (List.pairwise_map.1 law.1)
    rw [Entry.requests_handle req, Entry.requests_handle req']
    exact lt
  rw [ranging]
  refine List.Pairwise.eq_of_mem_iff (order.filter _) sorted fun h => ?_
  rw [List.mem_filter, List.mem_filterMap]
  constructor
  · rintro ⟨-, ranges⟩
    by_cases mem : h ∈ s.heldHandles
    · obtain ⟨e, he, rfl⟩ := List.mem_map.1 mem
      refine ⟨e, he, (Entry.requests_iff c evs e).1 ?_⟩
      rw [State.term, inside e he] at ranges
      exact ranges
    · have gone : s.entry h = none := by
        by_contra no
        obtain ⟨e, he⟩ := Option.ne_none_iff_exists'.1 no
        exact mem (List.mem_map.2 ⟨e, State.entry_mem he, State.entry_handle he⟩)
      rw [State.term, outside h mem, gone] at ranges
      cases ranges
  · rintro ⟨e, he, requests⟩
    obtain rfl := Entry.requests_handle requests
    have ranges := (Entry.requests_iff c evs e).2 requests
    rw [← inside e he] at ranges
    refine ⟨?_, ranges⟩
    rcases Option.eq_none_or_eq_some (W.entry e.handle) with gone | ⟨x, hx⟩
    · rw [gone] at ranges; cases ranges
    · exact List.mem_map.2 ⟨x, State.entry_mem hx, State.entry_handle hx⟩

end Sys2Proof.Machine
end

section
/-! The keep-tree restart (R39, Table 2-9): the two statements settled. -/

namespace Sys2Proof.Machine

/-- Settles O8: the walk over an idle base gives every field, and the range requests are read off its registry. -/
theorem keepTreeRestartClearsTheBlocks : Obligations.KeepTreeRestartClearsTheBlocks := by
  intro s taken source caught law takes hcaught
  obtain ⟨W, restart, law', lawW, walk⟩ := State.keepTreeRestart_parts law source takes
  obtain rfl : caught = (taken.restartBase source).caughtOf taken.registry := hcaught
  obtain ⟨notices, overflow⟩ := walk.noticed (by decide : 1 ≤ 64)
  have one (r : Option FirstError) : ([Notice.restarted source] ++ r.toList.map flawNotice).take 64 =
        Notice.restarted source :: (r.toList.map fun r =>
          ⟨.storeError, some r.handle, none, none, some (if r.kind = .correctable then 1 else 2)⟩) ∧
      (false || decide (64 < [Notice.restarted source].length + (r.toList.map flawNotice).length)) = false := by
    rcases r with _ | ⟨_ | _, h⟩ <;> exact ⟨rfl, rfl⟩
  rw [restart]
  refine ⟨?_, fun c => ?_⟩
  · have record : W.firstError = if (taken.restartBase source).caughtOf taken.registry = none then taken.firstError
        else (taken.restartBase source).caughtOf taken.registry := by
      rw [walk.firstError]
      cases (taken.restartBase source).caughtOf taken.registry <;> rfl
    have whole := walk.walked.whole
    rw [walk.retention, record, walk.fullLatch rfl, notices.trans (one _).1, overflow.trans (one _).2] at whole
    exact congrArg (fun v : State => { v with chans := W.rebuildQueues.chans }) whole
  · rw [State.rebuildQueues_chan, State.chan_congr walk.chans c,
      State.rangingOn_eq law' lawW.1 walk.inside walk.outside c]
    cases c <;> rfl

/-! ## The entries -/

/-- The kinds that the emptied out-queues reported for a handle. -/
theorem reported_allReports (s : State) (k : MsgKind) (h : Handle) : reported s.allReports k h =
    Chan.all.any fun c => (s.chan c).outq.any fun m => m.report && m.msg.kind == k && m.msg.handle == h := by
  unfold reported
  rw [Bool.eq_iff_iff, List.any_eq_true, List.any_eq_true]
  refine exists_congr fun c => and_congr_right fun _ => ?_
  rw [List.contains_iff_mem, State.allReports, List.mem_flatMap, List.any_eq_true]
  constructor
  · rintro ⟨c', -, mem⟩
    obtain ⟨m, hm, e⟩ := List.mem_map.1 mem
    obtain ⟨hm, report⟩ := List.mem_filter.1 hm
    simp only [Event.report.injEq, true_and] at e
    obtain ⟨rfl, rfl, rfl⟩ := e
    exact ⟨m, hm, by simp [report]⟩
  · rintro ⟨m, hm, e⟩
    simp only [Bool.and_eq_true, beq_iff_eq] at e
    obtain ⟨⟨report, rfl⟩, rfl⟩ := e
    exact ⟨c, by cases c <;> decide, List.mem_map.2 ⟨m, List.mem_filter.2 ⟨hm, report⟩, rfl⟩⟩

/-- The owed set of an entry for which the emptied out-queues reported. -/
theorem Terminal.oweReported_one {evs : List Event} {h : Handle} {k : MsgKind} {told : Bool} (e : reported evs k h = told)
    (t : Terminal) : t.oweReported evs h [k] = if told then t.makeOwed k else t := by
  rw [← e]; rfl

theorem Terminal.oweReported_two {evs : List Event} {h : Handle} {k j : MsgKind} {told told' : Bool}
    (e : reported evs k h = told) (e' : reported evs j h = told') (t : Terminal) :
    t.oweReported evs h [k, j] = if told' then (if told then t.makeOwed k else t).makeOwed j
      else if told then t.makeOwed k else t := by
  rw [← e, ← e']; rfl

/-- What the restart leaves of an entry, by its state (Table 2-9). -/
theorem State.keepTree_table {s : State} {h : Handle} {t : Terminal} {evs : List Event} {told : MsgKind → Bool}
    (kept : s.entry h = (t.keepTree evs h).map fun u => ⟨h, .sound, some u⟩) (reports : ∀ k, reported evs k h = told k) :
    match (generalizing := false) t.phase with
      | .enrolling .. => s.sound h { t with
          heard := false
          owed := { t.owed with enrol := true, dismiss := false } }
      | .ranging n _ fin fill => s.sound h { t with
          heard := false
          phase := .ranging n [] fin fill
          owed := if told .hush then { t.owed with hush := true, resume := false } else t.owed }
      | .joining _ => s.sound h { t with
          heard := false
          owed := { t.owed with
            setDelay := t.owed.setDelay || told .setDelay
            resume := t.owed.resume || told .resume
            hush := t.owed.hush && !(told .setDelay || told .resume)
            trim := if told .setDelay then none else t.owed.trim } }
      | .active fix _ _ => s.sound h { t with
          heard := false
          phase := .active fix { streak := none, settle := 2, trimPending := t.owed.trim } 0 }
      | .hushed _ => s.sound h { t with
          heard := false
          owed := if told .hush then { t.owed with hush := true, resume := false } else t.owed }
      | .retuning fix _ => s.sound h { t with
            heard := false
            moveFlag := false
            owed := { Owed.none with dismiss := true }
            phase := .lost (some fix.final) 0 false }
      | .lost _ _ sent => s.sound h { t with
          heard := false
          owed := if sent then t.owed else { Owed.none with dismiss := true } }
      | .dismissing .. => s.entry h = none := by
  rcases t with ⟨mark, home, estimate, wasActive, moveFlag, heard, owed, phase⟩
  cases phase with
  | ranging n samples fin fill =>
    refine kept.trans ?_
    show some (Entry.mk h .sound (some (Terminal.oweReported _ evs h [.hush]))) = _
    rw [Terminal.oweReported_one (reports .hush)]
    cases told .hush <;> rfl
  | joining fix =>
    refine kept.trans ?_
    show some (Entry.mk h .sound (some (Terminal.oweReported _ evs h [.setDelay, .resume]))) = _
    rw [Terminal.oweReported_two (reports .setDelay) (reports .resume)]
    rcases owed with ⟨enrol, setDelay, hush, resume, retune, dismiss, trim⟩
    cases told .setDelay <;> cases told .resume <;> simp [Terminal.makeOwed, Owed.dropFor, Owed.add]
  | hushed fix =>
    refine kept.trans ?_
    show some (Entry.mk h .sound (some (Terminal.oweReported _ evs h [.hush]))) = _
    rw [Terminal.oweReported_one (reports .hush)]
    cases told .hush <;> rfl
  | lost fin age sent => cases sent <;> exact kept
  | _ => exact kept

/-- Settles O9: each entry is what the walk made of it, by the row of its state. -/
theorem keepTreeRestartTransformsEveryEntry : Obligations.KeepTreeRestartTransformsEveryEntry := by
  intro s taken t1 source law takes ht1
  obtain ⟨W, restart, law', lawW, walk⟩ := State.keepTreeRestart_parts law source takes
  have entry (h : Handle) : t1.entry h = W.entry h := by rw [ht1, restart]; rfl
  have stored (h : Handle) (e : Entry) (he : taken.entry h = some e) : t1.entry h = e.keepTree taken.allReports := by
    obtain rfl := State.entry_handle he
    exact (entry _).trans (walk.inside e (State.entry_mem he))
  refine ⟨fun h absent => ?_, fun h f he => ?_, fun h t he => ?_, fun h t f told he good htold => ?_⟩
  · rw [entry, walk.outside h fun mem => ?_]
    · exact absent
    · obtain ⟨e, he, rfl⟩ := List.mem_map.1 mem
      rw [State.entry_of_mem law'.1 he] at absent
      cases absent
  · exact stored h _ he
  · exact stored h _ he
  · have kept := stored h _ he
    have told (k : MsgKind) : reported taken.allReports k h = told k := (reported_allReports taken k h).trans (htold k).symm
    have fields : t1.entry h = (t.keepTree taken.allReports h).map fun u => ⟨h, .sound, some u⟩ :=
      kept.trans (if_neg good)
    have table := State.keepTree_table fields told
    cases phase : t.phase with
    | retuning fix target =>
      rw [phase] at table
      refine ⟨table, ?_⟩
      have joins : Entry.joins ⟨h, f, some t⟩ = some h := by simp [Entry.joins, phase, good]
      have late : t1.retention = W.retention := by rw [ht1, restart]; rfl
      rw [late, walk.retention]
      exact List.mem_append_right _ (List.mem_filterMap.2 ⟨_, State.entry_mem he, joins⟩)
    | _ => rw [phase] at table; exact table

end Sys2Proof.Machine
end

section
/-! The reports of the management port (R153, R154, R158): the bytes of STATUS at their offsets, and the handles counted. -/

namespace Sys2Proof.Machine

/-- The bytes of a number spell it, modulo what they can hold. -/
theorem bytesNat_natBytes_mod (n v : Nat) : bytesNat (natBytes n v) = v % 256 ^ n := by
  induction n generalizing v with
  | zero => exact (Nat.mod_one v).symm
  | succ n ih =>
    have last : bytesNat (natBytes n (v / 256) ++ [BitVec.ofNat 8 v]) = bytesNat (natBytes n (v / 256)) * 256 + v % 256 := by
      unfold bytesNat
      rw [List.foldl_append]
      rfl
    rw [natBytes, last, ih, Nat.pow_succ', Nat.mod_mul]
    omega

theorem stateCode_range (p : Option Phase) : 1 ≤ stateCode p ∧ stateCode p ≤ 9 := by
  rcases p with _ | p
  · decide
  · cases p <;> simp [stateCode]

/-! ## Every handle counted once -/

/-- Each entry of a list is counted in one of the nine states. -/
theorem sum_stateCounts (l : List Entry) : ((List.range' 1 9).map fun k =>
    (l.filter fun e => stateCode (e.term.map (·.phase)) == k).length).sum = l.length := by
  induction l with
  | nil => rfl
  | cons e l ih =>
    obtain ⟨lo, hi⟩ := stateCode_range (e.term.map (·.phase))
    have one : ((List.range' 1 9).map fun k => if stateCode (e.term.map (·.phase)) == k then 1 else 0).sum = 1 := by
      generalize stateCode (e.term.map (·.phase)) = code at lo hi
      interval_cases code <;> rfl
    have split (k : Nat) : ((e :: l).filter fun e => stateCode (e.term.map (·.phase)) == k).length =
        (if stateCode (e.term.map (·.phase)) == k then 1 else 0) +
          (l.filter fun e => stateCode (e.term.map (·.phase)) == k).length := by
      rw [List.filter_cons]
      split
      · exact Nat.add_comm _ 1
      · exact (Nat.zero_add _).symm
    rw [funext split, List.sum_map_add, one, ih, List.length_cons, Nat.add_comm]

theorem State.filter_holds {s : State} (law : HandleLaw s) : (List.range' 1 511).filter (fun h => s.holds h) = s.heldHandles := by
  obtain ⟨order, range⟩ := handleLaw_iff.1 law
  refine List.Pairwise.eq_of_mem_iff (r := (· < ·)) ((List.pairwise_lt_range' ..).filter _) order fun h => ?_
  rw [List.mem_filter, List.mem_range'_1]
  constructor
  · rintro ⟨-, held⟩
    obtain ⟨e, he⟩ := (State.holds_iff s h).1 held
    exact List.mem_map.2 ⟨e, State.entry_mem he, State.entry_handle he⟩
  · intro mem
    obtain ⟨lo, hi⟩ := range h mem
    obtain ⟨e, he, rfl⟩ := List.mem_map.1 mem
    exact ⟨⟨lo, Nat.lt_succ_of_le hi⟩, (State.holds_iff s _).2 ⟨e, State.entry_of_mem order he⟩⟩

theorem State.freeCount_add {s : State} (law : HandleLaw s) :
    s.freeCount + ((List.range' 1 9).map s.countState).sum = 511 := by
  have held : ((List.range' 1 9).map s.countState).sum = ((List.range' 1 511).filter fun h => s.holds h).length := by
    rw [State.filter_holds law]
    exact (sum_stateCounts s.registry).trans (List.length_map ..).symm
  have split := List.length_eq_length_filter_add (l := List.range' 1 511) fun h => s.holds h
  rw [List.length_range'] at split
  rw [held]
  exact (Nat.add_comm ..).trans split.symm

/-! ## The bytes of STATUS -/

theorem State.statusBytes_channel (s : State) (c : Chan) : (s.statusBytes.drop (5 * c.num)).take 5 =
    natBytes 1 (s.chan c).link.code ++ natBytes 1 (s.chan c).outq.length ++ natBytes 1 (s.chan c).gaps.length ++
      natBytes 2 (s.chan c).rangeQ.length := by
  cases c <;> rfl

theorem State.statusBytes_count (s : State) {k : Nat} (lo : 1 ≤ k) (hi : k ≤ 9) :
    (s.statusBytes.drop (18 + 2 * k)).take 2 = natBytes 2 (s.countState k) := by
  interval_cases k <;> rfl

/-- Settles O23: each part of STATUS at its offset, and the handles counted once each. -/
theorem reportsChangeNothing : Obligations.ReportsChangeNothing := by
  refine ⟨fun n v => ⟨natBytes_length n v, bytesNat_natBytes_mod n v⟩, fun _ _ => rfl, fun _ => rfl,
    fun m => by cases m <;> rfl, fun p => ?_, fun s ready => ⟨?_, ?_, rfl, fun c => ?_, fun k lo hi => ⟨?_, rfl⟩, rfl,
      fun ch c hc => ?_, fun ch hch => ?_, State.freeCount_add⟩⟩
  · rcases p with _ | p
    · rfl
    · cases p <;> rfl
  · exact State.request_ready ready _ (·.reqTreeGet)
  · exact State.request_ready ready _ (·.reqStatus)
  · rw [State.statusBytes_channel]
    cases (s.chan c).link <;> rfl
  · exact s.statusBytes_count lo hi
  · refine (State.request_ready ready _ (·.reqChannelGet ch)).trans ?_
    rw [State.reqChannelGet, State.onChannel, hc]
    rfl
  · refine (State.request_ready ready _ (·.reqChannelGet ch)).trans ?_
    rw [State.reqChannelGet, State.onChannel, Chan.ofNum_eq_none hch]
    rfl

end Sys2Proof.Machine
end

section
/-! The reply of ENTRY READ (R26, R121, Table 12-7), field by field, and ENTRY FIND (R20). -/

namespace Sys2Proof.Machine

/-! ## Fields of a report -/

/-- The bytes of one field of a report stand after those of the fields before it. -/
theorem flatten_field {α : Type} (fields : List (List α)) (i : Nat) :
    (fields.flatten.drop ((fields.map List.length).take i).sum).take ((fields.map List.length).getD i 0) =
      fields.getD i [] := by
  induction fields generalizing i with
  | nil => simp
  | cons f fields ih =>
    cases i with
    | zero => simp
    | succ i =>
      rw [List.map_cons, List.take_succ_cons, List.sum_cons, List.getD_cons_succ, List.getD_cons_succ, List.flatten_cons,
        List.drop_append, List.drop_eq_nil_of_le (Nat.le_add_right ..), Nat.add_sub_cancel_left, List.nil_append]
      exact ih i

/-- The fields of ENTRY READ for an entry that is not DAMAGED (Table 12-7). -/
def State.entryFields (s : State) (h : Handle) (t : Terminal) : List (List Byte) :=
  [natBytes 2 h, natBytes 1 (stateCode (some t.phase)), natBytes 2 t.presence, markBytes t.mark, natBytes 1 t.home.num,
    intBytes 3 t.estimate, optBytes 3 t.phase.final, optBytes 3 t.phase.fill, natBytes 1 t.flags,
    natBytes 1 (t.phase.retry.getD 0), sampleBytes (t.phase.samples.getD []),
    natBytes 1 ((t.phase.target.map Chan.num).getD 0), (t.phase.drift.map Drift.bytes).getD (natBytes 5 0),
    optBytes 2 t.trimChange, natBytes 1 (t.phase.missed.getD 0), natBytes 1 (t.phase.age.getD 0), natBytes 1 t.owed.bits,
    if t.phase.samples.isSome then (s.rangeWork h t).bytes else natBytes 18 0]

theorem State.entryBytes_eq {s : State} {h : Handle} {t : Terminal} (ht : s.term h = some t) :
    s.entryBytes h = (s.entryFields h t).flatten := by
  simp only [State.entryBytes, ht, State.entryFields, List.flatten_cons, List.flatten_nil, List.append_nil, List.append_assoc]

theorem State.entryBytes_damaged {s : State} {h : Handle} (absent : s.term h = none) :
    s.entryBytes h = natBytes 2 h ++ 9 :: List.replicate 63 0 := by
  simp only [State.entryBytes, absent]
  rfl

theorem optBytes_length (n : Nat) (v : Option Int) : (optBytes n v).length = n := by
  cases v <;> exact natBytes_length _ _

theorem Drift.bytes_length (d : Drift) : d.bytes.length = 5 := by
  unfold Drift.bytes
  split <;> rfl

theorem RangeWork.bytes_length (w : RangeWork) : w.bytes.length = 18 := by
  cases w <;> rfl

theorem State.entryFields_lengths (s : State) (h : Handle) (t : Terminal) :
    (s.entryFields h t).map List.length = [2, 1, 2, 7, 1, 3, 3, 3, 1, 1, 13, 1, 5, 2, 1, 1, 1, 18] := by
  have drift : ((t.phase.drift.map Drift.bytes).getD (natBytes 5 0)).length = 5 := by
    cases t.phase.drift with
    | none => rfl
    | some d => exact d.bytes_length
  have work : (if t.phase.samples.isSome then (s.rangeWork h t).bytes else natBytes 18 0).length = 18 := by
    split
    · exact RangeWork.bytes_length _
    · rfl
  simp only [State.entryFields, List.map_cons, List.map_nil, drift, work, optBytes_length]
  rfl

theorem State.entryBytes_length (s : State) (h : Handle) : (s.entryBytes h).length = 66 := by
  cases ht : s.term h with
  | none => rw [State.entryBytes_damaged ht]; rfl
  | some t => rw [State.entryBytes_eq ht, List.length_flatten, State.entryFields_lengths]; rfl

/-- Field i of ENTRY READ, at its offset and with its length. -/
theorem State.entryBytes_field {s : State} {h : Handle} {t : Terminal} (ht : s.term h = some t) (i : Nat) :
    ((s.entryBytes h).drop (([2, 1, 2, 7, 1, 3, 3, 3, 1, 1, 13, 1, 5, 2, 1, 1, 1, 18].take i).sum)).take
      ([2, 1, 2, 7, 1, 3, 3, 3, 1, 1, 13, 1, 5, 2, 1, 1, 1, 18].getD i 0) = (s.entryFields h t).getD i [] := by
  rw [State.entryBytes_eq ht, ← s.entryFields_lengths h t]
  exact flatten_field _ i

/-! ## The values behind the fields -/

/-- A field that is absent is reported as 0x00 bytes. -/
theorem optBytes_eq (n : Nat) (v : Option Int) : optBytes n v = v.elim (natBytes n 0) (intBytes n) := by
  cases v <;> rfl

theorem Terminal.presence_eq (t : Terminal) : t.presence =
    ([true, true, true, t.phase.final.isSome, t.phase.fill.isSome, true, t.phase.dismissSent.isSome, t.phase.retry.isSome,
      t.phase.samples.isSome, t.phase.target.isSome, t.phase.drift.isSome, t.trimChange.isSome, t.phase.missed.isSome,
      t.phase.age.isSome, true, t.phase.samples.isSome].zipIdx.map fun p => if p.1 then 2 ^ p.2 else 0).sum := by
  simp only [Terminal.presence, List.zipIdx_cons, List.zipIdx_nil, List.map_cons, List.map_nil, List.sum_cons, List.sum_nil,
    Nat.add_assoc, Nat.zero_add, Nat.add_zero, Nat.reduceAdd, Nat.reducePow]

theorem Terminal.flags_eq (t : Terminal) : t.flags =
    ([t.wasActive, t.moveFlag, t.heard, t.phase.dismissSent.getD false].zipIdx.map
      fun p => if p.1 then 2 ^ p.2 else 0).sum := by
  simp only [Terminal.flags, List.zipIdx_cons, List.zipIdx_nil, List.map_cons, List.map_nil, List.sum_cons, List.sum_nil,
    Nat.add_assoc, Nat.zero_add, Nat.add_zero, Nat.reduceAdd, Nat.reducePow]

theorem Owed.bits_eq (o : Owed) : o.bits = ([o.enrol, o.setDelay, o.trim.isSome, o.hush, o.resume, o.retune,
    o.dismiss].zipIdx.map fun p => if p.1 then 2 ^ p.2 else 0).sum := by
  simp only [Owed.bits, List.zipIdx_cons, List.zipIdx_nil, List.map_cons, List.map_nil, List.sum_cons, List.sum_nil,
    Nat.add_assoc, Nat.zero_add, Nat.add_zero, Nat.reduceAdd, Nat.reducePow]

theorem sampleBytes_getD (smp : Option (List Int)) : sampleBytes (smp.getD []) = smp.elim (List.replicate 13 0) (fun l =>
    natBytes 1 l.length ++ intBytes 3 (l.getD 0 0) ++ intBytes 3 (l.getD 1 0) ++ intBytes 3 (l.getD 2 0) ++
      intBytes 3 (l.getD 3 0)) := by
  cases smp <;> rfl

theorem targetByte_eq (target : Option Chan) : natBytes 1 ((target.map Chan.num).getD 0) = natBytes 1 (target.elim 0 Chan.num) := by
  cases target <;> rfl

theorem driftBytes_eq (drift : Option Drift) : (drift.map Drift.bytes).getD (natBytes 5 0) =
    drift.elim (List.replicate 5 0) (fun d => (match d.streak with
      | none => [0, 0, 0, 0]
      | some z => (if z.positive then 1 else 2) :: (natBytes 1 z.count ++ intBytes 2 z.sum)) ++ natBytes 1 d.settle) := by
  rcases drift with _ | ⟨_ | ⟨_ | _, count, sum⟩, settle, trim⟩ <;> rfl

/-! ## The range work of a RANGING entry (R121) -/

section
variable {s : State} {h : Handle} {t : Terminal} {x : ChanState} (hx : x = s.chan t.home)
include hx

theorem State.rangeWork_queued {a b : List Handle} (queue : x.rangeQ = a ++ h :: b) (first : h ∉ a) :
    s.rangeWork h t = if s.isUp t.home then .queued (a.length + 1) else .held (a.length + 1) := by
  subst hx
  have listed : (s.chan t.home).rangeQ.contains h = true := by rw [queue]; simp
  have place : (s.chan t.home).rangeQ.idxOf h = a.length := by
    rw [queue, List.idxOf_append_of_notMem first, List.idxOf_cons_self, Nat.add_zero]
  unfold State.rangeWork
  dsimp only
  rw [if_pos listed, place]
  rfl

theorem State.rangeWork_offered {o : Offer} (unlisted : h ∉ x.rangeQ) (offer : x.offer = some o) (kind : o.kind = .range h) :
    s.rangeWork h t = .offered o.tag o.refCycle := by
  subst hx
  unfold State.rangeWork
  dsimp only
  rw [if_neg (by simpa using unlisted), offer]
  exact if_pos ((Offer.names_iff_range o h).2 kind)

theorem State.rangeWork_gaps (unlisted : h ∉ x.rangeQ) (offer : ∀ o, x.offer = some o → o.kind ≠ .range h) :
    s.rangeWork h t = State.rangeWork.gapWork s x.gaps h t := by
  subst hx
  unfold State.rangeWork
  dsimp only
  rw [if_neg (by simpa using unlisted)]
  split
  · rename_i o e
    exact if_neg fun names => offer o e ((Offer.names_iff_range o h).1 names)
  · rfl

theorem State.rangeWork_inFlight {a b : List Gap} {g : Gap} {seen : Bool} (unlisted : h ∉ x.rangeQ)
    (offer : ∀ o, x.offer = some o → o.kind ≠ .range h) (gaps : x.gaps = a ++ g :: b) (kind : g.kind = .range h seen)
    (first : ∀ g' ∈ a, g'.names h = false) : s.rangeWork h t =
      .inFlight g seen (expectedInstant s.tree x.skew t.estimate g.refCycle) := by
  have found : x.gaps.find? (·.names h) = some g := by
    rw [gaps, List.find?_append, List.find?_eq_none.2 fun g' mem => by rw [first g' mem]; exact Bool.false_ne_true,
      Option.none_or]
    exact List.find?_cons_of_pos (p := fun g : Gap => g.names h) ((Gap.names_iff_range g h).2 ⟨seen, kind⟩)
  rw [State.rangeWork_gaps hx unlisted offer, State.rangeWork.gapWork, found]
  simp only [kind, hx]

theorem State.rangeWork_none (idle : x.hasWork h = false) : s.rangeWork h t = .none := by
  simp only [ChanState.hasWork, Bool.or_eq_false_iff, List.contains_eq_mem, decide_eq_false_iff_not] at idle
  obtain ⟨⟨unlisted, offer⟩, gaps⟩ := idle
  have found : x.gaps.find? (·.names h) = none := List.find?_eq_none.2 fun g mem => by
    simpa using List.any_eq_false.1 gaps g mem
  rw [State.rangeWork_gaps hx unlisted fun o e kind => ?_, State.rangeWork.gapWork, found]
  rw [e, Option.any_some, (Offer.names_iff_range o h).2 kind] at offer
  cases offer

end

/-- Settles O36: each field at its offset, its value by the phase, and the range work by its place. -/
theorem entriesAreReadAndFound : Obligations.EntriesAreReadAndFound := by
  refine fun s ready => ⟨fun h t lo hi he => ?_, fun h f lo hi he => ?_, s.entryBytes_length, fun m h t law marks sound ht e => ?_,
    fun m sound unknown => ?_,
    fun h t part code fin fill trim sent retry smp target drift missed age sound hpart fields htrim => ?_⟩
  · refine (State.request_ready ready _ (·.reqEntryRead h)).trans ?_
    rw [State.reqEntryRead, State.onHandle_sound _ lo hi he]
    rfl
  · refine (State.request_ready ready _ (·.reqEntryRead h)).trans ?_
    rw [State.reqEntryRead, State.onHandle_damaged _ lo hi he, State.entryBytes_damaged (by rw [State.term, he]; rfl)]
    rfl
  · refine (State.request_ready ready _ (·.reqEntryFind m)).trans ?_
    rw [State.reqEntryFind, State.readAll_of_allSound sound, ← e, State.findMark_of_term marks ht]
    rfl
  · refine (State.request_ready ready _ (·.reqEntryFind m)).trans ?_
    rw [State.reqEntryFind, State.readAll_of_allSound sound, State.findMark_eq_none.2 unknown]
    rfl
  · have ht := State.term_of_sound sound
    obtain ⟨rfl, rfl, rfl, rfl, rfl, rfl, rfl, rfl, rfl, rfl⟩ : code = stateCode (some t.phase) ∧ fin = t.phase.final ∧
        fill = t.phase.fill ∧ sent = t.phase.dismissSent ∧ retry = t.phase.retry ∧ smp = t.phase.samples ∧
        target = t.phase.target ∧ drift = t.phase.drift ∧ missed = t.phase.missed ∧ age = t.phase.age := by
      cases phase : t.phase <;> rw [phase] at fields <;> exact fields
    obtain rfl : trim = t.trimChange := htrim
    have field (i : Nat) := State.entryBytes_field ht i
    have work (l : List Int) (e : t.phase.samples = some l) : part 48 18 = (s.rangeWork h t).bytes := by
      refine (hpart 48 18).trans ((field 17).trans ?_)
      exact if_pos (by rw [e]; rfl)
    refine ⟨rfl, (hpart 0 2).trans (field 0), (hpart 2 1).trans (field 1), ?_, (hpart 5 7).trans (field 3),
      (hpart 12 1).trans (field 4), (hpart 13 3).trans (field 5), ?_, ?_, ?_, (hpart 23 1).trans (field 9), ?_, ?_, ?_, ?_,
      (hpart 45 1).trans (field 14), (hpart 46 1).trans (field 15), ?_, fun e => ?_,
      fun l x e hx => ⟨fun a b queue first => ?_, fun o unlisted offer kind => ?_,
        fun a b g seen E unlisted offer gaps kind first hE => ?_, fun idle => ?_⟩⟩
    · rw [← Terminal.presence_eq]; exact (hpart 3 2).trans (field 2)
    · exact (hpart 16 3).trans ((field 6).trans (optBytes_eq 3 _))
    · exact (hpart 19 3).trans ((field 7).trans (optBytes_eq 3 _))
    · rw [← Terminal.flags_eq]; exact (hpart 22 1).trans (field 8)
    · exact (hpart 24 13).trans ((field 10).trans (sampleBytes_getD _))
    · exact (hpart 37 1).trans ((field 11).trans (targetByte_eq _))
    · exact (hpart 38 5).trans ((field 12).trans (driftBytes_eq _))
    · exact (hpart 43 2).trans ((field 13).trans (optBytes_eq 2 _))
    · rw [← Owed.bits_eq]; exact (hpart 47 1).trans (field 16)
    · exact (hpart 48 18).trans ((field 17).trans (if_neg (by rw [e]; exact Bool.false_ne_true)))
    · rw [work l e, State.rangeWork_queued hx queue first]
      split <;> rfl
    · rw [work l e, State.rangeWork_offered hx unlisted offer kind]; rfl
    · rw [work l e, State.rangeWork_inFlight hx unlisted offer gaps kind first, hE]; rfl
    · rw [work l e, State.rangeWork_none hx idle]; rfl

end Sys2Proof.Machine
end

section
/-! The laws of the queues, lists and tallies (R51, R65, R94, R100, R155, R157) and of the range work (R47): every small
change of `Micro` keeps them. -/

namespace Sys2Proof.Machine

/-! ## Queues, lists and tallies -/

theorem Micro.notices_length {s t : State} (m : Micro s t) :
    t.notices.length ≤ 64 ∨ t.notices.length ≤ s.notices.length := by
  cases m with
  | other _ _ _ _ _ _ notices => exact .inr (by rw [notices])
  | notices l bound => exact bound
  | create h m c coarse => exact .inr (by unfold State.createEntry; dsimp only; split <;> exact le_rfl)
  | full => exact .inl (Nat.zero_le _)
  | _ => exact .inr le_rfl

/-- The admission table after a small change is no longer than before or within its size, and holds no mark twice. -/
theorem Micro.table_keeps {s t : State} (m : Micro s t) :
    (t.table.length ≤ 64 ∨ t.table.length ≤ s.table.length) ∧
      ((s.table.map (·.mark)).Nodup → (t.table.map (·.mark)).Nodup) := by
  have same (e : t.table = s.table) : (t.table.length ≤ 64 ∨ t.table.length ≤ s.table.length) ∧
      ((s.table.map (·.mark)).Nodup → (t.table.map (·.mark)).Nodup) := by rw [e]; exact ⟨.inr le_rfl, id⟩
  cases m with
  | other _ _ _ _ table => exact same table
  | table l bound nodup => exact ⟨bound, nodup⟩
  | create h m c coarse => exact same (by unfold State.createEntry; dsimp only; split <;> rfl)
  | full => exact ⟨.inl (Nat.zero_le _), fun _ => List.nodup_nil⟩
  | _ => exact same rfl

/-- The pending marks after a small change are some of those before it, or one that was not pending joins them. -/
theorem Micro.waiting_marks {s t : State} (m : Micro s t) :
    (t.waiting.map (·.mark)).Sublist (s.waiting.map (·.mark)) ∨
      ∃ i, s.waiting.length < 16 ∧ s.waitingItem i.mark = none ∧ t.waiting = s.waiting ++ [i] := by
  have same (e : t.waiting = s.waiting) : (t.waiting.map (·.mark)).Sublist (s.waiting.map (·.mark)) := by rw [e]
  cases m with
  | other _ _ _ _ _ waiting => exact .inl (same waiting)
  | waiting l sub => exact .inl sub
  | append i room _ fresh => exact .inr ⟨i, room, fresh, rfl⟩
  | create h m c coarse =>
    refine .inl ?_
    unfold State.createEntry
    dsimp only
    split
    · exact List.Sublist.map _ List.filter_sublist
    · exact .refl _
  | full => exact .inl (List.nil_sublist _)
  | _ => exact .inl (same rfl)

theorem Micro.keeps_waiting {s t : State} (m : Micro s t) (size : s.waiting.length ≤ 16)
    (nodup : (s.waiting.map (·.mark)).Nodup) : t.waiting.length ≤ 16 ∧ (t.waiting.map (·.mark)).Nodup := by
  rcases m.waiting_marks with sub | ⟨i, room, fresh, e⟩
  · have le := sub.length_le
    rw [List.length_map, List.length_map] at le
    exact ⟨le.trans size, nodup.sublist sub⟩
  · rw [e, List.length_append, List.map_append]
    refine ⟨room, List.nodup_append.2 ⟨nodup, List.nodup_singleton _, fun a ha b hb same => ?_⟩⟩
    obtain ⟨j, hj, rfl⟩ := List.mem_map.1 ha
    obtain rfl := List.mem_singleton.1 hb
    exact List.find?_eq_none.1 fresh j hj (by simpa using same)

/-- What the queue laws say of one channel. -/
def ChanState.queueLaw (x : ChanState) : Prop :=
  OutQueueLaw x.outq ∧ x.lapsed.length ≤ 4 ∧ ∀ k, x.tally k ≤ 65535

theorem ChanKeeps.queueLaw {L : Nat} {x y : ChanState} (keeps : ChanKeeps L x y) (law : x.queueLaw) : y.queueLaw := by
  obtain ⟨outq, lapsed, tally⟩ := law
  exact ⟨keeps.outq outq, keeps.lapsed.elim id (·.trans lapsed), fun k => (keeps.tally k).elim id (·.trans (tally k))⟩

theorem Micro.keeps_chanQueueLaw {s t : State} (m : Micro s t) {c : Chan} (law : (s.chan c).queueLaw) :
    (t.chan c).queueLaw := by
  rcases m.chan_cases c with rfl | ⟨v, -, -, -, -, e⟩ | ⟨q, e⟩ | keeps
  · rw [State.chan_fullReset]; exact ⟨OutQueueLaw.nil, Nat.zero_le _, ChanState.tally_reset_le⟩
  · rw [e]; exact law
  · rw [e]; exact law
  · exact keeps.queueLaw law

theorem Micro.keeps_queueLaw {s t : State} (m : Micro s t) (law : QueueLaw s) : QueueLaw t := by
  obtain ⟨notices, table, marks, waiting, items, chans⟩ := law
  obtain ⟨tableSize, tableNodup⟩ := m.table_keeps
  obtain ⟨waiting', items'⟩ := m.keeps_waiting waiting items
  exact ⟨m.notices_length.elim id (·.trans notices), tableSize.elim id (·.trans table), tableNodup marks, waiting', items',
    fun c => m.keeps_chanQueueLaw (chans c)⟩

/-- Settles O10: every small change keeps each size, and what joins a list is not in it yet. A replacement of the settings
touches none of the lists. -/
theorem stepKeepsTheQueueLaws : Obligations.StepKeepsTheQueueLaws := by
  intro s t e law
  exact kept_by_step (P := QueueLaw) (fun _ _ m => m.keeps_queueLaw) (fun _ _ _ _ _ _ law => law) law e

/-! ## Range work (R47) -/

/-- A handle without range work on a channel counts nothing there. -/
theorem ChanState.workCount_of_not_hasWork {x : ChanState} {h : Handle} (free : x.hasWork h = false) :
    x.workCount h = 0 := by
  simp only [ChanState.hasWork, Bool.or_eq_false_iff, List.any_eq_false] at free
  obtain ⟨⟨queue, offer⟩, gaps⟩ := free
  have queue' : x.rangeQ.count h = 0 := List.count_eq_zero.2 (by simpa using queue)
  have gaps' : x.gaps.filter (·.names h) = [] := List.filter_eq_nil_iff.2 gaps
  simp [ChanState.workCount, queue', offer, gaps']

theorem State.hasWork_eq_false {s : State} {h : Handle} : s.hasWork h = false ↔ ∀ c, (s.chan c).hasWork h = false := by
  simp only [State.hasWork, List.any_eq_false, Bool.not_eq_true]
  exact ⟨fun k c => k c (Chan.mem_all c), fun k c _ => k c⟩

theorem State.workCount_of_not_hasWork {s : State} {h : Handle} (free : s.hasWork h = false) : s.workCount h = 0 := by
  have zero := fun c => ChanState.workCount_of_not_hasWork (State.hasWork_eq_false.1 free c)
  simp [State.workCount, zero]

/-- The range work of a handle does not grow where it grows on no channel. -/
theorem State.workCount_le {s t : State} {h : Handle} (le : ∀ c, (t.chan c).workCount h ≤ (s.chan c).workCount h) :
    t.workCount h ≤ s.workCount h :=
  Nat.add_le_add (Nat.add_le_add (Nat.add_le_add (le .c0) (le .c1)) (le .c2)) (le .c3)

/-- Range work that stands on one channel alone counts as it does there. -/
theorem State.workCount_of_elsewhere {s : State} {h : Handle} (c : Chan)
    (none : ∀ d, d ≠ c → (s.chan d).workCount h = 0) : s.workCount h = (s.chan c).workCount h := by
  unfold State.workCount
  cases c <;> simp [none]

theorem ChanState.workCount_append (x : ChanState) (h k : Handle) :
    ({ x with rangeQ := x.rangeQ ++ [k] } : ChanState).workCount h = x.workCount h + if k = h then 1 else 0 := by
  simp only [ChanState.workCount, List.count_append, List.count_singleton, beq_iff_eq]
  omega

/-- A request for a handle without range work is its only one. -/
theorem State.workCount_request {s : State} {c : Chan} {k : Handle} (free : s.hasWork k = false) {h : Handle}
    (law : s.workCount h ≤ 1) : (s.modChan c fun x => { x with rangeQ := x.rangeQ ++ [k] }).workCount h ≤ 1 := by
  by_cases e : k = h
  · subst e
    have zero := fun c => ChanState.workCount_of_not_hasWork (State.hasWork_eq_false.1 free c)
    rw [State.workCount_of_elsewhere c fun d ne => by rw [State.chan_modChan_ne s ne, zero], State.chan_modChan_same,
      ChanState.workCount_append, zero, if_pos rfl]
  · refine (State.workCount_le fun d => ?_).trans law
    rw [State.chan_modChan]
    split
    · rename_i same
      rw [same, ChanState.workCount_append, if_neg e, Nat.add_zero]
    · exact le_rfl

theorem HandleLaw.handle_injective {s : State} (law : HandleLaw s) {e e' : Entry} (mem : e ∈ s.registry)
    (mem' : e' ∈ s.registry) (same : e.handle = e'.handle) : e = e' := by
  have nodup : (s.registry.map (·.handle)).Nodup := law.1.imp fun lt => Nat.ne_of_lt lt
  exact List.inj_on_of_nodup_map nodup mem mem' same

theorem HandleLaw.count_rangingOn {s : State} (law : HandleLaw s) (c : Chan) (h : Handle) :
    (s.rangingOn c).count h ≤ 1 := by
  have nodup : (s.registry.map (·.handle)).Nodup := law.1.imp fun lt => Nat.ne_of_lt lt
  exact List.nodup_iff_count_le_one.1 (nodup.sublist (List.Sublist.map _ List.filter_sublist)) h

theorem State.mem_rangingOn {s : State} {c : Chan} {h : Handle} (mem : h ∈ s.rangingOn c) :
    ∃ e ∈ s.registry, e.handle = h ∧ ∃ t, e.term = some t ∧ t.home = c := by
  obtain ⟨e, he, rfl⟩ := List.mem_map.1 mem
  obtain ⟨mem, ranging⟩ := List.mem_filter.1 he
  obtain ⟨t, ht, k⟩ := (Option.any_eq_true _ _).1 ranging
  rw [Bool.and_eq_true, decide_eq_true_eq] at k
  exact ⟨e, mem, rfl, t, ht, k.1⟩

/-- An entry ranges on its home channel alone. -/
theorem HandleLaw.rangingOn_unique {s : State} (law : HandleLaw s) {c d : Chan} {h : Handle}
    (onC : h ∈ s.rangingOn c) (onD : h ∈ s.rangingOn d) : c = d := by
  obtain ⟨e, mem, eh, t, ht, rfl⟩ := State.mem_rangingOn onC
  obtain ⟨e', mem', eh', t', ht', rfl⟩ := State.mem_rangingOn onD
  obtain rfl := law.handle_injective mem mem' (eh.trans eh'.symm)
  rw [ht] at ht'
  cases ht'
  rfl

/-- The queues rebuilt at a keep-tree restart name a RANGING entry once, since nothing else is left of the range work. -/
theorem HandleLaw.workCount_rebuildQueues {s : State} (law : HandleLaw s)
    (empty : ∀ c, (s.chan c).offer = none ∧ (s.chan c).gaps = []) (h : Handle) : s.rebuildQueues.workCount h ≤ 1 := by
  have count (c : Chan) : (s.rebuildQueues.chan c).workCount h = (s.rangingOn c).count h := by
    rw [State.rebuildQueues_chan]
    simp [ChanState.workCount, empty c]
  by_cases some : ∃ c, h ∈ s.rangingOn c
  · obtain ⟨c, hc⟩ := some
    rw [State.workCount_of_elsewhere c fun d ne => ?_, count]
    · exact law.count_rangingOn c h
    · rw [count, List.count_eq_zero]
      exact fun hd => ne (law.rangingOn_unique hd hc)
  · have zero (c : Chan) : (s.rebuildQueues.chan c).workCount h = 0 := by
      rw [count, List.count_eq_zero]
      exact fun hc => some ⟨c, hc⟩
    simp [State.workCount, zero]

theorem Micro.keeps_rangeWorkLaw {s t : State} (m : Micro s t) (handles : HandleLaw s) (law : RangeWorkLaw s) :
    RangeWorkLaw t := by
  intro h
  have same (e : ∀ c, t.chan c = s.chan c) : t.workCount h ≤ 1 :=
    (State.workCount_le fun c => by rw [e c]).trans (law h)
  cases m with
  | other _ chans => exact same (State.chan_congr chans)
  | chan c x keeps =>
    refine (State.workCount_le fun d => ?_).trans (law h)
    rw [State.chan_setChan]
    split
    · rename_i e; rw [e]; exact keeps.work h
    · exact le_rfl
  | skew c v =>
    refine (State.workCount_le fun d => ?_).trans (law h)
    rw [State.chan_setChan]
    split
    · rename_i e; rw [e]; exact le_rfl
    · exact le_rfl
  | request c k free => exact State.workCount_request free (law h)
  | rebuild empty => exact handles.workCount_rebuildQueues empty h
  | create k m c coarse => exact same (State.chan_createEntry s k m c coarse)
  | full => exact Nat.zero_le 1
  | _ => exact same fun _ => rfl

/-- Settles O15: only a request and the rebuilding of the queues add range work, a request for a handle that has none, the
rebuilding once for each RANGING entry. -/
theorem stepKeepsTheRangeWorkLaw : Obligations.StepKeepsTheRangeWorkLaw := by
  intro s t e handles law
  refine (kept_by_step (P := fun s => HandleLaw s ∧ RangeWorkLaw s) (fun s t m law => ?_)
    (fun s1 u _ _ _ _ law => ?_) ⟨handles, law⟩ e).2
  · exact ⟨m.keeps_handleLaw law.1, m.keeps_rangeWorkLaw law.1 law.2⟩
  · exact ⟨law.1.of_sublist (by rw [State.heldHandles_replaceSettings]), law.2⟩

end Sys2Proof.Machine
end

section
/-! CALL (R58, R60), and what becomes of an outstanding offer: it is placed, declined or expires (R53 to R55, R59). -/

namespace Sys2Proof.Machine

/-! ## CALL (R58, R60) -/

/-- Settles O26: CALL is judged by the channel it names and by that channel's link state. -/
theorem callMakesCensusDue : Obligations.CallMakesCensusDue := by
  intro s ch ready
  have exec_eq : exec (.call ch) s = .next (State.answer (s.reqCall ch)) :=
    State.request_ready ready _ fun s => s.reqCall ch
  rw [exec_eq, State.reqCall, State.onChannel]
  refine ⟨fun high => ?_, fun c hc down => ?_, fun c hc up => ?_⟩
  · rw [Chan.ofNum_eq_none high]; rfl
  · simp only [hc, down]; rfl
  · simp only [hc, up]; rfl

/-! ## Notices raised before other updates -/

theorem State.raises_modChan (s : State) (l : List Notice) (c : Chan) (f : ChanState → ChanState) :
    (l.foldl State.raise s).modChan c f = l.foldl State.raise (s.modChan c f) := by
  induction l generalizing s with
  | nil => rfl
  | cons n l ih => rw [List.foldl_cons, ih, State.raise_modChan]; rfl

theorem State.raises_bump (s : State) (l : List Notice) (c : Chan) (k : TallyKind) :
    (l.foldl State.raise s).bump c k = l.foldl State.raise (s.bump c k) := State.raises_modChan s l c _

@[simp] theorem State.chan_raises (s : State) (l : List Notice) (c : Chan) :
    (l.foldl State.raise s).chan c = s.chan c := foldl_keeps l State.raise (·.chan c) (fun s n => State.chan_raise s n c) s

/-! ## Placement (R54) -/

/-- Why a PLACE RESULT is counted as unaligned (R54): the channel is not UP, or no outstanding offer has its tag. -/
theorem State.takePlaceResult_unaligned {s : State} {c : Chan} {tag : Tag} {placed : Bool}
    (k : s.isUp c = false ∨ ∀ o, (s.chan c).offer = some o → o.tag ≠ tag) :
    s.takePlaceResult c tag placed = s.bump c .unalignedRecord := by
  unfold State.takePlaceResult
  rcases k with down | other
  · rw [down]; rfl
  · split
    · split
      · rename_i o ho
        rw [if_neg (other o ho)]
      · rfl
    · rfl

theorem State.takePlaceResult_placed {s : State} {c : Chan} {o : Offer} (up : s.isUp c = true)
    (ho : (s.chan c).offer = some o) : s.takePlaceResult c o.tag true = s.modChan c (·.place o) := by
  simp only [State.takePlaceResult, up, ho, if_true]

theorem State.takePlaceResult_declined {s : State} {c : Chan} {o : Offer} (up : s.isUp c = true)
    (ho : (s.chan c).offer = some o) : s.takePlaceResult c o.tag false = s.declineOffer c o := by
  simp only [State.takePlaceResult, up, ho, if_true, Bool.false_eq_true, if_false]

/-! ## Declines and expiry (R53, R55, R59) -/

theorem State.expireOffer_of_expired {s : State} {c : Chan} {n : Cyc} {o : Offer} (ho : (s.chan c).offer = some o)
    (k : o.refCycle = n ∨ 32768 ≤ (o.refCycle - n).toNat) : s.expireOffer c n = s.declineOffer c o := by
  have expired : o.expired n = true := by
    rcases k with rfl | past
    · simp [Offer.expired]
    · rw [Offer.expired, atOrAfter, decide_eq_false (Nat.not_lt.2 past)]
      exact Bool.or_true _
  simp only [State.expireOffer, ho, expired, if_true]

/-- A declined quiet census ends: its due flag and the quiet-pending flag are cleared, with CENSUS_QUIET (R55, R59). -/
theorem State.endCensus_eq {s : State} {c : Chan} {o : Offer} {quiet : Bool}
    (hquiet : quiet = (o.kind == .census && (s.chan c).quietPending)) :
    (if o.kind = .census ∧ (s.chan c).quietPending = true then (s.modChan c fun x => { x with due := false }).quiet c else s) =
      (if quiet then [Notice.censusQuiet c] else []).foldl State.raise (s.modChan c fun x => { x with
        due := x.due && !quiet, quietPending := x.quietPending && !quiet }) := by
  have decides : (o.kind = .census ∧ (s.chan c).quietPending = true) ↔ quiet = true := by rw [hquiet]; simp
  cases quiet with
  | true =>
    rw [if_pos (decides.2 rfl), State.quiet_of_pending, State.modChan_modChan]
    · exact congrArg (State.raise · _) (State.modChan_congr s c (by simp))
    · rw [State.chan_modChan_same]; exact (decides.2 rfl).2
  | false =>
    rw [if_neg fun k => Bool.noConfusion (decides.1 k)]
    exact (State.modChan_id s c _ (by simp)).symm

/-- GAP_STARVED is raised at a streak of 64 or more with the latch clear (R55). -/
theorem starved_iff (n : Nat) (latch : Bool) :
    (Config.starvedStreak ≤ satSucc n ∧ latch = false) ↔ (decide (64 ≤ n + 1) && !latch) = true := by
  simp only [Config.starvedStreak, satSucc, Config.count16, Bool.and_eq_true, decide_eq_true_eq, Bool.not_eq_true']
  exact and_congr_left fun _ => by omega

/-- A decline in one update of the channel, then its notices (R55). -/
theorem State.declineOffer_eq {s : State} {c : Chan} {o : Offer} {quiet starve : Bool}
    (hquiet : quiet = (o.kind == .census && (s.chan c).quietPending))
    (hstarve : starve = (decide (64 ≤ (s.chan c).declineStreak + 1) && !(s.chan c).starved)) :
    s.declineOffer c o = ((if quiet then [Notice.censusQuiet c] else []) ++
      (if starve then [Notice.gapStarved c] else [])).foldl State.raise ((s.modChan c fun x => { x with
        offer := none
        rangeQ := o.rangeHandle.toList ++ x.rangeQ
        due := x.due && !quiet
        quietPending := x.quietPending && !quiet
        declineStreak := min (x.declineStreak + 1) 65535
        starved := x.starved || starve }).bump c .declines) := by
  have decides := starved_iff (s.chan c).declineStreak (s.chan c).starved
  rw [← hstarve] at decides
  unfold State.declineOffer
  dsimp only
  rw [State.endCensus_eq (quiet := quiet) (by rw [State.chan_modChan_same]; exact hquiet), State.raises_modChan,
    State.raises_bump, State.chan_raises, List.foldl_append, State.raises_modChan]
  simp only [State.bump, State.modChan_modChan, State.chan_modChan_same]
  cases starve with
  | true =>
    rw [if_pos (decides.2 rfl)]
    exact congrArg (fun w => State.raise (List.foldl State.raise w _) _) (State.modChan_congr s c (by rw [Bool.or_true]; rfl))
  | false =>
    rw [if_neg fun k => Bool.noConfusion (decides.1 k)]
    exact congrArg (fun w => List.foldl State.raise w _) (State.modChan_congr s c (by rw [Bool.or_false]; rfl))

/-- Settles O50: placement by the kind of the offer, and `declineOffer_eq` for a decline and for an expiry. -/
theorem offersArePlacedDeclinedOrExpire : Obligations.OffersArePlacedDeclinedOrExpire := by
  intro s c run
  have place (tag : Tag) (placed : Bool) : exec (.placeResult c tag placed) s = .next (s.takePlaceResult c tag placed) :=
    congrArg _ (State.whenRunning_running run _)
  refine ⟨fun tag placed k => by rw [place, State.takePlaceResult_unaligned k], fun n k => ?_, fun o up ho => ?_⟩
  · cases up : s.isUp c with
    | false => exact congrArg _ ((State.whenRunning_running run _).trans (if_neg (by rw [up]; decide)))
    | true =>
      rw [exec_offerExpiry n run up, State.expireOffer_of_ahead (k.resolve_left (by rw [up]; decide))]
  · have placed : exec (.placeResult c o.tag true) s = .next (s.modChan c (·.place o)) := by
      rw [place, State.takePlaceResult_placed up ho]
    refine ⟨fun kind => ?_, fun h kind => ?_, fun kind => ?_, fun quiet starve back ended hquiet hstarve hback hended => ?_⟩
    · rw [placed]
      simp only [ChanState.place, Offer.placed, kind]
    · rw [placed]
      simp only [ChanState.place, Offer.placed, kind]
    · rw [placed]
      simp only [ChanState.place, Offer.placed, kind]
    · have returned : back = o.rangeHandle.toList :=
        hback.trans (by unfold Offer.rangeHandle; cases o.kind <;> rfl)
      have declined : s.declineOffer c o = ended := by
        rw [State.declineOffer_eq hquiet hstarve, hended, returned]
      refine ⟨by rw [place, State.takePlaceResult_declined up ho, declined], fun n past => ?_⟩
      rw [exec_offerExpiry n run up, State.expireOffer_of_expired ho past, declined]

end Sys2Proof.Machine
end

section
/-! The link states (R40, R41, R44, R45): the change of a link state, what leaving UP does, HELLO, LINK DOWN and the second
silent scan. -/

namespace Sys2Proof.Machine

/-! ## Going to a link state -/

theorem ChanState.isUp_of_up {x : ChanState} {n : Cyc} (h : x.link = .up n) : x.isUp = true := by
  simp [ChanState.isUp, h]

theorem ChanState.isUp_eq_false {x : ChanState} (h : ∀ n, x.link ≠ .up n) : x.isUp = false := by
  unfold ChanState.isUp
  split
  · rename_i n e; exact absurd e (h n)
  · rfl

theorem State.setLink_eq (s : State) (c : Chan) (l : LinkState) : s.setLink c l = (s.modChan c fun x => { x with
    link := l, silence := if l = .down ∨ l = .mismatched then 0 else x.silence }).raise (Notice.channelState c l) := by
  unfold State.setLink
  cases l <;> simp

theorem State.goTo_of_up {s : State} {c : Chan} {n : Cyc} (h : (s.chan c).link = .up n) (l : LinkState) :
    s.goTo c l = s.leaveUp c l := if_pos (ChanState.isUp_of_up h)

theorem State.goTo_of_not_up {s : State} {c : Chan} (h : ∀ n, (s.chan c).link ≠ .up n) (l : LinkState) :
    s.goTo c l = s.setLink c l := if_neg (by rw [State.isUp, ChanState.isUp_eq_false h]; decide)

/-- A link that is not UP goes DOWN or becomes MISMATCHED with its silence count at 0 (R40, R44). -/
theorem State.goTo_still {s : State} {c : Chan} (h : ∀ n, (s.chan c).link ≠ .up n) {l : LinkState}
    (still : l = .down ∨ l = .mismatched) :
    s.goTo c l = (s.modChan c fun x => { x with link := l, silence := 0 }).raise (Notice.channelState c l) := by
  rw [State.goTo_of_not_up h, State.setLink_eq]
  simp only [still, if_true]

/-! ## Leaving UP (R45, R66) -/

/-- The state with events composed behind those that wait. -/
def State.compose (s : State) (evs : List Event) : State := { s with events := s.events ++ evs }

theorem State.compose_modChan (s : State) (c : Chan) (f : ChanState → ChanState) (evs : List Event) :
    (s.modChan c f).compose evs = (s.compose evs).modChan c f := rfl

theorem State.compose_raise (s : State) (n : Notice) (evs : List Event) :
    (s.raise n).compose evs = (s.compose evs).raise n := by
  unfold State.compose State.raise; dsimp only; split <;> rfl

theorem State.compose_raises (s : State) (l : List Notice) (evs : List Event) :
    (l.foldl State.raise s).compose evs = l.foldl State.raise (s.compose evs) := by
  induction l generalizing s with
  | nil => rfl
  | cons n l ih => rw [List.foldl_cons, ih, State.compose_raise]; rfl

theorem State.leaveUp_compose (s : State) (c : Chan) (l : LinkState) : s.leaveUp c l =
    (((s.modChan c ChanState.leaveUp).quiet c).compose (.channelExit c :: discardReports c (s.chan c).outq)).setLink c l :=
  rfl

/-- What leaving UP makes of the channel. -/
def ChanState.left (l : LinkState) (x : ChanState) : ChanState :=
  { x.leaveUp with
    link := l
    silence := if l = .down ∨ l = .mismatched then 0 else x.silence
    quietPending := false }

/-- A quiet census ends as the channel leaves UP, whose gaps are gone (R45, R59). -/
theorem State.leaveUp_quiet (s : State) (c : Chan) : (s.modChan c ChanState.leaveUp).quiet c =
    (if (s.chan c).quietPending then [Notice.censusQuiet c] else []).foldl State.raise
      (s.modChan c fun x => { x.leaveUp with quietPending := false }) := by
  have same : ((s.modChan c ChanState.leaveUp).chan c).quietPending = (s.chan c).quietPending := by
    rw [State.chan_modChan_same]; rfl
  cases q : (s.chan c).quietPending with
  | true => rw [State.quiet_of_pending (same.trans q), State.modChan_modChan]; rfl
  | false =>
    rw [State.quiet, if_neg (by rw [same, q]; decide)]
    exact State.modChan_congr s c (by rw [← q]; rfl)

theorem State.leaveUp_eq (s : State) (c : Chan) (l : LinkState) : s.leaveUp c l =
    ((if (s.chan c).quietPending then [Notice.censusQuiet c] else []).foldl State.raise
      ((s.compose (.channelExit c :: discardReports c (s.chan c).outq)).modChan c (ChanState.left l))).raise
        (Notice.channelState c l) := by
  rw [State.leaveUp_compose, State.leaveUp_quiet, State.compose_raises, State.compose_modChan, State.setLink_eq,
    State.raises_modChan, State.modChan_modChan]
  rfl

/-! ## HELLO (R41) -/

/-- Settles O45, link state by link state. -/
theorem helloIsJudgedAgainstTheCycleLength : Obligations.HelloIsJudgedAgainstTheCycleLength := by
  intro s c len cur run
  have hello : exec (.hello c len cur) s = .next (s.takeHello c len cur) := congrArg _ (State.whenRunning_running run _)
  refine ⟨fun same => ⟨fun closed => ?_, fun last count link => ?_, fun last link => ?_⟩,
    fun differs => ⟨fun link => ?_, fun closed => ?_, fun last link => ?_⟩, fun law out same => ?_⟩
  · have notUp : ∀ n, (s.chan c).link ≠ .up n := by rcases closed with link | link <;> rw [link] <;> nofun
    rw [hello, State.takeHello, if_pos same]
    have begun : s.goTo c (.aligning cur 1) = (s.modChan c fun x => { x with link := .aligning cur 1 }).raise
        (Notice.channelState c (.aligning cur 1)) := by
      rw [State.goTo_of_not_up notUp, State.setLink_eq]; simp
    rcases closed with link | link <;> simp only [link, begun, State.send_eq, State.raise_modChan, State.modChan_modChan]
  · rw [hello, State.takeHello, if_pos same]
    simp only [link, State.send_eq, State.modChan_modChan]
  · rw [hello, State.takeHello, if_pos same]
    simp only [link, State.goTo_of_up link, State.send_eq, State.modChan_modChan]
  · rw [hello, State.takeHello, if_neg differs]
    simp only [link, if_true, State.send_eq]
  · have notUp : ∀ n, (s.chan c).link ≠ .up n := by rcases closed with link | ⟨_, _, link⟩ <;> rw [link] <;> nofun
    have other : (s.chan c).link ≠ .mismatched := by rcases closed with link | ⟨_, _, link⟩ <;> rw [link] <;> nofun
    rw [hello, State.takeHello, if_neg differs]
    simp only [if_neg other, State.goTo_still notUp (.inr rfl), State.send_eq, State.raise_modChan, State.modChan_modChan]
  · rw [hello, State.takeHello, if_neg differs]
    simp only [link, State.goTo_of_up link, State.send_eq, reduceCtorEq, if_false]
  · have range : 4096 ≤ s.tree.L ∧ s.tree.L ≤ 262143 := (TreeSettings.inRange_iff s.tree).1 law.1 0 _ _ rfl rfl
    omega

/-! ## LINK DOWN and silence (R44) -/

theorem exec_silenceTimeout {s : State} {c : Chan} (run : s.running) :
    exec (.silenceTimeout c) s = .next (s.silenceExpiry c) := congrArg _ (State.whenRunning_running run _)

/-- The second silent scan of a link in ALIGNING or UP takes it DOWN. -/
theorem State.silenceExpiry_goTo {s : State} {c : Chan} (live : (s.chan c).link ≠ .down ∧ (s.chan c).link ≠ .mismatched)
    (unseen : (s.chan c).cycleSeen = false) (silent : 1 ≤ (s.chan c).silence) : s.silenceExpiry c = s.goTo c .down := by
  have out : (s.chan c).cycleSeen = false ∧ Config.silenceLimit ≤ (s.chan c).silence + 1 :=
    ⟨unseen, Nat.add_le_add_right silent 1⟩
  unfold State.silenceExpiry
  dsimp only
  split
  · rename_i down; exact absurd down live.1
  · rename_i mismatched; exact absurd mismatched live.2
  · rw [if_pos out]

theorem State.silenceExpiry_none {s : State} {c : Chan} (k : (s.chan c).link = .down ∨ (s.chan c).link = .mismatched ∨
    (s.chan c).cycleSeen = true ∨ (s.chan c).silence = 0) : s.silenceExpiry c = s := by
  unfold State.silenceExpiry
  dsimp only
  split
  · rfl
  · rfl
  · rename_i notDown notMismatched
    refine if_neg fun out => ?_
    obtain ⟨unseen, silent⟩ := out
    rcases k with link | link | seen | zero
    · exact notDown link
    · exact notMismatched link
    · rw [seen] at unseen; cases unseen
    · rw [zero] at silent; exact absurd silent (by decide)

/-- Settles O46: `leaveUp_eq` for leaving UP, and the change to DOWN of a link that is not UP. -/
theorem leavingUpForDown : Obligations.LeavingUpForDown := by
  refine ⟨fun g => ?_, fun o => ?_, fun s c => ⟨fun last l left link hleft => ?_, fun run => ?_⟩⟩
  · unfold Gap.rangeHandle; cases g.kind <;> rfl
  · unfold Offer.rangeHandle; cases o.kind <;> rfl
  · rw [State.leaveUp_eq, hleft]
    split <;> rfl
  · have down : exec (.linkDown c) s = .next (s.takeLinkDown c) := congrArg _ (State.whenRunning_running run _)
    have goes (h : (s.chan c).link ≠ .down) : exec (.linkDown c) s = .next (s.goTo c .down) := by
      rw [down, State.takeLinkDown, if_neg h]
    refine ⟨fun link => ?_, fun link => ?_, fun last count link => ⟨?_, fun unseen silent => ?_⟩,
      fun last link => ⟨?_, fun unseen silent => ?_⟩, fun k => ?_⟩
    · rw [down, State.takeLinkDown, if_pos link]
    · rw [goes (by rw [link]; nofun), State.goTo_still (by rw [link]; nofun) (.inl rfl)]
    · rw [goes (by rw [link]; nofun), State.goTo_still (by rw [link]; nofun) (.inl rfl)]
    · rw [exec_silenceTimeout run, State.silenceExpiry_goTo (by rw [link]; exact ⟨nofun, nofun⟩) unseen silent,
        State.goTo_still (by rw [link]; nofun) (.inl rfl)]
    · rw [goes (by rw [link]; nofun), State.goTo_of_up link]
    · rw [exec_silenceTimeout run, State.silenceExpiry_goTo (by rw [link]; exact ⟨nofun, nofun⟩) unseen silent,
        State.goTo_of_up link]
    · rw [exec_silenceTimeout run, State.silenceExpiry_none k]

end Sys2Proof.Machine
end

section
/-! What an operation leaves of the links (R40, R42, R44, R45): it keeps the link state and the silence count of each
channel, and a channel that is not UP and holds nothing holds nothing afterwards. -/

namespace Sys2Proof.Machine

/-! ## One channel's part -/

/-- The channel holds no roster, no message, no offer, no gap and no lapsed tag. -/
def ChanState.bare (x : ChanState) : Prop :=
  x.roster = [] ∧ x.outq = [] ∧ x.offer = none ∧ x.gaps = [] ∧ x.lapsed = []

/-- From x to y the link unit stands still, and nothing comes to a channel that is not UP. -/
structure ChanSteady (x y : ChanState) : Prop where
  link : y.link = x.link
  silence : y.silence = x.silence
  bare : x.isUp = false → x.bare → y.bare

namespace ChanSteady

theorem refl (x : ChanState) : ChanSteady x x := ⟨rfl, rfl, fun _ => id⟩

theorem isUp {x y : ChanState} (k : ChanSteady x y) : y.isUp = x.isUp := by unfold ChanState.isUp; rw [k.link]

theorem trans {x y z : ChanState} (a : ChanSteady x y) (b : ChanSteady y z) : ChanSteady x z :=
  ⟨b.link.trans a.link, b.silence.trans a.silence, fun down k => b.bare (a.isUp.trans down) (a.bare down k)⟩

theorem linkLaw {x y : ChanState} (k : ChanSteady x y) (law : x.linkLaw) : y.linkLaw := by
  obtain ⟨bare, aligning, still, silence⟩ := law
  refine ⟨fun down => ?_, by rw [k.link]; exact aligning, by rw [k.link, k.silence]; exact still, by rw [k.silence]; exact silence⟩
  have down' : x.isUp = false := k.isUp.symm.trans down
  exact k.bare down' (bare down')

/-- Each part that a channel must not hold while it is not UP stays empty. -/
theorem of_parts {x y : ChanState} (link : y.link = x.link) (silence : y.silence = x.silence)
    (roster : x.roster = [] → y.roster = []) (outq : x.outq = [] → y.outq = []) (offer : x.offer = none → y.offer = none)
    (gaps : x.gaps = [] → y.gaps = []) (lapsed : x.lapsed = [] → y.lapsed = []) : ChanSteady x y :=
  ⟨link, silence, fun _ ⟨a, b, c, d, e⟩ => ⟨roster a, outq b, offer c, gaps d, lapsed e⟩⟩

/-- On an UP channel anything may come. -/
theorem of_up {x y : ChanState} (up : x.isUp = true) (link : y.link = x.link) (silence : y.silence = x.silence) :
    ChanSteady x y := ⟨link, silence, fun down => by rw [up] at down; cases down⟩

theorem voidFor (x : ChanState) (h : Handle) : ChanSteady x (x.voidFor h) :=
  of_parts rfl rfl id id (fun e => by simp [ChanState.voidFor, e]) (fun e => by simp [ChanState.voidFor, e]) id

/-- Messages leave the out-queue. -/
theorem filterOutq (x : ChanState) (f : QMsg → Bool) : ChanSteady x { x with outq := x.outq.filter f } :=
  of_parts rfl rfl id (fun e => by simp [e]) id id id

/-- Gaps leave the in-flight table. -/
theorem filterGaps (x : ChanState) (f : Gap → Bool) : ChanSteady x { x with gaps := x.gaps.filter f } :=
  of_parts rfl rfl id id id (fun e => by simp [e]) id

/-- Gaps in flight change their fields. -/
theorem mapGaps (x : ChanState) (f : Gap → Gap) : ChanSteady x { x with gaps := x.gaps.map f } :=
  of_parts rfl rfl id id id (fun e => by simp [e]) id

end ChanSteady

/-! ## Every channel -/

/-- Every channel's link unit stands still, and nothing comes to a channel that is not UP. -/
abbrev LinkSteady (s t : State) : Prop := ∀ c, ChanSteady (s.chan c) (t.chan c)

namespace LinkSteady

theorem refl (s : State) : LinkSteady s s := fun _ => .refl _

theorem trans {s t u : State} (a : LinkSteady s t) (b : LinkSteady t u) : LinkSteady s u := fun c => (a c).trans (b c)

theorem isUp {s t : State} (k : LinkSteady s t) (c : Chan) : t.isUp c = s.isUp c := (k c).isUp

theorem linkLaw {s t : State} (k : LinkSteady s t) (law : LinkLaw s) : LinkLaw t := fun c => (k c).linkLaw (law c)

theorem of_chan {s t : State} (e : ∀ c, t.chan c = s.chan c) : LinkSteady s t := fun c => by rw [e c]; exact .refl _

theorem modChan {s : State} {c : Chan} {f : ChanState → ChanState} (k : ChanSteady (s.chan c) (f (s.chan c))) :
    LinkSteady s (s.modChan c f) := fun d => by
  rw [State.chan_modChan]
  split
  · rename_i e; subst e; exact k
  · exact .refl _

theorem modChans {s : State} {f : ChanState → ChanState} (k : ∀ x, ChanSteady x (f x)) : LinkSteady s (s.modChans f) :=
  fun c => by rw [State.chan_modChans]; exact k _

theorem raise (s : State) (n : Notice) : LinkSteady s (s.raise n) := of_chan fun c => State.chan_raise s n c

theorem bump (s : State) (c : Chan) (k : TallyKind) : LinkSteady s (s.bump c k) :=
  modChan (.of_parts rfl rfl id id id id id)

theorem send (s : State) (c : Chan) (r : TxRecord) : LinkSteady s (s.send c r) :=
  modChan (.of_parts rfl rfl id id id id id)

theorem modTerm (s : State) (h : Handle) (f : Terminal → Terminal) : LinkSteady s (s.modTerm h f) := of_chan fun _ => rfl

theorem foldl {α : Type} (l : List α) (f : State → α → State) (k : ∀ s a, LinkSteady s (f s a)) (s : State) :
    LinkSteady s (l.foldl f s) := by
  induction l generalizing s with
  | nil => exact .refl s
  | cons a l ih => exact (k s a).trans (ih _)

/-! ## The registry's shared operations -/

theorem takeReport (s : State) (why : ReportCause) (c : Chan) (k : MsgKind) (h : Handle) :
    LinkSteady s (s.takeReport why c k h) := of_chan fun d => State.takeReport_chan s why c d k h

/-- A channel that is not UP takes no message (R66). -/
theorem offerMsg (s : State) (c : Chan) (m : TreeMsg) : LinkSteady s (s.offerMsg c m).1 := by
  unfold State.offerMsg
  split
  · rename_i up
    dsimp only
    have joined : LinkSteady s (s.modChan c fun x => { x with outq := (joinRegistry s.tree.r m (s.chan c).outq).queue }) :=
      modChan (.of_up up rfl rfl)
    split
    · exact joined.trans (takeReport (s.modChan c _) .evicted c _ _)
    · exact joined
  · exact .refl s

theorem queueFor (s : State) (h : Handle) (m : TreeMsg) : LinkSteady s (s.queueFor h m) := by
  unfold State.queueFor
  split
  · exact .refl s
  · rename_i t _
    dsimp only
    have offered := (modTerm s h fun u => { u with owed := u.owed.dropFor m.kind }).trans (offerMsg _ t.home m)
    split
    · exact offered
    · exact offered.trans (takeReport _ _ _ _ _)

theorem voidAll (s : State) (h : Handle) : LinkSteady s (s.voidAll h) := modChans fun x => .voidFor x h

/-- A roster-join on a channel that is not UP has no effect (R62). -/
theorem rosterJoin (s : State) (c : Chan) (h : Handle) : LinkSteady s (s.rosterJoin c h) := by
  unfold State.rosterJoin
  split
  · rename_i joins
    exact (modChan (f := fun x => { x with roster := x.roster ++ [h] }) (.of_up joins.1 rfl rfl)).trans (send _ c _)
  · exact .refl s

theorem rosterLeave (s : State) (c : Chan) (h : Handle) : LinkSteady s (s.rosterLeave c h) := by
  unfold State.rosterLeave
  split
  · exact (modChan (f := fun x => { x with roster := x.roster.filter fun h' => !(h' == h) })
      (.of_parts rfl rfl (fun e => by simp [e]) id id id id)).trans (send _ c _)
  · exact .refl s

theorem leaveIfActive (s : State) (t : Terminal) (h : Handle) :
    LinkSteady s (if t.phase.isActive then s.rosterLeave t.home h else s) := by
  split
  · exact rosterLeave s t.home h
  · exact .refl s

theorem rangeRequest (s : State) (h : Handle) : LinkSteady s (s.rangeRequest h) := by
  unfold State.rangeRequest
  split
  · exact .refl s
  · split
    · exact .refl s
    · exact modChan (.of_parts rfl rfl id id id id id)

theorem leaveRosters (s : State) (h : Handle) : LinkSteady s (s.leaveRosters h) :=
  foldl Chan.all _ (fun s c => rosterLeave s c h) s

theorem storeDamaged (s : State) (h : Handle) : LinkSteady s (s.storeDamaged h) :=
  of_chan fun c => State.storeDamaged_chan s h c

theorem dismissEverywhere (s : State) (h : Handle) : LinkSteady s (s.dismissEverywhere h) :=
  foldl Chan.all _ (fun s c => offerMsg s c (.dismiss h)) s

theorem damage (s : State) (h : Handle) : LinkSteady s (s.damage h) := by
  unfold State.damage
  have emptied : LinkSteady s ((s.voidAll h).modChans fun x => { x with outq := removeAll h x.outq }) :=
    (voidAll s h).trans (modChans fun x => .filterOutq x _)
  revert emptied
  generalize ((s.voidAll h).modChans fun x => { x with outq := removeAll h x.outq }) = s1
  intro emptied
  exact (((emptied.trans (leaveRosters s1 h)).trans (storeDamaged _ h)).trans (dismissEverywhere _ h)).trans
    (of_chan fun c => State.chan_offerFlaw _ .uncorrectable h c)

theorem readEntry (s : State) (h : Handle) : LinkSteady s (s.readEntry h) := by
  rcases s.readEntry_cases h with ⟨same, -⟩ | e
  · exact of_chan fun c => State.chan_congr same c
  · rw [e]; exact damage s h

/-! ## Entry transitions -/

theorem freeEntry (s : State) (h : Handle) (notice : Bool) : LinkSteady s (s.freeEntry h notice) := by
  have emptied : LinkSteady s ((s.voidAll h).modChans fun x => { x with outq := removeAllButDismiss h x.outq }) :=
    (voidAll s h).trans (modChans fun x => .filterOutq x _)
  unfold State.freeEntry
  dsimp only
  split
  · exact fun c => by rw [State.chan_raise]; exact emptied c
  · exact emptied

theorem enterDismissing (s : State) (h : Handle) : LinkSteady s (s.enterDismissing h) := by
  unfold State.enterDismissing
  split
  · exact .refl s
  · rename_i t _
    exact (((leaveIfActive s t h).trans (voidAll _ h)).trans (modTerm _ h _)).trans (queueFor _ h _)

theorem enterLost (s : State) (h : Handle) : LinkSteady s (s.enterLost h) := by
  unfold State.enterLost
  split
  · exact .refl s
  · rename_i t _
    have lost : LinkSteady s { (s.rosterLeave t.home h).modTerm h (fun u => { u with
        moveFlag := false, phase := .lost t.phase.final 0 false }) with
      retention := (s.rosterLeave t.home h).retention ++ [h] } := rosterLeave s t.home h
    exact lost.trans (queueFor _ h _)

theorem newEntry (s : State) (m : Mark) (c : Chan) (coarse : Int) : LinkSteady s (s.newEntry m c coarse).1 := by
  have taken : LinkSteady s s.takeHandle.1 := by
    unfold State.takeHandle
    split
    · exact .refl s
    · split
      · exact .refl s
      · exact freeEntry s _ true
  unfold State.newEntry
  split
  · rename_i e; rw [e] at taken; exact taken
  · rename_i s1 h e
    rw [e] at taken
    exact ((taken.trans (of_chan fun d => State.chan_createEntry s1 h m c coarse d)).trans (queueFor _ h _)).trans (raise _ _)

theorem reEnrol (s : State) (h : Handle) (c : Chan) (coarse : Int) (retry : Nat) (remove announce : Bool) :
    LinkSteady s (s.reEnrol h c coarse retry remove announce) := by
  unfold State.reEnrol
  split
  · exact .refl s
  · rename_i t _
    dsimp only
    have voided : LinkSteady s ((s.forgetEnrol h).voidAll h) :=
      (of_chan (t := s.forgetEnrol h) fun _ => rfl).trans (voidAll _ h)
    have left := voided.trans (leaveIfActive _ t h)
    revert left
    generalize (if t.phase.isActive then ((s.forgetEnrol h).voidAll h).rosterLeave t.home h
      else (s.forgetEnrol h).voidAll h) = s2
    intro left
    have removed : LinkSteady s2 (if remove then s2.modChan t.home fun x => { x with outq := removeAll h x.outq } else s2) := by
      split
      · exact modChan (.filterOutq _ _)
      · exact .refl s2
    have queued := LinkSteady.trans (fun d => left.trans removed d) (queueFor
      { (if remove then s2.modChan t.home fun x => { x with outq := removeAll h x.outq } else s2).modTerm h
          fun u => u.reEnrolled c coarse retry with
        retention := if t.phase.isLost then
          (if remove then s2.modChan t.home fun x => { x with outq := removeAll h x.outq } else s2).retention.filter
            (fun x => !(x == h))
          else (if remove then s2.modChan t.home fun x => { x with outq := removeAll h x.outq } else s2).retention }
      h (.enrol h t.mark))
    split
    · exact queued.trans (raise _ _)
    · exact queued

theorem failAttempt (s : State) (h : Handle) (o : RangeOutcome) : LinkSteady s (s.failAttempt h o) := by
  unfold State.failAttempt
  split
  · exact .refl s
  · rename_i t _
    have failed := (voidAll s h).trans (raise _ (Notice.rangeFailed h t.home o.code))
    dsimp only
    split
    · split
      · exact (failed.trans (enterLost _ h)).trans (raise _ _)
      · exact failed.trans (enterLost _ h)
    · exact failed.trans (enterDismissing _ h)

theorem activate (s : State) (h : Handle) : LinkSteady s (s.activate h) := by
  unfold State.activate
  split
  · exact .refl s
  · rename_i t _
    split
    · rename_i fix _
      have joined := ((modTerm s h fun u => { u with
        phase := .active fix (freshDrift u.owed) 0, wasActive := true, heard := false, moveFlag := false }).trans
          (rosterJoin _ t.home h)).trans (raise _ (Notice.activated h t.home fix.fill))
      dsimp only
      split
      · exact joined.trans (raise _ _)
      · exact joined
    · exact .refl s

theorem withdrawRetune (s : State) (h : Handle) (t : Terminal) : LinkSteady s (s.withdrawRetune h t) := by
  unfold State.withdrawRetune
  split
  · exact modTerm s h _
  · exact modChan (.filterOutq _ _)

theorem cancelMove (s : State) (h : Handle) (t : Terminal) (fix : Fix) : LinkSteady s (s.cancelMove h t fix) :=
  (((withdrawRetune s h t).trans (modTerm _ h _)).trans (rosterJoin _ t.home h)).trans (raise _ _)

theorem exitEntry (s : State) (c : Chan) (h : Handle) : LinkSteady s (s.exitEntry c h) := by
  unfold State.exitEntry
  split
  · exact .refl s
  · split
    · have read := readEntry s h
      dsimp only
      split
      · exact read
      · split
        · exact read.trans (modTerm _ h _)
        · exact read.trans (modTerm _ h _)
        · split
          · exact read.trans (cancelMove _ h _ _)
          · exact read
        · exact read.trans (modTerm _ h _)
        · exact read
    · exact .refl s

end LinkSteady

end Sys2Proof.Machine
end

section
/-! What an operation leaves of the links and of the law of the roster (R45, R62). -/

namespace Sys2Proof.Machine

/-- The links stand still, nothing comes to a channel that is not UP, and where P holds the roster's law is kept. -/
structure Steady (P : Prop) (s t : State) : Prop where
  links : LinkSteady s t
  roster : P → RosterKept s t

namespace Steady

variable {P : Prop}

theorem refl (s : State) : Steady P s s := ⟨.refl s, fun _ _ => id⟩

theorem trans {s t u : State} (a : Steady P s t) (b : Steady P t u) : Steady P s u :=
  ⟨a.links.trans b.links, fun p => (a.roster p).trans (b.roster p)⟩

theorem of_imp {Q : Prop} {s t : State} (k : Steady Q s t) (i : P → Q) : Steady P s t := ⟨k.links, fun p => k.roster (i p)⟩

theorem of_same {s t : State} (links : LinkSteady s t) (k : RosterSame s t) : Steady P s t := ⟨links, fun _ => k.kept⟩

theorem of_kept {s t : State} (links : LinkSteady s t) (k : RosterKept s t) : Steady P s t := ⟨links, fun _ => k⟩

/-- Neither a channel nor an entry changes. -/
theorem of_eq {s t : State} (chans : t.chans = s.chans) (registry : t.registry = s.registry) : Steady P s t :=
  .of_same (.of_chan fun c => State.chan_congr chans c)
    (.of_parts (fun h => State.term_congr registry h) fun c => by rw [State.chan_congr chans c]; exact ⟨rfl, rfl⟩)

theorem foldl {α : Type} (l : List α) (f : State → α → State) (k : ∀ s a, Steady P s (f s a)) (s : State) :
    Steady P s (l.foldl f s) := by
  induction l generalizing s with
  | nil => exact .refl s
  | cons a l ih => exact (k s a).trans (ih _)

theorem raise (s : State) (n : Notice) : Steady P s (s.raise n) := .of_same (.raise s n) (.raise s n)

theorem bump (s : State) (c : Chan) (k : TallyKind) : Steady P s (s.bump c k) := .of_same (.bump s c k) (.bump s c k)

theorem send (s : State) (c : Chan) (r : TxRecord) : Steady P s (s.send c r) := .of_same (.send s c r) (.send s c r)

/-- A change of a channel outside its link and roster. -/
theorem modChan {s : State} {c : Chan} {f : ChanState → ChanState} (k : ChanSteady (s.chan c) (f (s.chan c)))
    (r : (f (s.chan c)).roster = (s.chan c).roster) : Steady P s (s.modChan c f) :=
  .of_same (.modChan k) <| .of_parts (fun _ => rfl) fun d => by
    rw [State.chan_modChan]
    split
    · rename_i e; subst e; exact ⟨k.link, r⟩
    · exact ⟨rfl, rfl⟩

/-- A change of an entry that keeps home channel and activity. -/
theorem modTerm (s : State) (h : Handle) {f : Terminal → Terminal}
    (k : ∀ t, s.term h = some t → (f t).home = t.home ∧ (f t).phase.isActive = t.phase.isActive) :
    Steady P s (s.modTerm h f) := .of_same (.modTerm s h f) (.modTerm s h k)

/-- A change of the fields of an entry of which one value is known. -/
theorem modTerm_of {s : State} {h : Handle} {t : Terminal} (ht : s.term h = some t) {f : Terminal → Terminal}
    (home : (f t).home = t.home) (active : (f t).phase.isActive = t.phase.isActive) : Steady P s (s.modTerm h f) :=
  .modTerm s h fun u hu => by rw [ht] at hu; cases hu; exact ⟨home, active⟩

/-- A change of an entry that is ACTIVE neither before nor after, its home channel perhaps another. -/
theorem modTerm_idle {s : State} {h : Handle} {t : Terminal} (ht : s.term h = some t) {f : Terminal → Terminal}
    (before : t.phase.isActive = false) (after : (f t).phase.isActive = false) : Steady P s (s.modTerm h f) :=
  .of_kept (.modTerm s h f) <| .vanish (.modTerm s h f)
    (fun r c => by rw [State.chan_modTerm]; exact r.absent (State.not_activeOn ht before) c)
    (State.not_activeOn (t := f t) (by simp [ht]) after)

/-- An entry leaves its home channel's roster and is not ACTIVE afterwards (R62). -/
theorem leave {s : State} {h : Handle} {t : Terminal} (ht : s.term h = some t) {f : Terminal → Terminal}
    (after : (f t).phase.isActive = false) : Steady P s ((s.rosterLeave t.home h).modTerm h f) :=
  .of_kept ((LinkSteady.rosterLeave s t.home h).trans (.modTerm _ h f)) <|
    .vanish ((RosterKeeps.rosterLeave s t.home h).trans (.modTerm _ h f))
      (fun r c => by rw [State.chan_modTerm]; exact r.left ht c)
      (State.not_activeOn (t := f t) (by simp [ht]) after)

/-- As `Steady.leave`, the roster-leave taken when the entry is ACTIVE. -/
theorem leaveIfActive {s : State} {h : Handle} {t : Terminal} (ht : s.term h = some t) {f : Terminal → Terminal}
    (after : (f t).phase.isActive = false) :
    Steady P s ((if t.phase.isActive then s.rosterLeave t.home h else s).modTerm h f) := by
  split
  · exact leave ht after
  · rename_i idle; exact modTerm_idle ht (by simpa using idle) after

/-! ## The registry's shared operations -/

theorem takeReport (s : State) (why : ReportCause) (c : Chan) (k : MsgKind) (h : Handle) :
    Steady P s (s.takeReport why c k h) := .of_same (.takeReport s why c k h) (.takeReport s why c k h)

theorem offerMsg (s : State) (c : Chan) (m : TreeMsg) : Steady P s (s.offerMsg c m).1 :=
  .of_same (.offerMsg s c m) (.offerMsg s c m)

theorem queueFor (s : State) (h : Handle) (m : TreeMsg) : Steady P s (s.queueFor h m) :=
  .of_same (.queueFor s h m) (.queueFor s h m)

theorem voidAll (s : State) (h : Handle) : Steady P s (s.voidAll h) := .of_same (.voidAll s h) (.voidAll s h)

theorem rangeRequest (s : State) (h : Handle) : Steady P s (s.rangeRequest h) :=
  .of_same (.rangeRequest s h) (.rangeRequest s h)

theorem readEntry (s : State) (h : Handle) : Steady P s (s.readEntry h) := .of_kept (.readEntry s h) (.readEntry s h)

theorem readAll (s : State) : Steady P s s.readAll := foldl _ _ (fun s h => readEntry s h) s

theorem freeEntry (s : State) (h : Handle) (notice : Bool) (idle : ∀ t, s.term h = some t → t.phase.isActive = false) :
    Steady P s (s.freeEntry h notice) :=
  .of_kept (.freeEntry s h notice) <| .freeEntry s h notice fun c => by
    rintro ⟨t, ht, -, active⟩
    rw [idle t ht] at active
    cases active

theorem enterDismissing (s : State) (h : Handle) : Steady P s (s.enterDismissing h) :=
  .of_kept (.enterDismissing s h) (.enterDismissing s h)

theorem enterLost (s : State) (h : Handle) : Steady P s (s.enterLost h) := .of_kept (.enterLost s h) (.enterLost s h)

theorem newEntry (s : State) (m : Mark) (c : Chan) (coarse : Int) :
    Steady (RetentionLaw s) s (s.newEntry m c coarse).1 := ⟨.newEntry s m c coarse, .newEntry s m c coarse⟩

theorem reEnrol (s : State) (h : Handle) (c : Chan) (coarse : Int) (retry : Nat) (remove announce : Bool) :
    Steady P s (s.reEnrol h c coarse retry remove announce) :=
  .of_kept (.reEnrol s h c coarse retry remove announce) (.reEnrol s h c coarse retry remove announce)

/-! ## Ranging -/

theorem failAttempt (s : State) (h : Handle) (o : RangeOutcome) : Steady P s (s.failAttempt h o) :=
  .of_kept (.failAttempt s h o) (.failAttempt s h o)

theorem addRetry (s : State) (h : Handle) (o : RangeOutcome) : Steady P s (s.addRetry h o) := by
  unfold State.addRetry
  split
  · exact .refl s
  · rename_i t ht
    split
    · exact .refl s
    · split
      · exact failAttempt s h o
      · exact modTerm_of ht rfl (by cases t.phase <;> rfl)

theorem clearSamples (s : State) (h : Handle) : Steady P s (s.modTerm h Terminal.clearSamples) :=
  modTerm s h fun t _ => by
    unfold Terminal.clearSamples
    split
    · rename_i e; exact ⟨rfl, by rw [e]; rfl⟩
    · exact ⟨rfl, rfl⟩

theorem acceptAttempt (s : State) (h : Handle) (final : Int)
    (idle : ∀ t, s.term h = some t → t.phase.isActive = false) : Steady P s (s.acceptAttempt h final) := by
  unfold State.acceptAttempt
  split
  · exact .refl s
  · rename_i t ht
    have voided := voidAll (P := P) s h
    have joining : Steady P (s.voidAll h) ((s.voidAll h).modTerm h fun u => { u with
        phase := .joining ⟨final, fillDelay s.tree (s.chan t.home).skew final⟩ }) :=
      modTerm_idle (by simpa using ht) (idle t ht) rfl
    exact (voided.trans joining).trans (queueFor _ h _)

theorem completeAttempt (s : State) (h : Handle) (l : List Int)
    (idle : ∀ t, s.term h = some t → t.phase.isActive = false) : Steady P s (s.completeAttempt h l) := by
  unfold State.completeAttempt
  split
  · exact .refl s
  · split
    · exact ((bump s _ _).trans (clearSamples _ h)).trans (addRetry _ h _)
    · exact ((bump s _ _).trans (clearSamples _ h)).trans (addRetry _ h _)
    · exact acceptAttempt s h _ idle

theorem appendSample (s : State) (h : Handle) (x : Int) : Steady P s (s.appendSample h x) := by
  unfold State.appendSample
  split
  · exact .refl s
  · rename_i t ht
    split
    · rename_i n smp f d phase
      have appended : Steady P s (s.modTerm h fun u => { u with phase := .ranging n (smp ++ [x]) f d }) :=
        modTerm_of ht rfl (by rw [phase]; rfl)
      dsimp only
      split
      · refine appended.trans (completeAttempt _ h _ fun u hu => ?_)
        rw [State.term_modTerm_same, ht] at hu
        cases hu
        rfl
      · exact appended
    · exact .refl s

theorem mismatch (s : State) (c : Chan) (h : Handle) : Steady P s (s.mismatch c h) :=
  (bump s c _).trans (addRetry _ h _)

theorem setSeen (s : State) (c : Chan) (tag : Tag) : Steady P s (s.setSeen c tag) := modChan (.mapGaps _ _) rfl

theorem setHeard (s : State) (h : Handle) : Steady P s (s.setHeard h) := modTerm s h fun _ _ => ⟨rfl, rfl⟩

theorem takeRangeReply (s : State) (c : Chan) (g : Gap) (h : Handle) (seen : Bool) (a : Arrival) :
    Steady P s (s.takeRangeReply c g h seen a) := by
  unfold State.takeRangeReply
  have read := readEntry (P := P) s h
  have noted := read.trans (setSeen _ c g.tag)
  have heard := noted.trans (setHeard _ h)
  dsimp only
  split
  · exact read.trans (bump _ c _)
  · split
    · exact read.trans (bump _ c _)
    · split
      · exact noted.trans (mismatch _ c h)
      · split
        · exact heard.trans (mismatch _ c h)
        · exact heard.trans (appendSample _ h _)

theorem gapCloseEvent (s : State) (c : Chan) (h : Handle) (seen : Bool) : Steady P s (s.gapCloseEvent c h seen) := by
  unfold State.gapCloseEvent
  have read := readEntry (P := P) s h
  have retried := (read.trans (bump _ c .noReply)).trans (addRetry _ h .noReply)
  dsimp only
  split
  · exact read
  · split
    · split
      · exact read.trans (rangeRequest _ h)
      · split
        · exact retried
        · exact retried.trans (rangeRequest _ h)
    · exact read

/-! ## The gap scheduler -/

theorem quiet (s : State) (c : Chan) : Steady P s (s.quiet c) := by
  unfold State.quiet
  split
  · exact (modChan (f := fun x => { x with quietPending := false }) (.of_parts rfl rfl id id id id id) rfl).trans (raise _ _)
  · exact .refl s

theorem declineOffer (s : State) (c : Chan) (o : Offer) : Steady P s (s.declineOffer c o) := by
  unfold State.declineOffer
  dsimp only
  have ended : Steady P s (s.modChan c fun x => { x with offer := none, rangeQ := o.rangeHandle.toList ++ x.rangeQ }) :=
    modChan (.of_parts rfl rfl id id (fun _ => rfl) id id) rfl
  revert ended
  generalize (s.modChan c fun x => { x with offer := none, rangeQ := o.rangeHandle.toList ++ x.rangeQ }) = s1
  intro ended
  have quieted : Steady P s1 (if o.kind = .census ∧ (s1.chan c).quietPending = true then
      (s1.modChan c fun x => { x with due := false }).quiet c else s1) := by
    split
    · exact (modChan (f := fun x => { x with due := false }) (.of_parts rfl rfl id id id id id) rfl).trans (quiet _ c)
    · exact .refl s1
  revert quieted
  generalize (if o.kind = .census ∧ (s1.chan c).quietPending = true then
      (s1.modChan c fun x => { x with due := false }).quiet c else s1) = s2
  intro quieted
  have counted : Steady P s2 ((s2.modChan c fun x => { x with declineStreak := satSucc x.declineStreak }).bump c .declines) :=
    (modChan (f := fun x => { x with declineStreak := satSucc x.declineStreak }) (.of_parts rfl rfl id id id id id) rfl).trans
      (bump _ c _)
  have counted := (ended.trans quieted).trans counted
  split
  · exact (counted.trans (modChan (f := fun x => { x with starved := true }) (.of_parts rfl rfl id id id id id) rfl)).trans
      (raise _ _)
  · exact counted

theorem expireOffer (s : State) (c : Chan) (n : Cyc) : Steady P s (s.expireOffer c n) := by
  unfold State.expireOffer
  split
  · split
    · exact declineOffer s c _
    · exact .refl s
  · exact .refl s

/-- An UP channel takes an offer. -/
theorem makeOffer {s : State} {c : Chan} (up : s.isUp c = true) (n : Cyc) (k : OfferKind) (span : Nat × Nat) :
    Steady P s (s.makeOffer c n k span) := modChan (.of_up up rfl rfl) rfl

theorem offerRange {c : Chan} (n : Cyc) (l : List Handle) {s : State} (up : s.isUp c = true) :
    Steady P s (s.offerRange c n l) := by
  induction l generalizing s with
  | nil => exact .refl s
  | cons h l ih =>
    unfold State.offerRange
    have read := readEntry (P := P) s h
    have up' : (s.readEntry h).isUp c = true := (read.links.isUp c).trans up
    dsimp only
    split
    · exact read.trans (ih up')
    · split
      · exact read.trans (makeOffer up' n _ _)
      · exact read.trans (ih up')

theorem chooseOffer {s : State} {c : Chan} (up : s.isUp c = true) (n : Cyc) : Steady P s (s.chooseOffer c n) := by
  unfold State.chooseOffer
  dsimp only
  split
  · split
    · exact makeOffer up n _ _
    · exact .refl s
  · have searched : Steady P s (if (s.chan c).censusInFlight = false ∧ (s.chan c).rangeGaps < Config.maxRangeGaps then
        s.offerRange c n (s.chan c).rangeQ else s) := by
      split
      · exact offerRange n _ up
      · exact .refl s
    revert searched
    generalize (if (s.chan c).censusInFlight = false ∧ (s.chan c).rangeGaps < Config.maxRangeGaps then
        s.offerRange c n (s.chan c).rangeQ else s) = s1
    intro searched
    split
    · exact searched.trans (makeOffer ((searched.links.isUp c).trans up) n _ _)
    · exact searched

theorem offerStep {s : State} {c : Chan} (up : s.isUp c = true) (n : Cyc) : Steady P s (s.offerStep c n).1 := by
  unfold State.offerStep
  have expired := expireOffer (P := P) s c n
  dsimp only
  split
  · exact expired
  · exact expired.trans (chooseOffer ((expired.links.isUp c).trans up) n)

theorem takePlaceResult (s : State) (c : Chan) (tag : Tag) (placed : Bool) :
    Steady P s (s.takePlaceResult c tag placed) := by
  unfold State.takePlaceResult
  split
  · rename_i up
    split
    · rename_i o _
      split
      · split
        · refine modChan (.of_up up ?_ ?_) ?_ <;> (unfold ChanState.place; cases o.kind <;> rfl)
        · exact declineOffer s c o
      · exact bump s c _
    · exact bump s c _
  · exact bump s c _

theorem closeGap (s : State) (c : Chan) (g : Gap) : Steady P s (s.closeGap c g) := by
  unfold State.closeGap
  have closed : Steady P s (s.modChan c fun x => { x with gaps := x.gaps.filter fun g' => !(g'.tag == g.tag) }) :=
    modChan (.filterGaps _ _) rfl
  dsimp only
  split
  · exact closed.trans (gapCloseEvent _ c _ _)
  · exact closed
  · exact closed.trans (quiet _ c)

theorem takeGapClosed (s : State) (c : Chan) (tag : Tag) : Steady P s (s.takeGapClosed c tag) := by
  unfold State.takeGapClosed
  split
  · split
    · exact closeGap s c _
    · split
      · exact modChan (.of_parts rfl rfl id id id id fun e => by simp [e]) rfl
      · exact bump s c _
  · exact bump s c _

theorem lapseOne {s : State} {c : Chan} (up : s.isUp c = true) (tag : Tag) : Steady P s (s.lapseOne c tag) := by
  unfold State.lapseOne
  split
  · rename_i g _
    have closed := closeGap (P := P) s c g
    exact (closed.trans (modChan (f := fun x => { x with lapsed := pushLapsed tag x.lapsed })
      (.of_up ((closed.links.isUp c).trans up) rfl rfl) rfl)).trans (bump _ c _)
  · exact .refl s

theorem lapseTags {c : Chan} (l : List Tag) {s : State} (up : s.isUp c = true) :
    Steady P s (l.foldl (fun st tag => st.lapseOne c tag) s) := by
  induction l generalizing s with
  | nil => exact .refl s
  | cons tag l ih =>
    have lapsed := lapseOne (P := P) up tag
    exact lapsed.trans (ih ((lapsed.links.isUp c).trans up))

theorem lapseCheck {s : State} {c : Chan} (up : s.isUp c = true) (n : Cyc) : Steady P s (s.lapseCheck c n) :=
  lapseTags _ up

end Steady

end Sys2Proof.Machine
end

section
/-! What the admission, census and drift units, the taking of an event and a scan's walk leave of the links and of the
roster's law. -/

namespace Sys2Proof.Machine

/-- Under the law of handles, a handle that an entry holds is one an entry may hold (R21). -/
theorem HandleLaw.wf {s : State} (law : HandleLaw s) {h : Handle} (mem : h ∈ s.heldHandles) : Handle.wf h = true := by
  obtain ⟨lo, hi⟩ := (handleLaw_iff.1 law).2 h mem
  simp [Handle.wf, Config.maxHandle, lo, hi]

namespace Steady

variable {P : Prop}

/-! ## The admission unit -/

/-- A notice raised after a change of neither a channel nor an entry. -/
theorem raised {s t : State} (chans : t.chans = s.chans) (registry : t.registry = s.registry) (n : Notice) :
    Steady P s (t.raise n) := (of_eq chans registry).trans (raise t n)

theorem removeWaiting (s : State) (m : Mark) : Steady P s (s.removeWaiting m) := of_eq rfl rfl

theorem refreshWaiting (s : State) (m : Mark) (c : Chan) (coarse : Int) : Steady P s (s.refreshWaiting m c coarse) :=
  of_eq rfl rfl

theorem appendWaiting (s : State) (m : Mark) (c : Chan) (coarse : Int) : Steady P s (s.appendWaiting m c coarse) := by
  unfold State.appendWaiting
  split
  · exact raised (by rfl) (by rfl) _
  · split
    · exact .refl s
    · exact raised (by rfl) (by rfl) _

theorem barredAnswer (s : State) (c : Chan) (m : Mark) : Steady P s (s.barredAnswer c m) := by
  unfold State.barredAnswer
  have counted := bump (P := P) s c .barredAnswer
  dsimp only
  split
  · split
    · exact counted
    · exact counted.trans (raised (by rfl) (by rfl) _)
  · exact counted

theorem registrationFailed (s : State) (c : Chan) (m : Mark) : Steady P s (s.registrationFailed c m) := by
  unfold State.registrationFailed
  have counted := bump (P := P) s c .registryFull
  dsimp only
  split
  · exact counted
  · exact counted.trans (raised (by rfl) (by rfl) _)

theorem register (s : State) (c : Chan) (m : Mark) (coarse : Int) :
    Steady (RetentionLaw s) s (s.register c m coarse) := by
  have created := newEntry s m c coarse
  unfold State.register
  split
  · rename_i e; rw [e] at created; exact created
  · rename_i e
    rw [e] at created
    exact (created.trans (registrationFailed _ c m)).trans (refreshWaiting _ m c coarse)

theorem admission (s : State) (c : Chan) (m : Mark) (coarse : Int) :
    Steady (RetentionLaw s) s (s.admission c m coarse) := by
  unfold State.admission
  split
  · exact register s c m coarse
  · exact (removeWaiting s m).trans (barredAnswer _ c m)
  · exact refreshWaiting s m c coarse
  · exact register s c m coarse
  · exact barredAnswer s c m
  · split
    · exact register s c m coarse
    · exact appendWaiting s m c coarse
    · exact bump s c _

/-! ## The census unit -/

theorem censusDefect (s : State) (c : Chan) (k : TallyKind) (m : Mark) : Steady P s (s.censusDefect c k m) := by
  unfold State.censusDefect
  dsimp only
  split
  · exact (bump s c k).trans (raise _ _)
  · exact bump s c k

theorem addAnswer (s : State) (c : Chan) (tag : Tag) (m : Mark) : Steady P s (s.addAnswer c tag m) :=
  modChan (.mapGaps _ _) rfl

/-- The entry a census reply restarts is not ACTIVE, so its new home channel holds it on no roster (R83). -/
theorem censusRestart (s : State) (c : Chan) (h : Handle) {t : Terminal} (ht : s.term h = some t)
    (idle : t.phase.isActive = false) (retry : Nat) (coarse : Int) : Steady P s (s.censusRestart c h t retry coarse) := by
  unfold State.censusRestart
  dsimp only
  split
  · exact reEnrol s h c coarse _ _ _
  · have removed : Steady P (s.voidAll h) (if decide (t.home ≠ c) = true then
        (s.voidAll h).modChan t.home fun x => { x with outq := removeAll h x.outq } else s.voidAll h) := by
      split
      · exact modChan (.filterOutq _ _) rfl
      · exact .refl _
    have ht' : (if decide (t.home ≠ c) = true then
        (s.voidAll h).modChan t.home fun x => { x with outq := removeAll h x.outq } else s.voidAll h).term h = some t := by
      split <;> simpa using ht
    have rehomed := ((voidAll (P := P) s h).trans removed).trans
      (modTerm_idle ht' (f := fun u => { u with home := c }) idle idle)
    exact rehomed.trans (failAttempt _ h _)

theorem markConflict (s : State) (c : Chan) (h : Handle) (m : Mark) : Steady P s (s.markConflict c h m) :=
  (bump s c _).trans (raise _ _)

theorem matched (s : State) (c : Chan) (h : Handle) {t : Terminal} (ht : s.term h = some t) (coarse : Int) :
    Steady P s (s.matched c h t coarse) := by
  unfold State.matched
  split
  · exact reEnrol s h c coarse _ _ _
  · rename_i phase; exact censusRestart s c h ht (by rw [phase]; rfl) _ coarse
  · rename_i phase; exact censusRestart s c h ht (by rw [phase]; rfl) _ coarse
  · exact .refl s
  · split
    · exact markConflict s c h _
    · exact reEnrol s h c coarse _ _ _

theorem takeCensusReply (s : State) (c : Chan) (g : Gap) (answers : List Mark) (a : Arrival) :
    Steady (RetentionLaw s) s (s.takeCensusReply c g answers a) := by
  unfold State.takeCensusReply
  dsimp only
  split
  · exact censusDefect s c _ _
  · have read := (addAnswer (P := RetentionLaw s) s c g.tag (identityOf a.mark)).trans (readAll _)
    have retained := Micros.keeps_retentionLaw ((micros_addAnswer s c g.tag (identityOf a.mark)).trans (micros_readAll _))
    split
    · rename_i found; exact read.trans (matched _ c _ (State.findMark_eq_some found).1 _)
    · exact read.trans ((admission _ c _ _).of_imp retained)

/-! ## The drift unit -/

theorem driftRerange (s : State) (h : Handle) (estimate : Int) : Steady P s (s.driftRerange h estimate) := by
  unfold State.driftRerange
  split
  · exact .refl s
  · rename_i t ht
    have left : Steady P s ((s.rosterLeave t.home h).modTerm h fun u => u.reRanged estimate) := leave ht rfl
    exact (((left.trans (queueFor _ h _)).trans (rangeRequest _ h)).trans (bump _ _ _)).trans (raise _ _)

/-- An ACTIVE entry keeps its home channel and stays ACTIVE. -/
theorem modTerm_active (s : State) (h : Handle) {f : Terminal → Terminal} (home : ∀ u, (f u).home = u.home)
    (before : ∀ u, s.term h = some u → u.phase.isActive = true) (after : ∀ u, (f u).phase.isActive = true) :
    Steady P s (s.modTerm h f) := modTerm s h fun u hu => ⟨home u, by rw [after u, before u hu]⟩

theorem driftTrim (s : State) (h : Handle) (t : Terminal) (fix : Fix) (d : Drift) (missed : Nat) (sum : Int)
    (active : ∀ u, s.term h = some u → u.phase.isActive = true) : Steady P s (s.driftTrim h t fix d missed sum) := by
  unfold State.driftTrim
  dsimp only
  split
  · refine Steady.trans (Steady.trans ?_ (bump _ _ _)) (queueFor _ h _)
    exact modTerm_active s h (fun _ => rfl) active fun _ => rfl
  · exact driftRerange s h _

theorem driftOffset (s : State) (h : Handle) (t : Terminal) (fix : Fix) (d : Drift) (missed : Nat) (e : Int)
    (active : ∀ u, s.term h = some u → u.phase.isActive = true) : Steady P s (s.driftOffset h t fix d missed e) := by
  unfold State.driftOffset
  split
  · exact .refl s
  · split
    · exact modTerm_active s h (fun _ => rfl) active fun _ => rfl
    · split
      · exact driftRerange s h _
      · split
        · exact modTerm_active s h (fun _ => rfl) active fun _ => rfl
        · split
          · exact driftTrim s h t fix d missed _ active
          · exact modTerm_active s h (fun _ => rfl) active fun _ => rfl

theorem takeDataBurst (s : State) (c : Chan) (a : Arrival) : Steady P s (s.takeDataBurst c a) := by
  unfold State.takeDataBurst
  have read := readEntry (P := P) s a.handle.toNat
  dsimp only
  split
  · split
    · exact read.trans (bump _ c _)
    · rename_i t ht
      split
      · rename_i phase
        have heard := read.trans (setHeard _ a.handle.toNat)
        split
        · refine heard.trans (driftOffset _ _ t _ _ _ _ fun u hu => ?_)
          rw [State.setHeard, State.term_modTerm_same, ht] at hu
          cases hu
          show t.phase.isActive = true
          rw [phase]; rfl
        · exact heard
      · exact read.trans (bump _ c _)
  · exact bump s c _

theorem takeArrival (s : State) (c : Chan) (a : Arrival) : Steady (RetentionLaw s) s (s.takeArrival c a) := by
  unfold State.takeArrival
  split
  · split
    · exact takeDataBurst s c a
    · split
      · split
        · exact takeCensusReply s c _ _ a
        · exact bump s c _
      · exact bump s c _
    · split
      · split
        · exact takeRangeReply s c _ _ _ a
        · exact bump s c _
      · exact bump s c _
  · exact bump s c _

/-! ## Events -/

theorem enrolDone (s : State) (h : Handle) {t : Terminal} (ht : s.term h = some t) (idle : t.phase.isActive = false)
    (retry : Nat) (final : Option Int) : Steady P s (s.enrolDone h retry final) :=
  (modTerm_idle ht (f := fun u => { u with phase := .ranging retry [] final none }) idle rfl).trans (rangeRequest _ h)

theorem moveComplete (s : State) (h : Handle) {t : Terminal} (ht : s.term h = some t) (idle : t.phase.isActive = false)
    (fix : Fix) (target : Chan) : Steady P s (s.moveComplete h fix target) :=
  ((modTerm_idle ht (f := fun u => { (u.reRanged fix.final) with
    home := target, owed := { u.owed with trim := Option.none } }) idle rfl).trans
      (modChan (f := fun x => { x with outq := removeKind .dismiss h x.outq }) (.filterOutq _ _) rfl)).trans
    (rangeRequest _ h)

/-- The handle of a final hand-out may be that of an entry that joins the roster: it is one an entry may hold. -/
theorem takeFinalHandOut (s : State) (c : Chan) (k : MsgKind) (h : Handle) :
    Steady (HandleLaw s) s (s.takeFinalHandOut c k h) := by
  unfold State.takeFinalHandOut
  have read := readEntry (P := HandleLaw s) s h
  have handles := Micros.keeps_handleLaw (micros_readEntry s h)
  dsimp only
  split
  · exact read
  · rename_i t ht
    split
    · refine read.trans ?_
      have activated : Steady (HandleLaw s) (s.readEntry h) ((s.readEntry h).activate h) :=
        ⟨.activate _ h, fun law => .activate _ h ((handles law).wf (State.mem_heldHandles_of_term ht))⟩
      revert activated ht
      generalize s.readEntry h = s1
      intro ht activated
      split
      · rename_i phase; exact enrolDone s1 h ht (by rw [phase]; rfl) _ _
      · exact activated
      · exact activated
      · rename_i phase
        split
        · exact modTerm_of ht rfl (by rw [phase]; rfl)
        · exact .refl s1
      · rename_i phase; exact moveComplete s1 h ht (by rw [phase]; rfl) _ _
      · rename_i phase; exact modTerm_of ht rfl (by rw [phase]; rfl)
      · rename_i phase; exact modTerm_of ht rfl (by rw [phase]; rfl)
      · exact .refl s1
    · exact read

theorem exitEntries (c : Chan) (l : List Handle) (wf : P → ∀ h ∈ l, Handle.wf h = true) (s : State) :
    Steady P s (l.foldl (fun st h => st.exitEntry c h) s) := by
  induction l generalizing s with
  | nil => exact .refl s
  | cons h l ih =>
    have one : Steady P s (s.exitEntry c h) := ⟨.exitEntry s c h, fun p => .exitEntry s c h (wf p h List.mem_cons_self)⟩
    exact one.trans (ih (fun p x mem => wf p x (List.mem_cons_of_mem _ mem)) _)

theorem takeChannelExit (s : State) (c : Chan) : Steady (HandleLaw s) s (s.takeChannelExit c) :=
  exitEntries c _ (fun law _ mem => law.wf mem) s

theorem takeVoid (s : State) (c : Chan) (h : Handle) : Steady P s (s.takeVoid c h) := modChan (.voidFor _ h) rfl

/-- An event that is no roster event. -/
theorem takeEvent (s : State) (e : Event) (joins : ∀ c h, e ≠ .rosterJoin c h) (leaves : ∀ c h, e ≠ .rosterLeave c h) :
    Steady (HandleLaw s) s (s.takeEvent e) := by
  cases e with
  | finalHandOut c k h => exact takeFinalHandOut s c k h
  | report why c k h => exact takeReport s why c k h
  | void c h => exact takeVoid s c h
  | rosterJoin c h => exact absurd rfl (joins c h)
  | rosterLeave c h => exact absurd rfl (leaves c h)
  | channelExit c => exact takeChannelExit s c

/-! ## The presence scanner's walk -/

theorem loseEntry (s : State) (h : Handle) (t : Terminal) : Steady P s (s.loseEntry h t) := (enterLost s h).trans (raise _ _)

theorem presence (s : State) (h : Handle) {t : Terminal} (ht : s.term h = some t) (active : t.phase.isActive = true)
    (fix : Fix) (d : Drift) (missed : Nat) : Steady P s (s.presence h t fix d missed) := by
  unfold State.presence
  split
  · split
    · exact modTerm_of ht rfl (by rw [active]; rfl)
    · split
      · exact loseEntry s h t
      · exact modTerm_of ht rfl (by rw [active]; rfl)
  · exact .refl s

theorem stateStep (s : State) (h : Handle) : Steady P s (s.stateStep h) := by
  unfold State.stateStep
  split
  · exact .refl s
  · rename_i t ht
    have freed (idle : t.phase.isActive = false) : Steady P s (s.freeEntry h true) :=
      freeEntry s h true fun u hu => by rw [ht] at hu; cases hu; exact idle
    split
    · rename_i phase; exact presence s h ht (by rw [phase]; rfl) _ _ _
    · rename_i phase
      split
      · exact modTerm_of ht rfl (by rw [phase]; rfl)
      · exact freed (by rw [phase]; rfl)
    · rename_i phase
      split
      · exact freed (by rw [phase]; rfl)
      · exact .refl s
    · exact .refl s

theorem offerOwed (s : State) (h : Handle) (k : MsgKind) : Steady P s (s.offerOwed h k) := by
  unfold State.offerOwed
  split
  · exact .refl s
  · rename_i t _
    split
    · exact .refl s
    · rename_i m _
      have offered := offerMsg (P := P) s t.home m
      dsimp only
      split
      · exact offered.trans (modTerm _ h fun _ _ => ⟨rfl, rfl⟩)
      · exact offered

theorem owedStep (s : State) (h : Handle) : Steady P s (s.owedStep h) := by
  unfold State.owedStep
  split
  · exact .refl s
  · split
    · exact foldl _ _ (fun s k => offerOwed s h k) s
    · exact .refl s

theorem heardStep (s : State) (h : Handle) : Steady P s (s.heardStep h) := modTerm s h fun _ _ => ⟨rfl, rfl⟩

theorem scanEntry (s : State) (h : Handle) : Steady P s (s.scanEntry h) :=
  (((readEntry s h).trans (stateStep _ h)).trans (owedStep _ h)).trans (heardStep _ h)

theorem ageWaiting (s : State) : Steady P s s.ageWaiting := by
  unfold State.ageWaiting
  dsimp only
  refine Steady.trans ?_ (foldl _ _ (fun s _ => raise s _) _)
  exact of_eq rfl rfl

theorem lossPart (s : State) (h : Handle) : Steady P s (s.lossPart h) := by
  unfold State.lossPart
  have read := readEntry (P := P) s h
  dsimp only
  split
  · exact read
  · split
    · split
      · exact read.trans (loseEntry _ h _)
      · exact read
    · exact read

theorem retentionPart (s : State) (h : Handle) : Steady P s (s.retentionPart h) := by
  unfold State.retentionPart
  have read := readEntry (P := P) s h
  dsimp only
  split
  · exact read
  · rename_i t ht
    split
    · rename_i phase
      split
      · exact read.trans (freeEntry _ h true fun u hu => by rw [ht] at hu; cases hu; rw [phase]; rfl)
      · exact read
    · exact read

theorem pendingPart (s : State) (m : Mark) : Steady P s (s.pendingPart m) := by
  unfold State.pendingPart
  split
  · exact .refl s
  · split
    · exact (removeWaiting s m).trans (raise _ _)
    · exact .refl s

end Steady

/-- Each event leaves the links alone, a roster event given by itself too. -/
theorem LinkSteady.takeEvent (s : State) (e : Event) : LinkSteady s (s.takeEvent e) := by
  cases e with
  | rosterJoin c h => exact .rosterJoin s c h
  | rosterLeave c h => exact .rosterLeave s c h
  | finalHandOut c k h => exact (Steady.takeFinalHandOut s c k h).links
  | report why c k h => exact .takeReport s why c k h
  | void c h => exact (Steady.takeVoid (P := True) s c h).links
  | channelExit c => exact (Steady.takeChannelExit s c).links

end Sys2Proof.Machine
end

section
/-! What the link units keep of the laws of links and of the roster (R40 to R46, R62), and what bytes and records on a
channel link keep of them. -/

namespace Sys2Proof.Machine

/-! ## The laws together -/

/-- From s to t the laws of handles and of the retention list are kept, the law of links, and under these the law of the
roster. -/
structure Lawful (s t : State) : Prop where
  handles : HandleLaw s → HandleLaw t
  retention : RetentionLaw s → RetentionLaw t
  links : LinkLaw s → LinkLaw t
  roster : LinkLaw s → HandleLaw s → RetentionLaw s → RosterLaw s → RosterLaw t

theorem RosterKept.rosterLaw {s t : State} (k : RosterKept s t) (law : RosterLaw s) : RosterLaw t :=
  rosterLaw_iff.2 fun h => k h (rosterLaw_iff.1 law h)

namespace Lawful

theorem refl (s : State) : Lawful s s := ⟨id, id, id, fun _ _ _ => id⟩

theorem trans {s t u : State} (a : Lawful s t) (b : Lawful t u) : Lawful s u where
  handles law := b.handles (a.handles law)
  retention law := b.retention (a.retention law)
  links law := b.links (a.links law)
  roster links handles retention law :=
    b.roster (a.links links) (a.handles handles) (a.retention retention) (a.roster links handles retention law)

theorem foldl {α : Type} (l : List α) (f : State → α → State) (k : ∀ s a, Lawful s (f s a)) (s : State) :
    Lawful s (l.foldl f s) := by
  induction l generalizing s with
  | nil => exact .refl s
  | cons a l ih => exact (k s a).trans (ih _)

/-- A chain of small changes keeps the laws of handles and of the retention list. -/
theorem of_micros {s t : State} (m : Micros s t) (links : LinkLaw s → LinkLaw t)
    (roster : LinkLaw s → HandleLaw s → RetentionLaw s → RosterLaw s → RosterLaw t) : Lawful s t :=
  ⟨m.keeps_handleLaw, m.keeps_retentionLaw, links, roster⟩

theorem of_kept {s t : State} (m : Micros s t) (links : LinkLaw s → LinkLaw t) (roster : LinkLaw s → RosterKept s t) :
    Lawful s t := of_micros m links fun law _ _ => (roster law).rosterLaw

/-- What leaves the links alone, and the roster where P holds, which the laws give. -/
theorem of_steady {P : Prop} {s t : State} (m : Micros s t) (k : Steady P s t) (p : HandleLaw s → RetentionLaw s → P) :
    Lawful s t := of_micros m k.links.linkLaw fun _ handles retention => (k.roster (p handles retention)).rosterLaw

theorem steady {s t : State} (m : Micros s t) (k : Steady True s t) : Lawful s t := of_steady m k fun _ _ => trivial

theorem send (s : State) (c : Chan) (r : TxRecord) : Lawful s (s.send c r) := steady (micros_send s c r) (.send s c r)

theorem bump (s : State) (c : Chan) (k : TallyKind) : Lawful s (s.bump c k) := steady (micros_bump s c k) (.bump s c k)

end Lawful

/-! ## The change of a link state -/

/-- A link state other than UP, its alignment count within bounds. -/
structure LinkState.Closed (l : LinkState) : Prop where
  notUp : ∀ n, l ≠ .up n
  count : ∀ k n, l = .aligning k n → 1 ≤ n ∧ n ≤ 3

theorem LinkState.Closed.down : LinkState.Closed .down := ⟨nofun, nofun⟩

theorem LinkState.Closed.mismatched : LinkState.Closed .mismatched := ⟨nofun, nofun⟩

theorem LinkState.Closed.aligning (cur : Cyc) {n : Nat} (lo : 1 ≤ n) (hi : n ≤ 3) : LinkState.Closed (.aligning cur n) :=
  ⟨nofun, fun _ _ e => by cases e; exact ⟨lo, hi⟩⟩

/-- The channel as its link goes to a state, no channel leaving UP. -/
def ChanState.goes (l : LinkState) (x : ChanState) : ChanState :=
  { x with link := l, silence := if l = .down ∨ l = .mismatched then 0 else x.silence }

theorem State.chan_goTo (s : State) (c : Chan) (l : LinkState) :
    (s.goTo c l).chan c = if s.isUp c then (s.chan c).left l else (s.chan c).goes l := by
  unfold State.goTo
  split
  · rw [State.leaveUp_eq, State.chan_raise, State.chan_raises, State.chan_modChan_same]; rfl
  · rw [State.setLink_eq, State.chan_raise, State.chan_modChan_same]; rfl

/-- A channel that holds nothing meets the law in a state other than UP. -/
theorem ChanState.linkLaw_of_bare {x : ChanState} (bare : x.bare) (closed : x.link.Closed)
    (still : x.link = .down ∨ x.link = .mismatched → x.silence = 0) (silence : x.silence ≤ 1) : x.linkLaw :=
  ⟨fun _ => bare, closed.count, still, silence⟩

theorem silence_le_one {l : LinkState} {n : Nat} (k : n ≤ 1) : (if l = .down ∨ l = .mismatched then 0 else n) ≤ 1 := by
  split
  · exact Nat.zero_le 1
  · exact k

theorem ChanState.linkLaw_left {x : ChanState} (law : x.linkLaw) {l : LinkState} (closed : l.Closed) :
    (x.left l).linkLaw := by
  obtain ⟨-, -, -, silence⟩ := law
  exact linkLaw_of_bare ⟨rfl, rfl, rfl, rfl, rfl⟩ closed (fun k => if_pos k) (silence_le_one silence)

theorem ChanState.linkLaw_goes {x : ChanState} (law : x.linkLaw) (down : x.isUp = false) {l : LinkState}
    (closed : l.Closed) : (x.goes l).linkLaw := by
  obtain ⟨bare, -, -, silence⟩ := law
  exact linkLaw_of_bare (x := x.goes l) (bare down) closed (fun k => if_pos k) (silence_le_one silence)

/-- The law on one channel, the others as they were. -/
theorem LinkLaw.of_own {s t : State} {c : Chan} (law : LinkLaw s) (own : (t.chan c).linkLaw)
    (other : ∀ d, d ≠ c → t.chan d = s.chan d) : LinkLaw t := fun d => by
  by_cases e : d = c
  · rw [e]; exact own
  · rw [other d e]; exact law d

theorem Lawful.goTo (s : State) (c : Chan) {l : LinkState} (closed : l.Closed) : Lawful s (s.goTo c l) := by
  refine .of_kept (micros_goTo s c l) (fun law => law.of_own ?_ (State.Silent.goTo s c l).other) fun _ =>
    .goTo s c l closed.notUp
  rw [State.chan_goTo]
  split
  · exact ChanState.linkLaw_left (law c) closed
  · rename_i down; exact ChanState.linkLaw_goes (law c) (by simpa [State.isUp] using down) closed

/-- A change of a channel's link unit that leaves the channel UP or not. -/
theorem Lawful.link (s : State) (c : Chan) {f : ChanState → ChanState}
    (k : ∀ x, ∃ l n b, f x = { x with link := l, silence := n, cycleSeen := b })
    (up : (f (s.chan c)).isUp = (s.chan c).isUp) (own : (s.chan c).linkLaw → (f (s.chan c)).linkLaw) :
    Lawful s (s.modChan c f) := by
  have roster : RosterSame s (s.modChan c f) := by
    refine ⟨fun d => ?_, fun d h _ => ?_, fun h d _ => .rfl⟩
    · unfold State.isUp
      rw [State.chan_modChan]
      split
      · rename_i e; rw [up, e]
      · rfl
    · rw [State.chan_modChan]
      split
      · rename_i e
        obtain ⟨_, _, _, same⟩ := k (s.chan c)
        rw [same, e]
      · rfl
  refine .of_kept (micros_link s c f k) (fun law => law.of_own ?_ fun d e => State.chan_modChan_ne s e f) fun _ => roster.kept
  rw [State.chan_modChan_same]
  exact own (law c)

/-- As `Lawful.link`, the link state as it was. -/
theorem Lawful.seen (s : State) (c : Chan) {f : ChanState → ChanState}
    (k : ∀ x, ∃ n b, f x = { x with silence := n, cycleSeen := b }) (silence : (s.chan c).linkLaw →
      (f (s.chan c)).silence ≤ 1 ∧ ((s.chan c).link = .down ∨ (s.chan c).link = .mismatched → (f (s.chan c)).silence = 0)) :
    Lawful s (s.modChan c f) := by
  obtain ⟨n, b, same⟩ := k (s.chan c)
  refine .link s c (fun x => ?_) (by rw [same]; rfl) fun law => ?_
  · obtain ⟨n, b, e⟩ := k x
    exact ⟨x.link, n, b, e⟩
  · obtain ⟨low, zero⟩ := silence law
    obtain ⟨bare, aligning, -, -⟩ := law
    rw [same] at low zero ⊢
    exact ⟨bare, aligning, zero, low⟩

/-! ## HELLO and LINK DOWN -/

theorem Lawful.takeHello (s : State) (c : Chan) (len : BitVec 24) (cur : Cyc) : Lawful s (s.takeHello c len cur) := by
  have closed : LinkState.Closed (.aligning cur 1) := .aligning cur (Nat.le_refl 1) (by omega)
  have start : ∀ w : State, Lawful w ((w.modChan c fun x => { x with silence := 0, cycleSeen := true }).send c
      (.helloAck true s.tree.L)) := fun w =>
    (Lawful.seen w c (fun _ => ⟨_, _, rfl⟩) fun _ => ⟨Nat.zero_le 1, fun _ => rfl⟩).trans (.send _ c _)
  unfold State.takeHello
  split
  · refine Lawful.trans ?_ (start _)
    split
    · rename_i last count link
      refine Lawful.link s c (fun _ => ⟨_, _, _, rfl⟩) (by simp [ChanState.isUp, link]) fun law => ?_
      have down : (s.chan c).isUp = false := by simp [ChanState.isUp, link]
      obtain ⟨bare, -, -, silence⟩ := law
      exact ChanState.linkLaw_of_bare (bare down) closed nofun silence
    · exact .goTo s c closed
  · refine Lawful.trans ?_ (.send _ c _)
    split
    · exact .refl s
    · exact .goTo s c .mismatched

theorem Lawful.takeLinkDown (s : State) (c : Chan) : Lawful s (s.takeLinkDown c) := by
  unfold State.takeLinkDown
  split
  · exact .refl s
  · exact .goTo s c .down

/-! ## CYCLE -/

theorem LinkSteady.announce (s : State) (c : Chan) (h : Handle) : LinkSteady s (s.announce c h) := by
  unfold State.announce
  split
  · exact .refl s
  · split
    · dsimp only
      split
      · exact (LinkSteady.readEntry s h).trans (.rosterJoin _ c h)
      · exact .readEntry s h
    · exact .refl s

theorem ChanState.linkLaw_aligned {x : ChanState} (law : x.linkLaw) (n : Cyc) : (x.aligned n).linkLaw := by
  obtain ⟨-, -, -, silence⟩ := law
  exact ⟨nofun, nofun, nofun, silence⟩

/-- As its link becomes UP a channel that announced nothing is ready to announce every ACTIVE entry. -/
theorem State.announcing_aligned {s : State} {c : Chan} (n : Cyc) (empty : (s.chan c).roster = []) {h : Handle}
    (law : s.rosterAt h) : (s.modChan c (ChanState.aligned n)).announcing c h := by
  have empty' : ((s.modChan c (ChanState.aligned n)).chan c).roster = [] := by
    rw [State.chan_modChan_same]; exact empty
  refine ⟨fun d e => ?_, by rw [empty']; exact Nat.zero_le 1, fun told => absurd told (by rw [empty']; simp), ?_⟩
  · unfold State.isUp
    rw [State.chan_modChan_ne _ e]
    exact law d
  · unfold State.isUp
    rw [State.chan_modChan_same]
    rfl

/-- The fourth consecutive CYCLE: the link becomes UP and every ACTIVE entry homed there is announced (R42). -/
theorem Lawful.alignmentComplete (s : State) (c : Chan) (n : Cyc) (k : Nat) (down : s.isUp c = false) :
    Lawful s (((s.modChan c fun x => { x with link := .aligning n k, cycleSeen := true }).send c
      (.cycleReply n [] none)).alignmentComplete c n) := by
  refine .of_micros (((micros_link s c _ fun _ => ⟨_, _, _, rfl⟩).trans (micros_send _ c _)).trans
    (micros_alignmentComplete _ c n)) (fun law => ?_) fun law handles _ roster => ?_
  · rw [State.alignmentComplete_eq]
    refine (LinkSteady.foldl _ _ (fun s h => .announce s c h) _).linkLaw ((LinkSteady.raise _ _).linkLaw ?_)
    refine law.of_own ?_ fun d e => State.chan_modChan_ne s e _
    rw [State.chan_modChan_same]
    exact ChanState.linkLaw_aligned (law c) n
  · rw [State.alignmentComplete_eq]
    obtain ⟨bare, -⟩ := law c
    obtain ⟨empty, -⟩ := bare down
    refine rosterLaw_iff.2 (State.announce_all _ (fun h mem => handles.wf mem) (fun x => ?_) fun x out active => ?_)
    · exact (RosterSame.raise _ _).announcing trivial (State.announcing_aligned n empty (rosterLaw_iff.1 roster x))
    · obtain ⟨t, ht, -⟩ := active
      refine absurd (State.mem_heldHandles_of_term (s := s) (t := t) ?_) out
      rw [State.term_raise] at ht
      exact ht

theorem Lawful.takeCycleAligning (s : State) (c : Chan) {last : Cyc} {count : Nat}
    (link : (s.chan c).link = .aligning last count) (n : Cyc) : Lawful s (s.takeCycleAligning c last count n) := by
  have down : (s.chan c).isUp = false := by simp [ChanState.isUp, link]
  unfold State.takeCycleAligning
  dsimp only
  have least : 1 ≤ (if n = last + 1 then count + 1 else 1) := by split <;> omega
  revert least
  generalize (if n = last + 1 then count + 1 else 1) = k
  intro least
  split
  · exact .alignmentComplete s c n k down
  · rename_i few
    refine Lawful.trans (.link s c (fun _ => ⟨_, _, _, rfl⟩) ?_ fun law => ?_) (.send _ c _)
    · rw [down]; rfl
    · obtain ⟨bare, -, -, silence⟩ := law
      have closed : LinkState.Closed (.aligning n k) := .aligning n least (by simp [Config.alignCount] at few; omega)
      exact ChanState.linkLaw_of_bare (bare down) closed nofun silence

theorem ChanState.bookkeeping_outside (x : ChanState) : x.bookkeeping.link = x.link ∧
    x.bookkeeping.silence = x.silence ∧ x.bookkeeping.roster = x.roster := by
  unfold ChanState.bookkeeping ChanState.makeDue
  dsimp only
  split
  · exact ⟨rfl, rfl, rfl⟩
  · split <;> exact ⟨rfl, rfl, rfl⟩

theorem Steady.handOutStep {P : Prop} {s : State} {c : Chan} (up : s.isUp c = true) (room : Byte) :
    Steady P s (s.handOutStep c room) := by
  unfold State.handOutStep
  dsimp only
  have handed : Steady P s (s.modChan c fun x => { x with
      outq := (handOut (min room.toNat Config.maxRoom) (s.chan c).outq).queue }) := modChan (.of_up up rfl rfl) rfl
  exact handed.trans (of_eq (by rfl) (by rfl))

/-- The four steps of a service, on the channel as it is UP (R46). -/
theorem Steady.served {P : Prop} {s : State} {c : Chan} (up : s.isUp c = true) (n : Cyc) (room : Byte) (r : TxRecord) :
    Steady P s (((((s.handOutStep c room).lapseCheck c n).offerStep c n).1.modChan c ChanState.bookkeeping).send c r) := by
  have handed := handOutStep (P := P) up room
  have lapsed := handed.trans (lapseCheck ((handed.links.isUp c).trans up) n)
  have offered := lapsed.trans (offerStep ((lapsed.links.isUp c).trans up) n)
  obtain ⟨link, silence, roster⟩ := ChanState.bookkeeping_outside
    ((((s.handOutStep c room).lapseCheck c n).offerStep c n).1.chan c)
  exact (offered.trans (modChan (.of_up ((offered.links.isUp c).trans up) link silence) roster)).trans (send _ c r)

theorem Lawful.serveCycle (s : State) (c : Chan) (up : s.isUp c = true) (n : Cyc) (room : Byte) :
    Lawful s (s.serveCycle c n room) := by
  have begun : Lawful s (s.modChan c fun x => { x with link := .up n, cycleSeen := true }) := by
    refine .link s c (fun _ => ⟨_, _, _, rfl⟩) up.symm fun law => ?_
    obtain ⟨-, -, -, silence⟩ := law
    exact ⟨nofun, nofun, nofun, silence⟩
  have up' : (s.modChan c fun x => { x with link := .up n, cycleSeen := true }).isUp c = true := by
    unfold State.isUp; rw [State.chan_modChan_same]; rfl
  refine begun.trans (.steady ?_ (.served up' n room (.cycleReply n (s.carried c room) _)))
  exact ((((micros_handOutStep _ c room).trans (micros_lapseCheck _ c n)).trans (micros_offerStep _ c n)).trans
    (micros_modChan (ChanKeeps.bookkeeping _))).trans (micros_send _ c _)

theorem Lawful.slip (s : State) (c : Chan) (up : s.isUp c = true) (n : Cyc) : Lawful s (s.slip c n) := by
  have left : s.leaveUp c (.aligning n 1) = s.goTo c (.aligning n 1) := by rw [State.goTo, if_pos up]
  unfold State.slip
  rw [left]
  refine Lawful.trans (Lawful.trans (.goTo s c (.aligning n (Nat.le_refl 1) (by omega))) ?_) (.send _ c _)
  exact .seen _ c (fun _ => ⟨_, _, rfl⟩) fun ⟨_, _, still, low⟩ => ⟨low, still⟩

theorem Lawful.takeCycle (s : State) (c : Chan) (n : Cyc) (room : Byte) : Lawful s (s.takeCycle c n room) := by
  unfold State.takeCycle
  split
  · rename_i link; exact .takeCycleAligning s c link n
  · rename_i link
    have up : s.isUp c = true := ChanState.isUp_of_up link
    split
    · exact .serveCycle s c up n room
    · exact .slip s c up n
  · exact .bump s c _
  · exact .bump s c _

/-! ## Silence (R44) -/

/-- A link that goes DOWN does so with its silence count at 0, whatever it was. -/
theorem State.goTo_down_silence (s : State) (c : Chan) (n : Nat) :
    (s.modChan c fun x => { x with silence := n }).goTo c .down = s.goTo c .down := by
  have same : (s.modChan c fun x => { x with silence := n }).isUp c = s.isUp c := State.isUp_modChan s c c fun _ => rfl
  have quiet : ((s.modChan c fun x => { x with silence := n }).chan c).quietPending = (s.chan c).quietPending := by
    rw [State.chan_modChan_same]
  have outq : ((s.modChan c fun x => { x with silence := n }).chan c).outq = (s.chan c).outq := by
    rw [State.chan_modChan_same]
  unfold State.goTo
  rw [same]
  split
  · rw [State.leaveUp_eq, State.leaveUp_eq, quiet, outq, State.compose_modChan, State.modChan_modChan]
    rfl
  · rw [State.setLink_eq, State.setLink_eq, State.modChan_modChan]
    rfl

theorem Lawful.countSilence (s : State) (c : Chan) : Lawful s (s.countSilence c) := by
  have still (k : (s.chan c).link = .down ∨ (s.chan c).link = .mismatched) : Lawful s (s.countSilence c) := by
    rw [State.countSilence_still k]; exact .refl s
  have live (k : (∃ l n, (s.chan c).link = .aligning l n) ∨ ∃ n, (s.chan c).link = .up n) :
      Lawful s (s.countSilence c) := by
    obtain ⟨seen, first, second⟩ := State.countSilence_live k
    have moves : ¬((s.chan c).link = .down ∨ (s.chan c).link = .mismatched) := by
      rcases k with ⟨_, _, link⟩ | ⟨_, link⟩ <;> rw [link] <;> simp
    cases e : (s.chan c).cycleSeen with
    | true =>
      rw [seen e]
      exact .seen s c (fun _ => ⟨_, _, rfl⟩) fun _ => ⟨Nat.zero_le 1, fun _ => rfl⟩
    | false =>
      rcases Nat.eq_zero_or_pos (s.chan c).silence with zero | one
      · rw [first e zero]
        exact .seen s c (fun x => ⟨1, x.cycleSeen, rfl⟩) fun _ => ⟨Nat.le_refl 1, fun k => absurd k moves⟩
      · rw [second e one, State.goTo_down_silence]
        exact .goTo s c .down
  cases link : (s.chan c).link with
  | down => exact still (.inl link)
  | mismatched => exact still (.inr link)
  | aligning l n => exact live (.inl ⟨l, n, link⟩)
  | up n => exact live (.inr ⟨n, link⟩)

theorem Lawful.silenceExpiry (s : State) (c : Chan) : Lawful s (s.silenceExpiry c) := by
  unfold State.silenceExpiry
  dsimp only
  split
  · exact .refl s
  · exact .refl s
  · split
    · exact .goTo s c .down
    · exact .refl s

/-! ## Records and bytes (R162, R163) -/

theorem Lawful.takeArrival (s : State) (c : Chan) (a : Arrival) : Lawful s (s.takeArrival c a) :=
  .of_steady (micros_takeArrival s c a) (.takeArrival s c a) fun _ retention => retention

theorem Lawful.takePlaceResult (s : State) (c : Chan) (tag : Tag) (placed : Bool) :
    Lawful s (s.takePlaceResult c tag placed) :=
  .steady (micros_takePlaceResult s c tag placed) (.takePlaceResult s c tag placed)

theorem Lawful.takeGapClosed (s : State) (c : Chan) (tag : Tag) : Lawful s (s.takeGapClosed c tag) :=
  .steady (micros_takeGapClosed s c tag) (.takeGapClosed s c tag)

theorem Lawful.takeRecord (s : State) (c : Chan) (r : RxRecord) : Lawful s (s.takeRecord c r) := by
  cases r with
  | hello len cur => exact .takeHello s c len cur
  | cycle n room => exact .takeCycle s c n room
  | placeResult tag placed => exact .takePlaceResult s c tag placed
  | gapClosed tag => exact .takeGapClosed s c tag
  | arrival a => exact .takeArrival s c a
  | linkDown => exact .takeLinkDown s c

theorem Lawful.judgeRecord (s : State) (c : Chan) (kind : Byte) (body : List Byte) :
    Lawful s (s.judgeRecord c kind body) := by
  unfold State.judgeRecord
  split
  · exact .takeRecord s c _
  · exact .bump s c _

theorem Lawful.holdBytes (s : State) (c : Chan) (bs : List Byte) : Lawful s (s.holdBytes c bs) :=
  .steady (micros_rx s c bs) (.modChan (.of_parts rfl rfl id id id id id) rfl)

theorem Lawful.hunt (c : Chan) (fuel : Nat) (bs : List Byte) (s : State) : Lawful s (s.hunt c fuel bs) := by
  induction fuel generalizing bs s with
  | zero => exact .holdBytes s c bs
  | succ fuel ih =>
    cases bs with
    | nil => exact .holdBytes s c []
    | cons b bs =>
      unfold State.hunt
      split
      · split
        · exact .holdBytes s c _
        · exact (Lawful.bump s c _).trans (ih _ _)
        · exact ((Lawful.judgeRecord s c _ _).trans (.holdBytes _ c [])).trans (ih _ _)
      · exact ih _ s

theorem Lawful.receive (s : State) (c : Chan) (bytes : List Byte) : Lawful s (s.receive c bytes) :=
  (Lawful.holdBytes s c []).trans (.hunt c _ _ _)

end Sys2Proof.Machine
end

section
/-! What the scan, the resets and the management requests keep of the laws of links and of the roster (R39, R45, R62),
and so what every step keeps of them. -/

namespace Sys2Proof.Machine

namespace Lawful

/-- Nothing the laws speak of changes. -/
theorem same {s t : State} (k : Same s t) : Lawful s t := .steady (.single k.micro) (.of_eq k.chans k.registry)

theorem whenRunning {s : State} {f : State → State} (k : Lawful s (f s)) : Lawful s (s.whenRunning f) := by
  unfold State.whenRunning
  split
  · exact .refl s
  · exact k

/-- As `Lawful.whenRunning`, on an UP channel alone. -/
theorem whenUp {s : State} (c : Chan) {f : State → State} (k : s.isUp c = true → Lawful s (f s)) :
    Lawful s (s.whenRunning fun st => if st.isUp c then f st else st) :=
  whenRunning (f := fun st => if st.isUp c then f st else st) <| by
    split
    · rename_i up; exact k up
    · exact .refl s

/-! ## The scan -/

theorem scan (s : State) : Lawful s s.scan := by
  have held : Lawful s { s with prescaler := 0 } := same ⟨rfl, rfl, rfl, rfl, rfl, rfl, rfl⟩
  have walked (w : State) : Lawful w (w.heldHandles.foldl (fun st h => st.scanEntry h) w) :=
    foldl _ _ (fun s h => steady (micros_scanEntry s h) (.scanEntry s h)) w
  have aged (w : State) : Lawful w w.ageWaiting := steady (micros_ageWaiting w) (.ageWaiting w)
  exact ((held.trans (walked _)).trans (aged _)).trans (foldl _ _ (fun s c => countSilence s c) _)

theorem tick (s : State) : Lawful s s.tick := by
  refine whenRunning ?_
  split
  · exact same ⟨rfl, rfl, rfl, rfl, rfl, rfl, rfl⟩
  · exact scan s

/-! ## Events -/

theorem takeEvent (s : State) (e : Event) (joins : ∀ c h, e ≠ .rosterJoin c h) (leaves : ∀ c h, e ≠ .rosterLeave c h) :
    Lawful s (s.takeEvent e) :=
  .of_steady (micros_takeEvent s e) (.takeEvent s e joins leaves) fun handles _ => handles

theorem deliver (s : State) (e : Event) (joins : ∀ c h, e ≠ .rosterJoin c h) (leaves : ∀ c h, e ≠ .rosterLeave c h) :
    Lawful s (s.deliver e) :=
  (same (s := s) (t := s.dropEvent e) ⟨rfl, rfl, rfl, rfl, rfl, rfl, rfl⟩).trans (takeEvent _ e joins leaves)

end Lawful

/-! ## The resets -/

/-- While no channel is UP, none announces a roster. -/
theorem RosterLaw.of_down {s : State} (links : LinkLaw s) (down : ∀ c, s.isUp c = false) : RosterLaw s := fun c => by
  obtain ⟨bare, -⟩ := links c
  obtain ⟨empty, -⟩ := bare (down c)
  simp [empty, down c]

theorem Lawful.of_down {s t : State} (m : Micros s t) (links : LinkLaw t) (down : ∀ c, t.isUp c = false) : Lawful s t :=
  .of_micros m (fun _ => links) fun _ _ _ _ => .of_down links down

theorem Lawful.fullReset (s : State) : Lawful s s.fullReset :=
  .of_down (.single .full) (fun c => by rw [State.chan_fullReset]; exact ChanState.linkLaw_reset)
    fun c => by unfold State.isUp; rw [State.chan_fullReset]; rfl

theorem LinkSteady.restartEntry (s : State) (evs : List Event) (h : Handle) : LinkSteady s (s.restartEntry evs h) := by
  unfold State.restartEntry
  have read := LinkSteady.readEntry s h
  dsimp only
  split
  · exact read
  · split
    · exact read.trans (.freeEntry _ h false)
    · exact (read.trans (.modTerm _ h _)).trans (.enterLost _ h)
    · exact read.trans (.modTerm _ h _)

theorem LinkSteady.rebuildQueues (s : State) : LinkSteady s s.rebuildQueues := fun c => by
  rw [State.rebuildQueues_chan]
  exact .of_parts rfl rfl id id id id id

/-- Once every channel is restarted the links stand still (R39, R63). -/
theorem LinkSteady.keepTreeRestart (s : State) (source : Nat) :
    LinkSteady (s.takeAllEvents.restartBase source) (s.keepTreeRestart source) := by
  rw [State.keepTreeRestart_eq]
  exact (LinkSteady.foldl _ _ (fun s h => restartEntry s _ h) _).trans (rebuildQueues _)

theorem State.restartBase_chan (s : State) (source : Nat) (c : Chan) :
    (s.restartBase source).chan c = (s.chan c).restarted := by cases c <;> rfl

theorem Lawful.keepTreeRestart (s : State) (source : Nat) : Lawful s (s.keepTreeRestart source) := by
  have links := LinkSteady.keepTreeRestart s source
  refine .of_down (micros_keepTreeRestart s source) (links.linkLaw fun c => ?_) fun c => ?_
  · rw [State.restartBase_chan]; exact ChanState.linkLaw_reset
  · rw [links.isUp c]
    unfold State.isUp
    rw [State.restartBase_chan]
    rfl

theorem Lawful.takeReset (s : State) (k : RestartKind) (source : Nat) : Lawful s (s.takeReset k source) := by
  cases k with
  | keepTree => exact .keepTreeRestart s source
  | full => exact .fullReset s

end Sys2Proof.Machine
end

section
/-! What the management requests, every command and every step keep of the laws of links and of the roster (R45, R62). -/

namespace Sys2Proof.Machine

namespace Steady

variable {P : Prop}

/-! ## Channel requests -/

theorem onChannel {s : State} (ch : Byte) {f : Chan → State × Reply} (k : ∀ c, Steady P s (f c).1) :
    Steady P s (s.onChannel ch f).1 := by
  unfold State.onChannel
  split
  · exact k _
  · exact .refl s

/-- A change of the census, of the settings and of the tallies of a channel. -/
theorem modCensus (s : State) (c : Chan) {f : ChanState → ChanState}
    (k : ∀ x, (f x).link = x.link ∧ (f x).silence = x.silence ∧ (f x).roster = x.roster ∧ (f x).outq = x.outq ∧
      (f x).offer = x.offer ∧ (f x).gaps = x.gaps ∧ (f x).lapsed = x.lapsed) : Steady P s (s.modChan c f) := by
  obtain ⟨link, silence, roster, outq, offer, gaps, lapsed⟩ := k (s.chan c)
  exact modChan (.of_parts link silence roster.trans outq.trans offer.trans gaps.trans lapsed.trans) roster

theorem setMode (s : State) (c : Chan) (m : CensusMode) : Steady P s (s.setMode c m) := by
  unfold State.setMode
  split
  · split
    · exact .refl s
    · have off : Steady P s (s.modChan c fun x => { x with mode := .off, due := false, dueAge := 0, quietPending := true }) :=
        modCensus s c fun _ => ⟨rfl, rfl, rfl, rfl, rfl, rfl, rfl⟩
      dsimp only
      split
      · exact off
      · exact off.trans (quiet _ c)
  · exact modCensus s c fun _ => ⟨rfl, rfl, rfl, rfl, rfl, rfl, rfl⟩

theorem reqChannelSet (s : State) (ch sel mode : Byte) (period skew : BitVec 16) :
    Steady P s (s.reqChannelSet ch sel mode period skew).1 := by
  refine onChannel ch fun c => ?_
  dsimp only
  split
  · split
    · exact .refl s
    · split
      · exact .refl s
      · rename_i p k _ _ _ _ _
        have set : Steady P s (s.modChan c fun y => { y with period := p, skew := k }) :=
          modCensus s c fun _ => ⟨rfl, rfl, rfl, rfl, rfl, rfl, rfl⟩
        split
        · exact set.trans (setMode _ c _)
        · exact set
  · exact .refl s

theorem reqCall (s : State) (ch : Byte) : Steady P s (s.reqCall ch).1 := by
  refine onChannel ch fun c => ?_
  split
  · exact modCensus s c fun _ => ⟨rfl, rfl, rfl, rfl, rfl, rfl, rfl⟩
  · exact .refl s

theorem reqTallyRead (s : State) (ch clear : Byte) : Steady P s (s.reqTallyRead ch clear).1 := by
  refine onChannel ch fun c => ?_
  split
  · exact .refl s
  · dsimp only
    split
    · exact modCensus s c fun _ => ⟨rfl, rfl, rfl, rfl, rfl, rfl, rfl⟩
    · exact .refl s

/-- An injected message joins the out-queue of an UP channel (R74). -/
theorem injectOn {s : State} {c : Chan} (up : s.isUp c = true) (m : TreeMsg) : Steady P s (s.injectOn c m).1 := by
  have joined : Steady P s (s.modChan c fun x => { x with
      outq := (joinOrReplace (injectMsg s.tree.r m) (s.chan c).outq).queue }) := modChan (.of_up up rfl rfl) rfl
  unfold State.injectOn
  dsimp only
  split
  · split
    · exact joined.trans (takeReport _ .evicted c _ _)
    · exact joined
  · exact .refl s

theorem reqInject (s : State) (ch kind : Byte) (h : BitVec 16) (fields : BitVec 64) :
    Steady P s (s.reqInject ch kind h fields).1 := by
  refine onChannel ch fun c => ?_
  split
  · exact .refl s
  · split
    · rename_i up; exact injectOn up _
    · exact .refl s

/-! ## Admission requests and the port's own reports -/

theorem reqAdmit (s : State) (m : Mark) : Steady (RetentionLaw s) s (s.reqAdmit m).1 := by
  unfold State.reqAdmit
  split
  · exact .refl s
  · rename_i i _
    split
    · have created := newEntry s m i.chan i.coarse
      split
      · rename_i e; rw [e] at created; exact created
      · exact .refl s
    · exact .refl s

theorem reqBar (s : State) (m : Mark) : Steady P s (s.reqBar m).1 := by
  unfold State.reqBar
  split
  · exact .refl s
  · split
    · exact of_eq rfl rfl
    · exact .refl s

theorem reqTableLoad (s : State) (m : Mark) (policy : Byte) : Steady P s (s.reqTableLoad m policy).1 := by
  unfold State.reqTableLoad
  split
  · exact .refl s
  · split
    · exact .refl s
    · split
      · exact of_eq rfl rfl
      · exact .refl s

theorem reqTableRemove (s : State) (m : Mark) : Steady P s (s.reqTableRemove m).1 := by
  unfold State.reqTableRemove
  split
  · exact of_eq rfl rfl
  · exact .refl s

theorem reqNoticeRead (s : State) : Steady P s s.reqNoticeRead.1 := by
  unfold State.reqNoticeRead
  split
  · exact of_eq rfl rfl
  · exact of_eq rfl rfl

theorem reqStoreRecordRead (s : State) (clear : Byte) : Steady P s (s.reqStoreRecordRead clear).1 := by
  unfold State.reqStoreRecordRead
  split
  · exact .refl s
  · dsimp only
    split
    · exact of_eq rfl rfl
    · exact .refl s

theorem reqRestart (s : State) (code : Byte) : Steady P s (s.reqRestart code).1 := by
  unfold State.reqRestart
  split
  · exact .refl s
  · exact of_eq rfl rfl

/-! ## Requests on an entry -/

theorem onHandle (s : State) (h : BitVec 16) {f : State → State × Reply}
    (k : Steady P (s.readEntry h.toNat) (f (s.readEntry h.toNat)).1) : Steady P s (s.onHandle h f).1 := by
  unfold State.onHandle
  split
  · exact .refl s
  · split
    · exact (readEntry s h.toNat).trans k
    · exact .refl s

theorem onEntry (s : State) (h : BitVec 16) {f : State → Terminal → State × Reply}
    (k : ∀ (w : State) t, w.term h.toNat = some t → Steady P w (f w t).1) : Steady P s (s.onEntry h f).1 := by
  refine onHandle s h ?_
  split
  · rename_i t ht; exact k _ t ht
  · exact .refl _

theorem reqEntryRead (s : State) (h : BitVec 16) : Steady P s (s.reqEntryRead h).1 := onHandle s h (.refl _)

theorem reqEntryFind (s : State) (m : Mark) : Steady P s (s.reqEntryFind m).1 := by
  unfold State.reqEntryFind
  dsimp only
  split <;> exact readAll s

theorem reqDismiss (s : State) (h : BitVec 16) : Steady P s (s.reqDismiss h).1 := by
  refine onEntry s h fun w t ht => ?_
  split
  · exact .refl w
  · rename_i phase
    exact freeEntry w h.toNat true fun u hu => by rw [ht] at hu; cases hu; rw [phase]; rfl
  · exact enterDismissing w h.toNat

theorem reqHush (s : State) (h : BitVec 16) : Steady P s (s.reqHush h).1 := by
  refine onEntry s h fun w t ht => ?_
  split
  · rename_i fix _ _ _
    exact (leave ht (f := fun u => { u with moveFlag := false, phase := .hushed fix }) rfl).trans (queueFor _ _ _)
  · exact .refl w
  · exact .refl w

theorem reqResume (s : State) (h : BitVec 16) : Steady P s (s.reqResume h).1 := by
  refine onEntry s h fun w t ht => ?_
  split
  · rename_i fix phase
    exact (modTerm_of ht (f := fun u => { u with phase := .joining fix }) rfl (by rw [phase]; rfl)).trans (queueFor _ _ _)
  · exact .refl w

theorem rerangeEntry (s : State) (h : Handle) {t : Terminal} (ht : s.term h = some t) (fix : Fix) :
    Steady P s (s.rerangeEntry h t fix) := by
  unfold State.rerangeEntry
  exact ((leaveIfActive ht (f := fun u => u.reRanged fix.final) rfl).trans (queueFor _ h _)).trans (rangeRequest _ h)

theorem reqRerange (s : State) (h : BitVec 16) : Steady P s (s.reqRerange h).1 := by
  refine onEntry s h fun w t ht => ?_
  split
  · exact rerangeEntry w _ ht _
  · exact rerangeEntry w _ ht _
  · exact .refl w

theorem moveEntry (s : State) (h : Handle) {t : Terminal} (ht : s.term h = some t) (fix : Fix) (target : Chan) :
    Steady P s (s.moveEntry h t fix target) :=
  (leave ht (f := fun u => { u with moveFlag := true, phase := .retuning fix target }) rfl).trans (queueFor _ h _)

theorem reqMove (s : State) (h : BitVec 16) (target : Byte) : Steady P s (s.reqMove h target).1 := by
  refine onEntry s h fun w t ht => ?_
  split
  · split
    · exact .refl w
    · split
      · exact .refl w
      · split
        · exact moveEntry w _ ht _ _
        · exact .refl w
  · exact .refl w

theorem reqClearDamaged (s : State) (h : BitVec 16) : Steady P s (s.reqClearDamaged h).1 := by
  refine onHandle s h ?_
  split
  · exact .refl _
  · rename_i damaged
    exact freeEntry _ h.toNat true fun t ht => by rw [damaged] at ht; cases ht

end Steady

/-! ## Transactions -/

/-- New settings at most clear drift streaks (R8), which changes no home channel and no activity. -/
theorem RosterSame.replaceSettings (s : State) (u : TreeSettings) : RosterSame s (s.replaceSettings u) where
  up _ := rfl
  roster _ _ _ := rfl
  active h c _ := by
    have activity (t : Terminal) : t.clearStreak.phase.isActive = t.phase.isActive := by
      unfold Terminal.clearStreak
      split
      · rename_i phase; rw [phase]; rfl
      · rfl
    unfold State.activeOn
    rcases State.term_replaceSettings_eq s u h with e | e
    · rw [e]
    · rw [e]
      cases s.term h with
      | none => simp
      | some t => simp [activity]

namespace Lawful

theorem replaceSettings (s : State) (u : TreeSettings) : Lawful s (s.replaceSettings u) where
  handles law := law.of_sublist (by rw [State.heldHandles_replaceSettings])
  retention := State.replaceSettings_keeps_retentionLaw u
  links law := law
  roster _ _ _ := (RosterSame.replaceSettings s u).kept.rosterLaw

theorem reqTreeSet (s : State) (sel : BitVec 32) (slots : List (BitVec 24)) : Lawful s (s.reqTreeSet sel slots).1 := by
  unfold State.reqTreeSet
  dsimp only
  split
  · split
    · exact .refl s
    · split
      · exact replaceSettings s _
      · exact .refl s
  · exact .refl s

theorem reqAdmit (s : State) (m : Mark) : Lawful s (s.reqAdmit m).1 :=
  of_steady (micros_reqAdmit s m) (.reqAdmit s m) fun _ retention => retention

theorem decodeRequest (s : State) (code : Nat) (body : List Byte) : Lawful s (s.decodeRequest code body).1 := by
  unfold State.decodeRequest
  dsimp only
  split
  · exact reqTreeSet s _ _
  · exact .refl s
  · exact steady (micros_reqChannelSet s _ _ _ _ _) (.reqChannelSet s _ _ _ _ _)
  · exact steady (micros_reqChannelGet s _) (.onChannel _ fun _ => .refl s)
  · exact steady (micros_reqCall s _) (.reqCall s _)
  · exact reqAdmit s _
  · exact steady (micros_reqBar s _) (.reqBar s _)
  · exact steady (micros_reqTableLoad s _ _) (.reqTableLoad s _ _)
  · exact steady (micros_reqTableRemove s _) (.reqTableRemove s _)
  · rw [reqTableRead_fst]; exact .refl s
  · rw [reqPendingRead_fst]; exact .refl s
  · exact steady (micros_reqEntryRead s _) (.reqEntryRead s _)
  · exact steady (micros_reqEntryFind s _) (.reqEntryFind s _)
  · exact steady (micros_reqDismiss s _) (.reqDismiss s _)
  · exact steady (micros_reqHush s _) (.reqHush s _)
  · exact steady (micros_reqResume s _) (.reqResume s _)
  · exact steady (micros_reqRerange s _) (.reqRerange s _)
  · exact steady (micros_reqMove s _ _) (.reqMove s _ _)
  · exact steady (micros_reqClearDamaged s _) (.reqClearDamaged s _)
  · exact steady (micros_reqInject s _ _ _ _) (.reqInject s _ _ _ _)
  · exact steady (micros_reqNoticeRead s) (.reqNoticeRead s)
  · exact steady (micros_reqTallyRead s _ _) (.reqTallyRead s _ _)
  · exact steady (micros_reqStoreRecordRead s _) (.reqStoreRecordRead s _)
  · exact .refl s
  · exact steady (micros_reqRestart s _) (.reqRestart s _)
  · exact .refl s

theorem answer {s : State} {r : State × Reply} (k : Lawful s r.1) : Lawful s (State.answer r) :=
  k.trans (same (t := State.answer r) ⟨rfl, rfl, rfl, rfl, rfl, rfl, rfl⟩)

theorem clockByte (s : State) (b : Byte) : Lawful s (s.clockByte b) := by
  unfold State.clockByte
  split
  · exact .refl s
  · exact same ⟨rfl, rfl, rfl, rfl, rfl, rfl, rfl⟩
  · dsimp only
    split
    · exact answer (.refl s)
    · split
      · refine answer (Lawful.trans (same ?_) (decodeRequest { s with port := { s.port with txn := .receiving [] } } _ _))
        exact ⟨rfl, rfl, rfl, rfl, rfl, rfl, rfl⟩
      · exact same ⟨rfl, rfl, rfl, rfl, rfl, rfl, rfl⟩

theorem clockBytes (s : State) (bs : List Byte) : Lawful s (s.clockBytes bs) := foldl _ _ clockByte s

/-! ## Every command -/

theorem of_next {s t u : State} (k : Lawful s u)
    (e : (Host.Outcome.next u : Host.Outcome State Fault Refusal) = .next t) : Lawful s t := by cases e; exact k

theorem of_request {s t : State} {bytes : List Byte} {act : State → State × Reply} (k : Lawful s (act s).1)
    (e : s.request bytes act = .next t) : Lawful s t := by
  unfold State.request at e
  cases e
  split
  · exact answer k
  · exact whenRunning (clockBytes s bytes)

theorem of_steady_request {s t : State} {bytes : List Byte} {act : State → State × Reply} (m : Micros s (act s).1)
    (k : Steady True s (act s).1) (e : s.request bytes act = .next t) : Lawful s t := of_request (steady m k) e

theorem execTreeSet {s t : State} {sel : BitVec 32} {slots : List (BitVec 24)} (e : execTreeSet sel slots s = .next t) :
    Lawful s t := by
  unfold Machine.execTreeSet at e
  split at e
  · exact of_request (act := fun s => s.reqTreeSet sel slots) (reqTreeSet s sel slots) e
  · exact of_next (whenRunning (clockBytes s _)) e

theorem execSelectAssert {s t : State} (e : execSelectAssert s = .next t) : Lawful s t := by
  unfold Machine.execSelectAssert at e
  cases e
  refine Lawful.trans (same ?_) (whenRunning (same ?_)) <;> exact ⟨rfl, rfl, rfl, rfl, rfl, rfl, rfl⟩

theorem execSelectRelease {s t : State} (e : execSelectRelease s = .next t) : Lawful s t := by
  unfold Machine.execSelectRelease at e
  have closed : Lawful s { s with pins := { s.pins with select := false }, port := { txn := .idle, armed := none } } :=
    same ⟨rfl, rfl, rfl, rfl, rfl, rfl, rfl⟩
  dsimp only at e
  split at e
  · cases e; exact closed.trans (whenRunning (takeReset _ _ 2))
  · cases e; exact closed

theorem execResetRelease {s t : State} {keep : Bool} (e : execResetRelease keep s = .next t) : Lawful s t := by
  unfold Machine.execResetRelease at e
  split at e
  · cases e
    refine Lawful.trans (same ?_) (takeReset _ _ 1)
    exact ⟨rfl, rfl, rfl, rfl, rfl, rfl, rfl⟩
  · cases e; exact .refl s

end Lawful

/-- Every command but a roster event by itself keeps the laws. -/
theorem exec_lawful {i : Instr} {s t : State} (e : exec i s = .next t) (joins : ∀ c h, i ≠ .rosterJoinEvent c h)
    (leaves : ∀ c h, i ≠ .rosterLeaveEvent c h) : Lawful s t := by
  cases i with
  | hello c len cur => exact .of_next (.whenRunning (.takeHello s c len cur)) e
  | cycle c n room => exact .of_next (.whenRunning (.takeCycle s c n room)) e
  | placeResult c tag placed => exact .of_next (.whenRunning (.takePlaceResult s c tag placed)) e
  | gapClosed c tag => exact .of_next (.whenRunning (.takeGapClosed s c tag)) e
  | arrival c a => exact .of_next (.whenRunning (.takeArrival s c a)) e
  | linkDown c => exact .of_next (.whenRunning (.takeLinkDown s c)) e
  | linkDefectCheck c bytes => exact .of_next (.whenRunning (.receive s c bytes)) e
  | linkDefectRecord c kind body => exact .of_next (.whenRunning (.judgeRecord s c kind body)) e
  | scanExpiry => exact .of_next (.whenRunning (.scan s)) e
  | gapLapse c n =>
    exact .of_next (.whenUp c (f := (·.lapseCheck c n)) fun up => .steady (micros_lapseCheck s c n) (.lapseCheck up n)) e
  | offerExpiry c n =>
    exact .of_next (.whenUp c (f := (·.expireOffer c n)) fun _ => .steady (micros_expireOffer s c n) (.expireOffer s c n)) e
  | censusPeriodDue c =>
    refine .of_next (.whenUp c (f := (·.modChan c ChanState.periodDue)) fun _ =>
      .steady (micros_modChan (ChanKeeps.periodDue _)) (.modCensus s c fun x => ?_)) e
    unfold ChanState.periodDue
    split <;> exact ⟨rfl, rfl, rfl, rfl, rfl, rfl, rfl⟩
  | silenceTimeout c => exact .of_next (.whenRunning (.silenceExpiry s c)) e
  | lost h => exact .of_next (.whenRunning (.steady (micros_lossPart s h) (.lossPart s h))) e
  | retentionExpiry h => exact .of_next (.whenRunning (.steady (micros_retentionPart s h) (.retentionPart s h))) e
  | pendingExpired m => exact .of_next (.whenRunning (.steady (micros_pendingPart s m) (.pendingPart s m))) e
  | finalHandOutEvent c k h => exact .of_next (.deliver s (.finalHandOut c k h) nofun nofun) e
  | outQueueReport why c k h => exact .of_next (.deliver s (.report why c k h) nofun nofun) e
  | voidEvent c h => exact .of_next (.deliver s (.void c h) nofun nofun) e
  | rosterJoinEvent c h => exact absurd rfl (joins c h)
  | rosterLeaveEvent c h => exact absurd rfl (leaves c h)
  | channelExitEvent c => exact .of_next (.deliver s (.channelExit c) nofun nofun) e
  | selectAssert => exact .execSelectAssert e
  | selectRelease => exact .execSelectRelease e
  | unknown bytes => exact .of_next (.whenRunning (.clockBytes s bytes)) e
  | treeSet sel slots => exact .execTreeSet e
  | treeGet => exact .of_request (act := State.reqTreeGet) (.refl s) e
  | channelSet ch sel mode period skew =>
    exact .of_steady_request (act := fun s => s.reqChannelSet ch sel mode period skew) (micros_reqChannelSet s _ _ _ _ _)
      (.reqChannelSet s _ _ _ _ _) e
  | channelGet ch =>
    exact .of_steady_request (act := fun s => s.reqChannelGet ch) (micros_reqChannelGet s ch) (.onChannel ch fun _ => .refl s) e
  | call ch => exact .of_steady_request (act := fun s => s.reqCall ch) (micros_reqCall s ch) (.reqCall s ch) e
  | admitMark m => exact .of_request (act := fun s => s.reqAdmit m) (.reqAdmit s m) e
  | bar m => exact .of_steady_request (act := fun s => s.reqBar m) (micros_reqBar s m) (.reqBar s m) e
  | tableLoad m policy =>
    exact .of_steady_request (act := fun s => s.reqTableLoad m policy) (micros_reqTableLoad s m policy) (.reqTableLoad s m policy) e
  | tableRemove m =>
    exact .of_steady_request (act := fun s => s.reqTableRemove m) (micros_reqTableRemove s m) (.reqTableRemove s m) e
  | tableRead idx =>
    exact .of_request (act := fun s => s.reqTableRead idx) (by rw [reqTableRead_fst]; exact .refl s) e
  | pendingRead idx =>
    exact .of_request (act := fun s => s.reqPendingRead idx) (by rw [reqPendingRead_fst]; exact .refl s) e
  | entryRead h =>
    exact .of_steady_request (act := fun s => s.reqEntryRead h) (micros_reqEntryRead s h) (.reqEntryRead s h) e
  | entryFind m =>
    exact .of_steady_request (act := fun s => s.reqEntryFind m) (micros_reqEntryFind s m) (.reqEntryFind s m) e
  | dismiss h => exact .of_steady_request (act := fun s => s.reqDismiss h) (micros_reqDismiss s h) (.reqDismiss s h) e
  | hush h => exact .of_steady_request (act := fun s => s.reqHush h) (micros_reqHush s h) (.reqHush s h) e
  | resume h => exact .of_steady_request (act := fun s => s.reqResume h) (micros_reqResume s h) (.reqResume s h) e
  | rerange h => exact .of_steady_request (act := fun s => s.reqRerange h) (micros_reqRerange s h) (.reqRerange s h) e
  | move h target =>
    exact .of_steady_request (act := fun s => s.reqMove h target) (micros_reqMove s h target) (.reqMove s h target) e
  | clearDamaged h =>
    exact .of_steady_request (act := fun s => s.reqClearDamaged h) (micros_reqClearDamaged s h) (.reqClearDamaged s h) e
  | inject ch kind h fields =>
    exact .of_steady_request (act := fun s => s.reqInject ch kind h fields) (micros_reqInject s ch kind h fields)
      (.reqInject s ch kind h fields) e
  | noticeRead =>
    exact .of_steady_request (act := fun s => s.reqNoticeRead) (micros_reqNoticeRead s) (.reqNoticeRead s) e
  | tallyRead ch clear =>
    exact .of_steady_request (act := fun s => s.reqTallyRead ch clear) (micros_reqTallyRead s ch clear)
      (.reqTallyRead s ch clear) e
  | storeRecordRead clear =>
    exact .of_steady_request (act := fun s => s.reqStoreRecordRead clear) (micros_reqStoreRecordRead s clear)
      (.reqStoreRecordRead s clear) e
  | status => exact .of_request (act := State.reqStatus) (.refl s) e
  | restart code =>
    exact .of_steady_request (act := fun s => s.reqRestart code) (micros_reqRestart s code) (.reqRestart s code) e
  | powerUp => exact .of_next (.fullReset s) e
  | resetAssert =>
    exact .of_next (.same (s := s)
      (t := { s with pins := { s.pins with resetLow := true }, port := { txn := .idle, armed := none } })
      ⟨rfl, rfl, rfl, rfl, rfl, rfl, rfl⟩) e
  | resetRelease keep => exact .execResetRelease e

/-! ## Every step -/

/-- The step takes a roster event given by itself, as a command or as the oldest waiting event (log entry 5). -/
def State.takesRosterEvent (s : State) : Prop :=
  (∃ c h rest, s.pending = .rosterJoinEvent c h :: rest ∨ s.pending = .rosterLeaveEvent c h :: rest) ∨
    s.pending = [] ∧ ∃ c h rest, s.events = .rosterJoin c h :: rest ∨ s.events = .rosterLeave c h :: rest

/-- A roster event by itself leaves the links alone. -/
theorem step_linkSteady {s t : State} (e : step s = .next t) (k : s.takesRosterEvent) : LinkSteady s t := by
  unfold step at e
  rcases k with ⟨c, h, rest, pending | pending⟩ | ⟨pending, c, h, rest, events⟩
  · rw [pending] at e; cases e
    exact fun d => LinkSteady.takeEvent (State.dropEvent { s with pending := rest } (.rosterJoin c h)) (.rosterJoin c h) d
  · rw [pending] at e; cases e
    exact fun d => LinkSteady.takeEvent (State.dropEvent { s with pending := rest } (.rosterLeave c h)) (.rosterLeave c h) d
  · rw [pending] at e; cases e
    unfold State.idle
    rcases events with events | events <;> rw [events]
    · exact fun d => LinkSteady.takeEvent { s with events := rest } (.rosterJoin c h) d
    · exact fun d => LinkSteady.takeEvent { s with events := rest } (.rosterLeave c h) d

/-- Every other step keeps the laws. -/
theorem step_lawful {s t : State} (e : step s = .next t) (k : ¬s.takesRosterEvent) : Lawful s t := by
  unfold step at e
  split at e
  · rename_i i rest pending
    refine Lawful.trans (.same ?_) (exec_lawful e (fun c h join => k ?_) fun c h leave => k ?_)
    · exact ⟨rfl, rfl, rfl, rfl, rfl, rfl, rfl⟩
    · exact .inl ⟨c, h, rest, .inl (by rw [pending, join])⟩
    · exact .inl ⟨c, h, rest, .inr (by rw [pending, leave])⟩
  · rename_i pending
    cases e
    unfold State.idle
    split
    · rename_i event rest events
      refine Lawful.trans (.same ?_) (.takeEvent { s with events := rest } event (fun c h join => k ?_) fun c h leave => k ?_)
      · exact ⟨rfl, rfl, rfl, rfl, rfl, rfl, rfl⟩
      · exact .inr ⟨pending, c, h, rest, .inl (by rw [events, join])⟩
      · exact .inr ⟨pending, c, h, rest, .inr (by rw [events, leave])⟩
    · exact .tick s

/-- Settles O12: every step but a roster event by itself is `Lawful`, and such an event leaves the links alone. -/
theorem stepKeepsTheLinkLaw : Obligations.StepKeepsTheLinkLaw := by
  intro s t e links
  by_cases k : s.takesRosterEvent
  · refine ⟨(step_linkSteady e k).linkLaw links, fun _ _ _ commands events => ?_⟩
    rcases k with ⟨c, h, rest, p | p⟩ | ⟨p, c, h, rest, q | q⟩
    · exact absurd (by rw [p]; rfl) (commands c h).1
    · exact absurd (by rw [p]; rfl) (commands c h).2
    · exact absurd (by rw [q]; rfl) (events p c h).1
    · exact absurd (by rw [q]; rfl) (events p c h).2
  · have lawful := step_lawful e k
    exact ⟨lawful.links links, fun handles retention roster _ _ => lawful.roster links handles retention roster⟩

end Sys2Proof.Machine
end

section
/-! The hand-out of a service (R70, R71): which messages it takes, and the queue it leaves. -/

namespace Sys2Proof.Machine

/-! ## Which messages are marked as taken -/

/-- The marked urgent messages are the first u urgent ones, in queue order. -/
theorem markTaken_urgent (u n : Nat) (q : List QMsg) :
    ((markTaken u n q).filter fun x => x.2 && x.1.urgent).map (·.1) = (q.filter (·.urgent)).take u := by
  fun_induction markTaken u n q with
  | case1 => simp
  | case2 n x xs urgent ih => simp [urgent, ih]
  | case3 n x xs urgent u ih => simp [urgent, ih]
  | case4 u x xs normal ih => simp [normal, ih]
  | case5 u x xs normal n ih => simp [normal, ih]

/-- The marked normal messages are the first n normal ones, in queue order. -/
theorem markTaken_normal (u n : Nat) (q : List QMsg) :
    ((markTaken u n q).filter fun x => x.2 && !x.1.urgent).map (·.1) = (q.filter fun m => !m.urgent).take n := by
  fun_induction markTaken u n q with
  | case1 => simp
  | case2 n x xs urgent ih => simp [urgent, ih]
  | case3 n x xs urgent u ih => simp [urgent, ih]
  | case4 u x xs normal ih => simp [normal, ih]
  | case5 u x xs normal n ih => simp [normal, ih]

/-- The queue with the messages marked that a hand-out takes: urgent ones up to the room, and normal ones up to the room
that all the urgent ones leave (R70). -/
def handOutMarks (room : Nat) (q : List QMsg) : List (QMsg × Bool) :=
  markTaken room (room - (q.filter (·.urgent)).length) q

/-- The marked messages, the urgent ones first. -/
def markedFirst (l : List (QMsg × Bool)) : List (QMsg × Bool) :=
  (l.filter fun x => x.2 && x.1.urgent) ++ l.filter fun x => x.2 && !x.1.urgent

theorem handOut_eq (room : Nat) (q : List QMsg) : handOut room q = {
    carried := (markedFirst (handOutMarks room q)).map (·.1.msg)
    queue := (handOutMarks room q).filterMap afterHandOut
    finals := ((markedFirst (handOutMarks room q)).filter fun x => decide (x.1.left ≤ 1)).map (·.1) } := rfl

theorem mem_markedFirst {l : List (QMsg × Bool)} {x : QMsg × Bool} : x ∈ markedFirst l ↔ x ∈ l ∧ x.2 = true := by
  cases urgent : x.1.urgent <;> simp [markedFirst, urgent]

theorem handOutMarks_map_fst (room : Nat) (q : List QMsg) : (handOutMarks room q).map (·.1) = q :=
  markTaken_map_fst _ _ _

/-- A hand-out takes the urgent messages in queue order, then the normal ones, up to the room (R70). -/
theorem markedFirst_handOutMarks (room : Nat) (q : List QMsg) : (markedFirst (handOutMarks room q)).map (·.1) =
    ((q.filter (·.urgent)) ++ q.filter fun m => !m.urgent).take room := by
  rw [markedFirst, List.map_append, handOutMarks, markTaken_urgent, markTaken_normal, List.take_append]

/-! ## The queue left -/

/-- A lawful queue never holds the same message twice. -/
theorem OutQueueLaw.nodup {q : List QMsg} (law : OutQueueLaw q) : q.Nodup :=
  law.2.imp fun differ same => differ (by rw [same]; exact ⟨rfl, rfl⟩)

/-- In a lawful queue the mark of a message says whether it is among the messages taken. -/
theorem mark_iff_mem_taken {room : Nat} {q : List QMsg} (law : OutQueueLaw q) {x : QMsg × Bool}
    (mem : x ∈ handOutMarks room q) : x.2 = true ↔ x.1 ∈ (markedFirst (handOutMarks room q)).map (·.1) := by
  have distinct : ((handOutMarks room q).map (·.1)).Nodup := (handOutMarks_map_fst room q).symm ▸ law.nodup
  refine ⟨fun marked => List.mem_map_of_mem (mem_markedFirst.2 ⟨mem, marked⟩), fun taken => ?_⟩
  obtain ⟨y, hy, same⟩ := List.mem_map.1 taken
  obtain ⟨memY, marked⟩ := mem_markedFirst.1 hy
  rwa [← List.inj_on_of_nodup_map distinct memY mem same]

/-- Settles O48: the messages taken are `markedFirst`, and in a lawful queue each mark tells whether its message is one. -/
theorem handOutTakesUrgentMessagesFirst : Obligations.HandOutTakesUrgentMessagesFirst := by
  intro q taken room law htaken
  rw [← markedFirst_handOutMarks] at htaken
  have mark {x : QMsg × Bool} (mem : x ∈ handOutMarks room q) : x.2 = true ↔ x.1 ∈ taken :=
    htaken ▸ mark_iff_mem_taken law mem
  rw [handOut_eq]
  refine ⟨by simp [htaken], by simp [htaken, List.filter_map, Function.comp_def], ?_⟩
  conv_rhs => rw [← handOutMarks_map_fst room q, List.filterMap_map]
  refine List.filterMap_congr fun x mem => ?_
  simp only [afterHandOut, Function.comp_apply, mark mem]

end Sys2Proof.Machine
end

section
/-! INJECT (R64, R68, R69, R74, R75): which message a request carries, how it joins an out-queue, and the whole request. -/

namespace Sys2Proof.Machine

/-! ## The message a request carries (R64; R74, case 1) -/

theorem xorBytes_eq_fold (x : BitVec 64) :
    xorBytes x = ((List.range 8).map fun i => x.extractLsb' (8 * i) 8).foldl (· ^^^ ·) 0 := by
  have places : List.range 8 = [0, 1, 2, 3, 4, 5, 6, 7] := rfl
  simp only [xorBytes, places, List.map_cons, List.map_nil, List.foldl_cons, List.foldl_nil,
    Nat.reduceMul, BitVec.ofNat_eq_ofNat, BitVec.zero_xor]
  ac_rfl

section
variable (h : BitVec 16) (fields : BitVec 64) (m : TreeMsg)

theorem injectedMsg_enrol : injectedMsg 1 h fields = some m ↔
    1 ≤ h.toNat ∧ h.toNat ≤ 511 ∧ xorBytes fields = 0 ∧ .enrol h.toNat (fields.extractLsb' 8 56) = m := by
  simp only [injectedMsg, BitVec.reduceToNat, Option.ite_none_right_eq_some, Bool.and_eq_true, decide_eq_true_eq,
    beq_iff_eq, Option.some.injEq, and_assoc]
  exact Iff.rfl

theorem injectedMsg_setDelay : injectedMsg 2 h fields = some m ↔
    1 ≤ h.toNat ∧ h.toNat ≤ 511 ∧ (fields.extractLsb' 40 24).toNat ≤ 1048575 ∧
      .setDelay h.toNat (fields.extractLsb' 40 24).toNat = m := by
  simp only [injectedMsg, BitVec.reduceToNat, Option.ite_none_right_eq_some, Bool.and_eq_true, decide_eq_true_eq,
    Option.some.injEq, and_assoc]
  exact Iff.rfl

theorem injectedMsg_trimDelay : injectedMsg 3 h fields = some m ↔
    1 ≤ h.toNat ∧ h.toNat ≤ 511 ∧ -255 ≤ (fields.extractLsb' 48 16).toInt ∧ (fields.extractLsb' 48 16).toInt ≤ 255 ∧
      .trimDelay h.toNat (fields.extractLsb' 48 16).toInt = m := by
  simp only [injectedMsg, BitVec.reduceToNat, Option.ite_none_right_eq_some, Bool.and_eq_true, decide_eq_true_eq,
    Option.some.injEq, and_assoc]
  exact Iff.rfl

theorem injectedMsg_hush : injectedMsg 4 h fields = some m ↔ h.toNat ≤ 511 ∧ .hush h.toNat = m := by
  simp only [injectedMsg, BitVec.reduceToNat, Option.ite_none_right_eq_some, decide_eq_true_eq, Option.some.injEq]
  exact Iff.rfl

theorem injectedMsg_resume : injectedMsg 5 h fields = some m ↔ h.toNat ≤ 511 ∧ .resume h.toNat = m := by
  simp only [injectedMsg, BitVec.reduceToNat, Option.ite_none_right_eq_some, decide_eq_true_eq, Option.some.injEq]
  exact Iff.rfl

theorem injectedMsg_retune : injectedMsg 6 h fields = some m ↔
    1 ≤ h.toNat ∧ h.toNat ≤ 511 ∧
      ∃ c, Chan.ofNum (fields.extractLsb' 56 8).toNat = some c ∧ .retune h.toNat c = m := by
  simp only [injectedMsg, BitVec.reduceToNat]
  cases Chan.ofNum (fields.extractLsb' 56 8).toNat with
  | none => simp
  | some c =>
    simp only [Option.ite_none_right_eq_some, Bool.and_eq_true, decide_eq_true_eq, Option.some.injEq,
      exists_eq_left', and_assoc]
    exact Iff.rfl

theorem injectedMsg_dismiss : injectedMsg 7 h fields = some m ↔ h.toNat ≤ 511 ∧ .dismiss h.toNat = m := by
  simp only [injectedMsg, BitVec.reduceToNat, Option.ite_none_right_eq_some, decide_eq_true_eq, Option.some.injEq]
  exact Iff.rfl

end

/-- Table 4-1 has seven kinds. -/
theorem kind_of_injectedMsg {kind : Byte} {h : BitVec 16} {fields : BitVec 64} {m : TreeMsg}
    (e : injectedMsg kind h fields = some m) :
    kind = 1 ∨ kind = 2 ∨ kind = 3 ∨ kind = 4 ∨ kind = 5 ∨ kind = 6 ∨ kind = 7 := by
  have code : 1 ≤ kind.toNat ∧ kind.toNat ≤ 7 := by
    unfold injectedMsg at e
    split at e
    case h_8 => cases e
    all_goals omega
  bv_omega

theorem injectedMsg_eq_some_iff (kind : Byte) (h : BitVec 16) (fields : BitVec 64) (m : TreeMsg) :
    injectedMsg kind h fields = some m ↔ h.toNat ≤ 511 ∧
      (kind = 1 ∧ 1 ≤ h.toNat ∧ xorBytes fields = 0 ∧ m = .enrol h.toNat (fields.extractLsb' 8 56) ∨
      kind = 2 ∧ 1 ≤ h.toNat ∧ (fields.extractLsb' 40 24).toNat ≤ 1048575 ∧
        m = .setDelay h.toNat (fields.extractLsb' 40 24).toNat ∨
      kind = 3 ∧ 1 ≤ h.toNat ∧ -255 ≤ (fields.extractLsb' 48 16).toInt ∧ (fields.extractLsb' 48 16).toInt ≤ 255 ∧
        m = .trimDelay h.toNat (fields.extractLsb' 48 16).toInt ∨
      kind = 4 ∧ m = .hush h.toNat ∨
      kind = 5 ∧ m = .resume h.toNat ∨
      kind = 6 ∧ 1 ≤ h.toNat ∧ (∃ c, Chan.ofNum (fields.extractLsb' 56 8).toNat = some c ∧ m = .retune h.toNat c) ∨
      kind = 7 ∧ m = .dismiss h.toNat) := by
  constructor
  · intro e
    obtain rfl | rfl | rfl | rfl | rfl | rfl | rfl := kind_of_injectedMsg e
    · obtain ⟨low, high, check, rfl⟩ := (injectedMsg_enrol h fields m).1 e
      exact ⟨high, .inl ⟨rfl, low, check, rfl⟩⟩
    · obtain ⟨low, high, delay, rfl⟩ := (injectedMsg_setDelay h fields m).1 e
      exact ⟨high, .inr (.inl ⟨rfl, low, delay, rfl⟩)⟩
    · obtain ⟨low, high, least, most, rfl⟩ := (injectedMsg_trimDelay h fields m).1 e
      exact ⟨high, .inr (.inr (.inl ⟨rfl, low, least, most, rfl⟩))⟩
    · obtain ⟨high, rfl⟩ := (injectedMsg_hush h fields m).1 e
      exact ⟨high, .inr (.inr (.inr (.inl ⟨rfl, rfl⟩)))⟩
    · obtain ⟨high, rfl⟩ := (injectedMsg_resume h fields m).1 e
      exact ⟨high, .inr (.inr (.inr (.inr (.inl ⟨rfl, rfl⟩))))⟩
    · obtain ⟨low, high, c, target, rfl⟩ := (injectedMsg_retune h fields m).1 e
      exact ⟨high, .inr (.inr (.inr (.inr (.inr (.inl ⟨rfl, low, c, target, rfl⟩)))))⟩
    · obtain ⟨high, rfl⟩ := (injectedMsg_dismiss h fields m).1 e
      exact ⟨high, .inr (.inr (.inr (.inr (.inr (.inr ⟨rfl, rfl⟩)))))⟩
  · rintro ⟨high, ⟨rfl, low, check, rfl⟩ | ⟨rfl, low, delay, rfl⟩ | ⟨rfl, low, least, most, rfl⟩ | ⟨rfl, rfl⟩ |
      ⟨rfl, rfl⟩ | ⟨rfl, low, c, target, rfl⟩ | ⟨rfl, rfl⟩⟩
    · exact (injectedMsg_enrol h fields _).2 ⟨low, high, check, rfl⟩
    · exact (injectedMsg_setDelay h fields _).2 ⟨low, high, delay, rfl⟩
    · exact (injectedMsg_trimDelay h fields _).2 ⟨low, high, least, most, rfl⟩
    · exact (injectedMsg_hush h fields _).2 ⟨high, rfl⟩
    · exact (injectedMsg_resume h fields _).2 ⟨high, rfl⟩
    · exact (injectedMsg_retune h fields _).2 ⟨low, high, c, target, rfl⟩
    · exact (injectedMsg_dismiss h fields _).2 ⟨high, rfl⟩

/-! ## The join of an injected message (R68, R69, R75) -/

theorem injectMsg_sameSlot_iff (r : Nat) (m : TreeMsg) (x : QMsg) :
    (injectMsg r m).sameSlot x = true ↔ x.msg.kind = m.kind ∧ x.msg.handle = m.handle :=
  (QMsg.sameSlot_iff _ _).trans (and_congr eq_comm eq_comm)

/-- An injected message takes the place of its like, and the report flag that stood there stays (R75). -/
theorem joinOrReplace_inject_replaces {r : Nat} {m : TreeMsg} {q : List QMsg} {x : QMsg} (mem : x ∈ q)
    (kind : x.msg.kind = m.kind) (handle : x.msg.handle = m.handle) : joinOrReplace (injectMsg r m) q =
      ⟨q.map fun z => if z.msg.kind = m.kind ∧ z.msg.handle = m.handle
        then ⟨m, true, repeatsOf r m.kind, z.report⟩ else z, true, none⟩ := by
  have stands : q.any (injectMsg r m).sameSlot = true :=
    List.any_eq_true.2 ⟨x, mem, (injectMsg_sameSlot_iff r m x).2 ⟨kind, handle⟩⟩
  simp only [joinOrReplace, stands, if_true, replaceIn, injectMsg_sameSlot_iff]
  rfl

theorem joinOrReplace_inject_fresh {r : Nat} {m : TreeMsg} {q : List QMsg}
    (fresh : ∀ x ∈ q, ¬(x.msg.kind = m.kind ∧ x.msg.handle = m.handle)) :
    joinOrReplace (injectMsg r m) q = joinTail (injectMsg r m) q := by
  refine if_neg fun stands => ?_
  obtain ⟨x, mem, same⟩ := List.any_eq_true.1 stands
  exact fresh x mem ((injectMsg_sameSlot_iff r m x).1 same)

/-! ## The request (R74, R75) -/

section
variable {s : State} {c : Chan} {m : TreeMsg} {q : List QMsg}

theorem State.injectOn_of_join (join : joinOrReplace (injectMsg s.tree.r m) (s.chan c).outq = ⟨q, true, none⟩) :
    s.injectOn c m = (s.modChan c fun y => { y with outq := q }, Reply.bare .done) := by
  simp only [State.injectOn, join, if_true]

theorem State.injectOn_of_evict {v : QMsg}
    (join : joinOrReplace (injectMsg s.tree.r m) (s.chan c).outq = ⟨q, true, some v⟩) :
    s.injectOn c m = ((s.modChan c fun y => { y with outq := q }).takeReport .evicted c v.msg.kind v.msg.handle,
      Reply.bare .done) := by
  simp only [State.injectOn, join, if_true]

theorem State.injectOn_of_refused (join : joinOrReplace (injectMsg s.tree.r m) (s.chan c).outq = ⟨q, false, none⟩) :
    s.injectOn c m = (s, Reply.bare .tableFull) := by
  simp only [State.injectOn, join, Bool.false_eq_true, if_false]

end

section
variable {s : State} {ch kind : Byte} {h : BitVec 16} {fields : BitVec 64}

/-- A channel above 3 or a message that R64 does not give (R74, case 1). -/
theorem State.reqInject_outOfRange (bad : 3 < ch.toNat ∨ injectedMsg kind h fields = none) :
    s.reqInject ch kind h fields = (s, Reply.bare .outOfRange) := by
  unfold State.reqInject State.onChannel
  rcases bad with high | noMsg
  · rw [Chan.ofNum_eq_none high]
  · rw [noMsg]; cases Chan.ofNum ch.toNat <;> rfl

/-- A request in range is judged by the link and then by the queue (R74, cases 2 and 3). -/
theorem State.reqInject_inRange {c : Chan} {m : TreeMsg} (hc : Chan.ofNum ch.toNat = some c)
    (hm : injectedMsg kind h fields = some m) :
    s.reqInject ch kind h fields = if s.isUp c then s.injectOn c m else (s, Reply.bare .channelDown) := by
  simp only [State.reqInject, State.onChannel, hc, hm]

end

/-- Settles O39: the message by its kind, the request by R74, and the join by what stands in the queue. -/
theorem injectJoinsOrReplaces : Obligations.InjectJoinsOrReplaces := by
  refine ⟨xorBytes_eq_fold, injectedMsg_eq_some_iff, fun s ch kind h fields ready => ?_⟩
  have exec_eq : exec (.inject ch kind h fields) s = .next (State.answer (s.reqInject ch kind h fields)) :=
    State.request_ready ready _ fun s => s.reqInject ch kind h fields
  rw [exec_eq]
  refine ⟨fun bad => ?_, fun c m hc hm => ?_⟩
  · rw [State.reqInject_outOfRange bad]; rfl
  rw [State.reqInject_inRange hc hm]
  refine ⟨fun down => ?_, fun up => ?_⟩
  · rw [if_neg (by simp [down])]; rfl
  rw [if_pos up]
  refine ⟨fun x mem sameKind sameHandle => ?_, fun fresh => ⟨fun room => ?_, fun full urgent => ?_,
    fun a v b full split normal urgent => ?_⟩⟩
  · rw [State.injectOn_of_join (joinOrReplace_inject_replaces mem sameKind sameHandle)]; rfl
  · rw [State.injectOn_of_join ((joinOrReplace_inject_fresh fresh).trans (joinTail_room room))]; rfl
  · rw [State.injectOn_of_refused ((joinOrReplace_inject_fresh fresh).trans (joinTail_full full (.inr urgent)))]; rfl
  · rw [State.injectOn_of_evict ((joinOrReplace_inject_fresh fresh).trans (joinTail_evicts full rfl split normal urgent))]
    rfl

end Sys2Proof.Machine
end

section
/-! The requests on the admission table and on the pending list (R95, R96, R104, R105): a mark looked up and loaded, and
the reports by place. -/

namespace Sys2Proof.Machine

/-! ## Marks looked up in the table and in the pending list -/

/-- A search by a field finds nothing exactly when no item has that value of the field. -/
theorem find_field_eq_none_iff {α β : Type} [BEq β] [LawfulBEq β] (field : α → β) (b : β) (l : List α) :
    l.find? (field · == b) = none ↔ b ∉ l.map field := by
  rw [List.find?_eq_none, List.mem_map, not_exists]
  exact forall_congr' fun a => by rw [beq_iff_eq, not_and]

theorem tableFind_eq_none_iff {m : Mark} {l : List TableEntry} : tableFind m l = none ↔ m ∉ l.map (·.mark) :=
  find_field_eq_none_iff _ m l

theorem tableFind_of_mem {m : Mark} {l : List TableEntry} (held : m ∈ l.map (·.mark)) : ∃ e, tableFind m l = some e :=
  Option.ne_none_iff_exists'.1 fun missing => tableFind_eq_none_iff.1 missing held

/-- A mark whose entry left the table has no ruling (R96). -/
theorem tableFind_removed (m : Mark) (l : List TableEntry) : tableFind m (l.filter fun e => !(e.mark == m)) = none :=
  tableFind_eq_none_iff.2 fun mem => by
    obtain ⟨e, kept, rfl⟩ := List.mem_map.1 mem
    simpa using (List.mem_filter.1 kept).2

theorem State.waitingItem_eq_none_iff {s : State} {m : Mark} : s.waitingItem m = none ↔ m ∉ s.waiting.map (·.mark) :=
  find_field_eq_none_iff _ m s.waiting

theorem State.waitingItem_of_mem {s : State} {m : Mark} (waits : m ∈ s.waiting.map (·.mark)) :
    ∃ i, s.waitingItem m = some i :=
  Option.ne_none_iff_exists'.1 fun missing => State.waitingItem_eq_none_iff.1 missing waits

/-! ## A mark loaded (R95, R104) -/

section
variable {m : Mark} {l : List TableEntry}

theorem tableLoad_held (held : m ∈ l.map (·.mark)) (p : TablePolicy) : tableLoad m p l = some (tableReload m p l) := by
  obtain ⟨e, found⟩ := tableFind_of_mem held
  rw [tableLoad, found]

theorem tableLoad_joins (fresh : m ∉ l.map (·.mark)) (room : l.length < 64) (p : TablePolicy) :
    tableLoad m p l = some (l ++ [⟨m, p, false⟩]) := by
  rw [tableLoad, tableFind_eq_none_iff.2 fresh]
  exact if_pos room

theorem tableLoad_full (fresh : m ∉ l.map (·.mark)) (full : 64 ≤ l.length) (p : TablePolicy) : tableLoad m p l = none := by
  rw [tableLoad, tableFind_eq_none_iff.2 fresh]
  exact if_neg (Nat.not_lt.2 full)

end

/-! ## TABLE LOAD (R95) -/

theorem TablePolicy.ofCode_eq_none {policy : Byte} (not1 : policy ≠ 1) (not2 : policy ≠ 2) :
    TablePolicy.ofCode policy.toNat = none := by
  unfold TablePolicy.ofCode
  split
  next is1 => exact absurd (BitVec.eq_of_toNat_eq is1) not1
  next is2 => exact absurd (BitVec.eq_of_toNat_eq is2) not2
  next => rfl

section
variable {s : State} {m : Mark} {policy : Byte} {p : TablePolicy}

theorem State.reqTableLoad_noPolicy (bad : TablePolicy.ofCode policy.toNat = none) :
    s.reqTableLoad m policy = (s, Reply.bare .outOfRange) := by
  rw [State.reqTableLoad, bad]

theorem State.reqTableLoad_blank (blank : isBlank m = true) : s.reqTableLoad m policy = (s, Reply.bare .outOfRange) := by
  unfold State.reqTableLoad
  split
  · rfl
  · exact if_pos blank

theorem State.reqTableLoad_taken {l : List TableEntry} (code : TablePolicy.ofCode policy.toNat = some p)
    (nonblank : ¬ isBlank m = true) (loaded : tableLoad m p s.table = some l) :
    s.reqTableLoad m policy = ({ s with table := l }, Reply.bare .done) := by
  simp only [State.reqTableLoad, code, if_neg nonblank, loaded]

theorem State.reqTableLoad_refused (code : TablePolicy.ofCode policy.toNat = some p) (nonblank : ¬ isBlank m = true)
    (full : tableLoad m p s.table = none) : s.reqTableLoad m policy = (s, Reply.bare .tableFull) := by
  simp only [State.reqTableLoad, code, if_neg nonblank, full]

end

/-- Settles O29: judged by policy and mark, and then loaded in one of the three ways of a mark. -/
theorem tableLoadKeepsPlaces : Obligations.TableLoadKeepsPlaces := by
  intro s m policy ready
  have exec_eq : exec (.tableLoad m policy) s = .next (State.answer (s.reqTableLoad m policy)) :=
    State.request_ready ready _ (·.reqTableLoad m policy)
  rw [exec_eq]
  refine ⟨fun bad => ?_, fun p coded not0 notOnes => ?_⟩
  · rcases bad with ⟨not1, not2⟩ | blank
    · rw [State.reqTableLoad_noPolicy (TablePolicy.ofCode_eq_none not1 not2)]; rfl
    · rw [State.reqTableLoad_blank ((isBlank_iff m).2 blank)]; rfl
  · have code : TablePolicy.ofCode policy.toNat = some p := by rcases coded with ⟨rfl, rfl⟩ | ⟨rfl, rfl⟩ <;> rfl
    have nonblank : ¬ isBlank m = true := fun blank => ((isBlank_iff m).1 blank).elim not0 notOnes
    refine ⟨fun held => ?_, fun fresh room => ?_, fun fresh full => ?_⟩
    · rw [State.reqTableLoad_taken code nonblank (tableLoad_held held p)]; rfl
    · rw [State.reqTableLoad_taken code nonblank (tableLoad_joins fresh room p)]; rfl
    · rw [State.reqTableLoad_refused code nonblank (tableLoad_full fresh full p)]; rfl

/-! ## TABLE REMOVE and TABLE READ (R96) -/

section
variable {s : State} {m : Mark}

theorem State.reqTableRemove_held (held : m ∈ s.table.map (·.mark)) : s.reqTableRemove m =
    ({ s with table := s.table.filter fun e => !(e.mark == m) }, Reply.bare .done) := by
  obtain ⟨e, found⟩ := tableFind_of_mem held
  rw [State.reqTableRemove, found]

theorem State.reqTableRemove_absent (absent : m ∉ s.table.map (·.mark)) :
    s.reqTableRemove m = (s, Reply.bare .noEntry) := by
  rw [State.reqTableRemove, tableFind_eq_none_iff.2 absent]

end

section
variable {s : State} {idx : Byte}

theorem State.reqTableRead_outOfRange (high : 63 < idx.toNat) : s.reqTableRead idx = (s, Reply.bare .outOfRange) :=
  if_pos high

theorem State.reqTableRead_empty (low : idx.toNat ≤ 63) (beyond : s.table.length ≤ idx.toNat) :
    s.reqTableRead idx = (s, ⟨.empty, natBytes 1 s.table.length⟩) := by
  rw [State.reqTableRead, List.getElem?_eq_none beyond]
  exact if_neg (Nat.not_lt.2 low)

theorem State.reqTableRead_entry {e : TableEntry} (low : idx.toNat ≤ 63) (there : s.table[idx.toNat]? = some e) :
    s.reqTableRead idx = (s, ⟨.done,
      natBytes 1 s.table.length ++ markBytes e.mark ++ natBytes 1 e.policy.code ++ [flagByte e.seen]⟩) := by
  rw [State.reqTableRead, there]
  exact if_neg (Nat.not_lt.2 low)

end

/-- Settles O30: each request by whether the mark is held, or by what stands at the place. -/
theorem tableRemoveAndTableRead : Obligations.TableRemoveAndTableRead := by
  refine ⟨fun _ _ => rfl, fun _ => rfl, fun p => by cases p <;> rfl, fun s ready => ?_⟩
  have exec_remove (m : Mark) : exec (.tableRemove m) s = .next (State.answer (s.reqTableRemove m)) :=
    State.request_ready ready _ (·.reqTableRemove m)
  have exec_read (idx : Byte) : exec (.tableRead idx) s = .next (State.answer (s.reqTableRead idx)) :=
    State.request_ready ready _ (·.reqTableRead idx)
  refine ⟨fun m held => ⟨?_, tableFind_removed m s.table⟩, fun m absent => ?_, fun idx high => ?_,
    fun idx low beyond => ?_, fun idx e low there => ?_⟩
  · rw [exec_remove, State.reqTableRemove_held held]; rfl
  · rw [exec_remove, State.reqTableRemove_absent absent]; rfl
  · rw [exec_read, State.reqTableRead_outOfRange high]; rfl
  · rw [exec_read, State.reqTableRead_empty low beyond]; rfl
  · rw [exec_read, State.reqTableRead_entry low there]; rfl

/-! ## BAR (R104) -/

section
variable {s : State} {m : Mark}

theorem State.reqBar_notPending (absent : m ∉ s.waiting.map (·.mark)) : s.reqBar m = (s, Reply.bare .notPending) := by
  rw [State.reqBar, State.waitingItem_eq_none_iff.2 absent]

theorem State.reqBar_taken {l : List TableEntry} (waits : m ∈ s.waiting.map (·.mark))
    (loaded : tableLoad m .bar s.table = some l) :
    s.reqBar m = (({ s with table := l } : State).removeWaiting m, Reply.bare .done) := by
  obtain ⟨i, item⟩ := State.waitingItem_of_mem waits
  simp only [State.reqBar, item, loaded]

theorem State.reqBar_refused (waits : m ∈ s.waiting.map (·.mark)) (full : tableLoad m .bar s.table = none) :
    s.reqBar m = (s, Reply.bare .tableFull) := by
  obtain ⟨i, item⟩ := State.waitingItem_of_mem waits
  simp only [State.reqBar, item, full]

end

/-- Settles O33: a pending mark is loaded with BAR as a TABLE LOAD would, and leaves the list when it was taken. -/
theorem barMovesAPendingMarkToTheTable : Obligations.BarMovesAPendingMarkToTheTable := by
  intro s m ready
  have exec_eq : exec (.bar m) s = .next (State.answer (s.reqBar m)) := State.request_ready ready _ (·.reqBar m)
  rw [exec_eq]
  refine ⟨fun absent => ?_, fun waits => ⟨fun held => ?_, fun fresh room => ?_, fun fresh full => ?_⟩⟩
  · rw [State.reqBar_notPending absent]; rfl
  · rw [State.reqBar_taken waits (tableLoad_held held .bar)]; rfl
  · rw [State.reqBar_taken waits (tableLoad_joins fresh room .bar)]; rfl
  · rw [State.reqBar_refused waits (tableLoad_full fresh full .bar)]; rfl

/-! ## PENDING READ (R105) -/

section
variable {s : State} {idx : Byte}

theorem State.reqPendingRead_outOfRange (high : 15 < idx.toNat) : s.reqPendingRead idx = (s, Reply.bare .outOfRange) :=
  if_pos high

theorem State.reqPendingRead_empty (low : idx.toNat ≤ 15) (beyond : s.waiting.length ≤ idx.toNat) :
    s.reqPendingRead idx = (s, ⟨.empty, natBytes 1 s.waiting.length⟩) := by
  rw [State.reqPendingRead, List.getElem?_eq_none beyond]
  exact if_neg (Nat.not_lt.2 low)

theorem State.reqPendingRead_item {i : PendingItem} (low : idx.toNat ≤ 15) (there : s.waiting[idx.toNat]? = some i) :
    s.reqPendingRead idx = (s, ⟨.done, natBytes 1 s.waiting.length ++ markBytes i.mark ++ natBytes 1 i.chan.num ++
      intBytes 3 i.coarse ++ natBytes 1 i.age ++ natBytes 1 i.answers⟩) := by
  rw [State.reqPendingRead, there]
  exact if_neg (Nat.not_lt.2 low)

end

/-- The number of pending items stands behind the links, the state counts and the free handles (R158). -/
theorem State.statusBytes_waiting (s : State) : s.statusBytes[40]? = some (BitVec.ofNat 8 s.waiting.length) := rfl

/-- Settles O34: the report by what stands at the place, and the same count at its offset in STATUS. -/
theorem pendingReadReportsThePlace : Obligations.PendingReadReportsThePlace := by
  intro s ready
  have exec_eq (idx : Byte) : exec (.pendingRead idx) s = .next (State.answer (s.reqPendingRead idx)) :=
    State.request_ready ready _ (·.reqPendingRead idx)
  refine ⟨fun idx high => ?_, fun idx low beyond => ?_, fun idx i low there => ?_, s.statusBytes_waiting⟩
  · rw [exec_eq, State.reqPendingRead_outOfRange high]; rfl
  · rw [exec_eq, State.reqPendingRead_empty low beyond]; rfl
  · rw [exec_eq, State.reqPendingRead_item low there]; rfl

end Sys2Proof.Machine
end

section
/-! The law of drift (R128): where the fields of an entry come from in a small change of `Micro`, and that a replacement
of the settings which changes V clears every streak (R8). -/

namespace Sys2Proof.Machine

/-! ## Where the fields of an entry come from -/

/-- A change that leaves mark, home channel and entry state keeps all that the laws ask of an entry. -/
theorem TermKeeps.of_phase {s : State} {t t' : Terminal} (mark : t'.mark = t.mark) (home : t'.home = t.home)
    (phase : t'.phase = t.phase) : TermKeeps s t t' :=
  .of_fix mark home (by rw [phase]) (by rw [phase]) fun f d n _ hp hs => .inr ⟨f, d, n, phase ▸ hp, hs⟩

theorem TermKeeps.refl (s : State) (t : Terminal) : TermKeeps s t t := .of_phase rfl rfl rfl

/-- The fields of an entry after entry k's were changed by f: those held before, or f's. -/
theorem State.term_modTerm_cases {s : State} {h k : Handle} {f : Terminal → Terminal} {u : Terminal}
    (e : (s.modTerm k f).term h = some u) : s.term h = some u ∨ (h = k ∧ ∃ v, s.term k = some v ∧ f v = u) := by
  by_cases hk : h = k
  · subst hk
    rw [State.term_modTerm_same, Option.map_eq_some_iff] at e
    exact .inr ⟨rfl, e⟩
  · rw [State.term_modTerm_ne s hk] at e
    exact .inl e

/-- After a small change an entry is one held before and changed at most as `TermKeeps` allows, or it is not ACTIVE. -/
theorem Micro.term_origin {s t : State} (m : Micro s t) {h : Handle} {u : Terminal} (e : t.term h = some u) :
    (∃ v, s.term h = some v ∧ TermKeeps s v u) ∨ u.phase.isActive = false := by
  have held {u : Terminal} (e : s.term h = some u) :
      (∃ v, s.term h = some v ∧ TermKeeps s v u) ∨ u.phase.isActive = false := .inl ⟨u, e, .refl s u⟩
  cases m with
  | other _ _ registry => exact held ((State.term_congr registry h).symm.trans e)
  | term k f v hv keeps =>
    obtain e | ⟨rfl, w, hw, rfl⟩ := State.term_modTerm_cases e
    · exact held e
    · obtain rfl : v = w := Option.some.inj (hv.symm.trans hw)
      exact .inl ⟨v, hv, keeps⟩
  | fields k f keeps =>
    obtain e | ⟨rfl, v, hv, rfl⟩ := State.term_modTerm_cases e
    · exact held e
    · obtain ⟨mark, home, phase⟩ := keeps v
      exact .inl ⟨v, hv, .of_phase mark home phase⟩
  | repair k y hy => exact held ((State.term_repair hy h).symm.trans e)
  | damage k =>
    rw [State.term_storeDamaged] at e
    split at e
    · cases e
    · exact held e
  | free k =>
    have freed : (s.freeEntry k false).term h = some u :=
      (State.term_congr (State.freeEntry_registry s k false) h).trans e
    rw [State.term_freeEntry] at freed
    split at freed
    · cases freed
    · exact held freed
  | create k mark c coarse free =>
    rw [State.term_createEntry s mark c coarse free] at e
    split at e
    · cases e; exact .inr rfl
    · exact held e
  | reEnrol k v hv c coarse n =>
    obtain e | ⟨-, w, -, rfl⟩ := State.term_modTerm_cases (s := s) (k := k) e
    · exact held e
    · exact .inr rfl
  | lose k v hv present age sent =>
    obtain e | ⟨-, w, -, rfl⟩ := State.term_modTerm_cases (s := s) (k := k) e
    · exact held e
    · exact .inr rfl
  | full => cases e
  | _ => exact held e

/-! ## Drift streaks (R8, R128) -/

theorem Micro.keeps_driftLaw {s t : State} (m : Micro s t) (law : DriftLaw s) : DriftLaw t := by
  intro h u fix d missed st hu active streak
  rcases m.tree_eq with tree | rfl
  · rw [tree]
    rcases m.term_origin hu with ⟨v, hv, keeps⟩ | inactive
    · rcases keeps.streak fix d missed st active streak with short | ⟨fix', d', missed', active', streak'⟩
      · exact short
      · exact law h v fix' d' missed' st hv active' streak'
    · rw [active] at inactive; cases inactive
  · cases hu

theorem Terminal.streak_clearStreak {t : Terminal} {fix : Fix} {d : Drift} {missed : Nat}
    (active : t.clearStreak.phase = .active fix d missed) : d.streak = none := by
  unfold Terminal.clearStreak at active
  split at active
  · cases active; rfl
  · rename_i other; exact absurd active (other fix d missed)

/-- Settings with another V clear the drift streak of every entry (R8). -/
theorem State.term_replaceSettings_of_ne {s : State} {u : TreeSettings} (change : u.V ≠ s.tree.V) (h : Handle) :
    (s.replaceSettings u).term h = (s.term h).map Terminal.clearStreak := by
  have reg : (s.replaceSettings u).registry = s.registry.map Entry.clearStreak := if_neg change
  unfold State.term State.entry
  rw [reg, find_map_handle (f := Entry.clearStreak) fun _ => rfl]
  cases s.registry.find? fun e => e.handle == h <;> rfl

theorem State.replaceSettings_keeps_driftLaw {s : State} (u : TreeSettings) (law : DriftLaw s) :
    DriftLaw (s.replaceSettings u) := by
  intro h v fix d missed st hv active streak
  by_cases same : u.V = s.tree.V
  · have held : s.term h = some v := (State.term_congr (t := s) (if_pos same) h).symm.trans hv
    exact (law h v fix d missed st held active streak).trans_eq same.symm
  · rw [State.term_replaceSettings_of_ne same] at hv
    obtain ⟨w, -, rfl⟩ := Option.map_eq_some_iff.1 hv
    rw [Terminal.streak_clearStreak active] at streak
    cases streak

/-- Settles O18: a streak after a small change stood before it or was set below V; a new V clears them all (R8). -/
theorem stepKeepsTheLawOfDrift : Obligations.StepKeepsTheLawOfDrift := by
  intro s t e _ law
  exact kept_by_step (P := DriftLaw) (fun _ _ m => m.keeps_driftLaw)
    (fun _ u _ _ _ _ law => State.replaceSettings_keeps_driftLaw u law) law e

end Sys2Proof.Machine
end

section
/-! A step with no command waiting: the oldest internal event, and with none one reference clock period (R133, R159). -/

namespace Sys2Proof.Machine

variable {s : State}

/-! ## One period of the reference clock (R133, R159) -/

/-- RESET holds the scan timer (R159). -/
theorem State.tick_of_reset (held : s.pins.resetLow = true) : s.tick = s :=
  State.whenRunning_of_reset s _ held

theorem State.tick_of_count_lt (run : s.running) (below : s.prescaler + 1 < 2 ^ s.tree.p) :
    s.tick = { s with prescaler := s.prescaler + 1 } :=
  (State.whenRunning_running run _).trans (if_pos below)

/-- The prescaler's return to 0 is a scan expiry (R133). -/
theorem State.tick_of_count_le (run : s.running) (full : 2 ^ s.tree.p ≤ s.prescaler + 1) : s.tick = s.scan :=
  (State.whenRunning_running run _).trans (if_neg full.not_gt)

/-! ## The step with no command waiting (log entries 1 and 2) -/

theorem step_of_event {e : Event} {rest : List Event} (idle : s.pending = []) (event : s.events = e :: rest) :
    step s = .next (({ s with events := rest } : State).takeEvent e) := by
  simp only [step, idle, State.idle, event]

theorem step_of_no_event (idle : s.pending = []) (quiet : s.events = []) : step s = .next s.tick := by
  simp only [step, idle, State.idle, quiet]

/-- Settles O2: an event is taken by `step_of_event`, and otherwise the step is `State.tick`, held by RESET, counting or
expiring. -/
theorem idleStepTakesAnEventOrAClockPeriod : Obligations.IdleStepTakesAnEventOrAClockPeriod := by
  intro s idle
  refine ⟨fun e rest event => step_of_event idle event, fun quiet held => ?_, fun quiet run below => ?_,
    fun quiet run full => ?_⟩
  · rw [step_of_no_event idle quiet, State.tick_of_reset held]
  · rw [step_of_no_event idle quiet, State.tick_of_count_lt run below]
  · rw [step_of_no_event idle quiet, State.tick_of_count_le run full, exec_scanExpiry run]

end Sys2Proof.Machine
end

section
/-! The effect of each request command, and RESET asserted (R159): what a command does while the links, the port and the
scan timer are held, and the resets that POWER_UP, the RESET input and the end of a transaction take (R159, R160). -/

namespace Sys2Proof.Machine

variable {s : State}

/-! ## The requests of the management port (R151, R152, Table 12-6) -/

/-- What the owner of a request command's fields does with them, and its reply. -/
def requestEffect : Instr → State → State × Reply
  | .treeSet sel slots => (·.reqTreeSet sel slots)
  | .treeGet => State.reqTreeGet
  | .channelSet ch sel mode period skew => (·.reqChannelSet ch sel mode period skew)
  | .channelGet ch => (·.reqChannelGet ch)
  | .call ch => (·.reqCall ch)
  | .admitMark m => (·.reqAdmit m)
  | .bar m => (·.reqBar m)
  | .tableLoad m policy => (·.reqTableLoad m policy)
  | .tableRemove m => (·.reqTableRemove m)
  | .tableRead idx => (·.reqTableRead idx)
  | .pendingRead idx => (·.reqPendingRead idx)
  | .entryRead h => (·.reqEntryRead h)
  | .entryFind m => (·.reqEntryFind m)
  | .dismiss h => (·.reqDismiss h)
  | .hush h => (·.reqHush h)
  | .resume h => (·.reqResume h)
  | .rerange h => (·.reqRerange h)
  | .move h target => (·.reqMove h target)
  | .clearDamaged h => (·.reqClearDamaged h)
  | .inject ch kind h fields => (·.reqInject ch kind h fields)
  | .noticeRead => State.reqNoticeRead
  | .tallyRead ch clear => (·.reqTallyRead ch clear)
  | .storeRecordRead clear => (·.reqStoreRecordRead clear)
  | .status => State.reqStatus
  | .restart code => (·.reqRestart code)
  | _ => fun s => (s, Reply.bare .unknown)

/-- A request command clocks the bytes that spell it (log entry 13). -/
theorem exec_eq_request {i : Instr} {bytes : List Byte} (spelled : requestBytes i = some bytes) (wf : i.wf = true) :
    exec i s = s.request bytes (requestEffect i) := by
  cases i with
  | treeSet sel slots =>
    cases spelled
    exact if_pos (of_decide_eq_true wf)
  | _ => cases spelled <;> rfl

/-- The only request command that can carry too few bytes is a TREE SET. -/
theorem treeSet_of_not_wf {i : Instr} (request : (requestBytes i).isSome = true) (short : ¬i.wf = true) :
    ∃ sel slots, i = .treeSet sel slots ∧ slots.length ≠ 25 := by
  cases i with
  | treeSet sel slots => exact ⟨sel, slots, rfl, fun whole => short (decide_eq_true whole)⟩
  | linkDefectRecord | unknown | lost | retentionExpiry | finalHandOutEvent | outQueueReport | voidEvent
  | rosterJoinEvent | rosterLeaveEvent => cases request
  | _ => exact absurd rfl short

/-! ## While RESET is asserted (R159, R162) -/

theorem State.portReady_of_reset (held : s.pins.resetLow = true) : s.portReady = false := by
  simp [State.portReady, held]

/-- A gated event leaves the state as it is. -/
theorem gated_of_reset (held : s.pins.resetLow = true) (f : State → State) :
    (.next (s.whenRunning f) : Host.Outcome State Fault Refusal) = .next s :=
  congrArg _ (State.whenRunning_of_reset s f held)

/-- No byte of a request is taken. -/
theorem State.request_of_reset (held : s.pins.resetLow = true) (bytes : List Byte) (act : State → State × Reply) :
    s.request bytes act = .next s := by
  rw [State.request, State.portReady_of_reset held, if_neg Bool.false_ne_true, State.whenRunning_of_reset s _ held]

theorem exec_linkRecord_of_reset {i : Instr} (held : s.pins.resetLow = true) (record : (linkRecord i).isSome = true) :
    exec i s = .next s := by
  cases i with
  | hello | cycle | placeResult | gapClosed | arrival | linkDown => exact gated_of_reset held _
  | _ => cases record

theorem exec_request_of_reset {i : Instr} (held : s.pins.resetLow = true) (request : (requestBytes i).isSome = true) :
    exec i s = .next s := by
  by_cases wf : i.wf = true
  · obtain ⟨bytes, spelled⟩ := Option.isSome_iff_exists.1 request
    rw [exec_eq_request spelled wf, State.request_of_reset held]
  · obtain ⟨sel, slots, rfl, short⟩ := treeSet_of_not_wf request wf
    exact (if_neg short).trans (gated_of_reset held _)

/-- Settles O6: the requests and the link records by their two lemmas, and each other command is a gated event. -/
theorem nothingIsTakenWhileResetIsAsserted : Obligations.NothingIsTakenWhileResetIsAsserted := by
  rintro s i held (record | request | rfl | ⟨c, bytes, rfl⟩ | ⟨c, k, body, rfl⟩ | ⟨bytes, rfl⟩ | ⟨c, n, rfl | rfl⟩ |
    ⟨c, rfl | rfl⟩ | ⟨h, rfl | rfl⟩ | ⟨m, rfl⟩)
  · exact exec_linkRecord_of_reset held record
  · exact exec_request_of_reset held request
  all_goals exact gated_of_reset held _

/-! ## The resets that the pins take (R159) -/

/-- The KEEP strap is sampled as RESET is released, and names the reset taken. -/
theorem exec_resetRelease_of_reset (held : s.pins.resetLow = true) (keep : Bool) :
    exec (.resetRelease keep) s = .next (State.takeReset
      { s with pins := { s.pins with resetLow := false, keep := keep } } (if keep then .keepTree else .full) 1) :=
  if_pos held

theorem exec_resetRelease_running (run : s.running) (keep : Bool) : exec (.resetRelease keep) s = .next s :=
  if_neg (Bool.not_eq_true _ ▸ run)

/-- Settles O5: POWER_UP and RESET_ASSERT are their equations, and RESET_RELEASE takes the reset that KEEP names. -/
theorem powerAndResetPinsTakeTheirResets : Obligations.PowerAndResetPinsTakeTheirResets := by
  intro s
  refine ⟨rfl, rfl, fun held => ?_, fun held => ?_, fun run keep => exec_resetRelease_running run keep⟩
  · rw [exec_resetRelease_of_reset held]; rfl
  · rw [exec_resetRelease_of_reset held]; rfl

/-! ## Select and RESTART (R151, R160) -/

theorem exec_selectAssert (s : State) : exec .selectAssert s = .next
    (({ s with pins := { s.pins with select := true } } : State).whenRunning fun st =>
      { st with port := { st.port with txn := .receiving [] } }) := rfl

theorem exec_selectRelease_unarmed (unarmed : s.port.armed = none) : exec .selectRelease s = .next { s with
    pins := { s.pins with select := false }
    port := { txn := .idle, armed := none } } := by
  show execSelectRelease s = _
  simp only [execSelectRelease, unarmed]

/-- The end of the transaction takes the reset that a RESTART has armed. -/
theorem exec_selectRelease_armed {k : RestartKind} (run : s.running) (armed : s.port.armed = some k) :
    exec .selectRelease s = .next (({ s with
      pins := { s.pins with select := false }
      port := { txn := .idle, armed := none } } : State).takeReset k 2) := by
  show execSelectRelease s = _
  simp only [execSelectRelease, armed]
  exact congrArg _ (State.whenRunning_running (by exact run) _)

theorem exec_restart_ready (ready : s.portReady = true) (code : Byte) :
    exec (.restart code) s = .next (State.answer (s.reqRestart code)) :=
  State.request_ready ready _ (·.reqRestart code)

theorem RestartKind.ofCode_eq_none {code : Byte} (keep : code ≠ 1) (full : code ≠ 2) :
    RestartKind.ofCode code.toNat = none := by
  unfold RestartKind.ofCode
  split
  · rename_i one; exact absurd (BitVec.eq_of_toNat_eq one) keep
  · rename_i two; exact absurd (BitVec.eq_of_toNat_eq two) full
  · rfl

theorem State.reqRestart_refused {code : Byte} (keep : code ≠ 1) (full : code ≠ 2) :
    s.reqRestart code = (s, Reply.bare .outOfRange) := by
  rw [State.reqRestart, RestartKind.ofCode_eq_none keep full]

/-- Settles O7: the two select commands by what the RESET input and the armed RESTART are, and RESTART by its code. -/
theorem selectAndRestartRequests : Obligations.SelectAndRestartRequests := by
  intro s
  refine ⟨fun run => ?_, fun held => ?_, exec_selectRelease_unarmed, fun run armed => ?_, exec_selectRelease_armed,
    fun ready code => ⟨?_, ?_, fun keep full => ?_⟩⟩
  · rw [exec_selectAssert, State.whenRunning_running (by exact run)]
  · rw [exec_selectAssert, State.whenRunning_of_reset _ _ (by exact held)]
  · rw [exec_selectRelease_armed run armed]; rfl
  · rintro rfl; rw [exec_restart_ready ready]; rfl
  · rintro rfl; rw [exec_restart_ready ready]; rfl
  · rw [exec_restart_ready ready, State.reqRestart_refused keep full]; rfl

end Sys2Proof.Machine
end

section
/-! The bytes of a management request (R151, R164, Table 12-6): a code, a body that fills the request buffer, and the
fields read from their places in it. -/

namespace Sys2Proof.Machine

variable {s : State}

/-! ## Bytes clocked on the port (R151) -/

theorem State.clockBytes_cons (s : State) (b : Byte) (rest : List Byte) :
    s.clockBytes (b :: rest) = (s.clockByte b).clockBytes rest := rfl

theorem State.clockBytes_append (s : State) (front rest : List Byte) :
    s.clockBytes (front ++ rest) = (s.clockBytes front).clockBytes rest := List.foldl_append

theorem State.running_of_portReady (ready : s.portReady = true) : s.running := by
  simp only [State.portReady, Bool.and_eq_true, Bool.not_eq_true'] at ready
  exact ready.1

/-- A port at the start of a transaction has an empty request buffer. -/
theorem State.receiving_of_portReady (ready : s.portReady = true) : s.port.txn = .receiving [] := by
  simp only [State.portReady, Bool.and_eq_true, decide_eq_true_eq] at ready
  exact ready.2

theorem exec_unknown_running (run : s.running) (bytes : List Byte) :
    exec (.unknown bytes) s = .next (s.clockBytes bytes) :=
  congrArg _ (State.whenRunning_running run _)

/-- The bytes after a composed reply clock it out. -/
theorem State.clockBytes_answered {r : Reply} {k : Nat} (answered : s.port.txn = .answered r k) (bytes : List Byte) :
    s.clockBytes bytes = { s with port := { s.port with txn := .answered r (k + bytes.length) } } := by
  induction bytes generalizing s k with
  | nil => rw [List.length_nil, Nat.add_zero, ← answered]; rfl
  | cons b bytes ih =>
    have first : s.clockByte b = { s with port := { s.port with txn := .answered r (k + 1) } } := by
      rw [State.clockByte, answered]
    rw [State.clockBytes_cons, first, ih rfl, List.length_cons, Nat.add_assoc, Nat.add_comm 1]

/-- A code that names no request is answered as soon as its byte is in. -/
theorem State.clockByte_noRequest {b : Byte} (empty : s.port.txn = .receiving [])
    (unnamed : requestLength b.toNat = none) : s.clockByte b = State.answer (s, Reply.bare .unknown) := by
  simp [State.clockByte, empty, unnamed]

/-- A byte joins the request buffer while more are to come. -/
theorem State.clockByte_incomplete {b code : Byte} {buf rest : List Byte} {n : Nat}
    (receiving : s.port.txn = .receiving buf) (joined : buf ++ [b] = code :: rest)
    (length : requestLength code.toNat = some n) (more : rest.length < n) :
    s.clockByte b = { s with port := { s.port with txn := .receiving (code :: rest) } } := by
  simp [State.clockByte, receiving, joined, length, more.ne]

/-- The last byte completes the request, which leaves the buffer as it is taken. -/
theorem State.clockByte_complete {b code : Byte} {buf body : List Byte}
    (receiving : s.port.txn = .receiving buf) (joined : buf ++ [b] = code :: body)
    (length : requestLength code.toNat = some body.length) :
    s.clockByte b = State.answer
      (({ s with port := { s.port with txn := .receiving [] } } : State).decodeRequest code.toNat body) := by
  simp [State.clockByte, receiving, joined, length]

/-- A request cut short waits in the buffer. -/
theorem State.clockBytes_incomplete {code : Byte} {n : Nat} (empty : s.port.txn = .receiving [])
    (length : requestLength code.toNat = some n) (body : List Byte) (more : body.length < n) :
    s.clockBytes (code :: body) = { s with port := { s.port with txn := .receiving (code :: body) } } := by
  induction body using List.reverseRecOn with
  | nil => exact State.clockByte_incomplete empty rfl length more
  | append_singleton body b ih =>
    rw [List.length_append] at more
    rw [← List.cons_append, State.clockBytes_append, ih (by omega)]
    exact State.clockByte_incomplete (s := { s with port := { s.port with txn := .receiving (code :: body) } })
      rfl rfl length (by simpa using more)

/-- A whole request is decoded and answered in the event of its last byte. -/
theorem State.clockBytes_complete {code : Byte} {body : List Byte} (empty : s.port.txn = .receiving [])
    (length : requestLength code.toNat = some body.length) :
    s.clockBytes (code :: body) = State.answer (s.decodeRequest code.toNat body) := by
  have refilled : ({ s with port := { s.port with txn := .receiving [] } } : State) = s := by rw [← empty]
  cases body using List.reverseRecOn with
  | nil => exact (State.clockByte_complete empty rfl length).trans (by rw [refilled])
  | append_singleton body b =>
    rw [← List.cons_append, State.clockBytes_append, State.clockBytes_incomplete empty length body (by simp)]
    refine (State.clockByte_complete (s := { s with port := { s.port with txn := .receiving (code :: body) } })
      rfl rfl length).trans ?_
    exact congrArg (fun s => State.answer (State.decodeRequest s code.toNat (body ++ [b]))) refilled

/-! ## The codes of the requests and of the replies (Tables 12-6 and 12-9) -/

/-- The requests of Table 12-6: each code with the length of its body. -/
def requestTable : List (Nat × Nat) :=
  [(0x10, 79), (0x11, 0), (0x12, 7), (0x13, 1), (0x20, 1), (0x21, 7), (0x22, 7), (0x23, 8), (0x24, 7), (0x25, 1),
    (0x26, 1), (0x30, 2), (0x31, 7), (0x32, 2), (0x33, 2), (0x34, 2), (0x35, 2), (0x36, 3), (0x37, 2), (0x40, 12),
    (0x50, 0), (0x51, 2), (0x52, 1), (0x53, 0), (0x60, 1)]

theorem requestLength_eq (code : Nat) : requestLength code = (requestTable.find? (·.1 == code)).map (·.2) := by
  unfold requestLength
  split
  case h_26 =>
    have absent : requestTable.find? (·.1 == code) = none := by
      rw [List.find?_eq_none]
      rintro ⟨c, n⟩ mem named
      obtain rfl : c = code := eq_of_beq named
      simp_all [requestTable]
    rw [absent]; rfl
  all_goals rfl

/-- Settles O21: the codes by their tables, and the bytes on a port at the start of a transaction by what the first
one names. -/
theorem unknownAndIncompleteRequests : Obligations.UnknownAndIncompleteRequests := by
  refine ⟨fun r => ?_, requestLength_eq, fun s b rest ready => ?_⟩
  · rcases r with ⟨code, body⟩
    cases code <;> rfl
  · rw [exec_unknown_running (State.running_of_portReady ready)]
    have empty := State.receiving_of_portReady ready
    refine ⟨fun unnamed => ?_, fun n length more => ?_⟩
    · rw [State.clockBytes_cons, State.clockByte_noRequest empty unnamed, State.clockBytes_answered rfl rest,
        Nat.zero_add]
      rfl
    · rw [State.clockBytes_incomplete empty length rest more]

/-! ## Fields read from their places (Table 12-6) -/

/-- A number that fills its n bytes is read from its place in a body. -/
theorem fieldOf_toNat {w n i : Nat} {body front rest : List Byte} {v : BitVec w}
    (place : body = front ++ (natBytes n v.toNat ++ rest)) (behind : front.length = i) (fits : 2 ^ w = 256 ^ n) :
    fieldOf w body i n = v := by
  rw [place, fieldOf_append behind (fits ▸ v.isLt), BitVec.ofNat_toNat, BitVec.setWidth_eq]

/-- A body that begins with a byte. -/
theorem fieldOf_head (b : Byte) (rest : List Byte) : fieldOf 8 (b :: rest) 0 1 = b := fieldOf_byte (front := []) rfl

/-- A body that begins with a mark. -/
theorem fieldOf_mark (m : Mark) (rest : List Byte) : fieldOf 56 (markBytes m ++ rest) 0 7 = m :=
  fieldOf_toNat (front := []) rfl rfl rfl

/-- A body that begins with a handle. -/
theorem fieldOf_handle (h : BitVec 16) (rest : List Byte) : fieldOf 16 (natBytes 2 h.toNat ++ rest) 0 2 = h :=
  fieldOf_toNat (front := []) rfl rfl rfl

theorem slotBytes_length (slots : List (BitVec 24)) :
    (slots.flatMap fun v => natBytes 3 v.toNat).length = 3 * slots.length := by
  induction slots with
  | nil => rfl
  | cons v slots ih => rw [List.flatMap_cons, List.length_append, ih, natBytes_length, List.length_cons]; omega

/-- Slot i of a TREE SET stands behind the selection and the slots before it. -/
theorem fieldOf_slot {slots : List (BitVec 24)} (sel : BitVec 32) {i : Nat} (there : i < slots.length) :
    fieldOf 24 (natBytes 4 sel.toNat ++ slots.flatMap fun v => natBytes 3 v.toNat) (4 + 3 * i) 3 = slots[i] := by
  have place : natBytes 4 sel.toNat ++ (slots.flatMap fun v => natBytes 3 v.toNat) =
      (natBytes 4 sel.toNat ++ (slots.take i).flatMap fun v => natBytes 3 v.toNat) ++
        (natBytes 3 slots[i].toNat ++ (slots.drop (i + 1)).flatMap fun v => natBytes 3 v.toNat) := by
    conv_lhs => rw [← List.take_append_drop i slots, List.drop_eq_getElem_cons there]
    rw [List.flatMap_append, List.flatMap_cons, List.append_assoc]
  refine fieldOf_toNat place ?_ rfl
  rw [List.length_append, natBytes_length, slotBytes_length, List.length_take, Nat.min_eq_left there.le]

theorem slotsOf_treeSet (sel : BitVec 32) {slots : List (BitVec 24)} (whole : slots.length = 25) :
    slotsOf (natBytes 4 sel.toNat ++ slots.flatMap fun v => natBytes 3 v.toNat) = slots := by
  refine List.ext_getElem (by simp [slotsOf, whole]) fun i _ there => ?_
  rw [← fieldOf_slot sel there]
  simp [slotsOf]

/-! ## The requests spelled by their bytes (Table 12-6) -/

/-- The bytes of a request are its code and its whole body, and the fields read from the body are its own. -/
theorem requestBytes_spell {i : Instr} {bytes : List Byte} (spelled : requestBytes i = some bytes) (wf : i.wf = true) :
    ∃ code body, bytes = code :: body ∧ requestLength code.toNat = some body.length ∧
      ∀ s : State, s.decodeRequest code.toNat body = requestEffect i s := by
  cases i <;> cases spelled
  case treeSet sel slots =>
    have whole : slots.length = 25 := of_decide_eq_true wf
    refine ⟨_, _, rfl, ?_, fun s => ?_⟩
    · rw [List.length_append, natBytes_length, slotBytes_length, whole]; rfl
    · exact congrArg₂ s.reqTreeSet (fieldOf_toNat (front := []) rfl rfl rfl) (slotsOf_treeSet sel whole)
  case treeGet | noticeRead | status => exact ⟨_, _, rfl, rfl, fun _ => rfl⟩
  case channelSet ch sel mode period skew =>
    refine ⟨_, _, rfl, rfl, fun s => ?_⟩
    show s.reqChannelSet _ _ _ _ _ = s.reqChannelSet ch sel mode period skew
    congr 1
    · exact fieldOf_head _ _
    · exact fieldOf_byte (front := [ch]) rfl
    · exact fieldOf_byte (front := [ch, sel]) rfl
    · exact fieldOf_toNat (front := [ch, sel, mode]) rfl rfl rfl
    · exact fieldOf_toNat (front := [ch, sel, mode] ++ natBytes 2 period.toNat) (rest := []) rfl rfl rfl
  case channelGet ch => exact ⟨_, _, rfl, rfl, fun s => congrArg s.reqChannelGet (fieldOf_head _ _)⟩
  case call ch => exact ⟨_, _, rfl, rfl, fun s => congrArg s.reqCall (fieldOf_head _ _)⟩
  case tableRead idx => exact ⟨_, _, rfl, rfl, fun s => congrArg s.reqTableRead (fieldOf_head _ _)⟩
  case pendingRead idx => exact ⟨_, _, rfl, rfl, fun s => congrArg s.reqPendingRead (fieldOf_head _ _)⟩
  case storeRecordRead clear => exact ⟨_, _, rfl, rfl, fun s => congrArg s.reqStoreRecordRead (fieldOf_head _ _)⟩
  case restart code => exact ⟨_, _, rfl, rfl, fun s => congrArg s.reqRestart (fieldOf_head _ _)⟩
  case admitMark m => exact ⟨_, _, rfl, rfl, fun s => congrArg s.reqAdmit (fieldOf_mark m [])⟩
  case bar m => exact ⟨_, _, rfl, rfl, fun s => congrArg s.reqBar (fieldOf_mark m [])⟩
  case tableRemove m => exact ⟨_, _, rfl, rfl, fun s => congrArg s.reqTableRemove (fieldOf_mark m [])⟩
  case entryFind m => exact ⟨_, _, rfl, rfl, fun s => congrArg s.reqEntryFind (fieldOf_mark m [])⟩
  case tableLoad m policy =>
    exact ⟨_, _, rfl, rfl, fun s =>
      congrArg₂ s.reqTableLoad (fieldOf_mark m [policy]) (fieldOf_byte (front := markBytes m) rfl)⟩
  case entryRead h => exact ⟨_, _, rfl, rfl, fun s => congrArg s.reqEntryRead (fieldOf_handle h [])⟩
  case dismiss h => exact ⟨_, _, rfl, rfl, fun s => congrArg s.reqDismiss (fieldOf_handle h [])⟩
  case hush h => exact ⟨_, _, rfl, rfl, fun s => congrArg s.reqHush (fieldOf_handle h [])⟩
  case resume h => exact ⟨_, _, rfl, rfl, fun s => congrArg s.reqResume (fieldOf_handle h [])⟩
  case rerange h => exact ⟨_, _, rfl, rfl, fun s => congrArg s.reqRerange (fieldOf_handle h [])⟩
  case clearDamaged h => exact ⟨_, _, rfl, rfl, fun s => congrArg s.reqClearDamaged (fieldOf_handle h [])⟩
  case move h target =>
    exact ⟨_, _, rfl, rfl, fun s =>
      congrArg₂ s.reqMove (fieldOf_handle h [target]) (fieldOf_byte (front := natBytes 2 h.toNat) rfl)⟩
  case inject ch kind h fields =>
    refine ⟨_, _, rfl, rfl, fun s => ?_⟩
    show s.reqInject _ _ _ _ = s.reqInject ch kind h fields
    congr 1
    · exact fieldOf_head _ _
    · exact fieldOf_byte (front := [ch]) rfl
    · exact fieldOf_toNat (front := [ch, kind]) rfl rfl rfl
    · exact fieldOf_toNat (front := [ch, kind] ++ natBytes 2 h.toNat) (rest := []) rfl rfl rfl
  case tallyRead ch clear =>
    exact ⟨_, _, rfl, rfl, fun s =>
      congrArg₂ s.reqTallyRead (fieldOf_head _ _) (fieldOf_byte (front := [ch]) rfl)⟩

/-- Settles O19: the bytes are a code and its whole body, and what is decoded from them is the request's own effect. -/
theorem requestBytesSpellTheRequest : Obligations.RequestBytesSpellTheRequest := by
  intro i bytes s spelled wf ready
  obtain ⟨code, body, rfl, length, decoded⟩ := requestBytes_spell spelled wf
  rw [exec_eq_request spelled wf, State.request_ready ready, exec_unknown_running (State.running_of_portReady ready),
    State.clockBytes_complete (State.receiving_of_portReady ready) length, decoded]

end Sys2Proof.Machine
end

section
/-! The notice queue (R155, R156): how a notice joins it, what NOTICE READ takes out, and the bytes of a notice. -/

namespace Sys2Proof.Machine

variable {s : State}

/-! ## NOTICE READ (R156) -/

theorem State.reqNoticeRead_cons {n : Notice} {rest : List Notice} (stands : s.notices = n :: rest) :
    s.reqNoticeRead = ({ s with notices := rest, overflow := false }, ⟨.done, flagByte s.overflow :: n.bytes⟩) := by
  simp only [State.reqNoticeRead, stands]

theorem State.reqNoticeRead_nil (empty : s.notices = []) :
    s.reqNoticeRead = ({ s with overflow := false }, ⟨.empty, [flagByte s.overflow]⟩) := by
  simp only [State.reqNoticeRead, empty]

/-- Settles O27: the oldest notice, or none, by the two equations of the request. -/
theorem noticeReadTakesTheOldest : Obligations.NoticeReadTakesTheOldest := by
  intro s ready
  have exec_eq : exec .noticeRead s = .next (State.answer s.reqNoticeRead) := State.request_ready ready _ _
  refine ⟨fun n rest stands => ?_, fun empty => ?_⟩
  · rw [exec_eq, State.reqNoticeRead_cons stands]; rfl
  · rw [exec_eq, State.reqNoticeRead_nil empty]; rfl

/-! ## A notice joins the queue or is dropped (R155) -/

theorem State.raise_of_room (n : Notice) (room : s.notices.length < 64) :
    s.raise n = { s with notices := s.notices ++ [n] } :=
  if_pos room

theorem State.raise_of_full (n : Notice) (full : 64 ≤ s.notices.length) : s.raise n = { s with overflow := true } :=
  if_neg full.not_gt

theorem State.attention_iff (s : State) : s.attention = true ↔ s.notices ≠ [] := by
  simp [State.attention]

theorem State.notices_raise_length_le (n : Notice) (law : s.notices.length ≤ 64) : (s.raise n).notices.length ≤ 64 := by
  rcases law.lt_or_eq with room | full
  · rw [State.raise_of_room n room, List.length_append]; exact room
  · rw [State.raise_of_full n full.ge]; exact law

/-- Of two notices that meet 63, the first takes the last place. -/
theorem State.raise_raise_of_one_place (n m : Notice) (one : s.notices.length = 63) :
    (s.raise n).raise m = { s with notices := s.notices ++ [n], overflow := true } := by
  rw [State.raise_of_room n (by omega), State.raise_of_full m (by simp [one])]

/-- A notice finds room or a queue that holds others: the line is asserted after it. -/
theorem State.attention_raise (s : State) (n : Notice) : (s.raise n).attention = true := by
  rw [State.attention_iff]
  rcases lt_or_ge s.notices.length 64 with room | full
  · rw [State.raise_of_room n room]
    exact List.append_ne_nil_of_right_ne_nil _ (List.cons_ne_nil n [])
  · rw [State.raise_of_full n full]
    exact List.ne_nil_of_length_pos ((by decide : 0 < 64).trans_le full)

/-! ## The bytes of a notice record (Table 12-8) -/

/-- A presence bit counts when its field is there. -/
theorem presence_eq {α : Type} [DecidableEq α] (field : Option α) (k : Nat) :
    (if field.isSome = true then 2 ^ k else 0) = if field = none then 0 else 2 ^ k := by
  cases field <;> simp

theorem Notice.bytes_eq (n : Notice) : n.bytes = natBytes 1 n.kind.code ++
    natBytes 1 ((if n.handle = none then 0 else 1) + (if n.chan = none then 0 else 2) +
      (if n.mark = none then 0 else 4) + (if n.value = none then 0 else 8)) ++
    natBytes 2 (n.handle.getD 0) ++ natBytes 1 (n.chan.elim 0 Chan.num) ++ natBytes 7 (n.mark.getD 0).toNat ++
    natBytes 3 (n.value.getD 0) := by
  have chan : (n.chan.map Chan.num).getD 0 = n.chan.elim 0 Chan.num := by cases n.chan <;> rfl
  simp only [Notice.bytes, presence_eq, chan, markBytes]
  rfl

/-- Settles O28: codes and fields by kind, the record by `Notice.bytes_eq`, the queue by whether it has room. -/
theorem noticesJoinTheQueueOrOverflow : Obligations.NoticesJoinTheQueueOrOverflow := by
  refine ⟨rfl, fun h c m => ?_, Notice.bytes_eq, fun s n m => ⟨State.raise_of_room n, State.raise_of_full n,
    State.notices_raise_length_le n, State.raise_raise_of_one_place n m, s.attention_iff, s.attention_raise n⟩⟩
  refine ⟨rfl, fun _ => rfl, fun _ => rfl, rfl, fun _ => rfl, rfl, fun _ => rfl, rfl, rfl, rfl, rfl, rfl, rfl,
    fun l => by cases l <;> rfl, rfl, rfl, rfl, rfl, rfl, fun _ => rfl, fun _ => rfl⟩

end Sys2Proof.Machine
end

section
/-! Bytes on a channel link (R162, R163, Tables 12-1 and 12-2): the frame at the head of some bytes, the hunt for it one
turn at a time, and which kind codes and bodies are a record. -/

namespace Sys2Proof.Machine

variable {s : State} {c : Chan}

/-! ## The frame at the head of some bytes (Table 12-1) -/

theorem readFrame_of_cut {after : List Byte} (cut : after.length < 2 ∨
    ∃ (kind len : Byte) (tail : List Byte), after = kind :: len :: tail ∧ tail.length < len.toNat + 2) :
    readFrame after = .incomplete := by
  rcases cut with short | ⟨kind, len, tail, rfl, short⟩
  · match after, short with
    | [], _ => rfl
    | [_], _ => rfl
  · exact if_pos short

/-- A whole frame is judged by its check alone, whatever stands in it and behind it. -/
theorem readFrame_of_whole {kind len : Byte} {body check : List Byte} (bodyLength : body.length = len.toNat)
    (checkLength : check.length = 2) (rest : List Byte) :
    readFrame (kind :: len :: body ++ check ++ rest) =
      if bytesNat check = (recordCheck (kind :: len :: body)).toNat then .good kind body rest else .bad := by
  have whole : ¬(body ++ (check ++ rest)).length < len.toNat + 2 := by
    simp only [List.length_append]; omega
  have rest_eq : (body ++ (check ++ rest)).drop (len.toNat + 2) = rest := by
    rw [← bodyLength, ← checkLength, List.drop_length_add_append, List.drop_left]
  simp only [List.cons_append, List.append_assoc, readFrame, if_neg whole, rest_eq]
  rw [← bodyLength, List.take_left, List.drop_left, ← checkLength, List.take_left]

/-! ## The hunt, turn by turn (R162) -/

theorem State.holdBytes_of_empty (empty : (s.chan c).rx = []) : s.holdBytes c [] = s :=
  s.modChan_id c _ (by rw [← empty])

theorem State.holdBytes_rx (s : State) (c : Chan) (bs : List Byte) : ((s.holdBytes c bs).chan c).rx = bs := by
  rw [State.holdBytes, State.chan_modChan_same]

theorem State.receive_of_empty (empty : (s.chan c).rx = []) (bs : List Byte) :
    s.receive c bs = s.hunt c (bs.length + 1) bs := by
  rw [State.receive, empty, List.nil_append, State.holdBytes_of_empty empty]

/-- Bytes that come go on from those that wait. -/
theorem State.receive_eq_waiting (s : State) (c : Chan) (bytes : List Byte) :
    s.receive c bytes = (s.holdBytes c []).receive c ((s.chan c).rx ++ bytes) := by
  rw [State.receive_of_empty (s.holdBytes_rx c [])]; rfl

theorem State.receive_nil (empty : (s.chan c).rx = []) : s.receive c [] = s :=
  (State.receive_of_empty empty []).trans (State.holdBytes_of_empty empty)

/-- Bytes before a start byte are passed over. -/
theorem State.receive_passed_append {bytes : List Byte} (empty : (s.chan c).rx = [])
    (passed : ∀ b ∈ bytes, b ≠ 0x7E) (rest : List Byte) : s.receive c (bytes ++ rest) = s.receive c rest := by
  induction bytes with
  | nil => rfl
  | cons b bytes ih =>
    obtain ⟨noStart, passed⟩ := List.forall_mem_cons.1 passed
    rw [← ih passed, State.receive_of_empty empty, State.receive_of_empty empty]
    exact if_neg noStart

/-- Bytes with no start byte among them leave everything as it is. -/
theorem State.receive_passed {bytes : List Byte} (empty : (s.chan c).rx = []) (passed : ∀ b ∈ bytes, b ≠ 0x7E) :
    s.receive c bytes = s := by
  rw [← bytes.append_nil, State.receive_passed_append empty passed, State.receive_nil empty]

/-- A frame that is not whole waits. -/
theorem State.receive_incomplete {after : List Byte} (empty : (s.chan c).rx = [])
    (read : readFrame after = .incomplete) : s.receive c (0x7E :: after) = s.holdBytes c (0x7E :: after) := by
  rw [State.receive_of_empty empty, State.hunt, if_pos rfl, read]

theorem State.bump_rx_of_empty {k : TallyKind} (empty : (s.chan c).rx = []) : ((s.bump c k).chan c).rx = [] :=
  (s.bump_chan_rx c c k).trans empty

/-- The hunt resumes behind the start byte of a frame whose check differs. -/
theorem State.receive_bad {after : List Byte} (empty : (s.chan c).rx = []) (read : readFrame after = .bad) :
    s.receive c (0x7E :: after) = (s.bump c .linkDefect).receive c after := by
  rw [State.receive_of_empty empty, State.receive_of_empty (State.bump_rx_of_empty empty), State.hunt, if_pos rfl, read]
  rfl

/-- A frame whose check agrees is judged, and the hunt resumes behind it. -/
theorem State.receive_good {kind : Byte} {after body rest : List Byte} (empty : (s.chan c).rx = [])
    (read : readFrame after = .good kind body rest) :
    s.receive c (0x7E :: after) = ((s.judgeRecord c kind body).holdBytes c []).receive c rest := by
  have fuel : rest.length < (0x7E :: after).length := (readFrame_rest read).trans (Nat.lt_succ_self _)
  rw [State.receive_of_empty empty, State.receive_of_empty (State.holdBytes_rx _ c []), ← State.hunt_fuel _ c _ rest fuel,
    State.hunt, if_pos rfl, read]

section
variable {kind len : Byte} {body check : List Byte}

/-- A whole frame whose check differs is discarded, with whatever start bytes it holds left to the hunt. -/
theorem State.receive_of_differs (empty : (s.chan c).rx = []) (bodyLength : body.length = len.toNat)
    (checkLength : check.length = 2) (differs : bytesNat check ≠ (recordCheck (kind :: len :: body)).toNat)
    (rest : List Byte) : s.receive c (0x7E :: kind :: len :: body ++ check ++ rest) =
      (s.bump c .linkDefect).receive c (kind :: len :: body ++ check ++ rest) :=
  State.receive_bad empty ((readFrame_of_whole bodyLength checkLength rest).trans (if_neg differs))

/-- A whole frame whose check agrees is judged, whatever start bytes it holds. -/
theorem State.receive_of_agrees (empty : (s.chan c).rx = []) (bodyLength : body.length = len.toNat)
    (checkLength : check.length = 2) (agrees : bytesNat check = (recordCheck (kind :: len :: body)).toNat)
    (rest : List Byte) : s.receive c (0x7E :: kind :: len :: body ++ check ++ rest) =
      ((s.judgeRecord c kind body).holdBytes c []).receive c rest :=
  State.receive_good empty ((readFrame_of_whole bodyLength checkLength rest).trans (if_pos agrees))

end

theorem exec_linkDefectCheck_running (run : s.running) (bytes : List Byte) :
    exec (.linkDefectCheck c bytes) s = .next (s.receive c bytes) :=
  congrArg _ (State.whenRunning_running run _)

theorem exec_linkDefectRecord_running (run : s.running) (kind : Byte) (body : List Byte) :
    exec (.linkDefectRecord c kind body) s = .next (s.judgeRecord c kind body) :=
  congrArg _ (State.whenRunning_running run _)

/-! ## Which kind codes and bodies are a record (Table 12-2, R163) -/

/-- The kind codes of Table 12-2, each with the length of its body. -/
def recordTable : List (Nat × Nat) := [(1, 5), (2, 3), (3, 2), (4, 1), (5, 21), (6, 0)]

theorem ArrivalKind.ofCode_eq_some {n : Nat} {k : ArrivalKind} (named : ofCode n = some k) : 1 ≤ n ∧ n ≤ 3 := by
  unfold ofCode at named
  split at named
  case h_4 => cases named
  all_goals decide

theorem Delivery.ofCode_eq_some {n : Nat} {st : Delivery} (named : ofCode n = some st) : n ≤ 2 := by
  unfold ofCode at named
  split at named
  case h_4 => cases named
  all_goals decide

/-- What a record that is taken looks like: its kind code and length stand in the table, and so do the outcome of a
PLACE RESULT and the arrival kind and status of an ARRIVAL. -/
theorem decodeRecord_eq_some {kind : Byte} {body : List Byte} {r : RxRecord} (taken : decodeRecord kind body = some r) :
    (kind.toNat, body.length) ∈ recordTable ∧
      (kind.toNat = 3 → bytesNat ((body.drop 1).take 1) ≤ 1) ∧
      (kind.toNat = 5 → 1 ≤ bytesNat (body.take 1) ∧ bytesNat (body.take 1) ≤ 3 ∧
        bytesNat ((body.drop 1).take 1) ≤ 2) := by
  unfold decodeRecord at taken
  split at taken
  case h_7 => cases taken
  all_goals
    rename_i code length
    rw [code, length]
    refine ⟨by decide, fun three => ?_, fun five => ?_⟩
  case h_3.refine_1 =>
    split at taken
    · next outcome => exact outcome.trans_le (by decide)
    · next outcome => exact outcome.le
    · cases taken
  case h_5.refine_2 =>
    split at taken
    · next arrival status =>
      obtain ⟨low, high⟩ := ArrivalKind.ofCode_eq_some arrival
      exact ⟨low, high, Delivery.ofCode_eq_some status⟩
    · cases taken
  all_goals omega

theorem bytesNat_singleton (b : Byte) : bytesNat [b] = b.toNat := by simp [bytesNat]

/-- An unknown kind code, a wrong body length and a code that the tables do not give name no record (R163). -/
theorem decodeRecord_of_defect {kind : Byte} {body : List Byte}
    (defect : kind.toNat = 0 ∨ 6 < kind.toNat ∨ (∃ p ∈ recordTable, kind.toNat = p.1 ∧ body.length ≠ p.2) ∨
      (kind = 3 ∧ ∃ tag outcome : Byte, body = [tag, outcome] ∧ 1 < outcome.toNat) ∨
      (kind = 5 ∧ ∃ (k st : Byte) (tail : List Byte), body = k :: st :: tail ∧
        (k.toNat = 0 ∨ 3 < k.toNat ∨ 2 < st.toNat))) :
    decodeRecord kind body = none := by
  refine Option.eq_none_iff_forall_ne_some.2 fun r taken => ?_
  obtain ⟨listed, outcomes, arrivals⟩ := decodeRecord_eq_some taken
  have codes : ∀ p ∈ recordTable, 1 ≤ p.1 ∧ p.1 ≤ 6 := by decide
  have lengths : ∀ p ∈ recordTable, ∀ q ∈ recordTable, p.1 = q.1 → p.2 = q.2 := by decide
  have code := codes _ listed
  rcases defect with zero | high | ⟨p, mem, named, wrong⟩ | ⟨rfl, tag, outcome, rfl, bad⟩ | ⟨rfl, k, st, tail, rfl, bad⟩
  · omega
  · omega
  · exact wrong (lengths _ listed p mem named)
  · exact (bytesNat_singleton outcome ▸ outcomes rfl).not_gt bad
  · have given := arrivals rfl
    rw [show bytesNat ((k :: st :: tail).take 1) = k.toNat from bytesNat_singleton k,
      show bytesNat (((k :: st :: tail).drop 1).take 1) = st.toNat from bytesNat_singleton st] at given
    omega

theorem State.judgeRecord_of_defect {kind : Byte} {body : List Byte} (none : decodeRecord kind body = none) :
    s.judgeRecord c kind body = s.bump c .linkDefect := by
  rw [State.judgeRecord, none]

theorem State.judgeRecord_of_record {kind : Byte} {body : List Byte} {r : RxRecord}
    (record : decodeRecord kind body = some r) : s.judgeRecord c kind body = s.takeRecord c r := by
  rw [State.judgeRecord, record]

/-- Settles O44: each clause is one turn of the hunt, and a record is defective by what `decodeRecord_eq_some` rules
out. -/
theorem defectiveRecordsAreDiscarded : Obligations.DefectiveRecordsAreDiscarded := by
  refine ⟨⟨rfl, fun bytes b => List.foldl_append⟩, fun s c run => ⟨fun kind body defect => ?_, fun bytes => ?_,
    fun empty => ⟨fun bytes passed => ⟨?_, fun rest => ?_⟩, fun after cut => ?_,
      fun kind len body check rest bodyLength checkLength => ⟨fun differs => ⟨?_, fun passed => ?_⟩,
        fun agrees t judged => ?_⟩⟩⟩⟩
  · rw [exec_linkDefectRecord_running run, State.judgeRecord_of_defect (decodeRecord_of_defect defect)]
  · have emptied : (s.holdBytes c []).running := run
    rw [exec_linkDefectCheck_running run, State.receive_eq_waiting, ← exec_linkDefectCheck_running emptied]
    rfl
  · rw [exec_linkDefectCheck_running run, State.receive_passed empty passed]
  · rw [exec_linkDefectCheck_running run, State.receive_passed_append empty passed, exec_linkDefectCheck_running run]
  · rw [exec_linkDefectCheck_running run, State.receive_incomplete empty (readFrame_of_cut cut)]
    rfl
  · rw [exec_linkDefectCheck_running run, State.receive_of_differs empty bodyLength checkLength differs,
      ← exec_linkDefectCheck_running (s := s.bump c .linkDefect) run]
  · have discarded := State.receive_of_differs empty bodyLength checkLength differs []
    rw [List.append_nil, List.append_nil, State.receive_passed (State.bump_rx_of_empty empty) passed] at discarded
    rw [exec_linkDefectCheck_running run, discarded]
  · rw [exec_linkDefectRecord_running run] at judged
    cases judged
    have judgedRun : ((s.judgeRecord c kind body).holdBytes c []).running := by
      rw [State.running, State.holdBytes_pins, State.judgeRecord_pins]; exact run
    rw [exec_linkDefectCheck_running run, State.receive_of_agrees empty bodyLength checkLength agrees,
      ← exec_linkDefectCheck_running judgedRun]
    rfl

end Sys2Proof.Machine
end

section
/-! Frames on a channel link (Tables 12-1 to 12-5, R162): the frames of the records sent, and each record of Table 12-2
spelled by its frame. -/

namespace Sys2Proof.Machine

/-! ## Frames, and the records in them (Tables 12-1 and 12-2) -/

/-- The frame in the order of its bytes, with none behind it. -/
theorem frame_eq (kind : Byte) (body : List Byte) :
    frame kind body = 0x7E :: kind :: BitVec.ofNat 8 body.length :: body ++
      natBytes 2 (recordCheck (kind :: BitVec.ofNat 8 body.length :: body)).toNat ++ [] :=
  (List.append_nil _).symm

/-- The frame of a body that its length byte can count is judged as it was sent, and no byte is left of it. -/
theorem State.receive_frame {s : State} {c : Chan} {kind : Byte} {body : List Byte} (empty : (s.chan c).rx = [])
    (fits : body.length < 256) : s.receive c (frame kind body) = (s.judgeRecord c kind body).holdBytes c [] := by
  have length : body.length = (BitVec.ofNat 8 body.length).toNat := (Nat.mod_eq_of_lt fits).symm
  rw [frame_eq, State.receive_of_agrees empty length (natBytes_length 2 _) (bytesNat_natBytes 2 _ (BitVec.isLt _)),
    State.receive_nil (State.holdBytes_rx _ c [])]

theorem ArrivalKind.ofCode_code (k : ArrivalKind) : ofCode (code k).toNat = some k := by cases k <;> rfl

theorem Delivery.ofCode_code (st : Delivery) : ofCode (code st).toNat = some st := by cases st <;> rfl

/-- A PLACE RESULT says placed or declined. -/
theorem decodeRecord_placeResult (tag : Tag) (placed : Bool) :
    decodeRecord 3 [tag, if placed then 0 else 1] = some (.placeResult tag placed) := by
  have field : fieldOf 8 [tag, if placed then 0 else 1] 0 1 = tag := fieldOf_head _ _
  cases placed
  · exact congrArg (fun t => some (RxRecord.placeResult t false)) field
  · exact congrArg (fun t => some (RxRecord.placeResult t true)) field

/-- The nine fields of an ARRIVAL, each at its place. -/
theorem decodeRecord_arrival (a : Arrival) : decodeRecord 5 (arrivalBytes a) = some (.arrival a) := by
  have kind : ArrivalKind.ofCode (bytesNat ((arrivalBytes a).take 1)) = some a.kind :=
    (congrArg ArrivalKind.ofCode (bytesNat_singleton _)).trans (ArrivalKind.ofCode_code _)
  have status : Delivery.ofCode (bytesNat (((arrivalBytes a).drop 1).take 1)) = some a.status :=
    (congrArg Delivery.ofCode (bytesNat_singleton _)).trans (Delivery.ofCode_code _)
  have length : (arrivalBytes a).length = 21 := rfl
  have tag : fieldOf 8 (arrivalBytes a) 2 1 = a.tag := fieldOf_byte (front := (arrivalBytes a).take 2) rfl
  have handle : fieldOf 16 (arrivalBytes a) 3 2 = a.handle :=
    fieldOf_toNat (front := (arrivalBytes a).take 3) rfl rfl rfl
  have startCycle : fieldOf 16 (arrivalBytes a) 5 2 = a.startCycle :=
    fieldOf_toNat (front := (arrivalBytes a).take 5) rfl rfl rfl
  have startOffset : fieldOf 24 (arrivalBytes a) 7 3 = a.startOffset :=
    fieldOf_toNat (front := (arrivalBytes a).take 7) rfl rfl rfl
  have offset : fieldOf 16 (arrivalBytes a) 10 2 = a.offset :=
    fieldOf_toNat (front := (arrivalBytes a).take 10) rfl rfl rfl
  have slot : fieldOf 8 (arrivalBytes a) 12 1 = a.slot := fieldOf_byte (front := (arrivalBytes a).take 12) rfl
  have mark : fieldOf 64 (arrivalBytes a) 13 8 = a.mark :=
    fieldOf_toNat (front := (arrivalBytes a).take 13) (rest := []) rfl rfl rfl
  simp only [decodeRecord, length, kind, status, tag, handle, startCycle, startOffset, offset, slot, mark]
  rfl

/-- The body of a link record fits a frame, is taken as a record of its kind code, and that record's effect is the
command's own. -/
theorem linkRecord_spell {i : Instr} {c : Chan} {kind : Byte} {body : List Byte}
    (spelled : linkRecord i = some (c, kind, body)) : body.length < 256 ∧
      ∃ r, decodeRecord kind body = some r ∧ ∀ s : State, exec i s = .next (s.whenRunning (·.takeRecord c r)) := by
  cases i <;> cases spelled
  case hello len cur =>
    refine ⟨by simp, .hello len cur, congrArg some ?_, fun _ => rfl⟩
    exact congrArg₂ RxRecord.hello (fieldOf_toNat (front := []) rfl rfl rfl)
      (fieldOf_toNat (front := natBytes 3 len.toNat) (rest := []) rfl rfl rfl)
  case cycle n room =>
    refine ⟨by simp, .cycle n room, congrArg some ?_, fun _ => rfl⟩
    exact congrArg₂ RxRecord.cycle (fieldOf_handle n [room]) (fieldOf_byte (front := natBytes 2 n.toNat) rfl)
  case placeResult tag placed =>
    exact ⟨by simp, .placeResult tag placed, decodeRecord_placeResult tag placed, fun _ => rfl⟩
  case gapClosed tag =>
    exact ⟨by simp, .gapClosed tag, congrArg (fun t => some (RxRecord.gapClosed t)) (fieldOf_head tag []), fun _ => rfl⟩
  case arrival a => exact ⟨by simp [arrivalBytes], .arrival a, decodeRecord_arrival a, fun _ => rfl⟩
  case linkDown => exact ⟨by simp, .linkDown, rfl, fun _ => rfl⟩

/-! ## Marks on a channel link (R64) -/

/-- The check byte enters the exclusive-OR of the eight bytes once. -/
theorem xorBytes_append (m : Mark) (check : Byte) : xorBytes (m ++ check) = xorBytes (m ++ (0 : Byte)) ^^^ check := by
  have identity (b : Byte) (i : Nat) (behind : 8 ≤ i) : (m ++ b).extractLsb' i 8 = m.extractLsb' (i - 8) 8 :=
    BitVec.extractLsb'_append_eq_of_le behind
  have last (b : Byte) : (m ++ b).extractLsb' 0 8 = b := BitVec.extractLsb'_append_eq_right
  simp only [xorBytes, last, identity _ 56 (by decide), identity _ 48 (by decide), identity _ 40 (by decide),
    identity _ 32 (by decide), identity _ 24 (by decide), identity _ 16 (by decide), identity _ 8 (by decide)]
  exact congrArg (· ^^^ check) BitVec.xor_zero.symm

theorem xorBytes_withCheck (m : Mark) : xorBytes (withCheck m) = 0 :=
  (xorBytes_append m _).trans BitVec.xor_self

/-! ## The records sent (Tables 12-3 to 12-5) -/

theorem Offer.bytes_of_census {o : Offer} (census : o.kind = .census) :
    o.bytes = o.tag :: 1 :: 0 :: 0 :: (natBytes 2 o.refCycle.toNat ++ natBytes 3 o.start ++ natBytes 3 o.len) := by
  rw [Offer.bytes, census]; rfl

theorem Offer.bytes_of_range {o : Offer} {h : Handle} (range : o.kind = .range h) : o.bytes = o.tag :: 2 ::
    (natBytes 2 h ++ (natBytes 2 o.refCycle.toNat ++ natBytes 3 o.start ++ natBytes 3 o.len)) := by
  rw [Offer.bytes, range]; rfl

/-- Settles O20: the records sent by their definitions, and a frame is taken by `State.receive_frame` as the record that
`linkRecord_spell` names. -/
theorem linkFramesSpellTheRecord : Obligations.LinkFramesSpellTheRecord := by
  refine ⟨fun _ _ => rfl, fun m => ?_, fun m => ⟨xorBytes_withCheck m, BitVec.extractLsb'_append_eq_left⟩, ?_,
    fun r => ?_, fun i c kind body s t spelled run empty taken => ?_⟩
  · cases m with
    | enrol | setDelay | trimDelay | retune => exact (List.append_assoc _ _ _).symm
    | hush | resume | dismiss => rfl
  · rintro o tail rfl
    exact ⟨Offer.bytes_of_census, fun h => Offer.bytes_of_range⟩
  · cases r with
    | helloAck | rosterJoin | rosterLeave => rfl
    | cycleReply n msgs offer => cases offer <;> rfl
  · obtain ⟨fits, r, record, effect⟩ := linkRecord_spell spelled
    rw [effect, State.whenRunning_running run] at taken
    cases taken
    rw [exec_linkDefectCheck_running run, State.receive_frame empty fits, State.judgeRecord_of_record record]
    rfl

end Sys2Proof.Machine
end

section
/-! The step with a command waiting: its front command runs on the rest of the queue. -/

namespace Sys2Proof.Machine

theorem step_of_command {s : State} {i : Instr} {rest : List Instr} (front : s.pending = i :: rest) :
    step s = exec i { s with pending := rest } := by
  simp only [step, front]

/-- Settles O1, by the branch of `step` for a waiting command. -/
theorem stepTakesTheFrontCommand : Obligations.StepTakesTheFrontCommand :=
  fun _ _ _ front => step_of_command front

end Sys2Proof.Machine
end
